-- ==== Sys2Proof/Word.lean ====
section
/-! DEFINITION. The word types of the Pyrez and the shape of sparse stores (R3, R5, R6, R269). -/

namespace Sys2Proof

/-- A scalar register, a doubleword, an address while it is computed (R6). -/
abbrev Word := BitVec 64

/-- One byte of memory. -/
abbrev Byte := BitVec 8

/-- One bit per lane of a strip or mask (R66, R269). -/
abbrev Lanes := BitVec 192

/-- The 192 lanes of 32 bits of a stream token, a vector register or one accumulator row: lane i in
bits [32i + 31 : 32i] (R269). -/
abbrev Row := BitVec 6144

/-- A sparse store: key and value pairs, keys strictly rising, no value equal to what an unlisted key reads as. -/
abbrev SMap (α : Type) := List (Nat × α)

/-- Bytes by address. -/
abbrev Mem := SMap Byte

end Sys2Proof
end

