-- ==== Sys2Proof/Machine/Bits.lean ====
section
/-! DEFINITION. Bit fields, sign extension and byte order: the helpers every other file uses (R3, R5, notation of the manual). -/

namespace Sys2Proof.Machine

/-- Bits [lo + len - 1 : lo] of a word. -/
def field {n : Nat} (w : BitVec n) (lo len : Nat) : BitVec len := w.extractLsb' lo len

/-- One bit of a word. -/
def bit {n : Nat} (w : BitVec n) (i : Nat) : Bool := field w i 1 == 1#1

/-- A 32-bit word with `v` laid in below what it holds already: words are written field by field from the top. -/
def push {k : Nat} (hi : BitVec 32) (v : BitVec k) : BitVec 32 := (hi <<< k) ||| v.setWidth 32

/-- `sx(v, n)` of the manual, to 64 bits. -/
def sx {n : Nat} (v : BitVec n) : Word := v.signExtend 64

/-- `zx(v, n)` of the manual, to 64 bits. -/
def zx {n : Nat} (v : BitVec n) : Word := v.setWidth 64

/-- The low `8 * size` bits of a word, sign- or zero-extended. -/
def extend (signed : Bool) (size : Nat) (v : Word) : Word :=
  match size with
  | 1 => if signed then sx (field v 0 8) else zx (field v 0 8)
  | 2 => if signed then sx (field v 0 16) else zx (field v 0 16)
  | 4 => if signed then sx (field v 0 32) else zx (field v 0 32)
  | _ => v

/-- The little-endian bytes of a word, least significant first (R5). -/
def bytesOf (v : Nat) : Nat → List Byte
  | 0 => []
  | n + 1 => BitVec.ofNat 8 v :: bytesOf (v / 256) n

/-- The number that little-endian bytes hold (R5). -/
def ofBytes : List Byte → Nat
  | [] => 0
  | b :: bs => b.toNat + 256 * ofBytes bs

/-- The 64-bit word that bytes hold. -/
def wordOf (bs : List Byte) : Word := BitVec.ofNat 64 (ofBytes bs)

/-- A 16-byte value as two doublewords. -/
def pairOf (bs : List Byte) : Word × Word := (wordOf (bs.take 8), wordOf (bs.drop 8))

/-- `ceil(a / b)`. -/
def ceilDiv (a b : Nat) : Nat := (a + b - 1) / b

/-- Replace place `i` of a list; a place beyond the end changes nothing. -/
def setAt {α : Type} : List α → Nat → α → List α
  | [], _, _ => []
  | _ :: xs, 0, a => a :: xs
  | x :: xs, i + 1, a => x :: setAt xs i a

/-- Numbers lo, lo + 1, ... of count `n`. -/
def range (lo n : Nat) : List Nat := (List.range n).map (lo + ·)

/-- A function applied to every place of a vector. -/
def mapAll {α β : Type} {n : Nat} (f : α → β) (v : Vector α n) : Vector β n := ⟨⟨v.toList.map f⟩, by simp⟩

end Sys2Proof.Machine
end

