-- ==== Sys2Proof/Syntax.lean ====
section
/-! DEFINITION. The syntax: one constructor of `Instr` per row of spec/opcode_table.json.

Control-core words (R23-R46), engine launch words (R229), strip words (R285-R314) and the steps that
no word names (host writes, scheduler moves, deliveries, firmware actions). The fields of a word stand under the
names the opcode table gives them; `y` is the A bit and a `s : Bool` the S bit. A step that no word names carries what
the manual leaves to the outside world (who writes, which message arrives). -/

namespace Sys2Proof

/-- A row of an HBM bank, as the retirement list names it (R167). -/
structure RowId where
  stack : BitVec 3
  chan : BitVec 5
  pch : BitVec 1
  bank : BitVec 6
  row : BitVec 17
  cause : BitVec 8
deriving DecidableEq, Repr

/-- One entry of the window table of R187: both doublewords. -/
structure WinEntry where
  d0 : Word
  d1 : Word
deriving DecidableEq, Repr

/-- A unit that holds an access table (R407). -/
inductive AccessUnit where
  | hbm (stack : BitVec 3)
  | slice (n : BitVec 6)
  | cxl (port : BitVec 1)
  | cellRemote (cell : BitVec 9)
  | config
deriving DecidableEq, Repr

/-- The configuration-port writes that have no row of their own (R152): the firmware-set state of the chapters named. -/
inductive ConfigWrite where
  | pageRoot (part : BitVec 4) (root : BitVec 52)             -- R154
  | cells (part : BitVec 4) (ids : List (BitVec 9))           -- R75, R118
  | membership (part : BitVec 4) (memb : BitVec 5)            -- R84
  | watchdog (part : BitVec 4) (ms : Nat)                     -- R91
  | counterPart (ctr : BitVec 16) (part : BitVec 4)           -- R121
  | window (pkg : BitVec 9) (wid : BitVec 16) (e : WinEntry)  -- R187
  | access (u : AccessUnit) (i : BitVec 8) (d0 d1 : Word)     -- R407
  | maxk (v : BitVec 16)                                      -- R15
  | disableCell (cell : BitVec 9)                             -- R419, R267
  | strips (cell : BitVec 9) (healthy : BitVec 18)            -- R267
  | shadow (mib : Nat)                                        -- R153
  | cxlCapacity (port : BitVec 1) (bytes : Nat)               -- R152, R392
  | decay (ms : Nat)                                          -- R161
  | evictThreshold (part : BitVec 4) (pages : Nat)            -- R165
  | freePages (part : BitVec 4) (pages : Nat)                 -- R165: HBM frames of the partition that are free
  | windowBase (base : BitVec 52)                             -- R187
  | hostWrite (vf : BitVec 5) (pa : BitVec 52) (bytes : List Byte) -- R392, R407: the host writes HBM
  | hostRead (vf : BitVec 5) (pa : BitVec 52) (n : Nat)       -- R392, R407: the host reads HBM
  | strict (frame : Option Nat) (die : BitVec 2) (v : Bool)   -- R178, R179
  | lfsr (site : BitVec 9) (seed : BitVec 16)                 -- R176
  | torus (sx sy sz : BitVec 4) (pkg : BitVec 9)              -- R372
  | eventRing (part : BitVec 4) (base : BitVec 52) (k : Nat)  -- R400
  | eventCons (part : BitVec 4) (cons : Word)                 -- R400: the host's consumer count as firmware reads it
  | powerLimit (watts : Nat)                                  -- R409
  | debug (part : BitVec 4) (on : Bool)                       -- R410
  | revoke (part : BitVec 4) (pfn : BitVec 36)                -- R159
  | memory (pa : BitVec 52) (bytes : List Byte)               -- page tables and pages firmware prepares (R154, R155)
  | swapOut (part : BitVec 4)                                 -- R358: firmware halts a partition for a swap
  | save (task : Nat)                                         -- R127: the scheduler needs the cells of a task
  | frames (part : BitVec 4) (base : BitVec 52)               -- R127: HBM for saved contexts
  | queueOut (q : BitVec 12)                                  -- R398: the scheduler saves a queue's descriptor
  | kettleRead                                                -- R403: the Kettle reads its event queue
deriving DecidableEq, Repr

/-- What the boot ROM and the Kettle firmware read at power-up (R404): images with the signatures that stand beside
them, and the partitions, window tables and access tables that are configured then. -/
structure BootImages where
  kettle : List Byte
  makerSig : BitVec 512
  ownerSig : BitVec 512
  packetCores : List Byte
  pcMakerSig : BitVec 512
  pcOwnerSig : BitVec 512
  config : List ConfigWrite
deriving DecidableEq, Repr

/-- The steps of the Pyrez. -/
inductive Instr where
  /-- R50: Sets d to a + b modulo 2^64. -/
  | add (y : Bool) (s : Bool) (d : BitVec 5) (a : BitVec 5) (b : BitVec 5)
  /-- R50: Sets d to a − b modulo 2^64. -/
  | sub (y : Bool) (s : Bool) (d : BitVec 5) (a : BitVec 5) (b : BitVec 5)
  /-- R50: Sets d to a AND b. -/
  | and (y : Bool) (s : Bool) (d : BitVec 5) (a : BitVec 5) (b : BitVec 5)
  /-- R50: Sets d to a OR b. -/
  | or (y : Bool) (s : Bool) (d : BitVec 5) (a : BitVec 5) (b : BitVec 5)
  /-- R50: Sets d to a XOR b. -/
  | xor (y : Bool) (s : Bool) (d : BitVec 5) (a : BitVec 5) (b : BitVec 5)
  /-- R50: Sets d to a AND NOT b. -/
  | andn (y : Bool) (s : Bool) (d : BitVec 5) (a : BitVec 5) (b : BitVec 5)
  /-- R50: Sets d to a OR NOT b. -/
  | orn (y : Bool) (s : Bool) (d : BitVec 5) (a : BitVec 5) (b : BitVec 5)
  /-- R50: Shifts a left by b[5:0] with zeros shifted in. -/
  | sll (y : Bool) (s : Bool) (d : BitVec 5) (a : BitVec 5) (b : BitVec 5)
  /-- R50: Shifts a right by b[5:0] with zeros shifted in. -/
  | srl (y : Bool) (s : Bool) (d : BitVec 5) (a : BitVec 5) (b : BitVec 5)
  /-- R50: Shifts a right by b[5:0] with copies of the sign bit. -/
  | sra (y : Bool) (s : Bool) (d : BitVec 5) (a : BitVec 5) (b : BitVec 5)
  /-- R50: Rotates a left by b[5:0]. -/
  | rol (y : Bool) (s : Bool) (d : BitVec 5) (a : BitVec 5) (b : BitVec 5)
  /-- R50: Rotates a right by b[5:0]. -/
  | ror (y : Bool) (s : Bool) (d : BitVec 5) (a : BitVec 5) (b : BitVec 5)
  /-- R50: Sets d to 1 when a < b signed, else 0. -/
  | slt (y : Bool) (s : Bool) (d : BitVec 5) (a : BitVec 5) (b : BitVec 5)
  /-- R50: Sets d to 1 when a < b unsigned, else 0. -/
  | sltn (y : Bool) (s : Bool) (d : BitVec 5) (a : BitVec 5) (b : BitVec 5)
  /-- R50: Sets d to the signed smaller of a and b. -/
  | min (y : Bool) (s : Bool) (d : BitVec 5) (a : BitVec 5) (b : BitVec 5)
  /-- R50: Sets d to the signed larger of a and b. -/
  | max (y : Bool) (s : Bool) (d : BitVec 5) (a : BitVec 5) (b : BitVec 5)
  /-- R50: Sets d to the unsigned smaller of a and b. -/
  | minn (y : Bool) (s : Bool) (d : BitVec 5) (a : BitVec 5) (b : BitVec 5)
  /-- R50: Sets d to the unsigned larger of a and b. -/
  | maxn (y : Bool) (s : Bool) (d : BitVec 5) (a : BitVec 5) (b : BitVec 5)
  /-- R53: Sets d to the low 64 bits of a × b. -/
  | mul (y : Bool) (s : Bool) (d : BitVec 5) (a : BitVec 5) (b : BitVec 5)
  /-- R53: Sets d to the high 64 bits of the signed 128-bit product. -/
  | mulh (y : Bool) (s : Bool) (d : BitVec 5) (a : BitVec 5) (b : BitVec 5)
  /-- R53: Sets d to the high 64 bits of the unsigned 128-bit product. -/
  | mulhn (y : Bool) (s : Bool) (d : BitVec 5) (a : BitVec 5) (b : BitVec 5)
  /-- R53: Signed division truncated toward zero, with defined results for zero and overflow. -/
  | div (y : Bool) (s : Bool) (d : BitVec 5) (a : BitVec 5) (b : BitVec 5)
  /-- R53: Unsigned division, all ones on division by zero. -/
  | divn (y : Bool) (s : Bool) (d : BitVec 5) (a : BitVec 5) (b : BitVec 5)
  /-- R53: Signed remainder with the sign of the dividend. -/
  | rem (y : Bool) (s : Bool) (d : BitVec 5) (a : BitVec 5) (b : BitVec 5)
  /-- R53: Unsigned remainder, a on division by zero. -/
  | remn (y : Bool) (s : Bool) (d : BitVec 5) (a : BitVec 5) (b : BitVec 5)
  /-- R54: Counts the zero bits above the highest set bit of a. -/
  | clz (y : Bool) (s : Bool) (d : BitVec 5) (a : BitVec 5)
  /-- R54: Counts the zero bits below the lowest set bit of a. -/
  | ctz (y : Bool) (s : Bool) (d : BitVec 5) (a : BitVec 5)
  /-- R54: Counts the set bits of a. -/
  | popc (y : Bool) (s : Bool) (d : BitVec 5) (a : BitVec 5)
  /-- R54: Sign-extends the low 8 bits of a. -/
  | sxb (y : Bool) (s : Bool) (d : BitVec 5) (a : BitVec 5)
  /-- R54: Sign-extends the low 16 bits of a. -/
  | sxh (y : Bool) (s : Bool) (d : BitVec 5) (a : BitVec 5)
  /-- R54: Sign-extends the low 32 bits of a. -/
  | sxw (y : Bool) (s : Bool) (d : BitVec 5) (a : BitVec 5)
  /-- R54: Zero-extends the low 8 bits of a. -/
  | zxb (y : Bool) (s : Bool) (d : BitVec 5) (a : BitVec 5)
  /-- R54: Zero-extends the low 16 bits of a. -/
  | zxh (y : Bool) (s : Bool) (d : BitVec 5) (a : BitVec 5)
  /-- R54: Zero-extends the low 32 bits of a. -/
  | zxw (y : Bool) (s : Bool) (d : BitVec 5) (a : BitVec 5)
  /-- R55: Extracts the bit field of a that b describes. -/
  | bfx (y : Bool) (s : Bool) (d : BitVec 5) (a : BitVec 5) (b : BitVec 5)
  /-- R55: Inserts a into the bit field of d that b describes. -/
  | bfi (y : Bool) (s : Bool) (d : BitVec 5) (a : BitVec 5) (b : BitVec 5)
  /-- R56: Sets d to a when c is nonzero, else to b. -/
  | sel (y : Bool) (s : Bool) (d : BitVec 5) (a : BitVec 5) (b : BitVec 5) (c : BitVec 5)
  /-- R51: Adds a sign-extended immediate to a. -/
  | addi (y : Bool) (s : Bool) (d : BitVec 5) (a : BitVec 5) (i : BitVec 14)
  /-- R51: ANDs a with a zero-extended immediate. -/
  | andi (y : Bool) (s : Bool) (d : BitVec 5) (a : BitVec 5) (i : BitVec 14)
  /-- R51: ORs a with a zero-extended immediate. -/
  | ori (y : Bool) (s : Bool) (d : BitVec 5) (a : BitVec 5) (i : BitVec 14)
  /-- R51: XORs a with a zero-extended immediate. -/
  | xori (y : Bool) (s : Bool) (d : BitVec 5) (a : BitVec 5) (i : BitVec 14)
  /-- R51: Signed compare of a against a sign-extended immediate. -/
  | slti (y : Bool) (s : Bool) (d : BitVec 5) (a : BitVec 5) (i : BitVec 14)
  /-- R51: Unsigned compare of a against a sign-extended immediate. -/
  | sltni (y : Bool) (s : Bool) (d : BitVec 5) (a : BitVec 5) (i : BitVec 14)
  /-- R51: Shifts a left by an immediate amount. -/
  | shiSll (y : Bool) (s : Bool) (d : BitVec 5) (a : BitVec 5) (h : BitVec 6)
  /-- R51: Shifts a right logically by an immediate amount. -/
  | shiSrl (y : Bool) (s : Bool) (d : BitVec 5) (a : BitVec 5) (h : BitVec 6)
  /-- R51: Shifts a right arithmetically by an immediate amount. -/
  | shiSra (y : Bool) (s : Bool) (d : BitVec 5) (a : BitVec 5) (h : BitVec 6)
  /-- R51: Rotates a left by an immediate amount. -/
  | shiRol (y : Bool) (s : Bool) (d : BitVec 5) (a : BitVec 5) (h : BitVec 6)
  /-- R51: Rotates a right by an immediate amount. -/
  | shiRor (y : Bool) (s : Bool) (d : BitVec 5) (a : BitVec 5) (h : BitVec 6)
  /-- R51: Multiplies a by a sign-extended immediate. -/
  | muli (y : Bool) (s : Bool) (d : BitVec 5) (a : BitVec 5) (i : BitVec 14)
  /-- R52: Loads a sign-extended 19-bit constant. -/
  | lui (y : Bool) (s : Bool) (d : BitVec 5) (i : BitVec 19)
  /-- R52: Adds a sign-extended immediate shifted left 14 to d. -/
  | aui (y : Bool) (s : Bool) (d : BitVec 5) (i : BitVec 19)
  /-- R52: Shifts d left 19 and inserts 19 immediate bits. -/
  | lic (y : Bool) (s : Bool) (d : BitVec 5) (i : BitVec 19)
  /-- R57: Branches when a equals b. -/
  | beq (y : Bool) (s : Bool) (a : BitVec 5) (b : BitVec 5) (o : BitVec 14)
  /-- R57: Branches when a differs from b. -/
  | bne (y : Bool) (s : Bool) (a : BitVec 5) (b : BitVec 5) (o : BitVec 14)
  /-- R57: Branches when a < b signed. -/
  | blt (y : Bool) (s : Bool) (a : BitVec 5) (b : BitVec 5) (o : BitVec 14)
  /-- R57: Branches when a ≥ b signed. -/
  | bge (y : Bool) (s : Bool) (a : BitVec 5) (b : BitVec 5) (o : BitVec 14)
  /-- R57: Branches when a < b unsigned. -/
  | bltn (y : Bool) (s : Bool) (a : BitVec 5) (b : BitVec 5) (o : BitVec 14)
  /-- R57: Branches when a ≥ b unsigned. -/
  | bgen (y : Bool) (s : Bool) (a : BitVec 5) (b : BitVec 5) (o : BitVec 14)
  /-- R58: Branches when bit n of a is 1. -/
  | bbs (y : Bool) (s : Bool) (a : BitVec 5) (n : BitVec 6) (o : BitVec 13)
  /-- R58: Branches when bit n of a is 0. -/
  | bbc (y : Bool) (s : Bool) (a : BitVec 5) (n : BitVec 6) (o : BitVec 13)
  /-- R59: Jumps by a 24-bit word offset. -/
  | j (y : Bool) (s : Bool) (o : BitVec 24)
  /-- R59: Jumps and writes PC + 4 into x1 of its file. -/
  | jal (y : Bool) (o : BitVec 24)
  /-- R60: Jumps to a + 4 × imm and writes the link to d. -/
  | jalr (y : Bool) (d : BitVec 5) (a : BitVec 5) (i : BitVec 14)
  /-- R61: Decrements a and branches while the result is nonzero. -/
  | loop (y : Bool) (s : Bool) (a : BitVec 5) (o : BitVec 14)
  /-- R62: Loads a sign-extended byte from local scratch. -/
  | ldb (y : Bool) (d : BitVec 5) (b : BitVec 5) (c : BitVec 2) (o : BitVec 12)
  /-- R62: Loads a sign-extended halfword from local scratch. -/
  | ldh (y : Bool) (d : BitVec 5) (b : BitVec 5) (c : BitVec 2) (o : BitVec 12)
  /-- R62: Loads a sign-extended word from local scratch. -/
  | ldw (y : Bool) (d : BitVec 5) (b : BitVec 5) (c : BitVec 2) (o : BitVec 12)
  /-- R62: Loads a doubleword from local scratch. -/
  | ldd (y : Bool) (d : BitVec 5) (b : BitVec 5) (c : BitVec 2) (o : BitVec 12)
  /-- R62: Loads a zero-extended byte from local scratch. -/
  | ldbn (y : Bool) (d : BitVec 5) (b : BitVec 5) (c : BitVec 2) (o : BitVec 12)
  /-- R62: Loads a zero-extended halfword from local scratch. -/
  | ldhn (y : Bool) (d : BitVec 5) (b : BitVec 5) (c : BitVec 2) (o : BitVec 12)
  /-- R62: Loads a zero-extended word from local scratch. -/
  | ldwn (y : Bool) (d : BitVec 5) (b : BitVec 5) (c : BitVec 2) (o : BitVec 12)
  /-- R62: Stores the low byte of s to local scratch. -/
  | stb (y : Bool) (s : BitVec 5) (b : BitVec 5) (c : BitVec 2) (o : BitVec 12)
  /-- R62: Stores the low halfword of s to local scratch. -/
  | sth (y : Bool) (s : BitVec 5) (b : BitVec 5) (c : BitVec 2) (o : BitVec 12)
  /-- R62: Stores the low word of s to local scratch. -/
  | stw (y : Bool) (s : BitVec 5) (b : BitVec 5) (c : BitVec 2) (o : BitVec 12)
  /-- R62: Stores s as a doubleword to local scratch. -/
  | std (y : Bool) (s : BitVec 5) (b : BitVec 5) (c : BitVec 2) (o : BitVec 12)
  /-- R65: Reads 8 bytes of the uniform block. -/
  | ldu (y : Bool) (s : Bool) (d : BitVec 5) (b : BitVec 5) (o : BitVec 12)
  /-- R183: Loads sign-extended from the page of a handle. -/
  | hld (d : BitVec 5) (h : BitVec 4) (c : BitVec 2) (z : BitVec 2) (x : BitVec 5) (i : BitVec 6)
  /-- R183: Loads zero-extended from the page of a handle. -/
  | hldn (d : BitVec 5) (h : BitVec 4) (c : BitVec 2) (z : BitVec 2) (x : BitVec 5) (i : BitVec 6)
  /-- R183: Stores to the page of a handle. -/
  | hst (s : BitVec 5) (h : BitVec 4) (c : BitVec 2) (z : BitVec 2) (x : BitVec 5) (i : BitVec 6)
  /-- R184: Stores to the page of a handle through the non-temporal bag. -/
  | hstnt (s : BitVec 5) (h : BitVec 4) (c : BitVec 2) (z : BitVec 2) (x : BitVec 5) (i : BitVec 6)
  /-- R181: Binds a handle to a page for reading. -/
  | xlatR (h : BitVec 4) (a : BitVec 5)
  /-- R181: Binds a handle to a page for reading and writing. -/
  | xlatRw (h : BitVec 4) (a : BitVec 5)
  /-- R182: Releases a handle by zeroing it. -/
  | hrel (h : BitVec 4)
  /-- R185: Applies an atomic read-modify-write through a handle. -/
  | amo (d : BitVec 5) (h : BitVec 4) (c : BitVec 2) (x : BitVec 5) (k : BitVec 4) (z : BitVec 1)
  /-- R190: Loads a scalar from cluster scratch or a window at a place. -/
  | rld (d : BitVec 5) (p : BitVec 5) (o : BitVec 5) (r : BitVec 2) (c : BitVec 2) (f : BitVec 5)
  /-- R191: Loads a 128-byte line into a response slot and one LDQ entry. -/
  | rldLine (p : BitVec 5) (o : BitVec 5) (r : BitVec 2) (c : BitVec 2)
  /-- R190: Stores to cluster scratch or a window at a place. -/
  | rst (s : BitVec 5) (p : BitVec 5) (o : BitVec 5) (r : BitVec 2) (c : BitVec 2) (f : BitVec 5)
  /-- R192: Applies an atomic operation at a place. -/
  | ramo (d : BitVec 5) (p : BitVec 5) (o : BitVec 5) (r : BitVec 2) (c : BitVec 2) (k : BitVec 4) (z : BitVec 1)
  /-- R195: Waits until covered earlier accesses of its stream are performed at a scope. -/
  | fence (y : Bool) (e : BitVec 3) (r : BitVec 3) (c : BitVec 4)
  /-- R196: Waits until earlier non-temporal stores are performed at a scope. -/
  | drain (y : Bool) (e : BitVec 3)
  /-- R95: Arrives at a barrier and waits for its completion. -/
  | bar (l : BitVec 3)
  /-- R96: Arrives with a combine operand and receives the combined value. -/
  | barr (d : BitVec 5) (a : BitVec 5) (l : BitVec 3) (c : BitVec 3)
  /-- R95: Arrives at a barrier without waiting. -/
  | bara (l : BitVec 3)
  /-- R95: Waits for the barrier last arrived at. -/
  | barw (l : BitVec 3)
  /-- R101: Releases earlier writes and sends one decrement to a counter. -/
  | sig (a : BitVec 5)
  /-- R102: Waits until a counter holds 0 with the given generation. -/
  | waitc (a : BitVec 5)
  /-- R107: Marks a range of presence words empty. -/
  | clrp (a : BitVec 5) (b : BitVec 5)
  /-- R107: Marks a range of presence words full, completing deferred reads. -/
  | setp (a : BitVec 5) (b : BitVec 5)
  /-- R239: Forms a packet from registers, checks it and appends an entry to an engine queue. -/
  | enq (q : BitVec 3) (f : BitVec 5) (c : BitVec 3)
  /-- R239: Forms a packet from the image, checks it and appends an entry to an engine queue. -/
  | enqi (q : BitVec 3) (l : BitVec 5) (o : BitVec 16)
  /-- R241: Waits for a token production with acquire effect. -/
  | tokw (t : BitVec 6)
  /-- R241: Reads a token's PEND and SEQ without waiting. -/
  | tokq (d : BitVec 5) (t : BitVec 6)
  /-- R66: Sets 64 lanes of a mask from a register. -/
  | kset (k : BitVec 3) (x : BitVec 5) (p : BitVec 2)
  /-- R66: Sets a mask to a lane range. -/
  | krange (k : BitVec 3) (x : BitVec 5)
  /-- R66: ANDs two masks. -/
  | kand (k : BitVec 3) (a : BitVec 3) (b : BitVec 3)
  /-- R66: ORs two masks. -/
  | kor (k : BitVec 3) (a : BitVec 3) (b : BitVec 3)
  /-- R66: Inverts a mask. -/
  | knot (k : BitVec 3) (a : BitVec 3)
  /-- R66: Counts the set lanes of a mask into a register. -/
  | kpop (a : BitVec 3) (x : BitVec 5)
  /-- R197: Opens a stream window with base, length and mark. -/
  | swopen (w : BitVec 4) (a : BitVec 5) (b : BitVec 5)
  /-- R197: Advances the mark of a stream window. -/
  | swadv (w : BitVec 4) (a : BitVec 5)
  /-- R197: Closes a stream window. -/
  | swclose (w : BitVec 4)
  /-- R67: Does nothing for one issue cycle. -/
  | nop (y : Bool)
  /-- R68: Stops fetch in both streams once earlier instructions complete. -/
  | halt
  /-- R69: Raises SOFT with a 10-bit code. -/
  | trap (y : Bool) (i : BitVec 10)
  /-- R344: Returns from the running trap handler and restarts stopped queues. -/
  | tret
  /-- R71: Offers the task's cells to the scheduler. -/
  | yield
  /-- R69: Raises BRK with a 10-bit code. -/
  | brk (y : Bool) (i : BitVec 10)
  /-- R72: Reads a special register. -/
  | mfs (y : Bool) (d : BitVec 5) (n : BitVec 8)
  /-- R72: Writes a special register, including PGMODE presence changes. -/
  | mts (a : BitVec 5) (n : BitVec 8)
  /-- R73: Traps CHK unless 0 ≤ a < b unsigned. -/
  | chkb (y : Bool) (a : BitVec 5) (b : BitVec 5)
  /-- R252: Matrix entry starts and runs its loop nest, clearing each point first. -/
  | goMm
  /-- R252: Matrix entry starts and runs its loop nest, adding to the accumulator as it stands. -/
  | goMmacc
  /-- R275: Collar entry waits for both active halves to end and makes the shadow active. -/
  | fire
  /-- R275: Collar entry checks a context and loads it into the shadow set. -/
  | collarArm
  /-- R275: Collar entry loads and swaps the entry half alone. -/
  | recfgE
  /-- R275: Collar entry loads and swaps the exit half alone. -/
  | recfgX
  /-- R275: Collar entry moves one 8 KiB context between the store and scratch. -/
  | xctx
  /-- R354: Collar entry loads the Strainer over the collar. -/
  | strain
  /-- R325: Copy entry gives a channel a chain head and walks it. -/
  | chain
  /-- R325: Copy entry restarts a parked channel at HEAD. -/
  | kick
  /-- R327: Copy entry performs its captured inline record on a channel. -/
  | copy
  /-- R327: Copy entry writes a 32-bit value over a destination pattern. -/
  | fill
  /-- R384: Blender admits a job, checks its records and plans its runs. -/
  | blend
  /-- R314: Strip copies a token of any kind to its outputs. -/
  | stripPass (a : BitVec 3) (u : BitVec 2)
  /-- R314: Strip holds its program pointer for n cycles. -/
  | idle (u : BitVec 2) (n : BitVec 8)
  /-- R292: Strip consumes end-of-stream tokens, emits one and counts streams toward DONE. -/
  | stripEos (u : BitVec 2) (p : BitVec 4) (m : BitVec 4)
  /-- R294: Strip adds floating-point elements. -/
  | fadd (a : BitVec 3) (b : BitVec 3) (u : BitVec 2) (t : BitVec 4) (r : BitVec 3)
  /-- R294: Strip subtracts floating-point elements. -/
  | fsub (a : BitVec 3) (b : BitVec 3) (u : BitVec 2) (t : BitVec 4) (r : BitVec 3)
  /-- R294: Strip multiplies floating-point elements. -/
  | fmul (a : BitVec 3) (b : BitVec 3) (u : BitVec 2) (t : BitVec 4) (r : BitVec 3)
  /-- R294: Strip computes a × b + c with one rounding. -/
  | ffma (a : BitVec 3) (b : BitVec 3) (c : BitVec 3) (u : BitVec 2) (t : BitVec 4) (r : BitVec 3)
  /-- R294: Strip takes the smaller floating-point element. -/
  | fmin (a : BitVec 3) (b : BitVec 3) (u : BitVec 2) (t : BitVec 4)
  /-- R294: Strip takes the larger floating-point element. -/
  | fmax (a : BitVec 3) (b : BitVec 3) (u : BitVec 2) (t : BitVec 4)
  /-- R294: Strip clears the sign of each element. -/
  | fabs (a : BitVec 3) (u : BitVec 2) (t : BitVec 4)
  /-- R294: Strip inverts the sign of each element. -/
  | fneg (a : BitVec 3) (u : BitVec 2) (t : BitVec 4)
  /-- R295: Strip writes all ones where a = b. -/
  | fcmpEq (a : BitVec 3) (b : BitVec 3) (u : BitVec 2) (t : BitVec 4)
  /-- R295: Strip writes all ones where a < b. -/
  | fcmpLt (a : BitVec 3) (b : BitVec 3) (u : BitVec 2) (t : BitVec 4)
  /-- R295: Strip writes all ones where a ≤ b. -/
  | fcmpLe (a : BitVec 3) (b : BitVec 3) (u : BitVec 2) (t : BitVec 4)
  /-- R295: Strip selects a or b per element by c. -/
  | fsel (a : BitVec 3) (b : BitVec 3) (c : BitVec 3) (u : BitVec 2) (t : BitVec 4)
  /-- R296: Strip adds integer elements, wrapping or clamping. -/
  | iadd (a : BitVec 3) (b : BitVec 3) (u : BitVec 2) (t : BitVec 4) (r : BitVec 3)
  /-- R296: Strip subtracts integer elements, wrapping or clamping. -/
  | isub (a : BitVec 3) (b : BitVec 3) (u : BitVec 2) (t : BitVec 4) (r : BitVec 3)
  /-- R296: Strip ANDs integer elements. -/
  | iand (a : BitVec 3) (b : BitVec 3) (u : BitVec 2) (t : BitVec 4)
  /-- R296: Strip ORs integer elements. -/
  | ior (a : BitVec 3) (b : BitVec 3) (u : BitVec 2) (t : BitVec 4)
  /-- R296: Strip XORs integer elements. -/
  | ixor (a : BitVec 3) (b : BitVec 3) (u : BitVec 2) (t : BitVec 4)
  /-- R296: Strip shifts integer elements left. -/
  | ishl (a : BitVec 3) (b : BitVec 3) (u : BitVec 2) (t : BitVec 4)
  /-- R296: Strip shifts integer elements right logically. -/
  | ishr (a : BitVec 3) (b : BitVec 3) (u : BitVec 2) (t : BitVec 4)
  /-- R296: Strip shifts integer elements right arithmetically. -/
  | isar (a : BitVec 3) (b : BitVec 3) (u : BitVec 2) (t : BitVec 4)
  /-- R296: Strip takes the smaller integer element. -/
  | imin (a : BitVec 3) (b : BitVec 3) (u : BitVec 2) (t : BitVec 4)
  /-- R296: Strip takes the larger integer element. -/
  | imax (a : BitVec 3) (b : BitVec 3) (u : BitVec 2) (t : BitVec 4)
  /-- R297: Strip converts elements between formats, packing or unpacking tokens. -/
  | cvt (a : BitVec 3) (u : BitVec 2) (t : BitVec 4) (r : BitVec 3) (s : BitVec 4)
  /-- R298: Strip packs a burst of FP32 into a block-scaled format with a header. -/
  | quant (a : BitVec 3) (b : BitVec 3) (u : BitVec 2) (t : BitVec 4) (r : BitVec 3) (l : BitVec 1)
  /-- R299: Strip checks a header and decodes its burst to FP32. -/
  | dequant (a : BitVec 3) (u : BitVec 2) (t : BitVec 4) (r : BitVec 3)
  /-- R300: Strip packs eight i32 tokens into one N4X token. -/
  | pk4 (a : BitVec 3) (u : BitVec 2)
  /-- R300: Strip unpacks one N4X token into eight FP32 tokens. -/
  | upk4 (a : BitVec 3) (u : BitVec 2)
  /-- R301: Strip re-tags tokens between dat and hdr. -/
  | stripHdr (a : BitVec 3) (u : BitVec 2) (d : BitVec 1)
  /-- R302: Strip computes reciprocals. -/
  | rcp (a : BitVec 3) (u : BitVec 2) (t : BitVec 4) (r : BitVec 3)
  /-- R302: Strip divides a by b. -/
  | stripDiv (a : BitVec 3) (b : BitVec 3) (u : BitVec 2) (t : BitVec 4) (r : BitVec 3)
  /-- R302: Strip computes square roots. -/
  | sqrt (a : BitVec 3) (u : BitVec 2) (t : BitVec 4) (r : BitVec 3)
  /-- R302: Strip computes reciprocal square roots. -/
  | rsqrt (a : BitVec 3) (u : BitVec 2) (t : BitVec 4) (r : BitVec 3)
  /-- R302: Strip computes powers of two. -/
  | exp2 (a : BitVec 3) (u : BitVec 2) (t : BitVec 4) (r : BitVec 3)
  /-- R302: Strip computes base-2 logarithms. -/
  | log2 (a : BitVec 3) (u : BitVec 2) (t : BitVec 4) (r : BitVec 3)
  /-- R302: Strip computes hyperbolic tangents. -/
  | tanh (a : BitVec 3) (u : BitVec 2) (t : BitVec 4) (r : BitVec 3)
  /-- R303: Strip sums across lanes, over a dimension or per block. -/
  | rsum (a : BitVec 3) (u : BitVec 2) (t : BitVec 4) (x : BitVec 1) (m : BitVec 2)
  /-- R303: Strip takes the maximum across lanes, a dimension or a block. -/
  | rmax (a : BitVec 3) (u : BitVec 2) (t : BitVec 4) (x : BitVec 1) (m : BitVec 2)
  /-- R303: Strip takes the minimum across lanes, a dimension or a block. -/
  | rmin (a : BitVec 3) (u : BitVec 2) (t : BitVec 4) (x : BitVec 1) (m : BitVec 2)
  /-- R304: Strip forms a running sum across lanes. -/
  | scan (a : BitVec 3) (u : BitVec 2) (t : BitVec 4) (e : BitVec 1)
  /-- R305: Strip permutes lanes by an index token. -/
  | perm (a : BitVec 3) (b : BitVec 3) (u : BitVec 2)
  /-- R305: Strip rotates lanes by n. -/
  | rot (a : BitVec 3) (u : BitVec 2) (n : BitVec 8)
  /-- R305: Strip broadcasts lane n to every lane. -/
  | bcast (a : BitVec 3) (u : BitVec 2) (n : BitVec 8)
  /-- R307: Load port reads the next token from scratch or the landing buffer. -/
  | lds (u : BitVec 2) (c : BitVec 1)
  /-- R308: Store port writes a token to scratch or injects a circuit beat. -/
  | sts (a : BitVec 3) (c : BitVec 1) (s : BitVec 1)
  /-- R310: Load port gathers one word per lane by index. -/
  | gath (a : BitVec 3) (u : BitVec 2)
  /-- R310: Store port scatters one word per lane by index. -/
  | scat (a : BitVec 3) (b : BitVec 3)
  /-- R312: Delay strip takes a token into its FIFO and releases the oldest when allowed. -/
  | dly (a : BitVec 3) (u : BitVec 2) (n : BitVec 8)
  /-- R313: VR0 emits a vector register as a token. -/
  | vrd (u : BitVec 2) (t : BitVec 4) (v : BitVec 6)
  /-- R313: VR0 writes a token's live lanes into a vector register. -/
  | vwr (a : BitVec 3) (t : BitVec 4) (v : BitVec 6)
  /-- R395: Host writes a queue's TAIL, making commands eligible or stopping the queue with OVERRUN. -/
  | tail (q : BitVec 12) (port : Option (BitVec 4)) (v : Word)
  /-- R394: Host write sets the wake latch and starts a command fetch at HEAD. -/
  | notify (q : BitVec 12) (port : Option (BitVec 4))
  /-- R397: Device reads a 64-byte command and accepts it when STAMP matches. -/
  | commandFetch (q : BitVec 12)
  /-- R397: After a 1 µs interval the device rereads a mismatched command, stopping with STALE-FETCH after the eighth. -/
  | commandRefetch (q : BitVec 12)
  /-- R114: Firmware writes a queue descriptor, refused on bad values, recomputing STRIDE. -/
  | queueDescriptorWrite (q : BitVec 12) (dw : BitVec 2) (v : Word)
  /-- R394: Firmware clears a queue's sticky error and the queue leaves STOPPED. -/
  | qerrClear (q : BitVec 12)
  /-- R398: A switched-out queue takes TAIL and NOTIFY from its notify shadow. -/
  | queueSwitchIn (q : BitVec 12)
  /-- R117: A partition's dispatcher chooses a READY queue by priority and pass and starts its head. -/
  | dispatch (part : BitVec 4)
  /-- R122: Scheduler applies an ARM command to a counter. -/
  | arm (q : BitVec 12)
  /-- R122: Scheduler frees a counter and raises its generation. -/
  | free (q : BitVec 12)
  /-- R124: Scheduler starts a LAUNCH: reads the header, checks the shape and allocates cells. -/
  | launch (q : BitVec 12)
  /-- R120: A launch held for want of cells or slot blocks gets its rectangle once they free. -/
  | launchAllocate (q : BitVec 12)
  /-- R147: A launch waiting on a BUSY entry hits once it leaves BUSY. -/
  | caddyBusyHit (task : Nat)
  /-- R139: A Steep unit evaluates launch-static code and builds a residual image. -/
  | steepSpecialise (task : Nat)
  /-- R281: Place-and-route turns each collar graph into a context per cell or fails with PNRFAIL. -/
  | placeAndRoute (task : Nat)
  /-- R126: A cell consumes a KIND 0 code packet. -/
  | configCode (task row : Nat)
  /-- R126: A cell consumes a KIND 1 collar context packet. -/
  | configContext (task row : Nat)
  /-- R126: A cell consumes a KIND 2 circuit slot table packet. -/
  | configSlotTable (task row : Nat)
  /-- R126: A cell consumes a KIND 3 data block packet into scratch. -/
  | configDataBlock (task row : Nat)
  /-- R126: A cell consumes a KIND 4 uniform block packet. -/
  | configUniform (task row : Nat)
  /-- R126: A cell consumes the KIND 5 packet that ends its row's stream. -/
  | configEnd (task row : Nat)
  /-- R124: Every member sets PC and CYC to 0 in one cycle and the task starts. -/
  | taskStart (task : Nat)
  /-- R131: Once every member has halted and its queues are empty, cells and expectations are returned and HEAD advances. -/
  | taskEnd (task : Nat)
  /-- R127: Scheduler stops a task, writes its context frames and releases its cells. -/
  | saveTask (task : Nat)
  /-- R129: Scheduler restores a saved task onto a free rectangle of its shape. -/
  | restoreTask (task : Nat)
  /-- R128: Firmware reports a faulted page resident, setting the wake latch or thawing a domain. -/
  | pageResident (part : BitVec 4) (va : BitVec 57)
  /-- R122: Decrements arriving at a counter in one cycle are applied as one. -/
  | counterDecrement (ctr : BitVec 16) (senders : List Nat)
  /-- R91: The partition watchdog expires with no completion and raises HANG. -/
  | hang (part : BitVec 4)
  /-- R95: Once earlier writes are performed, an arrival is counted or held as early. -/
  | barrierArrival (cell : Nat) (l : BitVec 3)
  /-- R95: A barrier generation completes, restarting CYC and counting held early arrivals. -/
  | barrierComplete (part : BitVec 4) (l : BitVec 3) (dom : Nat)
  /-- R105: A read deferred longer than DEFER is removed and faults. -/
  | deferto (cell i : Nat)
  /-- R198: The oldest entry of an alias-class store buffer writes scratch or faults. -/
  | storeRetire (cell : Nat) (c : BitVec 2)
  /-- R198: A non-temporal store leaves the bag for its ord channel. -/
  | leaveBag (cell i : Nat)
  /-- R198: A message is performed at its target or refused. -/
  | deliver (msg : Nat)
  /-- R190: A load or atomic response writes its destination or fills its LDQ entry. -/
  | responseArrival (msg : Nat)
  /-- R190: A store acknowledgement returns its write credit. -/
  | writeAcknowledgement (msg : Nat)
  /-- R189: A refusal arrives and its issuer traps late with the refusal's code. -/
  | refusal (msg : Nat)
  /-- R158: Hardware walks the page table for a handle with V = 0 and rewrites it or faults. -/
  | translationWalk (cell : Nat) (h : BitVec 4)
  /-- R159: A cell or engine receives a frame revocation and acknowledges it. -/
  | revocation (cell : Nat) (pfn : BitVec 36)
  /-- R159: A revocation completes when every acknowledgement has arrived. -/
  | revocationComplete (pfn : BitVec 36)
  /-- R161: At each decay interval every heat counter is halved. -/
  | heatDecay
  /-- R162: Migration engine clears and arms the dirty bitmap and starts copying. -/
  | migrationArm (die : BitVec 2) (part : BitVec 4) (va : BitVec 57) (dst : BitVec 36)
  /-- R162: The copy of every sector completes. -/
  | migrationCopy (die : BitVec 2)
  /-- R162: A round of recopying dirty sectors completes. -/
  | migrationRecopy (die : BitVec 2)
  /-- R162: The source holds new writes while the last dirty sectors are recopied. -/
  | migrationHold (die : BitVec 2)
  /-- R162: The leaf is rewritten with the new frame and the old frame is revoked. -/
  | migrationSwitch (die : BitVec 2)
  /-- R162: Held writes are applied and the destination serves the page. -/
  | migrationForward (die : BitVec 2)
  /-- R165: The evictor chooses a page to demote when free HBM falls below threshold. -/
  | eviction (die : BitVec 2) (part : BitVec 4) (dst : BitVec 36)
  /-- R193: A stream window's mark reaches the partition's controllers. -/
  | windowPublish (cell : Nat) (w : BitVec 4)
  /-- R166: A controller copies an HBM row to a spare, or firmware offlines its frames. -/
  | rowRetirement (row : RowId) (frames : List (BitVec 36))
  /-- R167: Firmware writes the retirement list to the slot with the lower sequence number. -/
  | retirementListUpdate (entries : List Word)
  /-- R180: Firmware writes one block of a slot owner map, refused when malformed. -/
  | slotOwnerWrite (frame : Option Nat) (die : BitVec 2) (offset : Nat) (bytes : List Byte)
  /-- R180: A written owner block takes effect at the next frame start. -/
  | slotOwnerApply (frame : Option Nat) (die : BitVec 2)
  /-- R172: A beat reaches a switch box and is routed by the slot table or discarded. -/
  | circuitBeat (i : Nat)
  /-- R235: An engine entry completes, its production becomes done and its sig words decrement. -/
  | entryComplete (cell : Nat) (q : BitVec 2)
  /-- R260: The matrix engine checks and performs one K-block step. -/
  | matrixStep (cell : Nat)
  /-- R261: Once the exit bank is empty, a point's tile is copied into it. -/
  | retirement (cell : Nat)
  /-- R263: CX emits the next retirement token when the exit side has room. -/
  | exitBankEmit (cell : Nat)
  /-- R268: An array entry port writes an operand token into scratch. -/
  | aeBeWrite (cell : Nat) (be : Bool)
  /-- R280: A cfg token updates a strip's constants or waits in its holder. -/
  | cfgToken (cell : Nat) (strip : BitVec 4) (input : BitVec 2)
  /-- R351: Sources emit snap markers at their cut points. -/
  | snapshotRequest (cell : Nat)
  /-- R352: A snap reaches an input and marks it; a fully marked strip records and forwards. -/
  | snapMarker (cell : Nat) (strip : BitVec 4) (input : BitVec 2)
  /-- R353: Every strip and entry port has finished and the collar state is saved. -/
  | snapshotComplete (cell : Nat)
  /-- R354: The Strainer is released after 16 cycles of empty occupancy. -/
  | strainerRelease (cell : Nat)
  /-- R323: A channel reads, checks and performs one transfer record with its end actions. -/
  | copyRecord (cell : Nat)
  /-- R343: A cell stops issue and engines, writes the trap record and starts its handler. -/
  | trapEntry (cell : Nat)
  /-- R345: A fatal trap stops every member, strains the collars and ends the task. -/
  | fatalTrap (task : Nat)
  /-- R348: Forty cycles after a static-schedule engine fault, the level-L domain freezes. -/
  | freeze (part : BitVec 4)
  /-- R349: Frozen cells resume together at a frame-aligned cycle. -/
  | thaw (part : BitVec 4)
  /-- R356: A cell stops issue and brings every queue to a stopping point for a save or swap. -/
  | cellHalt (cell : Nat)
  /-- R358: Cells write their frames to shadow storage and read in another partition's. -/
  | partitionSwap (out inn : BitVec 4)
  /-- R385: A job moves one chunk and commits its cursor. -/
  | blenderChunk (die : BitVec 2)
  /-- R370: A link sends an encrypted data flit while allowance and key counter permit. -/
  | dataFlitSend (link : Nat) (vc : BitVec 3) (payload : BitVec 384)
  /-- R368: A receiver accepts an in-order data flit or requests replay. -/
  | dataFlit (link : Nat) (flit : BitVec 512)
  /-- R367: A received totals flit updates FREED and acknowledgements. -/
  | totalsFlit (link : Nat) (flit : BitVec 512)
  /-- R367: Every 64 flit times each end sends a totals flit. -/
  | totalsSend (link : Nat)
  /-- R368: A sender resends from the requested SEQ. -/
  | replayRequest (link : Nat) (flit : BitVec 512)
  /-- R371: Firmware installs the next key in the non-current slot. -/
  | keyInstall (link : Nat) (rx : Bool) (key : BitVec 128) (salt : BitVec 48)
  /-- R371: The sender flips KI and restarts the counter. -/
  | keySwitch (link : Nat)
  /-- R371: Ten ms in EXHAUSTED without a key takes the link down. -/
  | exhaustionTimeout (link : Nat)
  /-- R369: Firmware retrains a down link and it carries traffic again. -/
  | linkRetrain (link : Nat)
  /-- R401: Firmware's periodic check posts a summary and clears OVERFLOW once space frees. -/
  | eventRingSummary (part : BitVec 4)
  /-- R409: Measured power above the limit for 5 ms posts a POWER event. -/
  | powerEvent (part : BitVec 4)
  /-- R404: At power-up the ROM and firmware verify, measure and configure in order. -/
  | boot (b : BootImages)
  /-- R405: A maker-signed image writes an owner key and sets OWNED. -/
  | ownerEnrolment (key : BitVec 512) (image : List Byte) (sig : BitVec 512)
  /-- R405: An owner-signed command erases ownership and configuration. -/
  | ownershipTransfer (sig : BitVec 512)
  /-- R405: An owner-signed command accepts an empty retirement list. -/
  | acceptEmpty (sig : BitVec 512)
  /-- R406: The device signs a nonce with its measurements and epoch. -/
  | attestationQuote (nonce : BitVec 256)
  /-- R408: Firmware ends a partition's tasks, frees counters and removes its resources. -/
  | partitionReset (part : BitVec 4)
  /-- R133: Firmware raises the configuration generation and the Caddy is flushed. -/
  | configGenerationChange
  /-- R147: Loading an image under an IMGID already held flushes its Caddy entries. -/
  | imageLoad (bytes : List Byte)
  /-- R152: Firmware writes a configuration-port register with no row of its own. -/
  | configurationWrite (w : ConfigWrite)
  /-- R166: A memory controller meets an uncorrectable error, which poisons the bytes, or a correctable one, which counts toward retirement. -/
  | memoryError (pa : BitVec 52) (len : Nat) (uncorrectable : Bool)
  /-- R167: Board power is lost, possibly in the middle of a retirement list update, which leaves the other slot intact. -/
  | powerLoss (torn : Option (BitVec 1))
  /-- R126: A configuration packet whose header holds a reserved KIND arrives, and the scheduler stops the launch, returns the cells and raises ECC to firmware. -/
  | configPacketCorruption (task row : Nat) (kind : BitVec 4)
deriving DecidableEq, Repr

end Sys2Proof
end

