-- ==== Sys2Proof/Machine/Legal.lean ====
section
/-! DEFINITION. Which instructions are legal: the conditions of R20, R26, R35-R44, R48 and R287 that the fields of an
instruction can break. `WellFormed.lean` gives them their name; the decoder refuses what breaks them. -/

namespace Sys2Proof.Machine

/-- Why a word is no instruction (R44; R288 for strip words). -/
inductive Reject where
  | short | reservedMajor | reservedFn | zeroField | stream | sBit | portMisuse | routing | casRegister
  | enqRegisters | scope | emptyFence | level | combine | size | queue | part | stripTag | stripRounding
  | stripImmediate | stripOutput | reservedWord | lineDest
deriving DecidableEq, Repr

/-- A register that stream `y` may read (R9). -/
def srcOk (y : Bool) (r : BitVec 5) : Bool := if y then r != 30 else r != 31

/-- A register that stream `y` may write (R9). -/
def dstOk (y : Bool) (r : BitVec 5) : Bool := if y then r != 31 else r != 30

/-- A register that an instruction reads and writes (R48). -/
def rmwOk (r : BitVec 5) : Bool := r != 30 && r != 31

def ports (ok : Bool) : Option Reject := if ok then none else some .portMisuse

/-- First reason of a list. -/
def firstOf : List (Option Reject) → Option Reject
  | [] => none
  | some r :: _ => some r
  | none :: rs => firstOf rs

def need (ok : Bool) (r : Reject) : Option Reject := if ok then none else some r

/-- Operand pattern d, a, b of stream y. -/
def legalRR (y : Bool) (d a b : BitVec 5) : Option Reject := ports (dstOk y d && srcOk y a && srcOk y b)

/-- Operand pattern d, a of stream y. -/
def legalRI (y : Bool) (d a : BitVec 5) : Option Reject := ports (dstOk y d && srcOk y a)

/-- An atomic operation: op 0-9, and for `cas` an even d of at most 28 (R37, R44). -/
def legalAtomic (d : BitVec 5) (k : BitVec 4) : Option Reject :=
  firstOf [need (k.toNat ≤ 9) .reservedFn, ports (rmwOk d),
    need (k != 2 || (bit d 0 == false && d.toNat ≤ 28)) .casRegister]

def legalRoute (r : BitVec 2) : Option Reject := need (r != 3) .routing
def legalLevel (l : BitVec 3) : Option Reject := need (l.toNat ≤ 4) .level
def legalScope (l : BitVec 3) : Option Reject := need (l.toNat ≤ 4) .scope

/-- Tags 1, 2, 3 (R287). -/
def tagFp (t : BitVec 4) : Bool := t == 1 || t == 2 || t == 3
/-- Tags 8-11. -/
def tagInt (t : BitVec 4) : Bool := 8 ≤ t.toNat && t.toNat ≤ 11
/-- Tags 4-7. -/
def tagBlock (t : BitVec 4) : Bool := 4 ≤ t.toNat && t.toNat ≤ 7
/-- Tags of `cvt`: 1-5, 8-11. -/
def tagCvt (t : BitVec 4) : Bool := (1 ≤ t.toNat && t.toNat ≤ 5) || tagInt t
/-- Tags 1 and 8. -/
def tagRed (t : BitVec 4) : Bool := t == 1 || t == 8

def tag (ok : Bool) : Option Reject := need ok .stripTag
def rnd (ok : Bool) : Option Reject := need ok .stripRounding
def imm (ok : Bool) : Option Reject := need ok .stripImmediate
/-- Most strip words select 1, 2 or 3 (R287). -/
def outs (u : BitVec 2) : Option Reject := need (u != 0) .stripOutput

/-- Why an instruction is illegal; `none` for a legal one. -/
def illegal : Instr → Option Reject
  | .add y _ d a b => legalRR y d a b
  | .sub y _ d a b => legalRR y d a b
  | .and y _ d a b => legalRR y d a b
  | .or y _ d a b => legalRR y d a b
  | .xor y _ d a b => legalRR y d a b
  | .andn y _ d a b => legalRR y d a b
  | .orn y _ d a b => legalRR y d a b
  | .sll y _ d a b => legalRR y d a b
  | .srl y _ d a b => legalRR y d a b
  | .sra y _ d a b => legalRR y d a b
  | .rol y _ d a b => legalRR y d a b
  | .ror y _ d a b => legalRR y d a b
  | .slt y _ d a b => legalRR y d a b
  | .sltn y _ d a b => legalRR y d a b
  | .min y _ d a b => legalRR y d a b
  | .max y _ d a b => legalRR y d a b
  | .minn y _ d a b => legalRR y d a b
  | .maxn y _ d a b => legalRR y d a b
  | .mul y _ d a b => legalRR y d a b
  | .mulh y _ d a b => legalRR y d a b
  | .mulhn y _ d a b => legalRR y d a b
  | .div y _ d a b => legalRR y d a b
  | .divn y _ d a b => legalRR y d a b
  | .rem y _ d a b => legalRR y d a b
  | .remn y _ d a b => legalRR y d a b
  | .clz y _ d a => legalRI y d a
  | .ctz y _ d a => legalRI y d a
  | .popc y _ d a => legalRI y d a
  | .sxb y _ d a => legalRI y d a
  | .sxh y _ d a => legalRI y d a
  | .sxw y _ d a => legalRI y d a
  | .zxb y _ d a => legalRI y d a
  | .zxh y _ d a => legalRI y d a
  | .zxw y _ d a => legalRI y d a
  | .bfx y _ d a b => legalRR y d a b
  | .bfi y _ d a b => ports (rmwOk d && srcOk y a && srcOk y b)
  | .sel y _ d a b c => ports (dstOk y d && srcOk y a && srcOk y b && srcOk y c)
  | .addi y _ d a _ => legalRI y d a
  | .andi y _ d a _ => legalRI y d a
  | .ori y _ d a _ => legalRI y d a
  | .xori y _ d a _ => legalRI y d a
  | .slti y _ d a _ => legalRI y d a
  | .sltni y _ d a _ => legalRI y d a
  | .shiSll y _ d a _ => legalRI y d a
  | .shiSrl y _ d a _ => legalRI y d a
  | .shiSra y _ d a _ => legalRI y d a
  | .shiRol y _ d a _ => legalRI y d a
  | .shiRor y _ d a _ => legalRI y d a
  | .muli y _ d a _ => legalRI y d a
  | .lui y _ d _ => ports (dstOk y d)
  | .aui _ _ d _ => ports (rmwOk d)
  | .lic _ _ d _ => ports (rmwOk d)
  | .beq y _ a b _ => ports (srcOk y a && srcOk y b)
  | .bne y _ a b _ => ports (srcOk y a && srcOk y b)
  | .blt y _ a b _ => ports (srcOk y a && srcOk y b)
  | .bge y _ a b _ => ports (srcOk y a && srcOk y b)
  | .bltn y _ a b _ => ports (srcOk y a && srcOk y b)
  | .bgen y _ a b _ => ports (srcOk y a && srcOk y b)
  | .bbs y _ a _ _ => ports (srcOk y a)
  | .bbc y _ a _ _ => ports (srcOk y a)
  | .j _ _ _ => none
  | .jal _ _ => none
  | .jalr y d a _ => legalRI y d a
  | .loop _ _ a _ => ports (rmwOk a)
  | .ldb y d b _ _ => legalRI y d b
  | .ldh y d b _ _ => legalRI y d b
  | .ldw y d b _ _ => legalRI y d b
  | .ldd y d b _ _ => legalRI y d b
  | .ldbn y d b _ _ => legalRI y d b
  | .ldhn y d b _ _ => legalRI y d b
  | .ldwn y d b _ _ => legalRI y d b
  | .stb y s b _ _ => ports (srcOk y s && srcOk y b)
  | .sth y s b _ _ => ports (srcOk y s && srcOk y b)
  | .stw y s b _ _ => ports (srcOk y s && srcOk y b)
  | .std y s b _ _ => ports (srcOk y s && srcOk y b)
  | .ldu y _ d b _ => legalRI y d b
  | .hld d _ _ _ x _ => legalRI true d x
  | .hldn d _ _ z x _ => firstOf [need (z != 3) .size, legalRI true d x]
  | .hst s _ _ _ x _ => ports (srcOk true s && srcOk true x)
  | .hstnt s _ _ _ x _ => ports (srcOk true s && srcOk true x)
  | .xlatR _ a => ports (srcOk true a)
  | .xlatRw _ a => ports (srcOk true a)
  | .hrel _ => none
  | .amo d _ _ x k _ => firstOf [legalAtomic d k, ports (srcOk true x)]
  | .rld d p o r _ f => firstOf [legalRoute r, need (f.toNat ≤ 6) .reservedFn,
      ports (dstOk true d && srcOk true p && srcOk true o)]
  | .rldLine p o r _ => firstOf [legalRoute r, ports (srcOk true p && srcOk true o)]
  | .rst s p o r _ f => firstOf [legalRoute r, need (f.toNat ≤ 3) .reservedFn,
      ports (srcOk true s && srcOk true p && srcOk true o)]
  | .ramo d p o r _ k _ => firstOf [legalRoute r, legalAtomic d k, ports (srcOk true p && srcOk true o)]
  | .fence _ e r c => firstOf [legalScope e, need (r != 0 || c != 0) .emptyFence]
  | .drain _ e => legalScope e
  | .bar l => legalLevel l
  | .barr d a l c => firstOf [legalLevel l, need (c.toNat ≤ 4) .combine, legalRI false d a]
  | .bara l => legalLevel l
  | .barw l => legalLevel l
  | .sig a => ports (srcOk false a)
  | .waitc a => ports (srcOk false a)
  | .clrp a b => ports (srcOk false a && srcOk false b)
  | .setp a b => ports (srcOk false a && srcOk false b)
  | .enq q f c => firstOf [need (q.toNat ≤ 3) .queue, need (f.toNat + c.toNat ≤ 29) .enqRegisters]
  | .enqi q _ _ => need (q.toNat ≤ 3) .queue
  | .tokw _ => none
  | .tokq d _ => ports (dstOk false d)
  | .kset _ x p => firstOf [need (p != 3) .part, ports (srcOk false x)]
  | .krange _ x => ports (srcOk false x)
  | .kand _ _ _ => none
  | .kor _ _ _ => none
  | .knot _ _ => none
  | .kpop _ x => ports (dstOk false x)
  | .swopen _ a b => ports (srcOk true a && srcOk true b)
  | .swadv _ a => ports (srcOk true a)
  | .swclose _ => none
  | .nop _ => none
  | .halt => none
  | .trap _ _ => none
  | .tret => none
  | .yield => none
  | .brk _ _ => none
  | .mfs y d _ => ports (dstOk y d)
  | .mts a _ => ports (srcOk false a)
  | .chkb y a b => ports (srcOk y a && srcOk y b)
  | .goMm => none
  | .goMmacc => none
  | .fire => none
  | .collarArm => none
  | .recfgE => none
  | .recfgX => none
  | .xctx => none
  | .strain => none
  | .chain => none
  | .kick => none
  | .copy => none
  | .fill => none
  | .blend => none
  | .stripPass _ _ => none
  | .idle _ _ => none
  | .stripEos _ _ _ => none
  | .fadd _ _ u t r => firstOf [tag (tagFp t), rnd (r != 7), outs u]
  | .fsub _ _ u t r => firstOf [tag (tagFp t), rnd (r != 7), outs u]
  | .fmul _ _ u t r => firstOf [tag (tagFp t), rnd (r != 7), outs u]
  | .ffma _ _ _ u t r => firstOf [tag (tagFp t), rnd (r != 7), outs u]
  | .fmin _ _ u t => firstOf [tag (tagFp t), outs u]
  | .fmax _ _ u t => firstOf [tag (tagFp t), outs u]
  | .fabs _ u t => firstOf [tag (tagFp t), outs u]
  | .fneg _ u t => firstOf [tag (tagFp t), outs u]
  | .fcmpEq _ _ u t => firstOf [tag (tagFp t), outs u]
  | .fcmpLt _ _ u t => firstOf [tag (tagFp t), outs u]
  | .fcmpLe _ _ u t => firstOf [tag (tagFp t), outs u]
  | .fsel _ _ _ u t => firstOf [tag (tagFp t || tagInt t), outs u]
  | .iadd _ _ u t r => firstOf [tag (tagInt t), rnd (r.toNat ≤ 1), outs u]
  | .isub _ _ u t r => firstOf [tag (tagInt t), rnd (r.toNat ≤ 1), outs u]
  | .iand _ _ u t => firstOf [tag (tagInt t), outs u]
  | .ior _ _ u t => firstOf [tag (tagInt t), outs u]
  | .ixor _ _ u t => firstOf [tag (tagInt t), outs u]
  | .ishl _ _ u t => firstOf [tag (tagInt t), outs u]
  | .ishr _ _ u t => firstOf [tag (tagInt t), outs u]
  | .isar _ _ u t => firstOf [tag (tagInt t), outs u]
  | .imin _ _ u t => firstOf [tag (tagInt t), outs u]
  | .imax _ _ u t => firstOf [tag (tagInt t), outs u]
  | .cvt _ u t r s => firstOf [tag (tagCvt t), rnd (r != 7), imm (tagCvt s && s != t), outs u]
  | .quant _ _ u t r _ => firstOf [tag (tagBlock t), rnd (r != 7), outs u]
  | .dequant _ u t r => firstOf [tag (tagBlock t), rnd (r.toNat ≤ 3 || r == 5), outs u]
  | .pk4 _ u => outs u
  | .upk4 _ u => outs u
  | .stripHdr _ u _ => outs u
  | .rcp _ u t r => firstOf [tag (tagFp t), rnd (r.toNat ≤ 3), outs u]
  | .stripDiv _ _ u t r => firstOf [tag (tagFp t), rnd (r.toNat ≤ 3), outs u]
  | .sqrt _ u t r => firstOf [tag (tagFp t), rnd (r.toNat ≤ 3), outs u]
  | .rsqrt _ u t r => firstOf [tag (tagFp t), rnd (r.toNat ≤ 3), outs u]
  | .exp2 _ u t r => firstOf [tag (tagFp t), rnd (r.toNat ≤ 3), outs u]
  | .log2 _ u t r => firstOf [tag (tagFp t), rnd (r.toNat ≤ 3), outs u]
  | .tanh _ u t r => firstOf [tag (tagFp t), rnd (r.toNat ≤ 3), outs u]
  | .rsum _ u t _ m => firstOf [tag (tagRed t), imm (m != 3), outs u]
  | .rmax _ u t _ m => firstOf [tag (tagRed t), imm (m != 3), outs u]
  | .rmin _ u t _ m => firstOf [tag (tagRed t), imm (m != 3), outs u]
  | .scan _ u t _ => firstOf [tag (tagRed t), outs u]
  | .perm _ _ u => outs u
  | .rot _ u n => firstOf [imm (n.toNat ≤ 191), outs u]
  | .bcast _ u n => firstOf [imm (n.toNat ≤ 191), outs u]
  | .lds _ _ => none
  | .sts _ c s => imm (!(c == 1 && s == 1))
  | .gath _ _ => none
  | .scat _ _ => none
  | .dly _ _ _ => none
  | .vrd _ t _ => tag (t.toNat ≤ 12)
  | .vwr _ t _ => tag (t.toNat ≤ 12)
  | .tail _ _ _ => none
  | .notify _ _ => none
  | .commandFetch _ => none
  | .commandRefetch _ => none
  | .queueDescriptorWrite _ _ _ => none
  | .qerrClear _ => none
  | .queueSwitchIn _ => none
  | .dispatch _ => none
  | .arm _ => none
  | .free _ => none
  | .launch _ => none
  | .launchAllocate _ => none
  | .caddyBusyHit _ => none
  | .steepSpecialise _ => none
  | .placeAndRoute _ => none
  | .configCode _ _ => none
  | .configContext _ _ => none
  | .configSlotTable _ _ => none
  | .configDataBlock _ _ => none
  | .configUniform _ _ => none
  | .configEnd _ _ => none
  | .taskStart _ => none
  | .taskEnd _ => none
  | .saveTask _ => none
  | .restoreTask _ => none
  | .pageResident _ _ => none
  | .counterDecrement _ _ => none
  | .hang _ => none
  | .barrierArrival _ _ => none
  | .barrierComplete _ _ _ => none
  | .deferto _ _ => none
  | .storeRetire _ _ => none
  | .leaveBag _ _ => none
  | .deliver _ => none
  | .responseArrival _ => none
  | .writeAcknowledgement _ => none
  | .refusal _ => none
  | .translationWalk _ _ => none
  | .revocation _ _ => none
  | .revocationComplete _ => none
  | .heatDecay => none
  | .migrationArm _ _ _ _ => none
  | .migrationCopy _ => none
  | .migrationRecopy _ => none
  | .migrationHold _ => none
  | .migrationSwitch _ => none
  | .migrationForward _ => none
  | .eviction _ _ _ => none
  | .windowPublish _ _ => none
  | .rowRetirement _ _ => none
  | .retirementListUpdate _ => none
  | .slotOwnerWrite _ _ _ _ => none
  | .slotOwnerApply _ _ => none
  | .circuitBeat _ => none
  | .entryComplete _ _ => none
  | .matrixStep _ => none
  | .retirement _ => none
  | .exitBankEmit _ => none
  | .aeBeWrite _ _ => none
  | .cfgToken _ _ _ => none
  | .snapshotRequest _ => none
  | .snapMarker _ _ _ => none
  | .snapshotComplete _ => none
  | .strainerRelease _ => none
  | .copyRecord _ => none
  | .trapEntry _ => none
  | .fatalTrap _ => none
  | .freeze _ => none
  | .thaw _ => none
  | .cellHalt _ => none
  | .partitionSwap _ _ => none
  | .blenderChunk _ => none
  | .dataFlitSend _ _ _ => none
  | .dataFlit _ _ => none
  | .totalsFlit _ _ => none
  | .totalsSend _ => none
  | .replayRequest _ _ => none
  | .keyInstall _ _ _ _ => none
  | .keySwitch _ => none
  | .exhaustionTimeout _ => none
  | .linkRetrain _ => none
  | .eventRingSummary _ => none
  | .powerEvent _ => none
  | .boot _ => none
  | .ownerEnrolment _ _ _ => none
  | .ownershipTransfer _ => none
  | .acceptEmpty _ => none
  | .attestationQuote _ => none
  | .partitionReset _ => none
  | .configGenerationChange => none
  | .imageLoad _ => none
  | .configurationWrite _ => none
  | .memoryError _ _ _ => none
  | .powerLoss _ => none
  | .configPacketCorruption _ _ _ => none

/-- The fields of an instruction are legal. -/
def legal (i : Instr) : Bool := illegal i == none

end Sys2Proof.Machine
end

