-- ==== Sys2Proof/WellFormed.lean ====
section
/-! DEFINITION. Well-formed instructions: those whose fields break no condition of R20, R26, R35-R44, R48 and R287. -/

namespace Sys2Proof

/-- An instruction is well-formed when no rule refuses its fields; `Machine.illegal` names the rule that does. -/
abbrev Instr.WellFormed (i : Instr) : Prop := Machine.illegal i = none

end Sys2Proof
end

