-- ==== Sys2Proof/Decode.lean ====
section
/-! DEFINITION. The decoders of control-core words (R23-R45), launch words (R229) and strip words (R285-R288), total and
refusing by name, and the encoder. -/

namespace Sys2Proof

open Sys2Proof.Machine

/-- What a decoder reads. -/
inductive Decoded where
  | ok (i : Instr)
  | reject (r : Reject)
deriving DecidableEq, Repr

/-- The words of an instruction. -/
inductive Code where
  | core (w : BitVec 32)
  | launch (w : BitVec 16)
  | strip (w : BitVec 32)
  | none
deriving DecidableEq, Repr

/-- Accept an instruction whose fields are legal. -/
def judge (i : Instr) : Decoded :=
  match illegal i with
  | .none => .ok i
  | .some r => .reject r

/-- The A value, the S value and the zero fields hold what the encoding asks for (R20, R21, R25, R26). -/
def demand (stream sbit zero : Bool) (i : Instr) : Decoded :=
  if stream = false then .reject .stream
  else if sbit = false then .reject .sBit
  else if zero = false then .reject .zeroField
  else judge i

/-- Major 0x00. -/
def decodeSystem (w : BitVec 32) : Decoded :=
  match (field w 10 4).toNat with
  | 0 => demand true (field w 30 1 == 0#1) ((field w 14 10 == 0#10) && (field w 0 10 == 0#10)) (.nop (bit w 31))
  | 1 => demand (field w 31 1 == 0#1) (field w 30 1 == 0#1) ((field w 14 10 == 0#10) && (field w 0 10 == 0#10)) .halt
  | 2 => demand true (field w 30 1 == 0#1) ((field w 14 10 == 0#10)) (.trap (bit w 31) (field w 0 10))
  | 3 => demand (field w 31 1 == 0#1) (field w 30 1 == 0#1) ((field w 14 10 == 0#10) && (field w 0 10 == 0#10)) .tret
  | 4 => demand (field w 31 1 == 0#1) (field w 30 1 == 0#1) ((field w 14 10 == 0#10) && (field w 0 10 == 0#10)) .yield
  | 5 => demand true (field w 30 1 == 0#1) ((field w 14 10 == 0#10)) (.brk (bit w 31) (field w 0 10))
  | 6 => demand true (field w 30 1 == 0#1) ((field w 14 5 == 0#5) && (field w 8 2 == 0#2)) (.mfs (bit w 31) (field w 19 5) (field w 0 8))
  | 7 => demand (field w 31 1 == 0#1) (field w 30 1 == 0#1) ((field w 19 5 == 0#5) && (field w 8 2 == 0#2)) (.mts (field w 14 5) (field w 0 8))
  | 8 => demand true (field w 30 1 == 0#1) ((field w 19 5 == 0#5) && (field w 0 5 == 0#5)) (.chkb (bit w 31) (field w 14 5) (field w 5 5))
  | _ => .reject .reservedFn

/-- Major 0x01. -/
def decodeAlu (w : BitVec 32) : Decoded :=
  match (field w 0 9).toNat with
  | 0 => demand true true true (.add (bit w 31) (bit w 30) (field w 19 5) (field w 14 5) (field w 9 5))
  | 1 => demand true true true (.sub (bit w 31) (bit w 30) (field w 19 5) (field w 14 5) (field w 9 5))
  | 2 => demand true true true (.and (bit w 31) (bit w 30) (field w 19 5) (field w 14 5) (field w 9 5))
  | 3 => demand true true true (.or (bit w 31) (bit w 30) (field w 19 5) (field w 14 5) (field w 9 5))
  | 4 => demand true true true (.xor (bit w 31) (bit w 30) (field w 19 5) (field w 14 5) (field w 9 5))
  | 5 => demand true true true (.andn (bit w 31) (bit w 30) (field w 19 5) (field w 14 5) (field w 9 5))
  | 6 => demand true true true (.orn (bit w 31) (bit w 30) (field w 19 5) (field w 14 5) (field w 9 5))
  | 7 => demand true true true (.sll (bit w 31) (bit w 30) (field w 19 5) (field w 14 5) (field w 9 5))
  | 8 => demand true true true (.srl (bit w 31) (bit w 30) (field w 19 5) (field w 14 5) (field w 9 5))
  | 9 => demand true true true (.sra (bit w 31) (bit w 30) (field w 19 5) (field w 14 5) (field w 9 5))
  | 10 => demand true true true (.rol (bit w 31) (bit w 30) (field w 19 5) (field w 14 5) (field w 9 5))
  | 11 => demand true true true (.ror (bit w 31) (bit w 30) (field w 19 5) (field w 14 5) (field w 9 5))
  | 12 => demand true true true (.slt (bit w 31) (bit w 30) (field w 19 5) (field w 14 5) (field w 9 5))
  | 13 => demand true true true (.sltn (bit w 31) (bit w 30) (field w 19 5) (field w 14 5) (field w 9 5))
  | 14 => demand true true true (.min (bit w 31) (bit w 30) (field w 19 5) (field w 14 5) (field w 9 5))
  | 15 => demand true true true (.max (bit w 31) (bit w 30) (field w 19 5) (field w 14 5) (field w 9 5))
  | 16 => demand true true true (.minn (bit w 31) (bit w 30) (field w 19 5) (field w 14 5) (field w 9 5))
  | 17 => demand true true true (.maxn (bit w 31) (bit w 30) (field w 19 5) (field w 14 5) (field w 9 5))
  | _ => .reject .reservedFn

/-- Major 0x02. -/
def decodeMulDiv (w : BitVec 32) : Decoded :=
  match (field w 0 9).toNat with
  | 0 => demand true true true (.mul (bit w 31) (bit w 30) (field w 19 5) (field w 14 5) (field w 9 5))
  | 1 => demand true true true (.mulh (bit w 31) (bit w 30) (field w 19 5) (field w 14 5) (field w 9 5))
  | 2 => demand true true true (.mulhn (bit w 31) (bit w 30) (field w 19 5) (field w 14 5) (field w 9 5))
  | 3 => demand true true true (.div (bit w 31) (bit w 30) (field w 19 5) (field w 14 5) (field w 9 5))
  | 4 => demand true true true (.divn (bit w 31) (bit w 30) (field w 19 5) (field w 14 5) (field w 9 5))
  | 5 => demand true true true (.rem (bit w 31) (bit w 30) (field w 19 5) (field w 14 5) (field w 9 5))
  | 6 => demand true true true (.remn (bit w 31) (bit w 30) (field w 19 5) (field w 14 5) (field w 9 5))
  | _ => .reject .reservedFn

/-- Major 0x03. -/
def decodeBits (w : BitVec 32) : Decoded :=
  match (field w 0 9).toNat with
  | 0 => demand true true ((field w 9 5 == 0#5)) (.clz (bit w 31) (bit w 30) (field w 19 5) (field w 14 5))
  | 1 => demand true true ((field w 9 5 == 0#5)) (.ctz (bit w 31) (bit w 30) (field w 19 5) (field w 14 5))
  | 2 => demand true true ((field w 9 5 == 0#5)) (.popc (bit w 31) (bit w 30) (field w 19 5) (field w 14 5))
  | 3 => demand true true ((field w 9 5 == 0#5)) (.sxb (bit w 31) (bit w 30) (field w 19 5) (field w 14 5))
  | 4 => demand true true ((field w 9 5 == 0#5)) (.sxh (bit w 31) (bit w 30) (field w 19 5) (field w 14 5))
  | 5 => demand true true ((field w 9 5 == 0#5)) (.sxw (bit w 31) (bit w 30) (field w 19 5) (field w 14 5))
  | 6 => demand true true ((field w 9 5 == 0#5)) (.zxb (bit w 31) (bit w 30) (field w 19 5) (field w 14 5))
  | 7 => demand true true ((field w 9 5 == 0#5)) (.zxh (bit w 31) (bit w 30) (field w 19 5) (field w 14 5))
  | 8 => demand true true ((field w 9 5 == 0#5)) (.zxw (bit w 31) (bit w 30) (field w 19 5) (field w 14 5))
  | 9 => demand true true true (.bfx (bit w 31) (bit w 30) (field w 19 5) (field w 14 5) (field w 9 5))
  | 10 => demand true true true (.bfi (bit w 31) (bit w 30) (field w 19 5) (field w 14 5) (field w 9 5))
  | _ => if field w 5 4 == 8#4 then demand true true true (.sel (bit w 31) (bit w 30) (field w 19 5) (field w 14 5) (field w 9 5) (field w 0 5)) else .reject .reservedFn

/-- Major 0x0A. -/
def decodeShi (w : BitVec 32) : Decoded :=
  match (field w 11 3).toNat with
  | 0 => demand true true ((field w 6 5 == 0#5)) (.shiSll (bit w 31) (bit w 30) (field w 19 5) (field w 14 5) (field w 0 6))
  | 1 => demand true true ((field w 6 5 == 0#5)) (.shiSrl (bit w 31) (bit w 30) (field w 19 5) (field w 14 5) (field w 0 6))
  | 2 => demand true true ((field w 6 5 == 0#5)) (.shiSra (bit w 31) (bit w 30) (field w 19 5) (field w 14 5) (field w 0 6))
  | 3 => demand true true ((field w 6 5 == 0#5)) (.shiRol (bit w 31) (bit w 30) (field w 19 5) (field w 14 5) (field w 0 6))
  | 4 => demand true true ((field w 6 5 == 0#5)) (.shiRor (bit w 31) (bit w 30) (field w 19 5) (field w 14 5) (field w 0 6))
  | _ => .reject .reservedFn

/-- Major 0x2C. -/
def decodeHandle (w : BitVec 32) : Decoded :=
  match (field w 0 9).toNat with
  | 0 => demand (field w 31 1 == 1#1) (field w 30 1 == 0#1) ((field w 23 1 == 0#1) && (field w 9 5 == 0#5)) (.xlatR (field w 19 4) (field w 14 5))
  | 1 => demand (field w 31 1 == 1#1) (field w 30 1 == 0#1) ((field w 23 1 == 0#1) && (field w 9 5 == 0#5)) (.xlatRw (field w 19 4) (field w 14 5))
  | 2 => demand (field w 31 1 == 1#1) (field w 30 1 == 0#1) ((field w 23 1 == 0#1) && (field w 9 10 == 0#10)) (.hrel (field w 19 4))
  | _ => .reject .reservedFn

/-- Major 0x2E. -/
def decodeRld (w : BitVec 32) : Decoded :=
  match (field w 0 5).toNat with
  | 7 => if field w 19 5 == 30#5 then demand (field w 31 1 == 1#1) (field w 30 1 == 0#1) (true) (.rldLine (field w 14 5) (field w 9 5) (field w 7 2) (field w 5 2)) else .reject .lineDest
  | _ => demand (field w 31 1 == 1#1) (field w 30 1 == 0#1) true (.rld (field w 19 5) (field w 14 5) (field w 9 5) (field w 7 2) (field w 5 2) (field w 0 5))

/-- Major 0x31. -/
def decodeFence (w : BitVec 32) : Decoded :=
  match (field w 13 1).toNat with
  | 0 => demand true (field w 30 1 == 0#1) ((field w 14 10 == 0#10) && (field w 0 3 == 0#3)) (.fence (bit w 31) (field w 10 3) (field w 7 3) (field w 3 4))
  | 1 => demand true (field w 30 1 == 0#1) ((field w 14 10 == 0#10) && (field w 0 10 == 0#10)) (.drain (bit w 31) (field w 10 3))
  | _ => .reject .reservedFn

/-- Major 0x32. -/
def decodeBarrier (w : BitVec 32) : Decoded :=
  match (field w 12 2).toNat with
  | 0 => demand (field w 31 1 == 0#1) (field w 30 1 == 0#1) ((field w 14 10 == 0#10) && (field w 0 9 == 0#9)) (.bar (field w 9 3))
  | 1 => demand (field w 31 1 == 0#1) (field w 30 1 == 0#1) ((field w 0 6 == 0#6)) (.barr (field w 19 5) (field w 14 5) (field w 9 3) (field w 6 3))
  | 2 => demand (field w 31 1 == 0#1) (field w 30 1 == 0#1) ((field w 14 10 == 0#10) && (field w 0 9 == 0#9)) (.bara (field w 9 3))
  | 3 => demand (field w 31 1 == 0#1) (field w 30 1 == 0#1) ((field w 14 10 == 0#10) && (field w 0 9 == 0#9)) (.barw (field w 9 3))
  | _ => .reject .reservedFn

/-- Major 0x33. -/
def decodeSignal (w : BitVec 32) : Decoded :=
  match (field w 12 2).toNat with
  | 0 => demand (field w 31 1 == 0#1) (field w 30 1 == 0#1) ((field w 19 5 == 0#5) && (field w 0 12 == 0#12)) (.sig (field w 14 5))
  | 1 => demand (field w 31 1 == 0#1) (field w 30 1 == 0#1) ((field w 19 5 == 0#5) && (field w 0 12 == 0#12)) (.waitc (field w 14 5))
  | _ => .reject .reservedFn

/-- Major 0x34. -/
def decodePresence (w : BitVec 32) : Decoded :=
  match (field w 0 9).toNat with
  | 0 => demand (field w 31 1 == 0#1) (field w 30 1 == 0#1) ((field w 19 5 == 0#5)) (.clrp (field w 14 5) (field w 9 5))
  | 1 => demand (field w 31 1 == 0#1) (field w 30 1 == 0#1) ((field w 19 5 == 0#5)) (.setp (field w 14 5) (field w 9 5))
  | _ => .reject .reservedFn

/-- Major 0x37. -/
def decodeToken (w : BitVec 32) : Decoded :=
  match (field w 12 2).toNat with
  | 0 => demand (field w 31 1 == 0#1) (field w 30 1 == 0#1) ((field w 14 10 == 0#10) && (field w 6 6 == 0#6)) (.tokw (field w 0 6))
  | 1 => demand (field w 31 1 == 0#1) (field w 30 1 == 0#1) ((field w 14 5 == 0#5) && (field w 6 6 == 0#6)) (.tokq (field w 19 5) (field w 0 6))
  | _ => .reject .reservedFn

/-- Major 0x38. -/
def decodeMask (w : BitVec 32) : Decoded :=
  match (field w 0 4).toNat with
  | 0 => demand (field w 31 1 == 0#1) (field w 30 1 == 0#1) ((field w 15 6 == 0#6) && (field w 6 4 == 0#4)) (.kset (field w 21 3) (field w 10 5) (field w 4 2))
  | 1 => demand (field w 31 1 == 0#1) (field w 30 1 == 0#1) ((field w 15 6 == 0#6) && (field w 4 6 == 0#6)) (.krange (field w 21 3) (field w 10 5))
  | 2 => demand (field w 31 1 == 0#1) (field w 30 1 == 0#1) ((field w 4 11 == 0#11)) (.kand (field w 21 3) (field w 18 3) (field w 15 3))
  | 3 => demand (field w 31 1 == 0#1) (field w 30 1 == 0#1) ((field w 4 11 == 0#11)) (.kor (field w 21 3) (field w 18 3) (field w 15 3))
  | 4 => demand (field w 31 1 == 0#1) (field w 30 1 == 0#1) ((field w 4 14 == 0#14)) (.knot (field w 21 3) (field w 18 3))
  | 5 => demand (field w 31 1 == 0#1) (field w 30 1 == 0#1) ((field w 21 3 == 0#3) && (field w 15 3 == 0#3) && (field w 4 6 == 0#6)) (.kpop (field w 18 3) (field w 10 5))
  | _ => .reject .reservedFn

/-- Major 0x39. -/
def decodeWindow (w : BitVec 32) : Decoded :=
  match (field w 0 9).toNat with
  | 0 => demand (field w 31 1 == 1#1) (field w 30 1 == 0#1) ((field w 23 1 == 0#1)) (.swopen (field w 19 4) (field w 14 5) (field w 9 5))
  | 1 => demand (field w 31 1 == 1#1) (field w 30 1 == 0#1) ((field w 23 1 == 0#1) && (field w 9 5 == 0#5)) (.swadv (field w 19 4) (field w 14 5))
  | 2 => demand (field w 31 1 == 1#1) (field w 30 1 == 0#1) ((field w 23 1 == 0#1) && (field w 9 10 == 0#10)) (.swclose (field w 19 4))
  | _ => .reject .reservedFn

/-- The control core's decoder: the major opcode selects the family (R24, R29). -/
def decodeCore (w : BitVec 32) : Decoded :=
  match (field w 24 6).toNat with
  | 0 => decodeSystem w
  | 1 => decodeAlu w
  | 2 => decodeMulDiv w
  | 3 => decodeBits w
  | 4 => demand true true true (.addi (bit w 31) (bit w 30) (field w 19 5) (field w 14 5) (field w 0 14))
  | 5 => demand true true true (.andi (bit w 31) (bit w 30) (field w 19 5) (field w 14 5) (field w 0 14))
  | 6 => demand true true true (.ori (bit w 31) (bit w 30) (field w 19 5) (field w 14 5) (field w 0 14))
  | 7 => demand true true true (.xori (bit w 31) (bit w 30) (field w 19 5) (field w 14 5) (field w 0 14))
  | 8 => demand true true true (.slti (bit w 31) (bit w 30) (field w 19 5) (field w 14 5) (field w 0 14))
  | 9 => demand true true true (.sltni (bit w 31) (bit w 30) (field w 19 5) (field w 14 5) (field w 0 14))
  | 10 => decodeShi w
  | 11 => demand true true true (.muli (bit w 31) (bit w 30) (field w 19 5) (field w 14 5) (field w 0 14))
  | 12 => demand true true true (.lui (bit w 31) (bit w 30) (field w 19 5) (field w 0 19))
  | 13 => demand true true true (.aui (bit w 31) (bit w 30) (field w 19 5) (field w 0 19))
  | 14 => demand true true true (.lic (bit w 31) (bit w 30) (field w 19 5) (field w 0 19))
  | 16 => demand true true true (.beq (bit w 31) (bit w 30) (field w 19 5) (field w 14 5) (field w 0 14))
  | 17 => demand true true true (.bne (bit w 31) (bit w 30) (field w 19 5) (field w 14 5) (field w 0 14))
  | 18 => demand true true true (.blt (bit w 31) (bit w 30) (field w 19 5) (field w 14 5) (field w 0 14))
  | 19 => demand true true true (.bge (bit w 31) (bit w 30) (field w 19 5) (field w 14 5) (field w 0 14))
  | 20 => demand true true true (.bltn (bit w 31) (bit w 30) (field w 19 5) (field w 14 5) (field w 0 14))
  | 21 => demand true true true (.bgen (bit w 31) (bit w 30) (field w 19 5) (field w 14 5) (field w 0 14))
  | 22 => demand true true true (.bbs (bit w 31) (bit w 30) (field w 19 5) (field w 13 6) (field w 0 13))
  | 23 => demand true true true (.bbc (bit w 31) (bit w 30) (field w 19 5) (field w 13 6) (field w 0 13))
  | 24 => demand true true true (.j (bit w 31) (bit w 30) (field w 0 24))
  | 25 => demand true (field w 30 1 == 0#1) true (.jal (bit w 31) (field w 0 24))
  | 26 => demand true (field w 30 1 == 0#1) true (.jalr (bit w 31) (field w 19 5) (field w 14 5) (field w 0 14))
  | 27 => demand true true ((field w 14 5 == 0#5)) (.loop (bit w 31) (bit w 30) (field w 19 5) (field w 0 14))
  | 28 => demand true (field w 30 1 == 0#1) true (.ldb (bit w 31) (field w 19 5) (field w 14 5) (field w 12 2) (field w 0 12))
  | 29 => demand true (field w 30 1 == 0#1) true (.ldh (bit w 31) (field w 19 5) (field w 14 5) (field w 12 2) (field w 0 12))
  | 30 => demand true (field w 30 1 == 0#1) true (.ldw (bit w 31) (field w 19 5) (field w 14 5) (field w 12 2) (field w 0 12))
  | 31 => demand true (field w 30 1 == 0#1) true (.ldd (bit w 31) (field w 19 5) (field w 14 5) (field w 12 2) (field w 0 12))
  | 32 => demand true (field w 30 1 == 0#1) true (.ldbn (bit w 31) (field w 19 5) (field w 14 5) (field w 12 2) (field w 0 12))
  | 33 => demand true (field w 30 1 == 0#1) true (.ldhn (bit w 31) (field w 19 5) (field w 14 5) (field w 12 2) (field w 0 12))
  | 34 => demand true (field w 30 1 == 0#1) true (.ldwn (bit w 31) (field w 19 5) (field w 14 5) (field w 12 2) (field w 0 12))
  | 35 => demand true (field w 30 1 == 0#1) true (.stb (bit w 31) (field w 19 5) (field w 14 5) (field w 12 2) (field w 0 12))
  | 36 => demand true (field w 30 1 == 0#1) true (.sth (bit w 31) (field w 19 5) (field w 14 5) (field w 12 2) (field w 0 12))
  | 37 => demand true (field w 30 1 == 0#1) true (.stw (bit w 31) (field w 19 5) (field w 14 5) (field w 12 2) (field w 0 12))
  | 38 => demand true (field w 30 1 == 0#1) true (.std (bit w 31) (field w 19 5) (field w 14 5) (field w 12 2) (field w 0 12))
  | 39 => demand true true ((field w 12 2 == 0#2)) (.ldu (bit w 31) (bit w 30) (field w 19 5) (field w 14 5) (field w 0 12))
  | 40 => demand (field w 31 1 == 1#1) (field w 30 1 == 0#1) true (.hld (field w 19 5) (field w 15 4) (field w 13 2) (field w 11 2) (field w 6 5) (field w 0 6))
  | 41 => demand (field w 31 1 == 1#1) (field w 30 1 == 0#1) true (.hldn (field w 19 5) (field w 15 4) (field w 13 2) (field w 11 2) (field w 6 5) (field w 0 6))
  | 42 => demand (field w 31 1 == 1#1) (field w 30 1 == 0#1) true (.hst (field w 19 5) (field w 15 4) (field w 13 2) (field w 11 2) (field w 6 5) (field w 0 6))
  | 43 => demand (field w 31 1 == 1#1) (field w 30 1 == 0#1) true (.hstnt (field w 19 5) (field w 15 4) (field w 13 2) (field w 11 2) (field w 6 5) (field w 0 6))
  | 44 => decodeHandle w
  | 45 => demand (field w 31 1 == 1#1) (field w 30 1 == 0#1) ((field w 0 3 == 0#3)) (.amo (field w 19 5) (field w 15 4) (field w 13 2) (field w 8 5) (field w 4 4) (field w 3 1))
  | 46 => decodeRld w
  | 47 => demand (field w 31 1 == 1#1) (field w 30 1 == 0#1) true (.rst (field w 19 5) (field w 14 5) (field w 9 5) (field w 7 2) (field w 5 2) (field w 0 5))
  | 48 => demand (field w 31 1 == 1#1) (field w 30 1 == 0#1) true (.ramo (field w 19 5) (field w 14 5) (field w 9 5) (field w 7 2) (field w 5 2) (field w 1 4) (field w 0 1))
  | 49 => decodeFence w
  | 50 => decodeBarrier w
  | 51 => decodeSignal w
  | 52 => decodePresence w
  | 53 => demand (field w 31 1 == 0#1) (field w 30 1 == 0#1) ((field w 0 13 == 0#13)) (.enq (field w 21 3) (field w 16 5) (field w 13 3))
  | 54 => demand (field w 31 1 == 0#1) (field w 30 1 == 0#1) true (.enqi (field w 21 3) (field w 16 5) (field w 0 16))
  | 55 => decodeToken w
  | 56 => decodeMask w
  | 57 => decodeWindow w
  | _ => .reject .reservedMajor

/-- The decoder of strip words: the op field selects the operation (R285, R287). -/
def decodeStrip (w : BitVec 32) : Decoded :=
  match (field w 26 6).toNat with
  | 0 => demand true true ((field w 17 6 == 0#6) && (field w 0 15 == 0#15)) (.stripPass (field w 23 3) (field w 15 2))
  | 1 => demand true true ((field w 17 9 == 0#9) && (field w 8 7 == 0#7)) (.idle (field w 15 2) (field w 0 8))
  | 2 => demand true true ((field w 17 9 == 0#9) && (field w 8 7 == 0#7)) (.stripEos (field w 15 2) (field w 4 4) (field w 0 4))
  | 4 => demand true true ((field w 17 3 == 0#3) && (field w 0 8 == 0#8)) (.fadd (field w 23 3) (field w 20 3) (field w 15 2) (field w 11 4) (field w 8 3))
  | 5 => demand true true ((field w 17 3 == 0#3) && (field w 0 8 == 0#8)) (.fsub (field w 23 3) (field w 20 3) (field w 15 2) (field w 11 4) (field w 8 3))
  | 6 => demand true true ((field w 17 3 == 0#3) && (field w 0 8 == 0#8)) (.fmul (field w 23 3) (field w 20 3) (field w 15 2) (field w 11 4) (field w 8 3))
  | 7 => demand true true ((field w 0 8 == 0#8)) (.ffma (field w 23 3) (field w 20 3) (field w 17 3) (field w 15 2) (field w 11 4) (field w 8 3))
  | 8 => demand true true ((field w 17 3 == 0#3) && (field w 0 11 == 0#11)) (.fmin (field w 23 3) (field w 20 3) (field w 15 2) (field w 11 4))
  | 9 => demand true true ((field w 17 3 == 0#3) && (field w 0 11 == 0#11)) (.fmax (field w 23 3) (field w 20 3) (field w 15 2) (field w 11 4))
  | 10 => demand true true ((field w 17 6 == 0#6) && (field w 0 11 == 0#11)) (.fabs (field w 23 3) (field w 15 2) (field w 11 4))
  | 11 => demand true true ((field w 17 6 == 0#6) && (field w 0 11 == 0#11)) (.fneg (field w 23 3) (field w 15 2) (field w 11 4))
  | 12 => demand true true ((field w 17 3 == 0#3) && (field w 0 11 == 0#11)) (.fcmpEq (field w 23 3) (field w 20 3) (field w 15 2) (field w 11 4))
  | 13 => demand true true ((field w 17 3 == 0#3) && (field w 0 11 == 0#11)) (.fcmpLt (field w 23 3) (field w 20 3) (field w 15 2) (field w 11 4))
  | 14 => demand true true ((field w 17 3 == 0#3) && (field w 0 11 == 0#11)) (.fcmpLe (field w 23 3) (field w 20 3) (field w 15 2) (field w 11 4))
  | 15 => demand true true ((field w 0 11 == 0#11)) (.fsel (field w 23 3) (field w 20 3) (field w 17 3) (field w 15 2) (field w 11 4))
  | 16 => demand true true ((field w 17 3 == 0#3) && (field w 0 8 == 0#8)) (.iadd (field w 23 3) (field w 20 3) (field w 15 2) (field w 11 4) (field w 8 3))
  | 17 => demand true true ((field w 17 3 == 0#3) && (field w 0 8 == 0#8)) (.isub (field w 23 3) (field w 20 3) (field w 15 2) (field w 11 4) (field w 8 3))
  | 18 => demand true true ((field w 17 3 == 0#3) && (field w 0 11 == 0#11)) (.iand (field w 23 3) (field w 20 3) (field w 15 2) (field w 11 4))
  | 19 => demand true true ((field w 17 3 == 0#3) && (field w 0 11 == 0#11)) (.ior (field w 23 3) (field w 20 3) (field w 15 2) (field w 11 4))
  | 20 => demand true true ((field w 17 3 == 0#3) && (field w 0 11 == 0#11)) (.ixor (field w 23 3) (field w 20 3) (field w 15 2) (field w 11 4))
  | 21 => demand true true ((field w 17 3 == 0#3) && (field w 0 11 == 0#11)) (.ishl (field w 23 3) (field w 20 3) (field w 15 2) (field w 11 4))
  | 22 => demand true true ((field w 17 3 == 0#3) && (field w 0 11 == 0#11)) (.ishr (field w 23 3) (field w 20 3) (field w 15 2) (field w 11 4))
  | 23 => demand true true ((field w 17 3 == 0#3) && (field w 0 11 == 0#11)) (.isar (field w 23 3) (field w 20 3) (field w 15 2) (field w 11 4))
  | 24 => demand true true ((field w 17 3 == 0#3) && (field w 0 11 == 0#11)) (.imin (field w 23 3) (field w 20 3) (field w 15 2) (field w 11 4))
  | 25 => demand true true ((field w 17 3 == 0#3) && (field w 0 11 == 0#11)) (.imax (field w 23 3) (field w 20 3) (field w 15 2) (field w 11 4))
  | 28 => demand true true ((field w 17 6 == 0#6) && (field w 4 4 == 0#4)) (.cvt (field w 23 3) (field w 15 2) (field w 11 4) (field w 8 3) (field w 0 4))
  | 29 => demand true true ((field w 17 3 == 0#3) && (field w 1 7 == 0#7)) (.quant (field w 23 3) (field w 20 3) (field w 15 2) (field w 11 4) (field w 8 3) (field w 0 1))
  | 30 => demand true true ((field w 17 6 == 0#6) && (field w 0 8 == 0#8)) (.dequant (field w 23 3) (field w 15 2) (field w 11 4) (field w 8 3))
  | 31 => demand true true ((field w 17 6 == 0#6) && (field w 0 15 == 14336#15)) (.pk4 (field w 23 3) (field w 15 2))
  | 32 => demand true true ((field w 17 6 == 0#6) && (field w 0 15 == 14336#15)) (.upk4 (field w 23 3) (field w 15 2))
  | 33 => demand true true ((field w 17 6 == 0#6) && (field w 1 14 == 0#14)) (.stripHdr (field w 23 3) (field w 15 2) (field w 0 1))
  | 36 => demand true true ((field w 17 6 == 0#6) && (field w 0 8 == 0#8)) (.rcp (field w 23 3) (field w 15 2) (field w 11 4) (field w 8 3))
  | 37 => demand true true ((field w 17 3 == 0#3) && (field w 0 8 == 0#8)) (.stripDiv (field w 23 3) (field w 20 3) (field w 15 2) (field w 11 4) (field w 8 3))
  | 38 => demand true true ((field w 17 6 == 0#6) && (field w 0 8 == 0#8)) (.sqrt (field w 23 3) (field w 15 2) (field w 11 4) (field w 8 3))
  | 39 => demand true true ((field w 17 6 == 0#6) && (field w 0 8 == 0#8)) (.rsqrt (field w 23 3) (field w 15 2) (field w 11 4) (field w 8 3))
  | 40 => demand true true ((field w 17 6 == 0#6) && (field w 0 8 == 0#8)) (.exp2 (field w 23 3) (field w 15 2) (field w 11 4) (field w 8 3))
  | 41 => demand true true ((field w 17 6 == 0#6) && (field w 0 8 == 0#8)) (.log2 (field w 23 3) (field w 15 2) (field w 11 4) (field w 8 3))
  | 42 => demand true true ((field w 17 6 == 0#6) && (field w 0 8 == 0#8)) (.tanh (field w 23 3) (field w 15 2) (field w 11 4) (field w 8 3))
  | 44 => demand true true ((field w 17 6 == 0#6) && (field w 3 8 == 0#8)) (.rsum (field w 23 3) (field w 15 2) (field w 11 4) (field w 2 1) (field w 0 2))
  | 45 => demand true true ((field w 17 6 == 0#6) && (field w 3 8 == 0#8)) (.rmax (field w 23 3) (field w 15 2) (field w 11 4) (field w 2 1) (field w 0 2))
  | 46 => demand true true ((field w 17 6 == 0#6) && (field w 3 8 == 0#8)) (.rmin (field w 23 3) (field w 15 2) (field w 11 4) (field w 2 1) (field w 0 2))
  | 47 => demand true true ((field w 17 6 == 0#6) && (field w 1 10 == 0#10)) (.scan (field w 23 3) (field w 15 2) (field w 11 4) (field w 0 1))
  | 48 => demand true true ((field w 17 3 == 0#3) && (field w 0 15 == 0#15)) (.perm (field w 23 3) (field w 20 3) (field w 15 2))
  | 49 => demand true true ((field w 17 6 == 0#6) && (field w 8 7 == 0#7)) (.rot (field w 23 3) (field w 15 2) (field w 0 8))
  | 50 => demand true true ((field w 17 6 == 0#6) && (field w 8 7 == 0#7)) (.bcast (field w 23 3) (field w 15 2) (field w 0 8))
  | 52 => demand true true ((field w 17 9 == 0#9) && (field w 1 14 == 0#14)) (.lds (field w 15 2) (field w 0 1))
  | 53 => demand true true ((field w 2 21 == 0#21)) (.sts (field w 23 3) (field w 1 1) (field w 0 1))
  | 54 => demand true true ((field w 17 6 == 0#6) && (field w 0 15 == 0#15)) (.gath (field w 23 3) (field w 15 2))
  | 55 => demand true true ((field w 0 20 == 0#20)) (.scat (field w 23 3) (field w 20 3))
  | 56 => demand true true ((field w 17 6 == 0#6) && (field w 8 7 == 0#7)) (.dly (field w 23 3) (field w 15 2) (field w 0 8))
  | 58 => demand true true ((field w 17 9 == 0#9) && (field w 6 5 == 0#5)) (.vrd (field w 15 2) (field w 11 4) (field w 0 6))
  | 59 => demand true true ((field w 15 8 == 0#8) && (field w 6 5 == 0#5)) (.vwr (field w 23 3) (field w 11 4) (field w 0 6))
  | _ => .reject .reservedFn

/-- The decoder of launch words (R229). -/
def decodeLaunch (w : BitVec 16) : Decoded :=
  match w.toNat with
  | 0xE020 => .ok .goMm
  | 0xE021 => .ok .goMmacc
  | 0xE030 => .ok .fire
  | 0xE031 => .ok .collarArm
  | 0xE032 => .ok .recfgE
  | 0xE033 => .ok .recfgX
  | 0xE034 => .ok .xctx
  | 0xE035 => .ok .strain
  | 0xE040 => .ok .chain
  | 0xE041 => .ok .kick
  | 0xE042 => .ok .copy
  | 0xE043 => .ok .fill
  | 0xE050 => .ok .blend
  | _ => .reject .reservedWord

/-- A control-core instruction from the bytes at its address, least significant first (R5). -/
def decodeBytes : List Byte → Decoded
  | [b0, b1, b2, b3] => decodeCore (b3 ++ b2 ++ b1 ++ b0)
  | _ => .reject .short

/-- The word of an instruction, field by field from the top bit (R25, R229, R285). A step that no word names has none. -/
def encode : Instr → Code
  | .add y s d a b => .core (push (push (push (push (push (push (push 0#32 (BitVec.ofBool y)) (BitVec.ofBool s)) (1#6)) d) a) b) (0#9))
  | .sub y s d a b => .core (push (push (push (push (push (push (push 0#32 (BitVec.ofBool y)) (BitVec.ofBool s)) (1#6)) d) a) b) (1#9))
  | .and y s d a b => .core (push (push (push (push (push (push (push 0#32 (BitVec.ofBool y)) (BitVec.ofBool s)) (1#6)) d) a) b) (2#9))
  | .or y s d a b => .core (push (push (push (push (push (push (push 0#32 (BitVec.ofBool y)) (BitVec.ofBool s)) (1#6)) d) a) b) (3#9))
  | .xor y s d a b => .core (push (push (push (push (push (push (push 0#32 (BitVec.ofBool y)) (BitVec.ofBool s)) (1#6)) d) a) b) (4#9))
  | .andn y s d a b => .core (push (push (push (push (push (push (push 0#32 (BitVec.ofBool y)) (BitVec.ofBool s)) (1#6)) d) a) b) (5#9))
  | .orn y s d a b => .core (push (push (push (push (push (push (push 0#32 (BitVec.ofBool y)) (BitVec.ofBool s)) (1#6)) d) a) b) (6#9))
  | .sll y s d a b => .core (push (push (push (push (push (push (push 0#32 (BitVec.ofBool y)) (BitVec.ofBool s)) (1#6)) d) a) b) (7#9))
  | .srl y s d a b => .core (push (push (push (push (push (push (push 0#32 (BitVec.ofBool y)) (BitVec.ofBool s)) (1#6)) d) a) b) (8#9))
  | .sra y s d a b => .core (push (push (push (push (push (push (push 0#32 (BitVec.ofBool y)) (BitVec.ofBool s)) (1#6)) d) a) b) (9#9))
  | .rol y s d a b => .core (push (push (push (push (push (push (push 0#32 (BitVec.ofBool y)) (BitVec.ofBool s)) (1#6)) d) a) b) (10#9))
  | .ror y s d a b => .core (push (push (push (push (push (push (push 0#32 (BitVec.ofBool y)) (BitVec.ofBool s)) (1#6)) d) a) b) (11#9))
  | .slt y s d a b => .core (push (push (push (push (push (push (push 0#32 (BitVec.ofBool y)) (BitVec.ofBool s)) (1#6)) d) a) b) (12#9))
  | .sltn y s d a b => .core (push (push (push (push (push (push (push 0#32 (BitVec.ofBool y)) (BitVec.ofBool s)) (1#6)) d) a) b) (13#9))
  | .min y s d a b => .core (push (push (push (push (push (push (push 0#32 (BitVec.ofBool y)) (BitVec.ofBool s)) (1#6)) d) a) b) (14#9))
  | .max y s d a b => .core (push (push (push (push (push (push (push 0#32 (BitVec.ofBool y)) (BitVec.ofBool s)) (1#6)) d) a) b) (15#9))
  | .minn y s d a b => .core (push (push (push (push (push (push (push 0#32 (BitVec.ofBool y)) (BitVec.ofBool s)) (1#6)) d) a) b) (16#9))
  | .maxn y s d a b => .core (push (push (push (push (push (push (push 0#32 (BitVec.ofBool y)) (BitVec.ofBool s)) (1#6)) d) a) b) (17#9))
  | .mul y s d a b => .core (push (push (push (push (push (push (push 0#32 (BitVec.ofBool y)) (BitVec.ofBool s)) (2#6)) d) a) b) (0#9))
  | .mulh y s d a b => .core (push (push (push (push (push (push (push 0#32 (BitVec.ofBool y)) (BitVec.ofBool s)) (2#6)) d) a) b) (1#9))
  | .mulhn y s d a b => .core (push (push (push (push (push (push (push 0#32 (BitVec.ofBool y)) (BitVec.ofBool s)) (2#6)) d) a) b) (2#9))
  | .div y s d a b => .core (push (push (push (push (push (push (push 0#32 (BitVec.ofBool y)) (BitVec.ofBool s)) (2#6)) d) a) b) (3#9))
  | .divn y s d a b => .core (push (push (push (push (push (push (push 0#32 (BitVec.ofBool y)) (BitVec.ofBool s)) (2#6)) d) a) b) (4#9))
  | .rem y s d a b => .core (push (push (push (push (push (push (push 0#32 (BitVec.ofBool y)) (BitVec.ofBool s)) (2#6)) d) a) b) (5#9))
  | .remn y s d a b => .core (push (push (push (push (push (push (push 0#32 (BitVec.ofBool y)) (BitVec.ofBool s)) (2#6)) d) a) b) (6#9))
  | .clz y s d a => .core (push (push (push (push (push (push (push 0#32 (BitVec.ofBool y)) (BitVec.ofBool s)) (3#6)) d) a) (0#5)) (0#9))
  | .ctz y s d a => .core (push (push (push (push (push (push (push 0#32 (BitVec.ofBool y)) (BitVec.ofBool s)) (3#6)) d) a) (0#5)) (1#9))
  | .popc y s d a => .core (push (push (push (push (push (push (push 0#32 (BitVec.ofBool y)) (BitVec.ofBool s)) (3#6)) d) a) (0#5)) (2#9))
  | .sxb y s d a => .core (push (push (push (push (push (push (push 0#32 (BitVec.ofBool y)) (BitVec.ofBool s)) (3#6)) d) a) (0#5)) (3#9))
  | .sxh y s d a => .core (push (push (push (push (push (push (push 0#32 (BitVec.ofBool y)) (BitVec.ofBool s)) (3#6)) d) a) (0#5)) (4#9))
  | .sxw y s d a => .core (push (push (push (push (push (push (push 0#32 (BitVec.ofBool y)) (BitVec.ofBool s)) (3#6)) d) a) (0#5)) (5#9))
  | .zxb y s d a => .core (push (push (push (push (push (push (push 0#32 (BitVec.ofBool y)) (BitVec.ofBool s)) (3#6)) d) a) (0#5)) (6#9))
  | .zxh y s d a => .core (push (push (push (push (push (push (push 0#32 (BitVec.ofBool y)) (BitVec.ofBool s)) (3#6)) d) a) (0#5)) (7#9))
  | .zxw y s d a => .core (push (push (push (push (push (push (push 0#32 (BitVec.ofBool y)) (BitVec.ofBool s)) (3#6)) d) a) (0#5)) (8#9))
  | .bfx y s d a b => .core (push (push (push (push (push (push (push 0#32 (BitVec.ofBool y)) (BitVec.ofBool s)) (3#6)) d) a) b) (9#9))
  | .bfi y s d a b => .core (push (push (push (push (push (push (push 0#32 (BitVec.ofBool y)) (BitVec.ofBool s)) (3#6)) d) a) b) (10#9))
  | .sel y s d a b c => .core (push (push (push (push (push (push (push (push 0#32 (BitVec.ofBool y)) (BitVec.ofBool s)) (3#6)) d) a) b) (8#4)) c)
  | .addi y s d a i => .core (push (push (push (push (push (push 0#32 (BitVec.ofBool y)) (BitVec.ofBool s)) (4#6)) d) a) i)
  | .andi y s d a i => .core (push (push (push (push (push (push 0#32 (BitVec.ofBool y)) (BitVec.ofBool s)) (5#6)) d) a) i)
  | .ori y s d a i => .core (push (push (push (push (push (push 0#32 (BitVec.ofBool y)) (BitVec.ofBool s)) (6#6)) d) a) i)
  | .xori y s d a i => .core (push (push (push (push (push (push 0#32 (BitVec.ofBool y)) (BitVec.ofBool s)) (7#6)) d) a) i)
  | .slti y s d a i => .core (push (push (push (push (push (push 0#32 (BitVec.ofBool y)) (BitVec.ofBool s)) (8#6)) d) a) i)
  | .sltni y s d a i => .core (push (push (push (push (push (push 0#32 (BitVec.ofBool y)) (BitVec.ofBool s)) (9#6)) d) a) i)
  | .shiSll y s d a h => .core (push (push (push (push (push (push (push (push 0#32 (BitVec.ofBool y)) (BitVec.ofBool s)) (10#6)) d) a) (0#3)) (0#5)) h)
  | .shiSrl y s d a h => .core (push (push (push (push (push (push (push (push 0#32 (BitVec.ofBool y)) (BitVec.ofBool s)) (10#6)) d) a) (1#3)) (0#5)) h)
  | .shiSra y s d a h => .core (push (push (push (push (push (push (push (push 0#32 (BitVec.ofBool y)) (BitVec.ofBool s)) (10#6)) d) a) (2#3)) (0#5)) h)
  | .shiRol y s d a h => .core (push (push (push (push (push (push (push (push 0#32 (BitVec.ofBool y)) (BitVec.ofBool s)) (10#6)) d) a) (3#3)) (0#5)) h)
  | .shiRor y s d a h => .core (push (push (push (push (push (push (push (push 0#32 (BitVec.ofBool y)) (BitVec.ofBool s)) (10#6)) d) a) (4#3)) (0#5)) h)
  | .muli y s d a i => .core (push (push (push (push (push (push 0#32 (BitVec.ofBool y)) (BitVec.ofBool s)) (11#6)) d) a) i)
  | .lui y s d i => .core (push (push (push (push (push 0#32 (BitVec.ofBool y)) (BitVec.ofBool s)) (12#6)) d) i)
  | .aui y s d i => .core (push (push (push (push (push 0#32 (BitVec.ofBool y)) (BitVec.ofBool s)) (13#6)) d) i)
  | .lic y s d i => .core (push (push (push (push (push 0#32 (BitVec.ofBool y)) (BitVec.ofBool s)) (14#6)) d) i)
  | .beq y s a b o => .core (push (push (push (push (push (push 0#32 (BitVec.ofBool y)) (BitVec.ofBool s)) (16#6)) a) b) o)
  | .bne y s a b o => .core (push (push (push (push (push (push 0#32 (BitVec.ofBool y)) (BitVec.ofBool s)) (17#6)) a) b) o)
  | .blt y s a b o => .core (push (push (push (push (push (push 0#32 (BitVec.ofBool y)) (BitVec.ofBool s)) (18#6)) a) b) o)
  | .bge y s a b o => .core (push (push (push (push (push (push 0#32 (BitVec.ofBool y)) (BitVec.ofBool s)) (19#6)) a) b) o)
  | .bltn y s a b o => .core (push (push (push (push (push (push 0#32 (BitVec.ofBool y)) (BitVec.ofBool s)) (20#6)) a) b) o)
  | .bgen y s a b o => .core (push (push (push (push (push (push 0#32 (BitVec.ofBool y)) (BitVec.ofBool s)) (21#6)) a) b) o)
  | .bbs y s a n o => .core (push (push (push (push (push (push 0#32 (BitVec.ofBool y)) (BitVec.ofBool s)) (22#6)) a) n) o)
  | .bbc y s a n o => .core (push (push (push (push (push (push 0#32 (BitVec.ofBool y)) (BitVec.ofBool s)) (23#6)) a) n) o)
  | .j y s o => .core (push (push (push (push 0#32 (BitVec.ofBool y)) (BitVec.ofBool s)) (24#6)) o)
  | .jal y o => .core (push (push (push (push 0#32 (BitVec.ofBool y)) (0#1)) (25#6)) o)
  | .jalr y d a i => .core (push (push (push (push (push (push 0#32 (BitVec.ofBool y)) (0#1)) (26#6)) d) a) i)
  | .loop y s a o => .core (push (push (push (push (push (push 0#32 (BitVec.ofBool y)) (BitVec.ofBool s)) (27#6)) a) (0#5)) o)
  | .ldb y d b c o => .core (push (push (push (push (push (push (push 0#32 (BitVec.ofBool y)) (0#1)) (28#6)) d) b) c) o)
  | .ldh y d b c o => .core (push (push (push (push (push (push (push 0#32 (BitVec.ofBool y)) (0#1)) (29#6)) d) b) c) o)
  | .ldw y d b c o => .core (push (push (push (push (push (push (push 0#32 (BitVec.ofBool y)) (0#1)) (30#6)) d) b) c) o)
  | .ldd y d b c o => .core (push (push (push (push (push (push (push 0#32 (BitVec.ofBool y)) (0#1)) (31#6)) d) b) c) o)
  | .ldbn y d b c o => .core (push (push (push (push (push (push (push 0#32 (BitVec.ofBool y)) (0#1)) (32#6)) d) b) c) o)
  | .ldhn y d b c o => .core (push (push (push (push (push (push (push 0#32 (BitVec.ofBool y)) (0#1)) (33#6)) d) b) c) o)
  | .ldwn y d b c o => .core (push (push (push (push (push (push (push 0#32 (BitVec.ofBool y)) (0#1)) (34#6)) d) b) c) o)
  | .stb y s b c o => .core (push (push (push (push (push (push (push 0#32 (BitVec.ofBool y)) (0#1)) (35#6)) s) b) c) o)
  | .sth y s b c o => .core (push (push (push (push (push (push (push 0#32 (BitVec.ofBool y)) (0#1)) (36#6)) s) b) c) o)
  | .stw y s b c o => .core (push (push (push (push (push (push (push 0#32 (BitVec.ofBool y)) (0#1)) (37#6)) s) b) c) o)
  | .std y s b c o => .core (push (push (push (push (push (push (push 0#32 (BitVec.ofBool y)) (0#1)) (38#6)) s) b) c) o)
  | .ldu y s d b o => .core (push (push (push (push (push (push (push 0#32 (BitVec.ofBool y)) (BitVec.ofBool s)) (39#6)) d) b) (0#2)) o)
  | .hld d h c z x i => .core (push (push (push (push (push (push (push (push (push 0#32 (1#1)) (0#1)) (40#6)) d) h) c) z) x) i)
  | .hldn d h c z x i => .core (push (push (push (push (push (push (push (push (push 0#32 (1#1)) (0#1)) (41#6)) d) h) c) z) x) i)
  | .hst s h c z x i => .core (push (push (push (push (push (push (push (push (push 0#32 (1#1)) (0#1)) (42#6)) s) h) c) z) x) i)
  | .hstnt s h c z x i => .core (push (push (push (push (push (push (push (push (push 0#32 (1#1)) (0#1)) (43#6)) s) h) c) z) x) i)
  | .xlatR h a => .core (push (push (push (push (push (push (push (push 0#32 (1#1)) (0#1)) (44#6)) (0#1)) h) a) (0#5)) (0#9))
  | .xlatRw h a => .core (push (push (push (push (push (push (push (push 0#32 (1#1)) (0#1)) (44#6)) (0#1)) h) a) (0#5)) (1#9))
  | .hrel h => .core (push (push (push (push (push (push (push 0#32 (1#1)) (0#1)) (44#6)) (0#1)) h) (0#10)) (2#9))
  | .amo d h c x k z => .core (push (push (push (push (push (push (push (push (push (push 0#32 (1#1)) (0#1)) (45#6)) d) h) c) x) k) z) (0#3))
  | .rld d p o r c f => .core (push (push (push (push (push (push (push (push (push 0#32 (1#1)) (0#1)) (46#6)) d) p) o) r) c) f)
  | .rldLine p o r c => .core (push (push (push (push (push (push (push (push (push 0#32 (1#1)) (0#1)) (46#6)) (30#5)) p) o) r) c) (7#5))
  | .rst s p o r c f => .core (push (push (push (push (push (push (push (push (push 0#32 (1#1)) (0#1)) (47#6)) s) p) o) r) c) f)
  | .ramo d p o r c k z => .core (push (push (push (push (push (push (push (push (push (push 0#32 (1#1)) (0#1)) (48#6)) d) p) o) r) c) k) z)
  | .fence y e r c => .core (push (push (push (push (push (push (push (push (push 0#32 (BitVec.ofBool y)) (0#1)) (49#6)) (0#10)) (0#1)) e) r) c) (0#3))
  | .drain y e => .core (push (push (push (push (push (push (push 0#32 (BitVec.ofBool y)) (0#1)) (49#6)) (0#10)) (1#1)) e) (0#10))
  | .bar l => .core (push (push (push (push (push (push (push 0#32 (0#1)) (0#1)) (50#6)) (0#10)) (0#2)) l) (0#9))
  | .barr d a l c => .core (push (push (push (push (push (push (push (push (push 0#32 (0#1)) (0#1)) (50#6)) d) a) (1#2)) l) c) (0#6))
  | .bara l => .core (push (push (push (push (push (push (push 0#32 (0#1)) (0#1)) (50#6)) (0#10)) (2#2)) l) (0#9))
  | .barw l => .core (push (push (push (push (push (push (push 0#32 (0#1)) (0#1)) (50#6)) (0#10)) (3#2)) l) (0#9))
  | .sig a => .core (push (push (push (push (push (push (push 0#32 (0#1)) (0#1)) (51#6)) (0#5)) a) (0#2)) (0#12))
  | .waitc a => .core (push (push (push (push (push (push (push 0#32 (0#1)) (0#1)) (51#6)) (0#5)) a) (1#2)) (0#12))
  | .clrp a b => .core (push (push (push (push (push (push (push 0#32 (0#1)) (0#1)) (52#6)) (0#5)) a) b) (0#9))
  | .setp a b => .core (push (push (push (push (push (push (push 0#32 (0#1)) (0#1)) (52#6)) (0#5)) a) b) (1#9))
  | .enq q f c => .core (push (push (push (push (push (push (push 0#32 (0#1)) (0#1)) (53#6)) q) f) c) (0#13))
  | .enqi q l o => .core (push (push (push (push (push (push 0#32 (0#1)) (0#1)) (54#6)) q) l) o)
  | .tokw t => .core (push (push (push (push (push (push (push 0#32 (0#1)) (0#1)) (55#6)) (0#10)) (0#2)) (0#6)) t)
  | .tokq d t => .core (push (push (push (push (push (push (push (push 0#32 (0#1)) (0#1)) (55#6)) d) (0#5)) (1#2)) (0#6)) t)
  | .kset k x p => .core (push (push (push (push (push (push (push (push (push 0#32 (0#1)) (0#1)) (56#6)) k) (0#6)) x) (0#4)) p) (0#4))
  | .krange k x => .core (push (push (push (push (push (push (push (push 0#32 (0#1)) (0#1)) (56#6)) k) (0#6)) x) (0#6)) (1#4))
  | .kand k a b => .core (push (push (push (push (push (push (push (push 0#32 (0#1)) (0#1)) (56#6)) k) a) b) (0#11)) (2#4))
  | .kor k a b => .core (push (push (push (push (push (push (push (push 0#32 (0#1)) (0#1)) (56#6)) k) a) b) (0#11)) (3#4))
  | .knot k a => .core (push (push (push (push (push (push (push 0#32 (0#1)) (0#1)) (56#6)) k) a) (0#14)) (4#4))
  | .kpop a x => .core (push (push (push (push (push (push (push (push (push 0#32 (0#1)) (0#1)) (56#6)) (0#3)) a) (0#3)) x) (0#6)) (5#4))
  | .swopen w a b => .core (push (push (push (push (push (push (push (push 0#32 (1#1)) (0#1)) (57#6)) (0#1)) w) a) b) (0#9))
  | .swadv w a => .core (push (push (push (push (push (push (push (push 0#32 (1#1)) (0#1)) (57#6)) (0#1)) w) a) (0#5)) (1#9))
  | .swclose w => .core (push (push (push (push (push (push (push 0#32 (1#1)) (0#1)) (57#6)) (0#1)) w) (0#10)) (2#9))
  | .nop y => .core (push (push (push (push (push (push 0#32 (BitVec.ofBool y)) (0#1)) (0#6)) (0#10)) (0#4)) (0#10))
  | .halt  => .core (push (push (push (push (push (push 0#32 (0#1)) (0#1)) (0#6)) (0#10)) (1#4)) (0#10))
  | .trap y i => .core (push (push (push (push (push (push 0#32 (BitVec.ofBool y)) (0#1)) (0#6)) (0#10)) (2#4)) i)
  | .tret  => .core (push (push (push (push (push (push 0#32 (0#1)) (0#1)) (0#6)) (0#10)) (3#4)) (0#10))
  | .yield  => .core (push (push (push (push (push (push 0#32 (0#1)) (0#1)) (0#6)) (0#10)) (4#4)) (0#10))
  | .brk y i => .core (push (push (push (push (push (push 0#32 (BitVec.ofBool y)) (0#1)) (0#6)) (0#10)) (5#4)) i)
  | .mfs y d n => .core (push (push (push (push (push (push (push (push 0#32 (BitVec.ofBool y)) (0#1)) (0#6)) d) (0#5)) (6#4)) (0#2)) n)
  | .mts a n => .core (push (push (push (push (push (push (push (push 0#32 (0#1)) (0#1)) (0#6)) (0#5)) a) (7#4)) (0#2)) n)
  | .chkb y a b => .core (push (push (push (push (push (push (push (push 0#32 (BitVec.ofBool y)) (0#1)) (0#6)) (0#5)) a) (8#4)) b) (0#5))
  | .goMm => .launch 0xE020#16
  | .goMmacc => .launch 0xE021#16
  | .fire => .launch 0xE030#16
  | .collarArm => .launch 0xE031#16
  | .recfgE => .launch 0xE032#16
  | .recfgX => .launch 0xE033#16
  | .xctx => .launch 0xE034#16
  | .strain => .launch 0xE035#16
  | .chain => .launch 0xE040#16
  | .kick => .launch 0xE041#16
  | .copy => .launch 0xE042#16
  | .fill => .launch 0xE043#16
  | .blend => .launch 0xE050#16
  | .stripPass a u => .strip (push (push (push (push (push 0#32 (0#6)) a) (0#6)) u) (0#15))
  | .idle u n => .strip (push (push (push (push (push 0#32 (1#6)) (0#9)) u) (0#7)) n)
  | .stripEos u p m => .strip (push (push (push (push (push (push 0#32 (2#6)) (0#9)) u) (0#7)) p) m)
  | .fadd a b u t r => .strip (push (push (push (push (push (push (push (push 0#32 (4#6)) a) b) (0#3)) u) t) r) (0#8))
  | .fsub a b u t r => .strip (push (push (push (push (push (push (push (push 0#32 (5#6)) a) b) (0#3)) u) t) r) (0#8))
  | .fmul a b u t r => .strip (push (push (push (push (push (push (push (push 0#32 (6#6)) a) b) (0#3)) u) t) r) (0#8))
  | .ffma a b c u t r => .strip (push (push (push (push (push (push (push (push 0#32 (7#6)) a) b) c) u) t) r) (0#8))
  | .fmin a b u t => .strip (push (push (push (push (push (push (push 0#32 (8#6)) a) b) (0#3)) u) t) (0#11))
  | .fmax a b u t => .strip (push (push (push (push (push (push (push 0#32 (9#6)) a) b) (0#3)) u) t) (0#11))
  | .fabs a u t => .strip (push (push (push (push (push (push 0#32 (10#6)) a) (0#6)) u) t) (0#11))
  | .fneg a u t => .strip (push (push (push (push (push (push 0#32 (11#6)) a) (0#6)) u) t) (0#11))
  | .fcmpEq a b u t => .strip (push (push (push (push (push (push (push 0#32 (12#6)) a) b) (0#3)) u) t) (0#11))
  | .fcmpLt a b u t => .strip (push (push (push (push (push (push (push 0#32 (13#6)) a) b) (0#3)) u) t) (0#11))
  | .fcmpLe a b u t => .strip (push (push (push (push (push (push (push 0#32 (14#6)) a) b) (0#3)) u) t) (0#11))
  | .fsel a b c u t => .strip (push (push (push (push (push (push (push 0#32 (15#6)) a) b) c) u) t) (0#11))
  | .iadd a b u t r => .strip (push (push (push (push (push (push (push (push 0#32 (16#6)) a) b) (0#3)) u) t) r) (0#8))
  | .isub a b u t r => .strip (push (push (push (push (push (push (push (push 0#32 (17#6)) a) b) (0#3)) u) t) r) (0#8))
  | .iand a b u t => .strip (push (push (push (push (push (push (push 0#32 (18#6)) a) b) (0#3)) u) t) (0#11))
  | .ior a b u t => .strip (push (push (push (push (push (push (push 0#32 (19#6)) a) b) (0#3)) u) t) (0#11))
  | .ixor a b u t => .strip (push (push (push (push (push (push (push 0#32 (20#6)) a) b) (0#3)) u) t) (0#11))
  | .ishl a b u t => .strip (push (push (push (push (push (push (push 0#32 (21#6)) a) b) (0#3)) u) t) (0#11))
  | .ishr a b u t => .strip (push (push (push (push (push (push (push 0#32 (22#6)) a) b) (0#3)) u) t) (0#11))
  | .isar a b u t => .strip (push (push (push (push (push (push (push 0#32 (23#6)) a) b) (0#3)) u) t) (0#11))
  | .imin a b u t => .strip (push (push (push (push (push (push (push 0#32 (24#6)) a) b) (0#3)) u) t) (0#11))
  | .imax a b u t => .strip (push (push (push (push (push (push (push 0#32 (25#6)) a) b) (0#3)) u) t) (0#11))
  | .cvt a u t r s => .strip (push (push (push (push (push (push (push (push 0#32 (28#6)) a) (0#6)) u) t) r) (0#4)) s)
  | .quant a b u t r l => .strip (push (push (push (push (push (push (push (push (push 0#32 (29#6)) a) b) (0#3)) u) t) r) (0#7)) l)
  | .dequant a u t r => .strip (push (push (push (push (push (push (push 0#32 (30#6)) a) (0#6)) u) t) r) (0#8))
  | .pk4 a u => .strip (push (push (push (push (push 0#32 (31#6)) a) (0#6)) u) (14336#15))
  | .upk4 a u => .strip (push (push (push (push (push 0#32 (32#6)) a) (0#6)) u) (14336#15))
  | .stripHdr a u d => .strip (push (push (push (push (push (push 0#32 (33#6)) a) (0#6)) u) (0#14)) d)
  | .rcp a u t r => .strip (push (push (push (push (push (push (push 0#32 (36#6)) a) (0#6)) u) t) r) (0#8))
  | .stripDiv a b u t r => .strip (push (push (push (push (push (push (push (push 0#32 (37#6)) a) b) (0#3)) u) t) r) (0#8))
  | .sqrt a u t r => .strip (push (push (push (push (push (push (push 0#32 (38#6)) a) (0#6)) u) t) r) (0#8))
  | .rsqrt a u t r => .strip (push (push (push (push (push (push (push 0#32 (39#6)) a) (0#6)) u) t) r) (0#8))
  | .exp2 a u t r => .strip (push (push (push (push (push (push (push 0#32 (40#6)) a) (0#6)) u) t) r) (0#8))
  | .log2 a u t r => .strip (push (push (push (push (push (push (push 0#32 (41#6)) a) (0#6)) u) t) r) (0#8))
  | .tanh a u t r => .strip (push (push (push (push (push (push (push 0#32 (42#6)) a) (0#6)) u) t) r) (0#8))
  | .rsum a u t x m => .strip (push (push (push (push (push (push (push (push 0#32 (44#6)) a) (0#6)) u) t) (0#8)) x) m)
  | .rmax a u t x m => .strip (push (push (push (push (push (push (push (push 0#32 (45#6)) a) (0#6)) u) t) (0#8)) x) m)
  | .rmin a u t x m => .strip (push (push (push (push (push (push (push (push 0#32 (46#6)) a) (0#6)) u) t) (0#8)) x) m)
  | .scan a u t e => .strip (push (push (push (push (push (push (push 0#32 (47#6)) a) (0#6)) u) t) (0#10)) e)
  | .perm a b u => .strip (push (push (push (push (push (push 0#32 (48#6)) a) b) (0#3)) u) (0#15))
  | .rot a u n => .strip (push (push (push (push (push (push 0#32 (49#6)) a) (0#6)) u) (0#7)) n)
  | .bcast a u n => .strip (push (push (push (push (push (push 0#32 (50#6)) a) (0#6)) u) (0#7)) n)
  | .lds u c => .strip (push (push (push (push (push 0#32 (52#6)) (0#9)) u) (0#14)) c)
  | .sts a c s => .strip (push (push (push (push (push 0#32 (53#6)) a) (0#21)) c) s)
  | .gath a u => .strip (push (push (push (push (push 0#32 (54#6)) a) (0#6)) u) (0#15))
  | .scat a b => .strip (push (push (push (push 0#32 (55#6)) a) b) (0#20))
  | .dly a u n => .strip (push (push (push (push (push (push 0#32 (56#6)) a) (0#6)) u) (0#7)) n)
  | .vrd u t v => .strip (push (push (push (push (push (push 0#32 (58#6)) (0#9)) u) t) (0#5)) v)
  | .vwr a t v => .strip (push (push (push (push (push (push 0#32 (59#6)) a) (0#8)) t) (0#5)) v)
  | .tail _ _ _ => .none
  | .notify _ _ => .none
  | .commandFetch _ => .none
  | .commandRefetch _ => .none
  | .queueDescriptorWrite _ _ _ => .none
  | .qerrClear _ => .none
  | .queueSwitchIn _ => .none
  | .dispatch _ => .none
  | .arm _ => .none
  | .free _ => .none
  | .launch _ => .none
  | .launchAllocate _ => .none
  | .caddyBusyHit _ => .none
  | .steepSpecialise _ => .none
  | .placeAndRoute _ => .none
  | .configCode _ _ => .none
  | .configContext _ _ => .none
  | .configSlotTable _ _ => .none
  | .configDataBlock _ _ => .none
  | .configUniform _ _ => .none
  | .configEnd _ _ => .none
  | .taskStart _ => .none
  | .taskEnd _ => .none
  | .saveTask _ => .none
  | .restoreTask _ => .none
  | .pageResident _ _ => .none
  | .counterDecrement _ _ => .none
  | .hang _ => .none
  | .barrierArrival _ _ => .none
  | .barrierComplete _ _ _ => .none
  | .deferto _ _ => .none
  | .storeRetire _ _ => .none
  | .leaveBag _ _ => .none
  | .deliver _ => .none
  | .responseArrival _ => .none
  | .writeAcknowledgement _ => .none
  | .refusal _ => .none
  | .translationWalk _ _ => .none
  | .revocation _ _ => .none
  | .revocationComplete _ => .none
  | .heatDecay => .none
  | .migrationArm _ _ _ _ => .none
  | .migrationCopy _ => .none
  | .migrationRecopy _ => .none
  | .migrationHold _ => .none
  | .migrationSwitch _ => .none
  | .migrationForward _ => .none
  | .eviction _ _ _ => .none
  | .windowPublish _ _ => .none
  | .rowRetirement _ _ => .none
  | .retirementListUpdate _ => .none
  | .slotOwnerWrite _ _ _ _ => .none
  | .slotOwnerApply _ _ => .none
  | .circuitBeat _ => .none
  | .entryComplete _ _ => .none
  | .matrixStep _ => .none
  | .retirement _ => .none
  | .exitBankEmit _ => .none
  | .aeBeWrite _ _ => .none
  | .cfgToken _ _ _ => .none
  | .snapshotRequest _ => .none
  | .snapMarker _ _ _ => .none
  | .snapshotComplete _ => .none
  | .strainerRelease _ => .none
  | .copyRecord _ => .none
  | .trapEntry _ => .none
  | .fatalTrap _ => .none
  | .freeze _ => .none
  | .thaw _ => .none
  | .cellHalt _ => .none
  | .partitionSwap _ _ => .none
  | .blenderChunk _ => .none
  | .dataFlitSend _ _ _ => .none
  | .dataFlit _ _ => .none
  | .totalsFlit _ _ => .none
  | .totalsSend _ => .none
  | .replayRequest _ _ => .none
  | .keyInstall _ _ _ _ => .none
  | .keySwitch _ => .none
  | .exhaustionTimeout _ => .none
  | .linkRetrain _ => .none
  | .eventRingSummary _ => .none
  | .powerEvent _ => .none
  | .boot _ => .none
  | .ownerEnrolment _ _ _ => .none
  | .ownershipTransfer _ => .none
  | .acceptEmpty _ => .none
  | .attestationQuote _ => .none
  | .partitionReset _ => .none
  | .configGenerationChange => .none
  | .imageLoad _ => .none
  | .configurationWrite _ => .none
  | .memoryError _ _ _ => .none
  | .powerLoss _ => .none
  | .configPacketCorruption _ _ _ => .none

/-- Decode a word of any of the three kinds. -/
def decodeCode : Code → Decoded
  | .core w => decodeCore w
  | .launch w => decodeLaunch w
  | .strip w => decodeStrip w
  | .none => .reject .short

/-- The instruction a table word stands for. A word of 16 bits is a launch word. A word of 32 bits is read as a
control-core word; one that the control core refuses is read as a strip word. DESIGN CHOICE (assumption 6): the two
kinds of 32-bit word share their encoding space, and a word alone does not say which unit reads it. -/
def decodeTableWord (nbits w : Nat) : Option Instr :=
  if nbits = 16 then
    match decodeLaunch (BitVec.ofNat 16 w) with
    | .ok i => some i
    | .reject _ => Option.none
  else if nbits = 32 then
    match decodeCore (BitVec.ofNat 32 w) with
    | .ok i => some i
    | .reject _ =>
      match decodeStrip (BitVec.ofNat 32 w) with
      | .ok i => some i
      | .reject _ => Option.none
  else Option.none

end Sys2Proof
end

