-- ==== Sys2Proof/Config.lean ====
section
/-! DEFINITION. What one implementation fixes, and the free values: constants without a body, where the manual fixes no
value. Nothing can be proved of an opaque constant's value, so every claim holds whatever it is. -/

namespace Sys2Proof.Config

/-- Local scratch is 768 KiB (R11). -/
abbrev scratchBytes : Nat := 0xC0000

/-- Cells of a package: 4 dies of 128 sites (R2, R15). -/
abbrev sites : Nat := 512

/-- The slice columns of every die (R2, R153). -/
abbrev isSliceSite (site : Nat) : Bool := site % 16 == 7 || site % 16 == 15

/-- Manufacturing test's free choice, by die and place in the order of choosing (R419): it differs from device to device. -/
opaque spareChoice : (die k : Nat) → Nat

/-- Take `n` different members out of a list, the k-th by the choice's k-th number. -/
def pickSome (choice : Nat → Nat) : Nat → List Nat → List Nat
  | 0, _ => []
  | n + 1, xs =>
    match xs[choice n % xs.length]? with
    | none => []
    | some x => x :: pickSome choice n (xs.erase x)

/-- Cell sites of a die (R2). -/
def cellSites (die : Nat) : List Nat := ((List.range 128).map (128 * die + ·)).filter fun i => !isSliceSite i

/-- The eight cell sites of each die that manufacturing test disabled, rising: 104 of a die's 112 stay enabled (R2, R75,
R419). -/
def spareSites : List Nat :=
  (List.range 4).flatMap fun d => (cellSites d).filter (pickSome (spareChoice d) 8 (cellSites d)).contains

/-- Cycles that pass around the n-th step: the manual gives latencies, and this model leaves cycle counts out
(assumption 2): any count of cycles, 0 included. DESIGN CHOICE. -/
opaque elapsed : Nat → Nat

/-- The n-th value of no stated content (assumption 3). DESIGN CHOICE. -/
opaque freeWord : Nat → BitVec 64

/-- Whether place-and-route fails a graph on a cell, and why: 0 no tracks, 1 the time limit (R281, R282). The manual gives
the engine's limits and not its search. -/
opaque placeAndRouteFails : (cell graph : Nat) → (ctx : Mem) → Option (Fin 2)

/-- The slot table entries that the configuration packets of an image carry, by image, logical cell and logical slot: the
manual's image layout names no section that holds them (R126, R133, R174). -/
opaque slotEntry : (imgid : Word) → (lcell slot : Nat) → BitVec 64

/-- The 64 KiB frames that hold bytes of a DRAM row: the manual does not say how addresses interleave over channels, banks
and rows (R166). -/
opaque rowFrames : (row : Nat) → List (BitVec 36)

/-- The intermediate package of a `two` request: a hash that the manual does not give, of source package, source cell and
the cell's count of requests (R373). -/
opaque viaPackage : (pkg cell count : Nat) → Nat

/-- A request of another package to a window of this one: the requester's package, cell, partition and class, the window,
offset and size, and what it asks: 0 a load, 1 a signed load, 2 a line, 3 a store, 4 an atomic `op` (R183-R192, R374). -/
structure FarRequest where
  pkg : BitVec 9
  cell : Nat
  part : BitVec 4
  rc : BitVec 2
  wid : BitVec 16
  off : Nat
  size : Nat
  kind : Nat
  op : BitVec 4
  v : BitVec 64
  v2 : BitVec 64
deriving DecidableEq, Repr

/-- The partial count of another package at a level-4 barrier, in a generation: its members counted, their arrivals so far,
its open phase items, and the combine of its arrivals (R92, R330, R376). -/
structure FarArrival where
  pkg : BitVec 9
  part : BitVec 4
  gen : Bool
  expect : Nat
  arrived : Nat
  open_ : Nat
  op : Option (BitVec 3 × BitVec 64)
  mix : Bool
deriving DecidableEq, Repr

/-- What the payload of a flit means to this package: a request to it, or a message of the barrier network. The manual gives
the payload's size and no layout (R365, R366). -/
opaque farRequest : BitVec 384 → Option FarRequest
opaque farArrival : BitVec 384 → Option FarArrival

/-- The request of this package, by its number, that the response in a flit on RSP answers (R366). -/
opaque farResponse : BitVec 384 → Option Nat

/-- The payload of a flit that this package sends for a request or a response. -/
opaque flitPayload : Nat → BitVec 384

/-- The PATH and LAT fields of one route word, as place-and-route chooses them (R274, R281). -/
opaque routeChoice : (cell graph strip input : Nat) → BitVec 18

/-- The SM3 digest. The manual names the algorithm and does not define it (R146, R404). PRESUMED a function. -/
opaque sm3 : List Byte → BitVec 256

/-- SM2 signature check: key, digest, signature (R404, R405). -/
opaque sm2Verify : (key : BitVec 512) → (digest : BitVec 256) → (sig : BitVec 512) → Bool

/-- SM2 signature of the device identity key (R406). -/
opaque sm2Sign : (digest : BitVec 256) → BitVec 512

/-- SM4-GCM: key, nonce, additional data, payload to cipher text and tag of 64 bits (R370). -/
opaque sm4Seal : (key : BitVec 128) → (nonce : BitVec 96) → (aad : BitVec 32) → BitVec 384 → BitVec 384 × BitVec 64

/-- SM4-GCM opening: the plain payload when the tag is right (R370). -/
opaque sm4Open : (key : BitVec 128) → (nonce : BitVec 96) → (aad : BitVec 32) → BitVec 384 → BitVec 64 → Option (BitVec 384)

/-- The CRC-32 of a flit; the manual gives no polynomial (R365). -/
opaque crc32 : BitVec 480 → BitVec 32

/-- Fused values of one device: the maker key, the device id (R404, R405). -/
opaque makerKey : BitVec 512
opaque deviceId : List Byte

/-- The rounded value of a transcendental function where the bounds of `Machine/Special.lean` leave two candidates
(never met by a binary32 operand as far as is known, assumption 20). -/
opaque specialTie : (fn : Nat) → (operand : BitVec 32) → (mode : BitVec 3) → BitVec 32

/-- The magnitude that ABS gives the i32 value −2^31, which i32 does not hold (R303). -/
opaque magnitudeOfLeast : BitVec 32

/-- The scale that a block maximum gives when it is negative, infinite or NaN beside finite data: the manual states a
scale for no such maximum (R216, R217). -/
opaque scaleOfMax : BitVec 32 → BitVec 8

/-- The power in watts that the governor projects for a clock step from the activity of the last superstep, which is measured:
0 is 1.35 GHz, 15 is 2.70 GHz (R409). -/
opaque projectedWatts : Nat → BitVec 4 → Nat

/-- The owner key that an enrolment image writes; the manual gives no layout of that image (R405). -/
opaque enrolledKey : List Byte → BitVec 512

/-- Whether the access table of another package admits a request to its window: this package does not hold that table
(R188, assumption 11). DESIGN CHOICE. -/
opaque choice : Nat → Bool

end Sys2Proof.Config
end

