-- ==== Sys2Proof/Machine/State.lean ====
section
/-! DEFINITION. The state of one Pyrez package as plain data, and its value after reset.

One package: its cells, scheduler, memory system, networks, links and firmware-held state. Cells, queues, counters and
other numbered things are sparse stores by number. A cell that holds no task has no entry in `State.cells`; it stands at
`Cell.fresh`, the values of a task start. -/

namespace Sys2Proof.Machine

/-! ### Traps -/

/-- Trap codes 1-20 (R338). -/
inductive TrapCode where
  | illegal | align | bankconf | matgroup | format | handle | xlatfault | access | presence | deferto
  | packet | stripdz | stripinv | ecc | link | hang | soft | brk | chk | ctrUnderflow
deriving DecidableEq, Repr

/-- What a unit reports when it raises a trap: the fields of R339 and R340 that the unit supplies. -/
structure Trap where
  code : TrapCode
  /-- UNIT of R339: 0 execute stream, 1 access stream, 2 q0, 3 q1 entry, 4 strip, 5 q2, 6 q3, 7 watchdog -/
  unit : BitVec 4
  late : Bool := false
  sub : BitVec 2 := 0
  strip : BitVec 4 := 0
  widx : BitVec 7 := 0
  word : BitVec 32 := 0
  /-- TREC1 -/
  addr : Word := 0
  /-- TREC6 -/
  d6 : Word := 0
  /-- TREC7 -/
  d7 : Word := 0
deriving DecidableEq, Repr

/-! ### The control core -/

/-- A handle register of 128 bits, by its fields (R157). -/
structure Handle where
  v : Bool := false
  w : Bool := false
  kind : BitVec 3 := 0
  size : BitVec 2 := 0
  bound : Bool := false
  pfn : BitVec 36 := 0
  gen : BitVec 8 := 0
  vpage : BitVec 41 := 0
  rwreq : Bool := false
deriving DecidableEq, Repr

/-- An open stream window (R164, R197). -/
structure StreamWindow where
  base : Word
  len : Word
  mark : Word
deriving DecidableEq, Repr

/-- One LDQ entry: reserved until filled; a line entry holds its response slot (R79, R191). -/
structure LdqEntry where
  id : Nat
  filled : Bool
  vals : List Word
  slot : Bool := false
deriving DecidableEq, Repr

/-- A branch outcome that one stream decided and the other follows (R77). -/
structure BranchOutcome where
  taken : Bool
  target : Word
deriving DecidableEq, Repr

/-- What the execute stream tells the access stream at an A = 0 branch (an outcome) or at an instruction the access
stream stops at (that it has completed) (R77, R97, R241, R344). -/
inductive PathItem where
  | outcome (o : BranchOutcome)
  | pass
deriving DecidableEq, Repr

/-- Where the execute stream stands in a barrier instruction (R95, R96). -/
inductive BarPhase where
  | idle
  | arriving (l : BitVec 3) (op : Option (BitVec 3 × Word))
  | arrived (l : BitVec 3)
deriving DecidableEq, Repr

/-- An engine token (R233). -/
structure Token where
  pend : Bool := false
  seq : BitVec 16 := 0
deriving DecidableEq, Repr

/-- The handler save area (R343 step 4), with the places at which the streams stopped. -/
structure SaveArea where
  ldq : List LdqEntry
  eaq : List Word
  boq : List BranchOutcome
  path : List PathItem
  pcE : Word
  pcA : Word
  brE : Nat
  brA : Nat
  barPhase : BarPhase
  tokWait : Option (BitVec 6 × BitVec 16)
deriving DecidableEq, Repr

/-- The special registers of R15 (CYC is counted from `cycBase`, R86). -/
structure Specials where
  cellid : BitVec 9 := 0
  lcell : BitVec 6 := 0
  taskid : BitVec 32 := 0
  /-- device cycle at which CYC was 0 -/
  cycBase : Nat := 0
  maxk : BitVec 16 := 4096
  pgmode : BitVec 6 := 0
  domain : Word := 0
  trapvec : Word := 0
  defer : BitVec 32 := 0x01000000
  ftz : BitVec 16 := 0
  trec : Vector Word 8 := Vector.replicate 8 0
deriving DecidableEq, Repr

/-- Where an access lies, for the checks of debug mode (R410). -/
inductive DebugPlace where
  | cell (id : Nat)
  | physical
  /-- a virtual address that no page maps -/
  | virt
  /-- the memory of another package -/
  | far (pkg : BitVec 9)
deriving DecidableEq, Repr

/-- An access of a stream that no fence has covered since, kept in debug mode (R199, R410). -/
structure DebugAccess where
  acc : Bool
  cls : BitVec 2
  rc : BitVec 2
  nt : Bool := false
  place : DebugPlace
  addr : Nat
  size : Nat
deriving DecidableEq, Repr

/-- Bytes that an entry has accessed, kept in debug mode: the entry's number and production, and the productions it
comes after (R243, R410). -/
structure EngineAccess where
  q : BitVec 2
  seq : BitVec 16
  prod : BitVec 6 × BitVec 16
  after : List (BitVec 6 × BitVec 16)
  place : DebugPlace
  addr : Nat
  size : Nat
deriving DecidableEq, Repr

/-- The control core of a cell (R6). -/
structure Core where
  regsE : Vector Word 32 := Vector.replicate 32 0
  regsA : Vector Word 32 := Vector.replicate 32 0
  /-- places of the two streams: byte offsets, kept whole until the fetch checks them (R10, R28, R76) -/
  pcE : Word := 0
  pcA : Word := 0
  /-- branches each stream has passed: with the place, its position in program order (model's own) -/
  brE : Nat := 0
  brA : Nat := 0
  hm : Bool := false
  halted : Bool := false
  ldq : List LdqEntry := []
  eaq : List Word := []
  boq : List BranchOutcome := []
  path : List PathItem := []
  /-- access-file registers whose load has not returned (R49) -/
  busy : BitVec 32 := 0
  barPhase : BarPhase := .idle
  tokWait : Option (BitVec 6 × BitVec 16) := none
  save : Option SaveArea := none
  handles : Vector Handle 16 := Vector.replicate 16 (Handle.mk false false 0 0 false 0 0 0 false)
  windows : Vector (Option StreamWindow) 16 := Vector.replicate 16 none
  masks : Vector Lanes 8 := Vector.replicate 8 (BitVec.allOnes 192)
  tokens : Vector Token 64 := Vector.replicate 64 (Token.mk false 0)
  sr : Specials := {}
  /-- a trap raised whose entry waits for the engines and the issued accesses (R343 steps 1, 2), and the cycle in which it
  was raised (R359) -/
  trap : Option Trap := none
  trapAt : Nat := 0
  /-- handler runs so far (model's own): which run issued an entry (R242) -/
  run : Nat := 0
  /-- refusals and faults held until `tret` or restore (R343 step 1, R359) -/
  held : List Trap := []
  exitBit : Bool := false
  /-- response slots (of 8) and write credits (of 16) held (R177) -/
  slots : Nat := 0
  credits : Nat := 0
  /-- LDQ entries of refused loads that `tret` fills with zero (R342) -/
  refusedLoads : List Nat := []
  /-- both streams stopped: by a halt for a save or a swap, or by a fatal trap (R345, R356) -/
  stopIssue : Bool := false
  /-- accesses that debug mode checks against (R410) -/
  recent : List DebugAccess := []
  /-- the counter, by generation and number, that fired while the core waited on it and was away or being halted (R359) -/
  fired : Option (BitVec 32) := none
deriving DecidableEq, Repr

/-! ### Local memory -/

/-- A local store in an alias-class buffer (R198). -/
structure BufStore where
  acc : Bool
  addr : Nat
  size : Nat
  data : Word
  br : Nat
  pc : Word
  /-- what it removed from the LDQ and the EAQ for its base and its datum, in order: a store that traps gives it back
  (R18) -/
  ldqBack : List LdqEntry := []
  eaqBack : List Word := []
deriving DecidableEq, Repr

/-- Who waits for a deferred read (R105). -/
inductive Reader where
  | stream (acc : Bool) (d : BitVec 5)
  | ldq (id : Nat)
  | msg (id : Nat)
  | port (strip : Nat)
  | copy (cell : Nat)
  | matrix
deriving DecidableEq, Repr

/-- A deferred read: size and extension of its value, the cycles at which it began to wait (R105). -/
structure Deferred where
  addr : Nat
  size : Nat
  signed : Bool
  reader : Reader
  since : Nat
  pc : Word
  /-- alias class of a local load (R195) -/
  cls : BitVec 2 := 0
  /-- what a stream's load removed from the LDQ or the EAQ for its base: a load that traps gives it back (R18) -/
  ldqBack : Option LdqEntry := none
  eaqBack : Option Word := none
deriving DecidableEq, Repr

/-- A 32-byte word that a deferred read of an engine has returned and its operation has not yet used (R105, R311, R328). -/
structure ReadBack where
  reader : Reader
  word : Nat
  bytes : List Byte
deriving DecidableEq, Repr

/-- Scratch, presence, buffers, code, constants and uniform copy of a cell (R10-R14, R103, R198). -/
structure LocalMem where
  scratch : Mem := []
  /-- indices of the empty 32-byte words of presence groups, rising (R103) -/
  empty : List Nat := []
  deferred : List Deferred := []
  /-- words that deferred engine reads have returned (R105) -/
  served : List ReadBack := []
  bufs : Vector (List BufStore) 4 := Vector.replicate 4 []
  code : Mem := []
  codeLen : Nat := 0
  constLen : Nat := 0
  uniform : Mem := []
  ulen : Nat := 0
deriving DecidableEq, Repr

/-- A cell's barrier state, bit L or place L for level L (R92, R96). -/
structure BarrierLocal where
  pending : BitVec 5 := 0
  mygen : BitVec 5 := 0
  early : BitVec 5 := 0
  combined : Vector Word 5 := Vector.replicate 5 0
  /-- key of the record at which the pending arrival of the level stands -/
  record : Vector Nat 5 := Vector.replicate 5 0
  /-- a completion that fell while the cell was being halted is delivered at restore: CYC restarts then (R99, R359) -/
  restart : Bool := false
  /-- the generation in which the cell last arrived has completed: on record with it also where the record of the level goes
  on without it (R95, R99) -/
  done : BitVec 5 := 0
deriving DecidableEq, Repr

/-! ### Engines -/

/-- A launch word with its popped operands (R238). -/
inductive Launch where
  | goMm | goMmacc | fire
  | arm (ctx : BitVec 4) | recfgE (ctx : BitVec 4) | recfgX (ctx : BitVec 4)
  | xctx (addr : Word) (ctx : BitVec 4) (save : Bool)
  | strain
  | chain (addr : Word) (ch : BitVec 2) | kick (ch : BitVec 2) | copy (ch : BitVec 2)
  | fill (v : BitVec 32) (ch : BitVec 2)
  | blend (addr : Word)
deriving DecidableEq, Repr

/-- Where a queue entry stands (R225, R235). -/
inductive EntryStatus where
  | waiting | running | finished
  /-- stopped at a fault, before its operation started or within it -/
  | faulted (t : Trap) (started : Bool)
deriving DecidableEq, Repr

/-- An item counted in a phase: its level, which of OUT0 and OUT1 holds it, the record that counts it (R330). -/
structure PhaseItem where
  level : BitVec 3
  side : Bool
  key : Nat
deriving DecidableEq, Repr

/-- A queue entry: a packet's recorded operands, its captured configuration, its progress (R225, R227, R234, R251). -/
structure Entry where
  seq : BitVec 16
  launch : Launch
  waits : List (BitVec 6 × BitVec 16) := []
  tok : BitVec 6
  /-- SEQ of its production (R234) -/
  prod : BitVec 16 := 0
  scope : BitVec 3
  sigs : List (BitVec 32) := []
  /-- the item of the `phase` word (R330) -/
  phase : Option PhaseItem := none
  cfg : SMap Word := []
  km : Lanes := 0
  kn : Lanes := 0
  kk : Lanes := 0
  /-- position of its `enq` in program order, and whether a handler issued it (R242, R355) -/
  br : Nat := 0
  pc : Word := 0
  hm : Bool := false
  /-- the handler run that issued it (model's own) -/
  run : Nat := 0
  status : EntryStatus := .waiting
  /-- matrix entries: level indices 0-5, clear flag, retirement due, tile in the exit bank (R252, R264) -/
  idx : List Nat := []
  clr : Bool := false
  retire : Bool := false
  /-- the entry stands at a retirement, where it may stop (R245, R264) -/
  atPoint : Bool := true
  /-- collar entries: the swap is made (R277) -/
  swapped : Bool := false
  /-- copy entries: the item of the record at hand (R323, R330) -/
  counted : Option PhaseItem := none
  /-- copy entries: the operation had finished when a write of the bag was refused (R235) -/
  ended : Bool := false
deriving DecidableEq, Repr

/-- A command queue of a cell (R225-R227). -/
structure EQueue where
  iseq : BitVec 16 := 0
  dseq : BitVec 16 := 0
  shadow : SMap Word := []
  entries : List Entry := []
  /-- stopped for a trap, halt or freeze (R245, R343) -/
  stopped : Bool := false
deriving DecidableEq, Repr

/-- Channel states of R325. -/
inductive ChState where
  | idle | walk | parked | faulted
deriving DecidableEq, Repr

/-- A place that an engine reads or writes (R320). -/
inductive Place where
  | scratch
  | virt
  | cluster (cell : Nat)
  | window (pkg : BitVec 9) (wid : BitVec 16)
deriving DecidableEq, Repr

/-- A write in the bag of the entry of q2 with this number (R331). -/
structure OwedWrite where
  seq : BitVec 16
  place : Place
  addr : Nat
  bytes : List Byte
  rc : BitVec 2
  ch : BitVec 2
  /-- the bytes it writes, by their place in transfer order, while its record is at hand (R328) -/
  js : List Nat := []
  /-- it has been refused: it is tried again when its entry is (R326) -/
  refused : Bool := false
deriving DecidableEq, Repr

/-- What an entry of q2 that has completed owes once its writes have gone further: its signals, at package scope, and its
phase item, at that item's level (R236, R330). -/
structure OwedEnd where
  seq : BitVec 16
  sigs : List (BitVec 32)
  phase : Option PhaseItem
deriving DecidableEq, Repr

/-- A copy channel (R317, R328); `prior` is the state before an inline record, or before the fault of an entry that had
finished (R327). -/
structure Channel where
  state : ChState := .idle
  head : Word := 0
  cur : Nat := 0
  map : BitVec 4096 := 0
  prior : ChState := .idle
  /-- the record at hand, read, checked and counted; bytes it has read that are not yet delivered, by their place in
  transfer order; its end marker has been sent (R323, R326, R331) -/
  atHand : Option (Vector Word 8) := none
  got : SMap Byte := []
  eosSent : Bool := false
  /-- the last bytes of the record at hand stand in the bag (R331) -/
  left : Bool := false
  /-- the translations it holds, for its reads and for its writes (R159, R318) -/
  readsBy : Handle := {}
  writesBy : Handle := {}
deriving DecidableEq, Repr

/-! ### The collar -/

/-- A stream token (R269). -/
structure Tok where
  data : Row := 0
  pred : Lanes := 0
  tag : BitVec 4 := 0
  side : BitVec 32 := 0
  ord : BitVec 32 := 0
deriving DecidableEq, Repr

/-- Address generator of a port: the next token's indices, whether a stream is open, the base chosen (R306-R308). -/
structure GenState where
  open_ : Bool := false
  i1 : Nat := 0
  i2 : Nat := 0
  i3 : Nat := 0
  i4 : Nat := 0
  passed : Bool := false
  base : Option (BitVec 20) := none
deriving DecidableEq, Repr

/-- One visible strip (R289-R293, R352, R353). -/
structure Strip where
  pp : Nat := 0
  sc : Nat := 0
  done : Bool := false
  w : Vector (BitVec 32) 8 := Vector.replicate 8 0
  lfsr : BitVec 32 := 1
  displaced : BitVec 32 := 0
  malf : Bool := false
  ovff : Bool := false
  invf : Bool := false
  dzf : Bool := false
  /-- tokens of a group not yet closed: reductions, conversions, bursts (R297-R303, R335) -/
  group : List Tok := []
  fifo : List Tok := []
  /-- waiting cfg tokens with their input (R280) -/
  holder : List (BitVec 2 × Tok) := []
  /-- inputs with an open stream (R280) -/
  opened : BitVec 4 := 0
  gen : GenState := {}
  /-- tokens that wait for room on their outputs, with the outputs they leave on (R289) -/
  outQ : List (BitVec 2 × Tok) := []
  /-- snapshot: marked inputs, recorded, the marker it has still to send (R352) -/
  marked : BitVec 4 := 0
  recorded : Bool := false
  skid : List (BitVec 2 × Tok) := []
  /-- `idle` holds the program pointer until this device cycle (R314) -/
  holdUntil : Nat := 0
  fault : Option Trap := none
deriving DecidableEq, Repr

/-- One half of a live set: the context it came from and a copy of its 8 KiB (R271). -/
structure Half where
  ctx : BitVec 4
  bytes : Mem
  /-- an `xctx` has loaded the context since (R275) -/
  stale : Bool := false
deriving DecidableEq, Repr

/-- An ordered gather or scatter that waits for its turn (R283). -/
structure WaveOp where
  strip : Nat
  out : BitVec 2
  scat : Bool
  a : Tok
  b : Tok
  /-- its port stands at a fault of its own (R332) -/
  stuck : Bool := false
deriving DecidableEq, Repr

/-- The wave sequencer of a collar (R283). -/
structure Wave where
  wave : BitVec 8 := 0
  last : BitVec 8 := 0
  seen : List (BitVec 8) := []
  buf : List WaveOp := []
deriving DecidableEq, Repr

/-- The collar of a cell (R266-R284, R351-R354). -/
structure Collar where
  /-- context store: 128 KiB (R271) -/
  store : Mem := []
  actE : Option Half := none
  actX : Option Half := none
  shE : Option Half := none
  shX : Option Half := none
  /-- the shadow set is valid -/
  shValid : Bool := false
  strips : Vector Strip 16 := Vector.replicate 16 {}
  /-- tokens on the links into input n of strip i at key 4i + n; AE at 64, BE at 65 (R268) -/
  links : SMap (List Tok) := []
  /-- tokens the array entry ports have written in their open stream (R268) -/
  aeK : Nat := 0
  beK : Nat := 0
  aeMarked : Bool := false
  beMarked : Bool := false
  /-- faults that hold the array entry ports (R268, R332) -/
  aeFault : Option Trap := none
  beFault : Option Trap := none
  vreg : SMap Row := []
  vtag : SMap (BitVec 4) := []
  wave : Wave := {}
  strainer : Bool := false
  snapping : Bool := false
  cxSnapped : Bool := false
  snapDone : Bool := false
  /-- strips whose turn has changed nothing since the collar last changed: once every strip has had such a turn, a faulted
  collar has come to rest (R332, R350; the model's own) -/
  calm : BitVec 16 := 0
deriving DecidableEq, Repr

/-- A circuit beat: 32 bytes, partition tag, END marker (R170). -/
structure Beat where
  data : BitVec 256
  part : BitVec 4
  fin : Bool
deriving DecidableEq, Repr

/-- One cell (R6, R357): everything its context frame holds. -/
structure Cell where
  core : Core := {}
  mem : LocalMem := {}
  bar : BarrierLocal := {}
  queues : Vector EQueue 4 := Vector.replicate 4 {}
  channels : Vector Channel 4 := Vector.replicate 4 {}
  /-- accumulator rows 0-191 (R249) -/
  acc : SMap Row := []
  qtag : Vector (BitVec 4) 4 := Vector.replicate 4 0
  malformed : Bool := false
  /-- tokens of the exit bank still to emit (R261, R263) -/
  exitBank : List Tok := []
  collar : Collar := {}
  /-- circuit landing buffer, at most 16 beats, and end markers that wait for room (R172, R324) -/
  landing : List Beat := []
  markers : List Beat := []
  /-- the cycle in which a store port last injected a beat on the LOC input (R170, R173) -/
  injected : Option Nat := none
  slotTable : SMap Word := []
  /-- non-temporal bag (R184): message numbers -/
  bag : List Nat := []
  /-- writes of q2's entries that have left their records and are not performed yet, in transfer order (R331) -/
  owed : List OwedWrite := []
  ends : List OwedEnd := []
  /-- the task the cell belongs to -/
  task : Nat := 0
  part : BitVec 4 := 0
  /-- the cycle at which the cell was frozen, and whether its own fault is the cause: its core then runs its handler
  (R348) -/
  frozen : Option Nat := none
  frozenFault : Bool := false
  /-- engine accesses that debug mode checks against (R410) -/
  engineLog : List EngineAccess := []
  /-- the cell counts as halted for a save or a swap (R356) -/
  paused : Bool := false
deriving DecidableEq, Repr

/-- A cell at task start: R8, R13, R15, R66, R224, R226, R227, R233, R249, R271, R317. -/
def Cell.fresh : Cell := {}

/-! ### Messages and memory -/

/-- A target of the packet plane (R198). -/
inductive Target where
  | cell (id : Nat)
  | pa
  | window (pkg : BitVec 9) (wid : BitVec 16)
deriving DecidableEq, Repr

/-- Where a load's value goes (R190). -/
inductive Dest where
  | reg (d : BitVec 5)
  | ldq (id : Nat)
deriving DecidableEq, Repr

/-- What a message asks of its target (R183-R192). -/
inductive Access where
  | load (signed : Bool) (dst : Dest)
  | line (ldq : Nat)
  | store (data : Word)
  | amo (op : BitVec 4) (v : Word) (v2 : Word) (d : BitVec 5)
deriving DecidableEq, Repr

/-- How far a request to another package has come: in this package, in a flit of a link by its SEQ that the far end has not
acknowledged, or beyond (R368, R369, R373). -/
inductive Trip where
  | here
  | flit (l : Nat) (seq : BitVec 16)
  | away
deriving DecidableEq, Repr

/-- A request on the packet plane, from issue to delivery (R198). -/
structure Msg where
  cell : Nat
  task : Nat
  acc : Bool
  br : Nat
  pc : Word
  word : BitVec 32 := 0
  cls : BitVec 2
  rc : BitVec 2
  nt : Bool := false
  target : Target
  addr : Nat
  /-- the offset within the target that a refusal's trap record holds (R189) -/
  off : Nat := 0
  size : Nat
  kind : Access
  /-- the frame of the handle it was issued through (R159) -/
  frame : Option (BitVec 36) := none
  /-- a `two` request's intermediate site on its die or, to another package, its intermediate package (R176, R373) -/
  via : Option Nat := none
  trip : Trip := .here
  /-- the package and the partition of the requester, for a request of another package (R374) -/
  origin : Option (BitVec 9 × BitVec 4) := none
  /-- an `ada` request to another package: the device cycle since which no link has had credit for it, and whether it has
  moved to the `ord` path (R373) -/
  stalled : Option Nat := none
  onOrd : Bool := false
deriving DecidableEq, Repr

/-- A request of an engine to another package: the bytes a write brings, and its answer, `false` for a refusal with LINK
(R366, R369). -/
structure Ask where
  msg : Msg
  data : Option (List Byte) := none
  answer : Option Bool := none
deriving DecidableEq, Repr

/-- A response on its way back: values, an acknowledgement (no values) or a refusal (R176, R189). One of a read that is
not yet performed is not ready; a line load's holds what its steps have read, and which steps are left (R105, R201). -/
structure Resp where
  msg : Msg
  vals : List Word
  refusal : Option TrapCode
  ready : Bool := true
  /-- steps of a line load still to be made, as byte offsets, and steps deferred at their bank (R201) -/
  left : List Nat := []
  pending : Nat := 0
  /-- its place in the order in which requests were performed (R205) -/
  perf : Nat := 0
deriving DecidableEq, Repr

/-- A decrement on its way to its counter (R101, R122). -/
structure Dec where
  sender : Nat
  part : BitVec 4
  ctr : BitVec 16
  gen : BitVec 16
deriving DecidableEq, Repr

/-- A leaf in a die's translation cache (R181). -/
structure TlbEntry where
  die : BitVec 2
  part : BitVec 4
  /-- virtual page base in 64 KiB units -/
  vpage : BitVec 41
  /-- 0 64 KiB, 1 32 MiB, 2 16 GiB -/
  size : BitVec 2
  pte : Word
deriving DecidableEq, Repr

/-- A revocation in progress (R159): the cells that have still to acknowledge. -/
structure Revocation where
  part : BitVec 4
  pfn : BitVec 36
  waiting : List Nat
deriving DecidableEq, Repr

/-- Migration steps of R162. -/
inductive MigStep where
  | arm | copy | recopy | hold | switched
deriving DecidableEq, Repr

/-- A migration in progress on one die (R162). -/
structure Migration where
  part : BitVec 4
  va : BitVec 57
  /-- bytes of the page: 64 KiB or 32 MiB -/
  bytes : Nat
  src : BitVec 36
  dst : BitVec 36
  gen : BitVec 8
  leafAt : Nat
  step : MigStep
  /-- dirty 256-byte sectors -/
  dirty : List Nat := []
  rounds : Nat := 0
  /-- held writes in arrival order: address, bytes -/
  held : List (Nat × List Byte) := []
deriving DecidableEq, Repr

/-- A published stream window as the controllers of a partition hold it (R164, R193). -/
structure Published where
  part : BitVec 4
  win : StreamWindow
deriving DecidableEq, Repr

/-! ### Barriers, counters, queues, tasks -/

/-- A barrier record (R92, R330). -/
structure Barrier where
  expect : Nat := 0
  arrived : Nat := 0
  gen : Bool := false
  acc : Word := 0
  op : Option (BitVec 3) := none
  mix : Bool := false
  out0 : BitVec 16 := 0
  out1 : BitVec 16 := 0
  /-- members counted in the current generation, by task × 64 + LCELL -/
  counted : List Nat := []
  /-- members placed while the generation is open -/
  placed : List Nat := []
  /-- early arrivals held, with their operands (R93) -/
  early : List (Nat × Option (BitVec 3 × Word)) := []
  /-- level 4: the partial counts of other packages, by generation (R92, R376) -/
  far : List Config.FarArrival := []
  /-- level 4: this package's partial count as it was last sent up the tree: GEN, EXPECT, ARRIVED, OUT[GEN] (R92, R376) -/
  told : Option (Bool × Nat × Nat × Nat) := none
  /-- where the flit is that carried it -/
  toldBy : Trip := .away
deriving DecidableEq, Repr

/-- Counter states (R121). -/
inductive CtrState where
  | free | armed | fired | faulted
deriving DecidableEq, Repr

/-- A dependence counter (R121). -/
structure Counter where
  part : BitVec 4 := 0
  queue : BitVec 12 := 0
  state : CtrState := .free
  gen : BitVec 16 := 0
  value : BitVec 16 := 0
deriving DecidableEq, Repr

/-- A command as the scheduler holds it (R116, R396): its eight doublewords. -/
structure Command where
  dw : Vector Word 8
deriving DecidableEq, Repr

/-- A work queue: descriptor (R113, R393), sticky error (R394), notify shadow (R398), head command. -/
structure Queue where
  en : Bool := false
  restore : Bool := false
  part : BitVec 4 := 0
  prio : BitVec 6 := 0
  tickets : BitVec 13 := 1
  pass : BitVec 40 := 0
  base : BitVec 52 := 0
  lsize : BitVec 4 := 4
  loc : Bool := false
  head : BitVec 32 := 0
  tail : BitVec 32 := 0
  /-- QERR: class and code (R394) -/
  err : Option (BitVec 8 × BitVec 8) := none
  /-- reads made of the head command whose stamp did not match (R397) -/
  rereads : Nat := 0
  cmd : Option Command := none
  /-- the head launch has been charged (R117) -/
  charged : Bool := false
  /-- the task of the head launch -/
  task : Option Nat := none
  shTail : BitVec 32 := 0
  shNotify : Bool := false
  switched : Bool := false
  /-- READY when last looked at, for the PASS rule of R117 -/
  wasReady : Bool := false
  /-- the launch at hand was taken before EN rose last: it is no command of the ring that HEAD counts now (R115, R393) -/
  earlier : Bool := false
deriving DecidableEq, Repr

/-- An image the device holds (R132, R133). -/
structure Image where
  imgid : Word
  bytes : Mem
  len : Nat
  /-- binding-time result once checked: none passes (R135) -/
  checked : Option (Option (BitVec 32)) := none
deriving DecidableEq, Repr

/-- A residual map entry (R148). -/
structure MapEntry where
  roff : Nat
  len : Nat
  ooff : Nat
  kind : BitVec 2
  nidx : Nat
  deep : Bool
  idx : BitVec 64
deriving DecidableEq, Repr

/-- A residual image: code words, pool words, map (R139-R141, R148). -/
structure Residual where
  code : List (BitVec 32)
  pool : List (BitVec 32)
  map : List MapEntry
deriving DecidableEq, Repr

/-- Caddy entry states (R146). -/
inductive CaddyState where
  | busy | residual | fallback
deriving DecidableEq, Repr

/-- A Caddy entry with its blob (R146). -/
structure CaddyEntry where
  imgid : Word
  hash : Word
  state : CaddyState
  part : BitVec 4
  w : BitVec 3
  h : BitVec 3
  cgen : BitVec 16
  unit : Nat
  nunit : Nat
  pin : Nat := 0
  lru : Nat := 0
  /-- the launch whose Steep run made the entry (model's own) -/
  run : Nat := 0
  uniform : List Byte
  residual : Option Residual := none
deriving DecidableEq, Repr

/-- A configuration packet (R126). -/
structure Packet where
  kind : BitVec 4
  target : BitVec 6
  off : Nat
  bytes : List Byte
deriving DecidableEq, Repr

/-- Where a task stands in the launch pipeline and after it (R124, R127-R131). -/
inductive Stage where
  | allocate | steep | caddyWait | place | config | start | running
  | saving (yield : Bool) | saved
deriving DecidableEq, Repr

/-- A fatal trap that ends a task: the faulting member and its record (R345). -/
structure Fatal where
  lcell : Nat
  trap : Trap
  nested : Bool
deriving DecidableEq, Repr

/-- A task from the start of its LAUNCH to its end. -/
structure Task where
  q : BitVec 12
  part : BitVec 4
  image : Image
  w : Nat
  h : Nat
  cells : List Nat := []
  /-- die of the rectangle the task holds, or held last -/
  die : BitVec 2 := 0
  /-- slot blocks granted on that die (R174); a saved task keeps them on record (R180) -/
  blocks : List Nat := []
  uniform : List Byte := []
  stage : Stage := .allocate
  steep : BitVec 4 := 0
  residual : Option Residual := none
  rows : List (List Packet) := []
  ended : List Nat := []
  clu : BitVec 8 := 0
  wake : Bool := false
  waitsPage : List (BitVec 57) := []
  /-- a save that waits for the thaw of a frozen member, and whether a yield asked for it (R356, R359) -/
  saveAsked : Option Bool := none
  /-- the scheduler alone asks for the save, for the cells: it is made only while every member waits (R127) -/
  cellsAsked : Bool := false
  /-- a freeze has broken the save off: the latch keeps what it has latched since step 1 (R128, R356) -/
  saveBroken : Bool := false
  /-- the Caddy entry that the launch has pinned, by the launch that made it (R147) -/
  pinOf : Option Nat := none
  frames : List Cell := []
  /-- frames of HBM that the saved members' contexts lie in, by number (R127, R357) -/
  frameNos : List Nat := []
  /-- device cycle of the save -/
  savedAt : Nat := 0
  fatal : Option Fatal := none
  hhalt : List Nat := []
  crec : Word := 0
  ev : Bool := false
deriving DecidableEq, Repr

/-- A freeze of a domain (R347-R349): the cycle F, its level, the cells frozen (none until F), the faulting cell, the page
it waits for, the cycle of the event that resolves it. -/
structure Freeze where
  at_ : Nat
  level : BitVec 3
  done : Bool := false
  cells : List Nat := []
  faulty : Nat
  page : Option (BitVec 57) := none
  resolved : Option Nat := none
deriving DecidableEq, Repr

/-- A partition (R75, R154, R172, R400). -/
structure Partition where
  cells : List Nat := []
  /-- address of the page table's root; until firmware sets one it names no address of 52 bits (R154; DESIGN CHOICE, assumption
  8) -/
  root : Nat := 0x10000000000000
  memb : BitVec 5 := 3
  watchdogMs : Nat := 100
  /-- device cycle of the last completion in a stream or of an engine entry, from which the watchdog counts (R91) -/
  lastDone : Nat := 0
  circdrop : BitVec 32 := 0
  resident : Bool := true
  /-- a swap has been asked for and waits for the thaw of frozen cells (R356, R359) -/
  swapAsked : Bool := false
  /-- its cells' contexts lie in shadow storage (R358) -/
  away : Bool := false
  /-- where in shadow storage the frames of its cells lie while it is out (R153, R357, R358) -/
  shadowAt : SMap Nat := []
  /-- where in HBM firmware has assigned frames for saved contexts (R127) -/
  frameBase : Option (BitVec 52) := none
  /-- device cycle of the swap that took its cells out -/
  swappedAt : Nat := 0
  freezes : List Freeze := []
  ringBase : BitVec 52 := 0
  ringK : Nat := 6
  prod : Word := 0
  cons : Word := 0
  evSeq : Word := 0
  overflow : Bool := false
  /-- the evictor's threshold, and the HBM pages of 64 KiB that are free, as firmware last told (R165) -/
  evictPages : Nat := 0
  freePages : Nat := 0
  debug : Bool := false
  /-- the queue the dispatcher has chosen, until its head is started (R117) -/
  chosen : Option (BitVec 12) := none
  /-- firmware resets the partition, whose tasks have still to come to rest (R345, R408) -/
  resetAsked : Bool := false
deriving DecidableEq, Repr

/-! ### Links and firmware -/

/-- Link-key states of R371; DOWN is `Link.down`. -/
inductive KeyState where
  | active | activeNext | exhausted
deriving DecidableEq, Repr

/-- A key slot (R370, R371). -/
structure KeySlot where
  key : BitVec 128
  salt : BitVec 48
deriving DecidableEq, Repr

/-- One Narmos link: the sending and the receiving side at this package (R365-R371). -/
structure Link where
  /-- totals by virtual channel: flits sent, the FREED last received, buffer slots freed here (R367) -/
  sent : Vector (BitVec 32) 6 := Vector.replicate 6 0
  freedLatest : Vector (BitVec 32) 6 := Vector.replicate 6 0
  freed : Vector (BitVec 32) 6 := Vector.replicate 6 0
  /-- SEQ of the next new flit, of the flit expected, and of the last one accepted (R368) -/
  seq : BitVec 16 := 0
  expect : BitVec 16 := 0
  ackIn : BitVec 16 := BitVec.allOnes 16
  replay : List (BitVec 512) := []
  /-- replay requests sent for the SEQ expected; one has been sent since the last totals flit (R368) -/
  askedHere : Nat := 0
  askWait : Bool := false
  /-- SEQ of the replay request received last, and how many have come for it (R368) -/
  askedSeq : BitVec 16 := 0
  askedThere : Nat := 0
  /-- flits sent, oldest first, and payloads accepted with their channel -/
  wire : List (BitVec 512) := []
  received : List (BitVec 3 × BitVec 384) := []
  /-- two key slots of each direction, the current one, its counter (R370, R371) -/
  txKeys : Vector (Option KeySlot) 2 := Vector.replicate 2 none
  rxKeys : Vector (Option KeySlot) 2 := Vector.replicate 2 none
  txKi : BitVec 1 := 0
  rxKi : BitVec 1 := 0
  txC : BitVec 48 := 0
  rxC : BitVec 48 := 0
  txState : KeyState := .active
  /-- the receiver's other slot holds the old key, with flits under it not yet acknowledged -/
  rxOld : Bool := false
  down : Bool := false
  /-- the device cycle in which the sender became EXHAUSTED (R371) -/
  exhausted : Nat := 0
deriving DecidableEq, Repr

/-- A slot owner map of a die or an HBM pseudo-channel frame: doublewords, STRICT, blocks written and not yet in effect
(R178-R180). -/
structure OwnerMap where
  dw : SMap Word := []
  strict : Bool := false
  pending : SMap Word := []
  /-- device cycle of the first write that is pending -/
  since : Nat := 0
deriving DecidableEq, Repr

/-- A beat on a track: the site and the input it is at, and the device cycle in which it is there (R170-R173). -/
structure Flying where
  beat : Beat
  die : BitVec 2
  row : Nat
  col : Nat
  input : BitVec 4
  cyc : Nat
deriving DecidableEq, Repr

/-- A slot of the retirement list in the board flash: sequence number, entries, signature; an update cut short leaves it
torn (R167). -/
structure RetSlot where
  seq : Word
  entries : List Word
  sig : BitVec 512
  torn : Bool := false
deriving DecidableEq, Repr

/-- A fault that a Blender job has met and not yet ended with: code, address, and what it still commits: 0 nothing, 1 its own
progress, 2 the record as it stands in memory (R390). -/
structure JobFault where
  code : TrapCode
  addr : Nat
  commits : Nat
deriving DecidableEq, Repr

/-- A running Blender job (R378-R387): the records read at its start, its cursor, the commits made. -/
structure Job where
  die : BitVec 2
  cell : Nat
  part : BitVec 4
  addr : Word
  /-- the records have been read and checked -/
  checked : Bool := false
  prog : Word := 0
  /-- doubleword 3 of the job record -/
  opts : Word := 0
  src : List Word := []
  dst : List Word := []
  cursor : List Nat := []
  ck : Nat := 0
  cdone : BitVec 48 := 0
  err : BitVec 8 := 0
  /-- its place in the order of admission (R378) -/
  no : Nat := 0
  /-- pieces of the chunk at hand that it has read and written, and its bytes that are read and not yet written (R385) -/
  moved : Nat := 0
  data : List Byte := []
  /-- the page of a record that it waits for until firmware reports it (R379) -/
  waits : Option (BitVec 57) := none
  fault : Option JobFault := none
deriving DecidableEq, Repr

/-- A report to firmware: a page that is not resident (R127, R156), a memory error at an address (R166), a write that was
refused or a packet that was corrupt (R114, R126), an entry of the retirement list that was skipped (R168). -/
inductive Report where
  | page (part : BitVec 4) (va : BitVec 57)
  | memory (pa : Nat)
  | trap (part : BitVec 4) (code : TrapCode)
  | retirement (entry : Word)
deriving DecidableEq, Repr

/-- Firmware-held and device-wide registers (R133, R153, R166-R168, R402-R409). -/
structure Firmware where
  booted : Bool := false
  recovery : Bool := false
  m : Vector (BitVec 256) 8 := Vector.replicate 8 0
  owned : Bool := false
  ownerKey : BitVec 512 := 0
  epoch : BitVec 32 := 0
  ret : Vector (Option RetSlot) 2 := Vector.replicate 2 none
  /-- the list that power-up applied; none before: no HBM frame is handed out (R168) -/
  retActive : Option (List Word) := none
  retAccepted : Bool := false
  quote : Option (BitVec 512) := none
  cgen : BitVec 16 := 0
  disabled : List Nat := []
  strips : SMap (BitVec 18) := []
  shadowMib : Nat := 0
  cxl0 : Nat := 0
  cxl1 : Nat := 0
  decayMs : Nat := 10
  maxk : BitVec 16 := 4096
  powerLimit : Nat := 2000
  /-- clock step of each site; 15, 2.70 GHz, where nothing is listed (R87, R409) -/
  clocks : SMap (BitVec 4) := []
  torus : BitVec 4 × BitVec 4 × BitVec 4 := (1, 1, 1)
  pkg : BitVec 9 := 0
  lfsr : SMap (BitVec 16) := []
  /-- where this package's window table lies in HBM (R187) -/
  windowBase : Nat := 0
  spares : SMap Nat := []
  offlined : List (BitVec 36) := []
  /-- the Kettle's event queue of 1,024 records, the overflow buffer of 64, the LOST bit (R403) -/
  kettle : List (BitVec 128) := []
  kettleOver : List (BitVec 128) := []
  lost : Bool := false
  /-- what hardware has reported to firmware, oldest first -/
  reports : List Report := []
deriving DecidableEq, Repr

/-! ### The whole -/

/-- The unit whose instruction the next step runs. -/
inductive FocusUnit where
  | execute | access
  | queue (q : BitVec 2)
  | strip (i : BitVec 4)
deriving DecidableEq, Repr

/-- A unit of a cell. -/
structure Focus where
  cell : Nat
  unit : FocusUnit
deriving DecidableEq, Repr

/-- A move of the machine: a unit runs its next instruction, or a step that no word names happens. -/
inductive Move where
  | run (f : Focus)
  | event (i : Instr)
deriving DecidableEq, Repr

/-- The state of the package. -/
structure State where
  /-- device cycle (R4); how far each step moves it is left open (assumption 2) -/
  now : Nat := 0
  /-- next index of the free values (the model's own field, assumption 3) -/
  free : Nat := 0
  /-- moves the outside world has fixed, next first (the model's own field, assumption 4) -/
  agenda : List Move := []
  focus : Focus := ⟨0, .execute⟩
  /-- how the turn goes round (the model's own fields, assumption 4): the unit at `focus` is next, and where the search for
  a due step begins -/
  unitNext : Bool := false
  rotor : Nat := 0
  cells : SMap Cell := []
  tasks : SMap Task := []
  nextTask : Nat := 0
  parts : SMap Partition := []
  barriers : SMap Barrier := []
  counters : SMap Counter := []
  queues : SMap Queue := []
  images : List Image := []
  caddy : List CaddyEntry := []
  caddyClock : Nat := 0
  /-- physical memory by address (R152) -/
  mem : Mem := []
  /-- windows' memory of other packages: by package × 2^52 + address (R187, R375) -/
  remote : Mem := []
  poison : List Nat := []
  heat : SMap Byte := []
  heatTick : SMap (BitVec 6) := []
  tlb : List TlbEntry := []
  msgs : SMap Msg := []
  resps : SMap Resp := []
  nextMsg : Nat := 0
  /-- requests of engines to other packages, numbered with the messages (R366) -/
  asks : SMap Ask := []
  /-- requests performed or refused so far (R205), requests each cell has sent (R373) -/
  nextPerf : Nat := 0
  sends : SMap Nat := []
  decs : List Dec := []
  /-- window tables of other packages (R187) -/
  windows : SMap WinEntry := []
  access : SMap (Word × Word) := []
  revocations : List Revocation := []
  migrations : SMap Migration := []
  published : SMap Published := []
  owners : SMap OwnerMap := []
  flying : List Flying := []
  jobs : List Job := []
  /-- cell whose job each die's Blender admitted last (R378) -/
  admitted : SMap Nat := []
  /-- jobs admitted so far, and of each die the place in that order of the job served last (R378) -/
  jobNo : Nat := 0
  jobServed : SMap Nat := []
  links : SMap Link := []
  fw : Firmware := {}
  /-- shadow storage of swapped-out partitions (R358) -/
  shadow : SMap (List (Nat × Cell)) := []
deriving DecidableEq, Repr

/-! ### Stops -/

/-- Why the machine stops with a fault. -/
inductive Fault where
  /-- raised by a write of firmware to a physical address that R152 leaves unpopulated; safe: the manual gives such an
  address no memory (the accesses of cells and engines there are refused with ACCESS) -/
  | unpopulated (pa : Nat)
deriving DecidableEq, Repr

/-- Why the machine has no meaning for an instruction. -/
inductive Refusal where
  /-- raised by an arm of `exec` whose instruction has no meaning yet; safe: the machine stops -/
  | notModelled (mnemonic : String)
deriving DecidableEq, Repr

/-- The package after power-up: nothing stored, no partition, no task, every register at its reset value; the sites that
manufacturing test disabled are in firmware's map (R419). -/
def State.reset : State := { fw := { disabled := Config.spareSites } }

end Sys2Proof.Machine
end

