-- ==== Sys2Proof/Machine/Store.lean ====
section
/-! DEFINITION. Sparse stores and byte memory: look-up, update, wide little-endian accesses, and the canonical form that
every update keeps (keys strictly rising, no value equal to what an unlisted key reads as). -/

namespace Sys2Proof.Machine

/-- The value at a key. -/
def look {α : Type} : SMap α → Nat → Option α
  | [], _ => none
  | (k, v) :: m, n => if k = n then some v else look m n

/-- Set the value at a key, keeping the keys rising. -/
def put {α : Type} : SMap α → Nat → α → SMap α
  | [], n, a => [(n, a)]
  | (k, v) :: m, n, a =>
    if n < k then (n, a) :: (k, v) :: m else if n = k then (n, a) :: m else (k, v) :: put m n a

/-- Remove a key. -/
def del {α : Type} : SMap α → Nat → SMap α
  | [], _ => []
  | (k, v) :: m, n => if k = n then m else (k, v) :: del m n

/-- Change the value at a key that is listed. -/
def upd {α : Type} (m : SMap α) (n : Nat) (f : α → α) : SMap α :=
  match look m n with
  | none => m
  | some a => put m n (f a)

/-- The value at a key, where an unlisted key reads as `d`. -/
def peek {α : Type} (d : α) (m : SMap α) (n : Nat) : α := (look m n).getD d

/-- Set the value at a key, where an unlisted key reads as `d`: writing `d` removes the entry. -/
def poke {α : Type} [DecidableEq α] (d : α) (m : SMap α) (n : Nat) (a : α) : SMap α :=
  if a = d then del m n else put m n a

/-- Keys strictly rising from `lo` on. -/
def keysFrom {α : Type} (lo : Nat) : SMap α → Bool
  | [] => true
  | (k, _) :: m => decide (lo ≤ k) && keysFrom (k + 1) m

/-- The canonical form of a store whose unlisted keys read as `d`. -/
def canon {α : Type} [DecidableEq α] (d : α) (m : SMap α) : Bool :=
  keysFrom 0 m && m.all (fun p => decide (p.2 ≠ d))

/-- The canonical form of a byte memory. An unlisted byte reads as zero (R13 for scratch; assumption 5 for physical
memory). -/
def Memory.wf (m : Mem) : Bool := canon 0 m

/-- One byte. -/
def readByte (m : Mem) (a : Nat) : Byte := peek 0 m a

/-- Set one byte. -/
def writeByte (m : Mem) (a : Nat) (b : Byte) : Mem := poke 0 m a b

/-- `n` bytes from address `a` on. -/
def readBytes (m : Mem) (a : Nat) : Nat → List Byte
  | 0 => []
  | n + 1 => readByte m a :: readBytes m (a + 1) n

/-- Store bytes from address `a` on. -/
def writeBytes (m : Mem) (a : Nat) : List Byte → Mem
  | [] => m
  | b :: bs => writeBytes (writeByte m a b) (a + 1) bs

/-- The little-endian word of `n` bytes at `a`, zero-extended (R5). -/
def readWord (m : Mem) (a n : Nat) : Word := wordOf (readBytes m a n)

/-- Store the low `n` bytes of a word at `a`. -/
def writeWord (m : Mem) (a n : Nat) (v : Word) : Mem := writeBytes m a (bytesOf v.toNat n)

/-- A memory that holds `bs` from address 0 on. -/
def memOf (bs : List Byte) : Mem := writeBytes [] 0 bs

/-- Keys of a store, in order. -/
def keys {α : Type} (m : SMap α) : List Nat := m.map (·.1)

/-- Insert into a rising list of numbers. -/
def insertNum : List Nat → Nat → List Nat
  | [], n => [n]
  | k :: ks, n => if n < k then n :: k :: ks else if n = k then k :: ks else k :: insertNum ks n

/-- Remove from a list of numbers. -/
def removeNum (ks : List Nat) (n : Nat) : List Nat := ks.filter (· != n)

end Sys2Proof.Machine
end

