-- ==== Sys2Proof/Machine/MemMap.lean ====
section
/-! DEFINITION. The physical address map (R152, R153, R392), scratch geometry (R12) and the controllers that serve an
address (R198). -/

namespace Sys2Proof.Machine

/-- Scratch group of an address (R12). -/
def groupOf (a : Nat) : Nat := a / 0x20000

/-- Bank of an address over the whole scratch: group and bank within it (R12). -/
def bankOf (a : Nat) : Nat := groupOf a * 32 + (a / 32) % 32

/-- 32-byte word of an address: the unit of presence (R103). -/
def wordIdx (a : Nat) : Nat := a / 32

/-- `n` bytes from `a` on lie in local scratch (R11). -/
def inScratch (a n : Nat) : Bool := decide (a + n ≤ Config.scratchBytes)

/-- Region of R152 that holds an address: 0 slice, 1 HBM, 2 CXL tier, 3 host; none where the map lists nothing. -/
def regionOf (pa : Nat) : Option (BitVec 3) :=
  if pa < 0x8000000000 then some 1
  else if pa < 0x8080000000 then some 0
  else if pa < 0x10000000000 then none
  else if pa < 0x50000000000 then some 2
  else if pa < 0x8000000000000 then none
  else if pa < 0x10000000000000 then some 3
  else none

/-- The address is populated (R152). -/
def populatedAt (fw : Firmware) (pa : Nat) : Bool :=
  match regionOf pa with
  | some 1 => decide (pa % 0x1000000000 < 976560 * 0x10000)
  | some 0 => decide (pa % 0x2000000 < 0x1800000)
  | some 2 => decide (pa - 0x10000000000 < fw.cxl0 + fw.cxl1)
  | some 3 => true
  | _ => false

/-- A range lies within one region and is populated. The populated part of each window is one interval, so its two ends
decide. -/
def populated (fw : Firmware) (pa n : Nat) : Bool :=
  let last := pa + n - 1
  populatedAt fw pa && populatedAt fw last && regionOf pa == regionOf last &&
  (match regionOf pa with
   | some 1 => pa / 0x1000000000 == last / 0x1000000000
   | some 0 => pa / 0x2000000 == last / 0x2000000
   | _ => true)

/-- The range meets bytes of a slice that firmware has reserved as shadow storage (R153). -/
def reservedShadow (fw : Firmware) (pa n : Nat) : Bool :=
  regionOf pa == some 0 && decide ((pa + n - 1) % 0x2000000 ≥ 0x1800000 - fw.shadowMib * 0x10000)

/-- Slice number of a slice address. -/
def sliceOf (pa : Nat) : Nat := (pa - 0x8000000000) / 0x2000000

/-- CXL port that serves an address of the tier (R392). -/
def cxlPort (fw : Firmware) (pa : Nat) : Nat :=
  let o := pa - 0x10000000000
  let m := min fw.cxl0 fw.cxl1
  if o < 2 * m then (o / 4096) % 2 else if fw.cxl0 < fw.cxl1 then 1 else 0

/-- Controller that serves an address: HBM stacks 0-7, slices at 8, CXL ports at 72, the host port 76. -/
def controllerOf (fw : Firmware) (pa : Nat) : Nat :=
  match regionOf pa with
  | some 1 => pa / 0x1000000000
  | some 0 => 8 + sliceOf pa
  | some 2 => 72 + cxlPort fw pa
  | _ => 76

/-- Die on which an address lies; none for the CXL tier and host memory (R152, R153). -/
def dieOfPa (pa : Nat) : Option Nat :=
  match regionOf pa with
  | some 1 => some (pa / 0x2000000000)
  | some 0 => some (sliceOf pa / 16)
  | _ => none

/-- Die of a physical cell (R15). -/
def dieOfCell (id : Nat) : Nat := id / 128
def rowOfCell (id : Nat) : Nat := id % 128 / 16
def colOfCell (id : Nat) : Nat := id % 16

/-- Bytes of a page by its SIZE code (R157). -/
def pageBytes (size : BitVec 2) : Nat :=
  match size with
  | 0 => 0x10000
  | 1 => 0x2000000
  | _ => 0x400000000

/-- Key of an access table in `State.access`: 256 entries for each unit (R407). -/
def unitKey : AccessUnit → Nat
  | .hbm s => s.toNat
  | .slice n => 8 + n.toNat
  | .cxl p => 72 + p.toNat
  | .config => 77
  | .cellRemote c => 128 + c.toNat

end Sys2Proof.Machine
end

