-- ==== Sys2Proof/Machine/Ops.lean ====
section
/-! DEFINITION. The named operations of the machine: cells, registers and queue ports, places, local scratch with store
buffers and presence, taking a trap and returning from one. -/

namespace Sys2Proof.Machine

/-- What running an instruction comes to: it completes, it cannot issue yet, or it traps. An instruction that waits or
traps has no effect of its own (R18). -/
inductive Res where
  | done (s : State)
  | wait
  | trap (t : Trap)

/-! ### Cells -/

def setCell (s : State) (id : Nat) (c : Cell) : State := { s with cells := put s.cells id c }

def modCell (s : State) (id : Nat) (f : Cell → Cell) : State := { s with cells := upd s.cells id f }

/-- An instruction's result is in cell `id`. -/
def finish (s : State) (id : Nat) (c : Cell) : Res := .done (setCell s id c)

def modCore (c : Cell) (f : Core → Core) : Cell := { c with core := f c.core }

def modMem (c : Cell) (f : LocalMem → LocalMem) : Cell := { c with mem := f c.mem }

def getQueue (c : Cell) (q : BitVec 2) : EQueue := c.queues[q.toNat]'q.isLt

def setQueue (c : Cell) (q : BitVec 2) (e : EQueue) : Cell := { c with queues := c.queues.set q.toNat e q.isLt }

def modQueues (c : Cell) (f : EQueue → EQueue) : Cell := { c with queues := mapAll f c.queues }

/-- Cells of a task, in LCELL order. -/
def membersOf (s : State) (task : Nat) : List Nat :=
  match look s.tasks task with
  | none => []
  | some t => t.cells

def taskOf (s : State) (c : Cell) : Option Task := look s.tasks c.task

def modTask (s : State) (t : Nat) (f : Task → Task) : State := { s with tasks := upd s.tasks t f }

def partOf (s : State) (p : BitVec 4) : Partition := peek {} s.parts p.toNat

def modPart (s : State) (p : BitVec 4) (f : Partition → Partition) : State :=
  { s with parts := put s.parts p.toNat (f (partOf s p)) }

/-- The partition's watchdog counts anew from now (R91). -/
def noteDone (s : State) (part : BitVec 4) : State := modPart s part fun p => { p with lastDone := s.now }

/-- Apply a change to each of a list of cells. -/
def forCells (s : State) (ids : List Nat) (f : Cell → Cell) : State :=
  { s with cells := ids.foldl (fun m id => upd m id f) s.cells }

/-! ### Traps raised by the core -/

/-- ILLEGAL at decode (R44). -/
def illegalTrap : Trap := { code := .illegal, unit := 0 }

/-- A trap of the core with an address field. -/
def coreTrap (code : TrapCode) (addr : Word) : Trap := { code := code, unit := 0, addr := addr }

/-- UNIT of a stream (R339). -/
def streamUnit (y : Bool) : BitVec 4 := if y then 1 else 0

/-- The word of an instruction, as a trap record holds it. -/
def coreWord (i : Instr) : BitVec 32 :=
  match encode i with
  | .core w => w
  | _ => 0

/-! ### Registers and queue ports (R6-R9, R48, R79, R80) -/

/-- A scalar register of the file that `y` selects: x0 reads zero (R7, R19). -/
def getReg (k : Core) (y : Bool) (r : BitVec 5) : Word :=
  if r = 0 then 0
  else if y then k.regsA[r.toNat]'r.isLt else k.regsE[r.toNat]'r.isLt

/-- Write a scalar register: a write to x0 is discarded (R7). -/
def setReg (k : Core) (y : Bool) (r : BitVec 5) (v : Word) : Core :=
  if r = 0 then k
  else if y then { k with regsA := k.regsA.set r.toNat v r.isLt } else { k with regsE := k.regsE.set r.toNat v r.isLt }

/-- A local store of stream `y` still stands in a buffer, so the stream may not append (R198). -/
def storesBuffered (c : Cell) (y : Bool) : Bool := c.mem.bufs.toList.any (fun q => q.any (fun e => e.acc == y))

/-- Remove the oldest LDQ value; a line entry yields its doublewords one by one and frees its slot after the last
(R9, R79, R191). -/
def popLdq (c : Cell) (k : Word → Cell → Res) : Res :=
  match c.core.ldq with
  | [] => .wait
  | e :: es =>
    if e.filled then
      match e.vals with
      | [] => .wait
      | [v] => k v (modCore c fun x => { x with ldq := es, slots := if e.slot then x.slots - 1 else x.slots })
      | v :: w :: vs => k v (modCore c fun x => { x with ldq := { e with vals := w :: vs } :: es })
    else .wait

/-- Read a source register: x30 of the execute stream removes an LDQ entry, x31 of the access stream an EAQ entry, the
other uses of a port are misuse (R9, R44). -/
def readReg (y : Bool) (r : BitVec 5) (c : Cell) (k : Word → Cell → Res) : Res :=
  if srcOk y r = false then .trap illegalTrap
  else if y then
    if r = 31 then
      match c.core.eaq with
      | [] => .wait
      | v :: vs => k v (modCore c fun x => { x with eaq := vs })
    else if bit c.core.busy r.toNat then .wait
    else k (getReg c.core true r) c
  else if r = 30 then popLdq c k
  else k (getReg c.core false r) c

/-- A fresh number for an LDQ entry that waits for its value. -/
def freshEntry (k : Core) : Nat :=
  let olds := match k.save with
    | none => []
    | some v => v.ldq
  (k.ldq ++ olds).foldl (fun n e => max n (e.id + 1)) 0

/-- Write a destination register: x30 of the access stream appends to the LDQ, x31 of the execute stream to the EAQ
(R9, R79, R80). -/
def writeReg (y : Bool) (d : BitVec 5) (v : Word) (c : Cell) (k : Cell → Res) : Res :=
  if dstOk y d = false then .trap illegalTrap
  else if y then
    if d = 30 then
      if 32 ≤ c.core.ldq.length || storesBuffered c true then .wait
      else k (modCore c fun x => { x with ldq := x.ldq ++ [⟨0, true, [v], false⟩] })
    else if bit c.core.busy d.toNat then .wait
    else k (modCore c fun x => setReg x true d v)
  else if d = 31 then
    if 16 ≤ c.core.eaq.length || storesBuffered c false then .wait
    else k (modCore c fun x => { x with eaq := x.eaq ++ [v] })
  else k (modCore c fun x => setReg x false d v)

/-! ### Places and the two streams (R10, R76, R77) -/

def getPlace (k : Core) (y : Bool) : Word := if y then k.pcA else k.pcE

def setPlace (k : Core) (y : Bool) (p : Word) : Core := if y then { k with pcA := p } else { k with pcE := p }

/-- The stream goes on at the next instruction (R10). -/
def advance (y : Bool) (c : Cell) : Cell := modCore c fun k => setPlace k y (getPlace k y + 4)

/-- Position in program order: branches passed, then the offset. -/
def earlier (b1 : Nat) (p1 : Word) (b2 : Nat) (p2 : Word) : Bool := b1 < b2 || (b1 == b2 && p1.toNat < p2.toNat)

/-- The access stream stands at or beyond the execute stream's place, so it has issued all that precedes it. -/
def accessReached (k : Core) : Bool := !earlier k.brA k.pcA k.brE k.pcE

/-- A deferred read of its own holds the stream (R105). -/
def streamDeferred (c : Cell) (y : Bool) : Bool :=
  c.mem.deferred.any fun d =>
    match d.reader with
    | .stream acc _ => acc == y
    | _ => false

/-- The stream follows a branch outcome: one more branch passed, the next place chosen. -/
def follow (y : Bool) (place : Word) (c : Cell) : Cell :=
  modCore c fun k => if y then { k with pcA := place, brA := k.brA + 1 } else { k with pcE := place, brE := k.brE + 1 }

/-- A stream decides a branch and tells the other (R77). -/
def decide_ (y : Bool) (taken : Bool) (target : Word) (c : Cell) (k : Cell → Res) : Res :=
  let o : BranchOutcome := ⟨taken, target⟩
  let next := if taken then target else getPlace c.core y + 4
  if storesBuffered c y then .wait
  else if y then
    if 16 ≤ c.core.boq.length then .wait
    else k (follow true next (modCore c fun x => { x with boq := x.boq ++ [o] }))
  else if c.core.path.any (fun p => match p with | .outcome _ => true | .pass => false) then .wait
  else k (follow false next (modCore c fun x => { x with path := x.path ++ [.outcome o] }))

/-- The execute stream completes an instruction at which the access stream stops (R97, R241). -/
def passOn (c : Cell) : Cell := modCore c fun x => { x with path := x.path ++ [.pass] }

/-- The instruction word at a code offset. -/
def codeWord (m : LocalMem) (off : Nat) : BitVec 32 := BitVec.ofNat 32 (ofBytes (readBytes m.code off 4))

/-- A fetch at this place lies inside the code section (R10). -/
def fetchOk (m : LocalMem) (p : Word) : Bool := decide (p.toNat + 4 ≤ m.codeLen)

/-- The majors 0x10-0x1B are branches (R77). -/
def isBranchWord (w : BitVec 32) : Bool := 0x10 ≤ (field w 24 6).toNat && (field w 24 6).toNat ≤ 0x1B

/-- The access stream stops at these execute-stream words as at an A = 0 branch, and for good at a `halt`
(R76, R97, R241, R344). It stops at `mts`, `clrp` and `setp` too, for each takes effect for every instruction that follows
it in program order, in either stream (R72, R107; assumption 15). -/
def holdsAccess (w : BitVec 32) : Bool :=
  match decodeCore w with
  | .ok .halt | .ok .tret | .ok (.bar _) | .ok (.barr _ _ _ _) | .ok (.barw _) | .ok (.waitc _) | .ok (.tokw _) => true
  | .ok (.mts _ _) | .ok (.clrp _ _) | .ok (.setp _ _) => true
  | _ => false

/-- Where a stream comes to rest when it passes over the other stream's instructions, at most `n` of them (R76). -/
def passOver (m : LocalMem) (y : Bool) : Nat → Word → Word
  | 0, p => p
  | n + 1, p =>
    if fetchOk m p then
      let w := codeWord m p.toNat
      if bit w 31 == y then p
      else if isBranchWord w || (y && holdsAccess w) then p
      else passOver m y n (p + 4)
    else p

/-- The place of a stream: the next word it issues, follows or stops at. -/
def nextPlace (c : Cell) (y : Bool) : Word := passOver c.mem y (c.mem.codeLen / 4 + 1) (getPlace c.core y)

/-- A local store that takes nothing out of a queue (R9, R62): a trap of an earlier store can undo its issue. -/
def plainStore (w : BitVec 32) : Bool :=
  match decodeCore w with
  | .ok (.stb y r b _ _) | .ok (.sth y r b _ _) | .ok (.stw y r b _ _) | .ok (.std y r b _ _) =>
    let x : BitVec 5 := if y then 31 else 30
    r != x && b != x
  | _ => false

/-- The scratch group of an address is in presence mode (R103). -/
def presenceMode (c : Cell) (a : Nat) : Bool := bit c.core.sr.pgmode (groupOf a)

/-- A store of the stream to a presence word stands in a buffer: it may still trap (R104). -/
def mayFault (c : Cell) (y : Bool) : Bool := c.mem.bufs.toList.any fun q => q.any fun e => e.acc == y && presenceMode c e.addr

/-- The stream may issue: the core is neither halted, stopped (R343, R356) nor frozen, but for the handler of the cell whose
fault the freeze is (R348), and no deferred read holds the stream. Behind a store that may still trap at its place it issues
nothing but stores that the trap can undo (R18, R104, R341; assumption 9). -/
def streamRuns (c : Cell) (y : Bool) : Bool :=
  !c.core.halted && !c.core.stopIssue && (c.frozen.isNone || (c.frozenFault && c.core.hm)) && !streamDeferred c y &&
    (!mayFault c y || plainStore (codeWord c.mem (nextPlace c y).toNat))

/-! ### Back-mapping of residual images (R148) -/

/-- The map entry that holds a residual offset. -/
def mapEntryAt (r : Residual) (off : Nat) : Option MapEntry :=
  r.map.find? fun e => e.roff ≤ off && off < e.roff + 4 * e.len

/-- Original offset, loop count, DEEP and indices of a residual offset; an unspecialised image maps to itself. An offset that
no entry of the map holds, a place past the residual, maps to itself with NIDX 0 too, and one within an entry of KIND 3 to that
entry's OOFF (DESIGN CHOICE, assumption 58: R148 gives neither an original). -/
def originalOf (r : Option Residual) (off : Nat) : Nat × Nat × Bool × Word :=
  match r with
  | none => (off, 0, false, 0)
  | some r =>
    match mapEntryAt r off with
    | none => (off, 0, false, 0)
    | some e => (if e.kind = 0 then e.ooff + off - e.roff else e.ooff, e.nidx, e.deep, e.idx)

/-- Where a handler at original offset `vec` starts: its only KIND 0 copy; none when there is not exactly one. -/
def handlerPlace (r : Option Residual) (vec : Word) : Option Word :=
  match r with
  | none => some vec
  | some r =>
    match r.map.filter (fun e => e.kind == 0 && e.ooff ≤ vec.toNat && vec.toNat < e.ooff + 4 * e.len) with
    | [e] => some (BitVec.ofNat 64 (e.roff + (vec.toNat - e.ooff)))
    | _ => none

/-! ### Scratch, presence and deferred reads (R11, R62, R103-R105, R198) -/

/-- The 32-byte word of an address is empty (R103). -/
def isEmpty (c : Cell) (a : Nat) : Bool := presenceMode c a && c.mem.empty.contains (wordIdx a)

/-- A write would meet a full presence word (R104). -/
def meetsFull (c : Cell) (a : Nat) : Bool := presenceMode c a && !c.mem.empty.contains (wordIdx a)

/-- The 32-byte word of an address as it stands in scratch. -/
def wordBytes (c : Cell) (a : Nat) : List Byte := readBytes c.mem.scratch (32 * wordIdx a) 32

/-- The word that a deferred read has returned to an engine (R105). -/
def servedWord (c : Cell) (r : Reader) (a : Nat) : Option (List Byte) :=
  (c.mem.served.find? fun x => x.reader == r && x.word == wordIdx a).map (·.bytes)

/-- An engine's read of an address defers: its word is empty and no deferred read of it has returned (R105). -/
def readDefers (c : Cell) (r : Reader) (a : Nat) : Bool := isEmpty c a && (servedWord c r a).isNone

/-- Scratch as an engine reads it: the words that deferred reads have returned to it stand over the rest (R105). -/
def engineMem (c : Cell) (r : Reader) : Mem :=
  (c.mem.served.filter (·.reader == r)).foldl (fun m x => writeBytes m (32 * x.word) x.bytes) c.mem.scratch

/-- An engine's read of an address waits at its bank already (R105). -/
def waitsFor (c : Cell) (r : Reader) (a : Nat) : Bool :=
  c.mem.deferred.any fun d => d.reader == r && wordIdx d.addr == wordIdx a

/-- A read of an engine joins the reads deferred at the bank of `a` (R105). -/
def deferEngine (now : Nat) (r : Reader) (a size : Nat) (c : Cell) : Cell :=
  modMem c fun m => { m with deferred := m.deferred ++ [{ addr := a, size := size, signed := false, reader := r, since := now, pc := 0 }] }

/-- An engine's operation has used the words its deferred reads returned, or gives them up. -/
def dropServed (r : Reader) (c : Cell) : Cell :=
  modMem c fun m => { m with served := m.served.filter fun x => !(x.reader == r) }

/-- Fill an LDQ entry. -/
def fillEntry (id : Nat) (vs : List Word) (k : Core) : Core :=
  { k with ldq := k.ldq.map fun e => if e.id == id && !e.filled then { e with filled := true, vals := vs } else e }

/-- Doublewords of a byte list. -/
def dwords : Nat → List Byte → List Word
  | 0, _ => []
  | n + 1, bs => wordOf (bs.take 8) :: dwords n (bs.drop 8)

/-- An instruction that traps gives back what it removed from the LDQ and the EAQ: it has changed nothing (R18). Each value of
the LDQ stands with its entry as it was before. The place is free at issue (R79), so the other stream may have filled the queue
since: the value then stands as a thirty-third entry of the LDQ or a seventeenth of the EAQ, beyond what R6 gives them (DESIGN
CHOICE, assumption 13). -/
def giveBack (ldqs : List LdqEntry) (eaqs : List Word) (k : Core) : Core :=
  let one (e : LdqEntry) (k : Core) : Core :=
    if e.vals.length ≤ 1 then { k with ldq := e :: k.ldq, slots := if e.slot then k.slots + 1 else k.slots }
    else { k with ldq := e :: k.ldq.drop 1 }
  let k1 := ldqs.foldr one k
  { k1 with eaq := eaqs ++ k1.eaq }

/-- Values laid into a list from place `i` on. -/
def layAt (vals : List Word) (i : Nat) (new : List Word) : List Word := vals.take i ++ new ++ vals.drop (i + new.length)

/-- A request has been performed or refused: its response leaves, behind those of requests performed earlier (R205). -/
def answer (s : State) (n : Nat) (r : Resp) : State :=
  { s with resps := put s.resps n { r with ready := true, perf := s.nextPerf }, nextPerf := s.nextPerf + 1 }

/-- A response as it stands after a step of its request: it leaves once no step is left and none is deferred (R201). -/
def stepAnswer (s : State) (n : Nat) (r : Resp) : State :=
  if r.left.isEmpty && r.pending == 0 then answer s n r else { s with resps := put s.resps n { r with ready := false } }

/-- Let one deferred read of cell `id` complete with the contents of its word (R105). A remote one counts as performed now,
before the store that fills its word: of the responses to one requester its own goes first (DESIGN CHOICE, assumption 65: R205
orders responses by when their requests are performed and does not say when that is for a deferred read). -/
def completeRead (s : State) (id : Nat) (d : Deferred) : State :=
  match look s.cells id with
  | none => s
  | some c =>
    let v := extend d.signed d.size (readWord c.mem.scratch d.addr d.size)
    match d.reader with
    | .stream acc r =>
      if acc = false ∧ r = 31 then modCell s id fun c => modCore c fun k => { k with eaq := k.eaq ++ [v] }
      else modCell s id fun c => modCore c fun k => setReg k acc r v
    | .ldq n => modCell s id fun c => modCore c (fillEntry n [v])
    | .msg n =>
      match look s.resps n with
      | none => s
      | some r =>
        match r.msg.kind with
        | .line _ =>
          stepAnswer s n { r with
            vals := layAt r.vals ((d.addr - r.msg.addr) / 8) (dwords 4 (wordBytes c d.addr)), pending := r.pending - 1 }
        | _ => answer s n { r with vals := [v] }
    | .port _ | .copy _ | .matrix =>
      modCell s id fun c => modMem c fun m => { m with served := m.served ++ [⟨d.reader, wordIdx d.addr, wordBytes c d.addr⟩] }

/-- The read is that of a load of the cell's own streams, which completes with it (R91, R105). -/
def ofOwnLoad (d : Deferred) : Bool :=
  match d.reader with
  | .stream _ _ | .ldq _ => true
  | _ => false

/-- Complete every read deferred on the words of cell `id` that `hit` names, once they are full: in the order in which they
were deferred, and so the order of their responses too, which R105 leaves undefined (DESIGN CHOICE, assumption 65). -/
def completeReads (s : State) (id : Nat) (hit : Nat → Bool) : State :=
  match look s.cells id with
  | none => s
  | some c =>
    let ready := c.mem.deferred.filter fun d => hit (wordIdx d.addr)
    let s' := modCell s id fun c => modMem c fun m => { m with deferred := m.deferred.filter fun d => !hit (wordIdx d.addr) }
    let s1 := if ready.any ofOwnLoad then noteDone s' c.part else s'
    ready.foldl (fun s d => completeRead s id d) s1

/-- Write bytes into the scratch of cell `id` within one presence word: an empty word becomes full and its deferred
reads complete (R104). The caller has checked the word. -/
def storeScratch (s : State) (id : Nat) (a : Nat) (bs : List Byte) : State :=
  match look s.cells id with
  | none => s
  | some c =>
    let wasEmpty := isEmpty c a
    let c' := modMem c fun m =>
      { m with
        scratch := writeBytes m.scratch a bs
        empty := if wasEmpty then removeNum m.empty (wordIdx a) else m.empty }
    let s' := setCell s id c'
    if wasEmpty then completeReads s' id (· == wordIdx a) else s'

/-- The buffered store of this class and stream that writes byte `a` last (R198). -/
def forwarded (q : List BufStore) (y : Bool) (a : Nat) : Option Byte :=
  q.foldl (fun r e => if e.acc == y && e.addr ≤ a && a < e.addr + e.size then some (field e.data (8 * (a - e.addr)) 8) else r) none

/-- Buffered stores of this class and stream write all of `n` bytes from `a` on (R198). -/
def allForwarded (q : List BufStore) (y : Bool) (a n : Nat) : Bool := (List.range n).all fun i => (forwarded q y (a + i)).isSome

/-- The bytes a local load returns: from the newest store of its own class and stream, else from scratch (R198). -/
def loadBytes (c : Cell) (y : Bool) (cls : BitVec 2) (a : Nat) : Nat → List Byte
  | 0 => []
  | n + 1 =>
    (match forwarded (c.mem.bufs[cls.toNat]'cls.isLt) y a with
      | some b => b
      | none => readByte c.mem.scratch a) :: loadBytes c y cls (a + 1) n

/-- Range and alignment of a local access (R11, R62). The rules name no address for the record, so TREC1 is zero
(R340). -/
def localFault (a : Word) (size : Nat) : Option Trap :=
  if Config.scratchBytes ≤ a.toNat then some (coreTrap .access 0)
  else if a.toNat % size ≠ 0 then some (coreTrap .align 0)
  else none

/-! ### What has been issued and not performed (R194, R198) -/

/-- The access writes. -/
def Access.writes : Access → Bool
  | .store _ => true
  | .amo _ _ _ _ => true
  | _ => false

/-- The target of a message lies inside a scope of its issuer (R194). -/
def insideScope (s : State) (m : Msg) (scope : Nat) : Bool :=
  match m.target with
  | .cell t => match scope with
    | 0 => t == m.cell
    | _ => true
  | .pa => match scope with
    | 0 | 1 => false
    | 2 => dieOfPa m.addr == some (dieOfCell m.cell)
    | _ => true
  | .window pkg _ => match scope with
    | 0 | 1 | 2 => false
    | 3 => pkg == s.fw.pkg
    | _ => true

/-- Requests of a cell on the packet plane or in its bag. -/
def requestsOf (s : State) (id : Nat) : List Msg := (s.msgs.map (·.2)).filter (fun m => m.cell == id)

/-- Requests of a cell that are not yet performed: those, and the reads that are deferred at their targets (R105, R195). -/
def unperformedOf (s : State) (id : Nat) : List Msg :=
  requestsOf s id ++ ((s.resps.filter fun p => !p.2.ready && p.2.msg.cell == id).map (·.2.msg))

/-- A write of either stream that precedes position (b, p) is not yet performed at the scope; non-temporal stores do not
count (R95, R101, R198, R242). -/
def writesPending (s : State) (id : Nat) (c : Cell) (b : Nat) (p : Word) (scope : Nat) : Bool :=
  c.mem.bufs.toList.any (fun q => q.any fun e => earlier e.br e.pc b p) ||
  (requestsOf s id).any fun m => m.kind.writes && !m.nt && earlier m.br m.pc b p && insideScope s m scope

/-- Every issued access of a cell is performed or refused and its response has arrived (R341). -/
def accessesDone (s : State) (id : Nat) (c : Cell) : Bool :=
  c.mem.bufs.toList.all (·.isEmpty) && (requestsOf s id).isEmpty &&
  (s.resps.all fun p => p.2.msg.cell != id) &&
  c.mem.deferred.all (fun d => match d.reader with | .ldq _ | .stream _ _ => false | _ => true)

/-- Of the writes that q2's entries have left to their bags none is still to be tried, and no completed entry owes anything
(R127, R236, R331). -/
def bagDone (c : Cell) : Bool := c.owed.all (·.refused) && c.ends.isEmpty

/-! ### Tokens (R233, R234) -/

def getToken (k : Core) (t : BitVec 6) : Token := k.tokens[t.toNat]'t.isLt

def setToken (k : Core) (t : BitVec 6) (v : Token) : Core := { k with tokens := k.tokens.set t.toNat v t.isLt }

/-- A recorded wait is satisfied (R234). -/
def waitOver (k : Core) (w : BitVec 6 × BitVec 16) : Bool :=
  let t := getToken k w.1
  !t.pend || t.seq != w.2

/-- The bound production of a token becomes done. -/
def productionDone (t : BitVec 6) (k : Core) : Core := setToken k t { getToken k t with pend := false }

/-! ### Barrier records (R92) -/

/-- Key of the record of a level-L domain: partition, level and what the level's members share beside it (R85). -/
def barrierKey (part : BitVec 4) (l : Nat) (dom : Nat) : Nat := part.toNat + 16 * (l + 8 * dom)

/-- A member of a task, wherever it is placed: task × 64 + LCELL. -/
def memberOf (c : Cell) : Nat := c.task * 64 + c.core.sr.lcell.toNat

/-- The domain of a cell at a level: the cell, its task, its die, or nothing more. -/
def domainOf (id : Nat) (c : Cell) (l : Nat) : Nat :=
  match l with
  | 0 => memberOf c
  | 1 => c.task
  | 2 => dieOfCell id
  | _ => 0

def cellBarrier (id : Nat) (c : Cell) (l : Nat) : Nat := barrierKey c.part l (domainOf id c l)

def barrierAt (s : State) (key : Nat) : Barrier := peek {} s.barriers key

def modBarrier (s : State) (key : Nat) (f : Barrier → Barrier) : State :=
  { s with barriers := put s.barriers key (f (barrierAt s key)) }

/-- MEMB bit L of DOMAIN (R84). -/
def takesPart (c : Cell) (l : BitVec 3) : Bool := decide (l.toNat ≤ 4) && bit c.core.sr.domain l.toNat

/-- Count one item in (`up`) or out of its phase (R330). -/
def countPhase (s : State) (ph : PhaseItem) (up : Bool) : State :=
  modBarrier s ph.key fun b =>
    if ph.side then { b with out1 := if up then b.out1 + 1 else b.out1 - 1 }
    else { b with out0 := if up then b.out0 + 1 else b.out0 - 1 }

/-! ### The Strainer and discarding entries (R344, R354) -/

/-- A collar goes on from its cut (R353). -/
def resumeCollar (k : Collar) : Collar :=
  { k with
    snapping := false, cxSnapped := false, snapDone := false, aeMarked := false, beMarked := false
    strips := mapAll (fun p => { p with marked := 0, recorded := false }) k.strips }

/-- Load the Strainer over a collar: it empties skid buffers, holders and FIFOs, and every token is discarded as it
arrives (R354). -/
def loadStrainer (k : Collar) : Collar :=
  { k with
    strainer := true
    snapping := false
    cxSnapped := false
    snapDone := false
    strips := mapAll (fun p => { p with skid := [], holder := [], fifo := [], outQ := [], group := [], fault := none }) k.strips
    links := []
    wave := {}
    aeFault := none
    beFault := none }

/-- The Strainer over a cell's collar: its ports make no access any more, so none of their reads stays deferred (R354). -/
def strainCell (c : Cell) : Cell :=
  let port (r : Reader) : Bool := match r with
    | .port _ => true
    | _ => false
  { c with
    collar := loadStrainer c.collar
    mem := { c.mem with
      deferred := c.mem.deferred.filter fun d => !port d.reader
      served := c.mem.served.filter fun x => !port x.reader } }

/-- Discard every entry held in every queue of a cell: productions become done, `sig` words send nothing, counted phase
items are uncounted (R344). -/
def discardEntries (s : State) (id : Nat) : State :=
  match look s.cells id with
  | none => s
  | some c =>
    let es := c.queues.toList.flatMap (·.entries)
    let s' := (es.flatMap fun e => e.phase.toList ++ e.counted.toList).foldl (fun s ph => countPhase s ph false) s
    let s' := { s' with
      jobs := s'.jobs.filter fun j => j.cell != id
      asks := s'.asks.filter fun x => x.2.msg.cell != id
      cells := s'.cells.map fun (n, x) => (n, modMem x fun m => { m with
        deferred := m.deferred.filter (·.reader != .copy id)
        served := m.served.filter (·.reader != .copy id) }) }
    modCell s' id fun c =>
      { c with
        core := es.foldl (fun k e => productionDone e.tok k) c.core
        mem := { c.mem with
          deferred := c.mem.deferred.filter (fun d => match d.reader with | .port _ | .matrix => false | _ => true)
          served := [] }
        queues := mapAll (fun q => { q with entries := [], stopped := false }) c.queues
        channels := mapAll (fun h =>
          let h := { h with atHand := none, got := [], eosSent := false, left := false }
          if h.state == .walk || h.state == .faulted then { h with state := .idle } else h) c.channels
        exitBank := []
        owed := c.owed.filter fun w => !w.refused }

/-! ### Taking a trap (R338-R343, R345) and returning from one (R344) -/

/-- The number of a trap code (R338). -/
def TrapCode.num : TrapCode → Nat
  | .illegal => 1 | .align => 2 | .bankconf => 3 | .matgroup => 4 | .format => 5 | .handle => 6 | .xlatfault => 7
  | .access => 8 | .presence => 9 | .deferto => 10 | .packet => 11 | .stripdz => 12 | .stripinv => 13 | .ecc => 14
  | .link => 15 | .hang => 16 | .soft => 17 | .brk => 18 | .chk => 19 | .ctrUnderflow => 20

/-- The trap comes from an instruction at its stream's place. -/
def atStream (t : Trap) (y : Bool) : Bool := !t.late && t.unit == streamUnit y

/-- The place a stream resumes at: after SOFT and BRK the next instruction (R338). -/
def resumePlace (c : Cell) (t : Trap) (y : Bool) : Word :=
  let p := if atStream t y then getPlace c.core y else nextPlace c y
  if atStream t y && (t.code == .soft || t.code == .brk) then p + 4 else p

/-- TREC0 (R339). -/
def trec0 (t : Trap) (nested : Bool) : Word :=
  BitVec.ofNat 8 t.code.num ++ t.unit ++ BitVec.ofBool t.late ++ BitVec.ofBool nested ++ t.sub ++ t.strip ++ t.widx ++ (0 : BitVec 5) ++
    (if (t.unit == 0 || t.unit == 1) && !t.late then t.word else 0)

/-- TREC2 or TREC3: the place of one stream (R340). -/
def trecPlace (r : Option Residual) (place : Word) (at_ hm : Bool) : Word :=
  let roff := place.toNat % 0x100000
  let (ooff, n, deep, _) := originalOf r roff
  BitVec.ofNat 20 ooff ++ BitVec.ofNat 20 roff ++ BitVec.ofNat 3 n ++ BitVec.ofBool deep ++ BitVec.ofBool at_ ++
    BitVec.ofBool hm ++ (0 : BitVec 18)

/-- TREC6 of a late trap: original and residual offset of the refused instruction (R340). -/
def trecLate (r : Option Residual) (place : Word) : Word :=
  let roff := place.toNat % 0x100000
  BitVec.ofNat 20 (originalOf r roff).1 ++ BitVec.ofNat 20 roff ++ (0 : BitVec 24)

/-- The trap record of a cell at a cut (R339-R341). -/
def trapRecord (r : Option Residual) (c : Cell) (t : Trap) (nested : Bool) : Vector Word 8 :=
  let pe := resumePlace c t false
  let pa := resumePlace c t true
  let idxPlace := if atStream t true then pa else pe
  let dseq (q : BitVec 2) := (getQueue c q).dseq
  #v[trec0 t nested,
     t.addr,
     trecPlace r pe (atStream t false) c.core.hm,
     trecPlace r pa (atStream t true) c.core.hm,
     dseq 3 ++ dseq 2 ++ dseq 1 ++ dseq 0,
     (originalOf r (idxPlace.toNat % 0x100000)).2.2.2,
     if t.late then trecLate r t.d6 else t.d6,
     t.d7]

/-- A record of code 0 with the cell's own cut (R345). -/
def cutRecord (r : Option Residual) (c : Cell) : Vector Word 8 :=
  let v := trapRecord r c { code := .hang, unit := 8 } false
  v.set 0 0

/-- A strip or array port of the collar stands at a fault (R332). -/
def collarFaulted (k : Collar) : Bool :=
  k.strips.toList.any (·.fault.isSome) || k.aeFault.isSome || k.beFault.isSome

/-- Where queue q of a cell stands: not started, at its fault, or at a point where it may stop (R245, R264, R351). A
faulted collar has come to rest, and a retirement that waits behind it with it (R350). -/
def atStop (c : Cell) (q : BitVec 2) : Bool :=
  match (getQueue c q).entries with
  | [] => true
  | e :: _ =>
    match e.status with
    | .running =>
      (q == 0 && ((e.atPoint && c.exitBank.isEmpty) || ((e.atPoint || e.retire) && collarFaulted c.collar))) ||
      (q == 1 && (c.collar.snapDone || collarFaulted c.collar))
    | .finished => q != 0 || c.exitBank.isEmpty || collarFaulted c.collar
    | _ => true

def allAtStop (c : Cell) : Bool := atStop c 0 && atStop c 1 && atStop c 2 && atStop c 3

/-- The handler of a cell; none where the trap is fatal (R148, R345). -/
def handlerOf (s : State) (c : Cell) (t : Trap) : Option Word :=
  if t.code == .hang || c.core.hm || c.core.sr.trapvec == 0 then none
  else
    handlerPlace ((taskOf s c).bind (·.residual)) c.core.sr.trapvec

/-- Handler entry: the record is written, the queues between the streams go to the save area, HM is set and both streams
start at the handler. The engine queues other than the faulting one go on (R343). -/
def enterHandler (s : State) (c : Cell) (t : Trap) (vec : Word) : Cell :=
  let rec_ := trapRecord ((taskOf s c).bind (·.residual)) c t false
  let save : SaveArea :=
    { ldq := c.core.ldq, eaq := c.core.eaq, boq := c.core.boq, path := c.core.path
      pcE := resumePlace c t false, pcA := resumePlace c t true
      brE := c.core.brE, brA := c.core.brA, barPhase := c.core.barPhase, tokWait := c.core.tokWait }
  { c with
    core := { c.core with
      sr := { c.core.sr with trec := rec_ }
      save := some save
      ldq := [], eaq := [], boq := [], path := []
      pcE := vec, pcA := vec, brE := 0, brA := 0
      barPhase := .idle, tokWait := none
      hm := true, run := c.core.run + 1, trap := none, stopIssue := false, halted := false }
    queues := mapAll (fun q => { q with stopped := match q.entries with
        | e :: _ => (match e.status with | .faulted _ _ => true | _ => false)
        | [] => false }) c.queues
    collar := resumeCollar c.collar }

/-- A freeze that the cell's fault has caused has not begun: the handler starts after it (R348). -/
def freezePending (s : State) (part : BitVec 4) (id : Nat) : Bool :=
  (partOf s part).freezes.any fun f => f.faulty == id && !f.done

/-- The cell is being halted for a save or a swap: a trap then stays pending in its context (R356, R359). -/
def halting (s : State) (c : Cell) : Bool :=
  !(partOf s c.part).resident ||
  match taskOf s c with
  | some t => (match t.stage with
      | .saving _ => true
      | _ => false)
  | none => false

/-- A cell whose trap stands and whose accesses and engines have come to rest enters its handler (R343). -/
def settleTrap (s : State) (id : Nat) : Option State :=
  match look s.cells id with
  | none => none
  | some c =>
    match c.core.trap with
    | none => none
    | some t =>
      if !(accessesDone s id c && (allAtStop c || c.frozen.isSome)) || (c.frozen.isSome && !c.frozenFault) ||
          freezePending s c.part id || halting s c then none
      else
        match handlerOf s c t with
        | none => none
        | some vec => some (setCell s id (enterHandler s c t vec))

/-- A halt of these cells waits: one of them is frozen, or a freeze of the partition is on its way (R348, R356). -/
def haltWaits (s : State) (part : BitVec 4) (ids : List Nat) : Bool :=
  (partOf s part).freezes.any (fun f => !f.done) ||
  ids.any fun id => match look s.cells id with
    | some c => c.frozen.isSome
    | none => false

/-- Both streams stop and every queue stops at its next stopping point; what has been issued completes (R343, R356). -/
def stopCell (c : Cell) : Cell :=
  { c with
    core := { c.core with stopIssue := true }
    queues := mapAll (fun q => { q with stopped := true }) c.queues }

/-- Unmap step 1: every member stops issue, every engine goes to its boundary, the wake latch is cleared; that of a save which a
freeze has broken off was cleared when it began first (R127, R128). -/
def beginSave (s : State) (n : Nat) (yield_ : Bool) : State :=
  modTask (forCells s (membersOf s n) stopCell) n fun t => { t with
    stage := .saving yield_, wake := t.wake && t.saveBroken, saveAsked := none, saveBroken := false }

/-- A save of a task is asked for; while a member is frozen it waits for the thaw (R127, R356, R359). -/
def askSave (s : State) (n : Nat) (yield_ : Bool) : State :=
  match look s.tasks n with
  | none => s
  | some t =>
    let s1 := modTask s n fun t => { t with cellsAsked := false }
    if haltWaits s t.part t.cells then modTask s1 n fun t => { t with saveAsked := some (yield_ || t.saveAsked.getD false) }
    else beginSave s1 n yield_

/-- The trap that stands in a core once its unit and another one have both met a fault: of two in one cycle the one with
the lower UNIT, else the first. A refusal that does not stand is held; any other operation had no effect and faults again
when it is retried (R343, R359). -/
def keepTrap (now : Nat) (t : Trap) (k : Core) : Core :=
  match k.trap with
  | some o =>
    let (stands, other) := if k.trapAt == now && t.unit.toNat < o.unit.toNat then (t, o) else (o, t)
    { k with trap := some stands, held := if other.late then k.held ++ [other] else k.held }
  | none => k

/-- The trap that stands in a core changes as `f` says, and the record of a fatal trap with it (R345, R359). -/
def restand (s : State) (id : Nat) (c : Cell) (f : Core → Core) : State :=
  let c' := modCore c f
  modTask (setCell s id c') c.task fun k => { k with
    fatal := k.fatal.map fun v => if v.lcell = c.core.sr.lcell.toNat && some v.trap = c.core.trap then
      { v with trap := c'.core.trap.getD v.trap } else v }

/-- A trap is raised in cell `id`. One that already stands is kept but for R359; a late one is held while a handler runs or
the cell is halted (R343, R359). A fatal one stops every member (R345). -/
def raise (s : State) (id : Nat) (t : Trap) : State :=
  match look s.cells id with
  | none => s
  | some c =>
    if t.late && (c.core.hm || (c.core.trap.isNone && c.core.stopIssue)) then
      setCell s id (modCore c fun k => { k with held := k.held ++ [t] })
    else if c.core.trap.isSome then restand s id c (keepTrap s.now t)
    else if ((taskOf s c).bind (·.fatal)).isSome then s
    else
      let c' := modCore (stopCell c) fun k => { k with trap := some t, trapAt := s.now }
      match handlerOf s c t with
      | some vec =>
        if accessesDone s id c' && allAtStop c' && !freezePending s c.part id && !halting s c then
          setCell s id (enterHandler s c' t vec)
        else setCell s id c'
      | none =>
        let s' := forCells (setCell s id c') (membersOf s c.task) stopCell
        modTask s' c.task fun k => { k with fatal := some ⟨c.core.sr.lcell.toNat, t, c.core.hm⟩ }

/-! ### Debug mode (R410) -/

/-- The partition of a cell is in debug mode. -/
def debugs (s : State) (c : Cell) : Bool := (partOf s c.part).debug

def meets (a n b k : Nat) : Bool := a < b + k && b < a + n

/-- A pair of overlapping accesses of one stream in different alias classes (R199, R410). -/
def aliasHazard (x y : DebugAccess) : Bool :=
  x.acc == y.acc && x.cls != y.cls && x.place == y.place && meets x.addr x.size y.addr y.size

/-- BRK of debug mode: which hazard, and the two addresses, the earlier first (R410). -/
def hazardTrap (unit : BitVec 4) (word : BitVec 32) (which a b : Nat) : Trap :=
  { code := .brk, unit := unit, word := word, addr := BitVec.ofNat 64 which, d6 := BitVec.ofNat 64 a, d7 := BitVec.ofNat 64 b }

/-- In debug mode an access that has issued joins those a fence has still to cover; one that meets an access of another
class raises BRK at its instruction (R410). That access keeps its effects, and the record names it with AT = 1: R18 gives an
instruction that traps none, while R338 and R344 go on behind it (DESIGN CHOICE, assumption 35). -/
def noteAccess (s : State) (id : Nat) (w : BitVec 32) (x : DebugAccess) : State :=
  match look s.cells id with
  | none => s
  | some c =>
    if debugs s c then
      let s1 := setCell s id (modCore c fun k => { k with recent := k.recent ++ [x] })
      match c.core.recent.find? (aliasHazard x) with
      | none => s1
      | some o =>
        raise (modCell s1 id fun c => modCore c fun k => setPlace k x.acc (getPlace k x.acc - 4)) id
          (hazardTrap (streamUnit x.acc) w 1023 o.addr x.addr)
    else s

/-- An issued local access as debug mode notes it. -/
def localAccess (i : Instr) (y : Bool) (cls : BitVec 2) (id a size : Nat) (r : Res) : Res :=
  match r with
  | .done s => .done (noteAccess s id (coreWord i) ⟨y, cls, 0, false, .cell id, a, size⟩)
  | r => r

/-- A faulted entry runs again from its fault (R344). -/
def retryEntry (e : Entry) : Entry :=
  match e.status with
  | .faulted _ started => { e with status := if started then .running else .waiting }
  | _ => e

/-- Return from a handler (R344): the queues come back from the save area, the stopped queues restart, HM is cleared,
and each stream goes on at its recorded place. LDQ entries of refused loads are filled with zero (R342); line entries that
the handler leaves free their slots (R191). -/
def leaveHandler (c : Cell) (v : SaveArea) : Cell :=
  let refused := c.core.refusedLoads
  let fill (e : LdqEntry) : LdqEntry :=
    if !e.filled && refused.contains e.id then
      { e with filled := true, vals := List.replicate (if e.slot then 16 else 1) 0 }
    else e
  let lines := (c.core.ldq.filter (·.slot)).length
  { c with
    core := { c.core with
      slots := c.core.slots - lines
      ldq := v.ldq.map fill, eaq := v.eaq, boq := v.boq, path := v.path
      pcE := v.pcE, pcA := v.pcA, brE := v.brE, brA := v.brA
      barPhase := v.barPhase, tokWait := v.tokWait
      hm := false, save := none, refusedLoads := [] }
    queues := mapAll (fun q => { q with stopped := false, entries := q.entries.map retryEntry }) c.queues
    channels := mapAll (fun h => if h.state == .faulted then { h with state := .walk } else h) c.channels
    collar := { c.collar with
      aeFault := none, beFault := none
      wave := { c.collar.wave with buf := c.collar.wave.buf.map fun o => { o with stuck := false } }
      strips := mapAll (fun p => { p with fault := none }) c.collar.strips } }

/-- Refusals and faults held until the return are raised now (R343, R359). -/
def raiseHeld (s : State) (id : Nat) : State :=
  match look s.cells id with
  | none => s
  | some c =>
    match c.core.held with
    | [] => s
    | t :: ts =>
      let s' := setCell s id (modCore c fun k => { k with held := ts })
      raise s' id t

/-! ### Running an instruction of a stream -/

/-- Run the meaning of an instruction of stream `y` in the cell that stands at `focus`. -/
def runCore (i : Instr) (y : Bool) (body : State → Nat → Cell → Res) (s : State) : Host.Outcome State Fault Refusal :=
  match look s.cells s.focus.cell with
  | none => .next s
  | some c =>
    if streamRuns c y then
      match body s s.focus.cell c with
      | .done t => .next t
      | .wait => .next s
      | .trap t => .next (raise s s.focus.cell { t with unit := streamUnit y, word := coreWord i })
    else .next s

/-- A refused write of firmware: ACCESS is reported (R114, R180). -/
def refuseWrite (s : State) (part : BitVec 4) : State :=
  { s with fw := { s.fw with reports := s.fw.reports ++ [.trap part .access] } }

/-- A step that is not enabled leaves the machine as it is. -/
def settle (s : State) (r : Option State) : Host.Outcome State Fault Refusal := .next (r.getD s)

/-- An act of firmware: images that have not passed the checks of boot do not run (R404). -/
def ofFirmware (s : State) (r : Option State) : Option State := if s.fw.booted then r else none

/-- A fresh free value of the next index (assumption 3). -/
def freeValue (s : State) : Word × State := (Config.freeWord s.free, { s with free := s.free + 1 })

end Sys2Proof.Machine
end

