-- ==== Sys2Proof/Machine/Operands.lean ====
section
/-! DEFINITION. Operand forms: the shapes in which instructions name their sources, destinations, addresses and targets
(R27, R48, R57-R62). -/

namespace Sys2Proof.Machine

/-! ### Register forms -/

/-- d from a and b, read in that order (R48). -/
def regForm2 (i : Instr) (y : Bool) (d a b : BitVec 5) (f : Word → Word → Word) :
    State → Host.Outcome State Fault Refusal :=
  runCore i y fun s id c =>
    readReg y a c fun va c => readReg y b c fun vb c =>
    writeReg y d (f va vb) c fun c => finish s id (advance y c)

/-- d from a alone, or from a and an immediate. -/
def regForm1 (i : Instr) (y : Bool) (d a : BitVec 5) (f : Word → Word) : State → Host.Outcome State Fault Refusal :=
  runCore i y fun s id c =>
    readReg y a c fun va c => writeReg y d (f va) c fun c => finish s id (advance y c)

/-- d from a constant. -/
def constForm (i : Instr) (y : Bool) (d : BitVec 5) (v : Word) : State → Host.Outcome State Fault Refusal :=
  runCore i y fun s id c => writeReg y d v c fun c => finish s id (advance y c)

/-- d from its own old value; d names no port (R48). -/
def updateForm (i : Instr) (y : Bool) (d : BitVec 5) (f : Word → Word) : State → Host.Outcome State Fault Refusal :=
  runCore i y fun s id c =>
    if rmwOk d then
      readReg y d c fun vd c => writeReg y d (f vd) c fun c => finish s id (advance y c)
    else .trap illegalTrap

/-! ### Control transfer (R10, R57-R61) -/

/-- The target of a word offset, counted from the branch itself (R10). -/
def wordTarget {n : Nat} (c : Cell) (y : Bool) (off : BitVec n) : Word := getPlace c.core y + (sx off <<< 2)

/-- Branch on a comparison of a and b (R57). -/
def branchForm (i : Instr) (y : Bool) (a b : BitVec 5) (off : BitVec 14) (taken : Word → Word → Bool) :
    State → Host.Outcome State Fault Refusal :=
  runCore i y fun s id c =>
    readReg y a c fun va c => readReg y b c fun vb c =>
    decide_ y (taken va vb) (wordTarget c y off) c fun c => finish s id c

/-- Branch on one bit of a (R58). -/
def bitBranchForm (i : Instr) (y : Bool) (a : BitVec 5) (off : BitVec 13) (taken : Word → Bool) :
    State → Host.Outcome State Fault Refusal :=
  runCore i y fun s id c =>
    readReg y a c fun va c => decide_ y (taken va) (wordTarget c y off) c fun c => finish s id c

/-! ### Local memory (R62, R104, R105, R198) -/

/-- Effective address: base + sx(off12) × size (R62). -/
def localAddr (base : Word) (off : BitVec 12) (size : Nat) : Word := base + sx off * BitVec.ofNat 64 size

/-- Reserve the next LDQ entry for a read that has not returned (R79, R105). -/
def reserveEntry (slot : Bool) (c : Cell) (k : Nat → Cell → Res) : Res :=
  if 32 ≤ c.core.ldq.length || storesBuffered c true then .wait
  else
    let n := freshEntry c.core
    k n (modCore c fun x => { x with ldq := x.ldq ++ [⟨n, false, [], slot⟩] })

/-- The LDQ entry that a read of port `b` removes a value from (R9, R79). -/
def ldqPopped (y : Bool) (b : BitVec 5) (k : Core) : Option LdqEntry := if !y && b == 30 then k.ldq.head? else none

/-- The EAQ entry that a read of port `b` removes (R9, R80). -/
def eaqPopped (y : Bool) (b : BitVec 5) (k : Core) : Option Word := if y && b == 31 then k.eaq.head? else none

/-- A read of an empty presence word joins the reads that wait at its bank: a stream stalls, an LDQ entry stays unfilled.
The sixteen reads that a bank defers and further ones that wait at its input differ in time alone, and stand in one list
(R105; assumption 51). `old` is the core before the load removed its base `b` from a queue. -/
def deferRead (s : State) (y signed : Bool) (d b : BitVec 5) (cls : BitVec 2) (a size : Nat) (old : Core) (c : Cell)
    (k : Cell → Res) : Res :=
  let wait (r : Reader) (c : Cell) : Deferred :=
    { addr := a, size := size, signed := signed, reader := r, since := s.now, pc := getPlace c.core y, cls := cls }
  let add (x : Deferred) (c : Cell) : Cell := modMem c fun m => { m with deferred := m.deferred ++ [x] }
  if dstOk y d = false then .trap illegalTrap
  else if y && d == 30 then reserveEntry false c fun n c => k (add (wait (.ldq n) c) c)
  else if y && bit c.core.busy d.toNat then .wait
  else if !y && d == 31 && (16 ≤ c.core.eaq.length || storesBuffered c false) then .wait
  else k (add { wait (.stream y d) c with ldqBack := ldqPopped y b old, eaqBack := eaqPopped y b old } c)

/-- A local load of `size` bytes, sign- or zero-extended (R62). -/
def localLoad (i : Instr) (y : Bool) (d b : BitVec 5) (cls : BitVec 2) (off : BitVec 12) (size : Nat) (signed : Bool) :
    State → Host.Outcome State Fault Refusal :=
  runCore i y fun s id c0 =>
    readReg y b c0 fun vb c =>
    let ea := localAddr vb off size
    match localFault ea size with
    | some t => .trap t
    | none =>
      if isEmpty c ea.toNat && !allForwarded (c.mem.bufs[cls.toNat]'cls.isLt) y ea.toNat size then
        localAccess i y cls id ea.toNat size (deferRead s y signed d b cls ea.toNat size c0.core c fun c => finish s id (advance y c))
      else
        localAccess i y cls id ea.toNat size (
          writeReg y d (extend signed size (wordOf (loadBytes c y cls ea.toNat size))) c fun c =>
          finish s id (advance y c))

/-- Append a local store to the buffer of its class, with what it has removed from the queues (R18, R198). -/
def bufferStore (y : Bool) (cls : BitVec 2) (a size : Nat) (v : Word) (ldqs : List LdqEntry) (eaqs : List Word) (c : Cell) : Cell :=
  let e : BufStore :=
    ⟨y, a, size, v, if y then c.core.brA else c.core.brE, getPlace c.core y, ldqs, eaqs⟩
  modMem c fun m => { m with bufs := m.bufs.set cls.toNat ((m.bufs[cls.toNat]'cls.isLt) ++ [e]) cls.isLt }

/-- A local store of the low `size` bytes of s; base is read before s (R62). It joins the buffer of its class; whether its
word is full shows when it retires (R104, R198). -/
def localStore (i : Instr) (y : Bool) (r b : BitVec 5) (cls : BitVec 2) (off : BitVec 12) (size : Nat) :
    State → Host.Outcome State Fault Refusal :=
  runCore i y fun s id c0 =>
    readReg y b c0 fun vb c1 => readReg y r c1 fun v c =>
    let ea := localAddr vb off size
    match localFault ea size with
    | some t => .trap t
    | none =>
      let ldqs := (ldqPopped y b c0.core).toList ++ (ldqPopped y r c1.core).toList
      let eaqs := (eaqPopped y b c0.core).toList ++ (eaqPopped y r c1.core).toList
      localAccess i y cls id ea.toNat size (finish s id (advance y (bufferStore y cls ea.toNat size v ldqs eaqs c)))

/-! ### Counter operands (R100) -/

/-- The counter a value names, when its high half is zero and the counter belongs to the partition. -/
def counterOperand (s : State) (part : BitVec 4) (v : Word) : Option (BitVec 16 × BitVec 16) :=
  let n : BitVec 16 := field v 0 16
  let k : Counter := peek {} s.counters n.toNat
  if field v 32 32 == 0#32 && k.part == part then some (n, field v 16 16) else none

end Sys2Proof.Machine
end

