-- ==== Sys2Proof/Machine/Queues.lean ====
section
/-! DEFINITION. Work queues as the scheduler sees them: their states (R113-R117), sticky errors (R394), the event ring
(R400, R401), dependence counters' entries (R121). -/

namespace Sys2Proof.Machine

/-! ### Host memory and the event ring (R152, R400, R401) -/

/-- Physical address of a host physical address (R152). -/
def hostPa (a : Nat) : Nat := 0x8000000000000 + a % 0x8000000000000

def writeHost (s : State) (a : Nat) (bs : List Byte) : State := { s with mem := writeBytes s.mem (hostPa a) bs }

/-- Records the ring of a partition holds (R400). -/
def ringSize (p : Partition) : Nat := 2 ^ p.ringK

/-- The ring is full (R401). -/
def ringFull (p : Partition) : Bool := decide (ringSize p ≤ (p.prod - p.cons).toNat)

/-- Doubleword 0 of an event record (R400). -/
def eventHead (kind : BitVec 8) (part : BitVec 4) (queue : BitVec 12) (detail : BitVec 16) : Word :=
  kind ++ part ++ queue ++ (0 : BitVec 24) ++ detail

/-- Write one record at PROD, then PROD (R400). -/
def putRecord (s : State) (part : BitVec 4) (bs : List Byte) : State :=
  let p := partOf s part
  let n := p.prod.toNat % ringSize p
  let s1 := writeHost s (p.ringBase.toNat + 64 + 32 * n) bs
  let s2 := writeHost s1 p.ringBase.toNat (bytesOf (p.prod + 1).toNat 8)
  modPart s2 part fun p => { p with prod := p.prod + 1 }

/-- OVERFLOW, in the partition and in the ring's header (R400, R401). -/
def setOverflow (s : State) (part : BitVec 4) (v : Bool) : State :=
  let s1 := writeHost s ((partOf s part).ringBase.toNat + 16) (bytesOf (if v then 2 ^ 63 else 0) 8)
  modPart s1 part fun p => { p with overflow := v }

/-- Post an event: on a full ring it is dropped and OVERFLOW is set (R401). A dropped event takes no number. -/
def postEvent (s : State) (part : BitVec 4) (kind : BitVec 8) (queue : BitVec 12) (detail : BitVec 16) (d2 d3 : Word) : State :=
  let p := partOf s part
  if ringFull p then setOverflow s part true
  else
    let s1 := putRecord s part
      (bytesOf (eventHead kind part queue detail).toNat 8 ++ bytesOf p.evSeq.toNat 8 ++ bytesOf d2.toNat 8 ++ bytesOf d3.toNat 8)
    modPart s1 part fun p => { p with evSeq := p.evSeq + 1 }

/-! ### Queues -/

/-- The descriptor of a queue. One that nothing has touched stands at its reset values, of partition 0, and is switched out
while that partition is (R113, R398). -/
def queueAt (s : State) (q : BitVec 12) : Queue := peek { switched := (partOf s 0).away } s.queues q.toNat

def setQueueAt (s : State) (q : BitVec 12) (v : Queue) : State := { s with queues := put s.queues q.toNat v }

def modQueueAt (s : State) (q : BitVec 12) (f : Queue → Queue) : State := setQueueAt s q (f (queueAt s q))

/-- A sticky error stops the queue and posts a queue-error event; the first error is held (R115, R394, R400, R401). -/
def stopQueue (s : State) (q : BitVec 12) (cls code : BitVec 8) : State :=
  let v := queueAt s q
  if v.err.isSome then s
  else postEvent (setQueueAt s q { v with err := some (cls, code) }) v.part 1 q (cls ++ code) 0 0

/-- Queue errors of class 3 (R394). -/
abbrev errStale : BitVec 8 := 1
abbrev errBadCmd : BitVec 8 := 2
abbrev errArm : BitVec 8 := 3
abbrev errOverrun : BitVec 8 := 4

/-! ### Commands (R116, R396) -/

def cmdKind (c : Command) : Nat := (field c.dw[0] 60 4 : BitVec 4).toNat
def cmdEvent (c : Command) : Bool := bit c.dw[0] 0
def cmdCount (c : Command) : BitVec 16 := field c.dw[1] 16 16
def cmdCounter (c : Command) : BitVec 16 := field c.dw[1] 0 16
def cmdWaits (c : Command) : Bool := bit c.dw[4] 63
def cmdWaitGen (c : Command) : BitVec 16 := field c.dw[4] 16 16
def cmdWaitCtr (c : Command) : BitVec 16 := field c.dw[4] 0 16
def cmdUniform (c : Command) : BitVec 57 := field c.dw[2] 0 57
def cmdUniformLen (c : Command) : Nat := (field c.dw[3] 0 13 : BitVec 13).toNat
def cmdRecord (c : Command) : BitVec 57 := field c.dw[5] 0 57

/-! ### Counters (R121) -/

def counterAt (s : State) (n : BitVec 16) : Counter := peek {} s.counters n.toNat

def setCounter (s : State) (n : BitVec 16) (k : Counter) : State := { s with counters := put s.counters n.toNat k }

/-! ### Queue states (R115) -/

/-- STATE of R113. -/
inductive QState where
  | empty | ready | blocked | stopped
deriving DecidableEq, Repr

/-- The head launch has reached stage 7 (R115). -/
def launchStarted (s : State) (v : Queue) : Bool :=
  match v.task.bind (look s.tasks) with
  | some t => (match t.stage with
      | .running | .saving _ | .saved => true
      | _ => false)
  | none => false

/-- The wake latch of the queue's task (R128). -/
def wakeLatch (s : State) (v : Queue) : Bool :=
  match v.task.bind (look s.tasks) with
  | some t => t.wake
  | none => false

/-- STATE of a queue (R115). A head command that has not been read yet is not READY. -/
def queueState (s : State) (v : Queue) : QState :=
  if v.err.isSome then .stopped
  else if !v.en || v.head == v.tail then .empty
  else if v.restore then (if wakeLatch s v then .ready else .blocked)
  else
    match v.cmd with
    | none => .blocked
    | some c =>
      if cmdKind c ≠ 0 then .ready
      else if launchStarted s v then .blocked
      else if cmdWaits c then
        let k := counterAt s (cmdWaitCtr c)
        if k.state == .fired && k.gen == cmdWaitGen c then .ready else .blocked
      else .ready

def isReady (s : State) (v : Queue) : Bool := queueState s v == .ready

/-- STRIDE of R113. -/
def strideOfQueue (v : Queue) : BitVec 40 := BitVec.ofNat 40 (2 ^ 20 / v.tickets.toNat)

/-- PASS is compared by the signed difference of 40 bits (R117). -/
def passBefore (a b : BitVec 40) : Bool := (a - b).slt 0

/-- The next head of a queue has still to be read: it keeps the standing it had. -/
def betweenHeads (s : State) (v : Queue) : Bool := v.cmd.isNone && !v.restore && queueState s v == .blocked

/-- Queues of a partition that stand READY at a level, `q` apart. Of queues that become READY in one step each counts from
its turn on, in number order (DESIGN CHOICE, assumption 25: R117 ranks them not). -/
def readyPeers (s : State) (q : Nat) (v : Queue) : List Queue :=
  (s.queues.filter fun p =>
    p.1 != q && p.2.part == v.part && p.2.prio == v.prio && p.2.wasReady && (isReady s p.2 || betweenHeads s p.2)).map (·.2)

/-- The least of a list of passes. -/
def leastPass : List (BitVec 40) → Option (BitVec 40)
  | [] => none
  | a :: as =>
    match leastPass as with
    | none => some a
    | some m => some (if passBefore m a then m else a)

/-- A queue that has become READY takes the least PASS of its level when its own is lower (R117). A queue whose next head
has still to be read keeps its standing, and a READY queue that a PRIO write moves to another level has not become READY, so
that its PASS stays (DESIGN CHOICES, assumption 25). -/
def noteQueue (s : State) (q : Nat) : State :=
  match look s.queues q with
  | none => s
  | some v =>
    if isReady s v then
      if v.wasReady then s
      else
        let pass := match leastPass ((readyPeers s q v).map (·.pass)) with
          | some m => if passBefore v.pass m then m else v.pass
          | none => v.pass
        { s with queues := put s.queues q { v with wasReady := true, pass := pass } }
    else if v.wasReady && !betweenHeads s v then
      { s with queues := put s.queues q { v with wasReady := false } }
    else s

/-- Every queue's standing is brought up to date (R117). -/
def noteReady (s : State) : State := (keys s.queues).foldl noteQueue s

/-- A step of the scheduler: where it is not enabled the machine stays as it is. -/
def settleQueues (s : State) (r : Option State) : Host.Outcome State Fault Refusal := settle s (r.map noteReady)

/-- The wake latch of a task is set (R128). -/
def wakeTask (s : State) (t : Nat) : State := modTask s t fun k => { k with wake := true }

end Sys2Proof.Machine
end

