-- ==== Sys2Proof/Machine/Sync.lean ====
section
/-! DEFINITION. Barriers (R92-R99), dependence counters (R100-R102, R121-R123), presence ranges (R106, R107) and engine
tokens as the core sees them (R241). -/

namespace Sys2Proof.Machine

/-! ### Barrier records (R92, R93, R96) -/

/-- Combine two values (R96). -/
def combine (op : BitVec 3) (a b : Word) : Word :=
  match op.toNat with
  | 0 => a + b
  | 1 => if a.slt b then a else b
  | 2 => if a.slt b then b else a
  | 3 => a ||| b
  | _ => a &&& b

/-- One more arrival of the generation; a `bar` or `bara` arrival contributes the identity (R95, R96). -/
def addArrival (b : Barrier) (o : Option (BitVec 3 × Word)) : Barrier :=
  let b' := { b with arrived := b.arrived + 1 }
  match o with
  | none => b'
  | some (op, v) =>
    match b.op with
    | none => { b' with op := some op, acc := v }
    | some op' => if op' = op then { b' with acc := combine op b.acc v } else { b' with mix := true }

/-- Packages of the load-store domain (R372). -/
def packages (fw : Firmware) : Nat := fw.torus.1.toNat * fw.torus.2.1.toNat * fw.torus.2.2.toNat

/-- The partial counts of other packages in the open generation of a level-4 record; records of other levels hold none
(R92, R376). -/
def farHere (b : Barrier) : List Config.FarArrival := b.far.filter fun a => a.gen == b.gen

/-- ARRIVED, EXPECT and OUT[GEN] of a record: at level 4 the sums of the packages' partial counts (R92, R330). -/
def arrivedAll (b : Barrier) : Nat := b.arrived + ((farHere b).map (·.arrived)).sum
def expectAll (b : Barrier) : Nat := b.expect + ((farHere b).map (·.expect)).sum
def openHere (b : Barrier) : Nat := (if b.gen then b.out1 else b.out0).toNat
def openAll (b : Barrier) : Nat := openHere b + ((farHere b).map (·.open_)).sum

/-- A record's generation completes when ARRIVED = EXPECT and OUT[GEN] = 0 (R95, R330); one with no arrival is not open
(R93). -/
def barrierReady (b : Barrier) : Bool :=
  decide (0 < arrivedAll b) && decide (arrivedAll b = expectAll b) && decide (openAll b = 0)

/-- This package's partial count as it stands (R92). -/
def partialCount (b : Barrier) : Bool × Nat × Nat × Nat := (b.gen, b.expect, b.arrived, openHere b)

/-- The combining tree has this package's partial count of a level-4 record still to take (R92, R376). -/
def owesReport (s : State) (b : Barrier) : Bool := decide (1 < packages s.fw) && b.told != some (partialCount b)

/-- The sums of a level-4 record are known: every package of the domain has sent its partial count up the tree, this one
as it stands (R92, R376). -/
def farReady (s : State) (l : BitVec 3) (b : Barrier) : Bool :=
  l != 4 || (decide (packages s.fw ≤ (farHere b).length + 1) && !owesReport s b)

/-- A record with the combines of other packages' arrivals taken in (R96, R376). -/
def withFar (b : Barrier) : Barrier :=
  (farHere b).foldl (fun r a =>
    let r' := { addArrival r a.op with arrived := r.arrived }
    { r' with mix := r'.mix || a.mix }) b

/-- The record after a completion: the held early arrivals are counted in the next generation (R95). -/
def nextGeneration (b : Barrier) : Barrier :=
  let fresh : Barrier :=
    { b with
      far := b.far.filter fun a => a.gen != b.gen
      gen := !b.gen, arrived := 0, acc := 0, op := none, mix := false
      expect := b.expect + b.placed.length, counted := b.counted ++ b.placed, placed := [], early := [] }
  b.early.foldl (fun r e => addArrival r e.2) fresh

/-- The combined value of a generation: 0 when its arrivals named different combines (R96). -/
def combinedValue (b : Barrier) : Word := if b.mix then 0 else if b.op.isSome then b.acc else 0

def levelBit (v : BitVec 5) (l : BitVec 3) : Bool := bit v l.toNat

def setLevelBit (v : BitVec 5) (l : BitVec 3) (b : Bool) : BitVec 5 :=
  let m : BitVec 5 := 1#5 <<< l.toNat
  if b then v ||| m else v &&& ~~~m

/-- Place `l` of a per-level vector; levels are 0-4 (R85). -/
def atLevel {α : Type} (v : Vector α 5) (l : BitVec 3) (d : α) : α := v.toList.getD l.toNat d

def setLevel {α : Type} (v : Vector α 5) (l : BitVec 3) (a : α) : Vector α 5 :=
  if h : l.toNat < 5 then v.set l.toNat a h else v

/-- The barrier the cell last arrived at has completed: GEN shows it, or the completion on record, where further generations
have completed while the cell was away (R95, R99). -/
def barrierDone (s : State) (c : Cell) (l : BitVec 3) : Bool :=
  !levelBit c.bar.early l &&
    (levelBit c.bar.done l || ((barrierAt s (atLevel c.bar.record l 0)).gen != levelBit c.bar.mygen l))

def clearPending (l : BitVec 3) (c : Cell) : Cell :=
  { c with bar := { c.bar with pending := setLevelBit c.bar.pending l false, done := setLevelBit c.bar.done l false } }

/-- The release of R95: every write before the instruction, in either stream, is performed at scope L. -/
def released (s : State) (id : Nat) (c : Cell) (scope : Nat) : Bool :=
  accessReached c.core && !writesPending s id c c.core.brE c.core.pcE scope

/-- Count an arrival of cell `id` at level `l`, or hold it as early (R93, R95). -/
def arriveAt (s : State) (id : Nat) (c : Cell) (l : BitVec 3) (o : Option (BitVec 3 × Word)) : State × Cell :=
  let key := cellBarrier id c l.toNat
  let b := barrierAt s key
  let counted := b.counted.contains (memberOf c)
  let c' := { c with bar := { c.bar with
    mygen := setLevelBit c.bar.mygen l b.gen
    pending := setLevelBit c.bar.pending l true
    done := setLevelBit c.bar.done l false
    early := setLevelBit c.bar.early l (!counted)
    record := setLevel c.bar.record l key } }
  (modBarrier s key fun b => if counted then addArrival b o else { b with early := b.early ++ [(memberOf c, o)] }, c')

/-- An arrival that has begun goes on once its release holds: an open arrival of the level is waited first (R95). -/
def arriveNow (s : State) (id : Nat) (c : Cell) : Option (State × Cell) :=
  match c.core.barPhase with
  | .arriving l o =>
    if levelBit c.bar.pending l && !barrierDone s c l then none
    else if released s id c l.toNat then
      let c1 := clearPending l c
      let (s', c') := arriveAt s id c1 l o
      some (s', modCore c' fun k => { k with barPhase := .arrived l })
    else none
  | _ => none

/-- What a barrier instruction does after its arrival. -/
inductive BarKind where
  | arrive | wait | result (d : BitVec 5)

/-- The end of a barrier instruction whose arrival is made: `bara` ends at once, `bar` and `barr` with the completion,
and `barr` writes the combined value (R95, R96). -/
def endBarrier (s : State) (id : Nat) (c : Cell) (l : BitVec 3) (kind : BarKind) : Res :=
  let idle (c : Cell) : Cell := modCore c fun k => { k with barPhase := .idle }
  match kind with
  | .arrive => finish s id (advance false (idle c))
  | .wait =>
    if barrierDone s c l then finish s id (advance false (passOn (idle (clearPending l c)))) else .done (setCell s id c)
  | .result d =>
    if barrierDone s c l then
      writeReg false d (atLevel c.bar.combined l 0) c fun c =>
      finish s id (advance false (passOn (idle (clearPending l c))))
    else .done (setCell s id c)

/-- The exit bit is cleared by `bara` (R110). -/
def clearExit (c : Cell) : Cell := modCore c fun k => { k with exitBit := false }

/-- An arriving form: check the level, begin the arrival with its operand, arrive when released, and end. -/
def barrierForm (i : Instr) (l : BitVec 3) (kind : BarKind) (operand : Cell → (Option (BitVec 3 × Word) → Cell → Res) → Res) :
    State → Host.Outcome State Fault Refusal :=
  runCore i false fun s id c =>
    match c.core.barPhase with
    | .arrived l' => endBarrier s id c l' kind
    | .arriving _ _ =>
      match arriveNow s id c with
      | some (s', c') => (match c'.core.barPhase with
          | .arrived l' => endBarrier s' id c' l' kind
          | _ => .wait)
      | none => .wait
    | .idle =>
      if takesPart c l = false then .trap (coreTrap .access 0)
      else
        operand c fun o c =>
        let c1 := modCore c fun k => { k with barPhase := .arriving l o }
        match arriveNow s id c1 with
        | some (s', c') => endBarrier s' id c' l kind
        | none => finish s id c1

/-- `bar` (R95). -/
def execBar (l : BitVec 3) (st : State) : Host.Outcome State Fault Refusal :=
  barrierForm (.bar l) l .wait (fun c k => k none c) st

/-- `bara` clears the exit bit as it issues (R95, R110). -/
def execBara (l : BitVec 3) (st : State) : Host.Outcome State Fault Refusal :=
  barrierForm (.bara l) l .arrive (fun c k => k none (clearExit c)) st

/-- `barr` (R96). -/
def execBarr (d a : BitVec 5) (l o : BitVec 3) (st : State) : Host.Outcome State Fault Refusal :=
  barrierForm (.barr d a l o) l (.result d) (fun c k => readReg false a c fun v c => k (some (o, v)) c) st

/-- `barw` (R95). -/
def execBarw (l : BitVec 3) (st : State) : Host.Outcome State Fault Refusal :=
  runCore (.barw l) false (fun s id c =>
    if takesPart c l = false then .trap (coreTrap .access 0)
    else if levelBit c.bar.pending l && !barrierDone s c l then .wait
    else finish s id (advance false (passOn (clearPending l c)))) st

/-- BARRIER_ARRIVAL: the arrival a cell's execute stream waits to make is counted or held (R95). -/
def barrierArrival (id : Nat) (l : BitVec 3) (s : State) : Option State :=
  match look s.cells id with
  | none => none
  | some c =>
    match c.core.barPhase with
    | .arriving l' _ =>
      if l' = l then (arriveNow s id c).map fun (s', c') => setCell s' id c' else none
    | _ => none

def execBarrierArrival (id : Nat) (l : BitVec 3) (s : State) : Host.Outcome State Fault Refusal :=
  settle s (barrierArrival id l s)

/-- A cell belongs to the domain of a record: by its place, or by an arrival it holds there while it is away. -/
def inDomain (key : Nat) (l : BitVec 3) (id : Nat) (c : Cell) : Bool :=
  takesPart c l && (cellBarrier id c l.toNat == key)

/-- The cell waits for the open generation of a record: its arrival there is counted, or held as early, and no completion is on
record (R95, R99). -/
def pendingAtKey (key : Nat) (b : Barrier) (l : BitVec 3) (c : Cell) : Bool :=
  levelBit c.bar.pending l && !levelBit c.bar.done l && atLevel c.bar.record l 0 == key &&
    (levelBit c.bar.early l || levelBit c.bar.mygen l == b.gen)

/-- What the completion of record `key`, which stood at `b`, does in a member: CYC restarts, a member whose arrival was
counted has the completion on record and the combined value at hand, a level-1 completion sets the exit bit, and an early arrival becomes an arrival of
the new generation (R86, R95, R96, R110). While the cell is halted for a save or a swap the restart of CYC stays to be
delivered (R99, R359). -/
def completeIn (key : Nat) (b : Barrier) (l : BitVec 3) (v : Word) (at_ : Nat) (halts : Bool) (c : Cell) : Cell :=
  let wasEarly := (b.early.map (·.1)).contains (memberOf c)
  let waited := !wasEarly && pendingAtKey key b l c
  let c1 := { c with bar := { c.bar with
    combined := if waited then setLevel c.bar.combined l v else c.bar.combined
    done := if waited then setLevelBit c.bar.done l true else c.bar.done
    early := if wasEarly then setLevelBit c.bar.early l false else c.bar.early
    mygen := if wasEarly then setLevelBit c.bar.mygen l (!b.gen) else c.bar.mygen
    restart := c.bar.restart || halts } }
  modCore c1 fun k =>
    { k with
      sr := { k.sr with cycBase := if halts then k.sr.cycBase else at_ }
      exitBit := k.exitBit || l == 1 }

/-- A saved or swapped-out cell that the completion of a record concerns: it waits there, or is a member (R95, R99). -/
def awayMember (key : Nat) (b : Barrier) (l : BitVec 3) (c : Cell) : Bool :=
  pendingAtKey key b l c || b.counted.contains (memberOf c) || b.placed.contains (memberOf c)

/-- The highest of the sixteen clock steps whose projected power stays within the board's limit; the lowest step where none
does (R409; that case DESIGN CHOICE, assumption 48). -/
def governorStep (watts : BitVec 4 → Nat) (limit : Nat) : BitVec 4 :=
  (((List.range 16).reverse.map (BitVec.ofNat 4)).find? fun v => decide (watts v ≤ limit)).getD 0

/-- The governor selects a clock at a completion of level 2 or above, for the cells of that domain and no others
(R87, R409). -/
def selectClock (l : BitVec 3) (ids : List Nat) (s : State) : State :=
  if 2 ≤ l.toNat then
    let v := governorStep (Config.projectedWatts s.free) s.fw.powerLimit
    { s with fw := { s.fw with clocks := ids.foldl (fun m id => poke 15 m id v) s.fw.clocks }, free := s.free + 1 }
  else s

/-- The completion of a record concerns a cell where it stands: the cell is of the domain, or has come back on another die
and still waits at the record it arrived at (R95, R129). -/
def liveMember (key : Nat) (b : Barrier) (l : BitVec 3) (id : Nat) (c : Cell) : Bool :=
  inDomain key l id c || pendingAtKey key b l c

/-- Contexts of a task's members wherever they stand: on cells, in frames, in shadow storage. -/
def contextsNamed (s : State) (n : Nat) (t : Task) : List Cell :=
  (s.cells.filter fun x => x.2.task == n).map (·.2) ++ t.frames ++
    (s.shadow.flatMap fun x => (x.2.filter fun y => y.2.task == n).map (·.2))

/-- BARRIER_COMPLETE: a generation completes at every member, also those saved or swapped out, to whom it is delivered
with their contexts; tasks with a member that waits there wake (R95, R98, R99, R128). -/
def barrierComplete (part : BitVec 4) (l : BitVec 3) (dom : Nat) (s : State) : Option State :=
  let key := barrierKey part l.toNat dom
  let b := barrierAt s key
  if !barrierReady b || !farReady s l b then none
  else
    let v := combinedValue (withFar b)
    let live (p : Nat × Cell) : Nat × Cell :=
      if liveMember key b l p.1 p.2 then
        (p.1, completeIn key b l v (p.2.frozen.getD s.now) (halting s p.2) p.2)
      else p
    let away (at_ : Nat) (c : Cell) : Cell :=
      if awayMember key b l c then completeIn key b l v at_ false c else c
    let tasks := s.tasks.map fun (n, t) =>
      (n, { t with
        frames := t.frames.map (away t.savedAt)
        wake := t.wake || (contextsNamed s n t).any (pendingAtKey key b l) })
    some (selectClock l ((s.cells.filter fun p => inDomain key l p.1 p.2).map (·.1))
      { s with
        cells := s.cells.map live
        tasks := tasks
        shadow := s.shadow.map fun (n, cs) => (n, cs.map fun (i, c) => (i, away (peek {} s.parts n).swappedAt c))
        barriers := put s.barriers key (nextGeneration b) })

def execBarrierComplete (part : BitVec 4) (l : BitVec 3) (dom : Nat) (s : State) : Host.Outcome State Fault Refusal :=
  settleQueues s (barrierComplete part l dom s)

/-- A member enters a domain: counted at once while no generation is open, else from the next one (R93). -/
def enterDomain (s : State) (id : Nat) (c : Cell) (l : BitVec 3) : State :=
  if takesPart c l = false then s
  else modBarrier s (cellBarrier id c l.toNat) fun b =>
    if b.counted.contains (memberOf c) || b.placed.contains (memberOf c) then b
    else if arrivedAll b = 0 then { b with expect := b.expect + 1, counted := b.counted ++ [memberOf c] }
    else { b with placed := b.placed ++ [memberOf c] }

/-- A member leaves a domain: a counted one lowers EXPECT at once, one not yet counted is never added; an arrival already
counted stays. Where ARRIVED equals EXPECT before the member leaves, or after, the generation completes, and the next one
with it where its early arrivals fill it (R93, R95). -/
def leaveDomain (s : State) (id : Nat) (c : Cell) (l : BitVec 3) : State :=
  if takesPart c l = false then s
  else
    let complete (s : State) : State := (barrierComplete c.part l (domainOf id c l.toNat) s).getD s
    complete (complete (modBarrier (complete s) (cellBarrier id c l.toNat) fun b =>
      let m := memberOf c
      { b with
        expect := if b.counted.contains m then b.expect - 1 else b.expect
        counted := removeNum b.counted m
        placed := removeNum b.placed m }))

def levels : List (BitVec 3) := [0, 1, 2, 3, 4]

/-! ### Dependence counters -/

/-- `sig`: the operand is checked at issue; the decrement is sent once every earlier write is performed at package scope
(R100, R101). -/
def execSig (a : BitVec 5) (st : State) : Host.Outcome State Fault Refusal :=
  runCore (.sig a) false (fun s id c =>
    readReg false a c fun v c =>
    match counterOperand s c.part v with
    | none => .trap (coreTrap .access v)
    | some (n, g) =>
      if released s id c 3 then
        finish { s with decs := s.decs ++ [⟨id, c.part, n, g⟩] } id (advance false c)
      else .wait) st

/-- `waitc`: completes on a FIRED or FREE counter of its generation, waits on an ARMED one, and traps on a FAULTED one
or another generation (R102, R123). An event recorded while the cell was away or being halted completes it (R359). -/
def execWaitc (a : BitVec 5) (st : State) : Host.Outcome State Fault Refusal :=
  runCore (.waitc a) false (fun s id c =>
    readReg false a c fun v c =>
    match counterOperand s c.part v with
    | none => .trap (coreTrap .access v)
    | some (n, g) =>
      let k := counterAt s n
      if c.core.fired = some (g ++ n) then finish s id (advance false (passOn (modCore c fun x => { x with fired := none })))
      else if k.gen ≠ g then .trap (coreTrap .access v)
      else
        match k.state with
        | .faulted => .trap (coreTrap .access v)
        | .armed => .wait
        | _ => finish s id (advance false (passOn c))) st

/-! ### Presence ranges (R107) -/

/-- Indices of the 32-byte words of a range. -/
def wordsOf (a b : Nat) : List Nat := range (a / 32) (b / 32)

/-- The checks of `clrp` and `setp`: alignment first, then the range and the groups' modes (R107). -/
def presenceFault (c : Cell) (a b : Word) : Option Trap :=
  if a.toNat % 32 ≠ 0 ∨ b.toNat % 32 ≠ 0 then some (coreTrap .align 0)
  else if !inScratch a.toNat b.toNat then some (coreTrap .access 0)
  else if (range (groupOf a.toNat) (groupOf (a.toNat + b.toNat - 1) + 1 - groupOf a.toNat)).all
      (fun g => bit c.core.sr.pgmode g) then none
  else some (coreTrap .access 0)

/-- `clrp` and `setp` mark every word of the range; then the access stream goes on, so that local accesses which follow in
either stream see the effect (R107). -/
def presenceForm (i : Instr) (a b : BitVec 5) (mark : Nat → Nat → LocalMem → LocalMem) (full : Bool) :
    State → Host.Outcome State Fault Refusal :=
  runCore i false fun s id c =>
    readReg false a c fun va c => readReg false b c fun vb c =>
    if vb = 0 then finish s id (advance false (passOn c))
    else
      match presenceFault c va vb with
      | some t => .trap t
      | none =>
        let s' := setCell s id (advance false (passOn (modMem c (mark va.toNat vb.toNat))))
        .done (if full then completeReads s' id (fun w => va.toNat / 32 ≤ w && w < (va.toNat + vb.toNat) / 32) else s')

/-- Merge a run of word indices into the rising list of empty words. -/
def addEmpty (lo n : Nat) (ws : List Nat) : List Nat :=
  ws.filter (· < lo) ++ range lo n ++ ws.filter (fun w => lo + n ≤ w)

/-- `clrp` leaves deferred reads deferred (R107). -/
def execClrp (a b : BitVec 5) (st : State) : Host.Outcome State Fault Refusal :=
  presenceForm (.clrp a b) a b (fun x n m => { m with empty := addEmpty (x / 32) (n / 32) m.empty }) false st

/-- `setp` completes the reads deferred on the words with their current contents (R107). -/
def execSetp (a b : BitVec 5) (st : State) : Host.Outcome State Fault Refusal :=
  presenceForm (.setp a b) a b
    (fun x n m => { m with empty := m.empty.filter fun w => w < x / 32 || (x + n) / 32 ≤ w }) true st

/-! ### Tokens (R241) -/

/-- `tokw`: the wait is recorded at issue and completes once it is satisfied, with acquire effect (R234, R241). -/
def execTokw (t : BitVec 6) (st : State) : Host.Outcome State Fault Refusal :=
  runCore (.tokw t) false (fun s id c =>
    let w := match c.core.tokWait with
      | some w => w
      | none => (t, (getToken c.core t).seq)
    if waitOver c.core w then
      finish s id (advance false (passOn (modCore c fun k => { k with tokWait := none })))
    else finish s id (modCore c fun k => { k with tokWait := some w })) st

/-- `tokq` (R241). -/
def execTokq (d : BitVec 5) (t : BitVec 6) (st : State) : Host.Outcome State Fault Refusal :=
  runCore (.tokq d t) false (fun s id c =>
    let k := getToken c.core t
    writeReg false d ((0 : BitVec 32) ++ k.seq ++ (0 : BitVec 15) ++ BitVec.ofBool k.pend) c fun c =>
    finish s id (advance false c)) st

end Sys2Proof.Machine
end

