-- ==== Sys2Proof/Machine/System.lean ====
section
/-! DEFINITION. Lane masks (R66), special registers (R15, R16, R72, R103), and the system instructions (R67-R70, R73,
R109, R110, R344). `yield` stands with the scheduler. -/

namespace Sys2Proof.Machine

/-! ### Lane masks (R66) -/

def getMask (k : Core) (m : BitVec 3) : Lanes := k.masks[m.toNat]'m.isLt

def setMask (k : Core) (m : BitVec 3) (v : Lanes) : Core := { k with masks := k.masks.set m.toNat v m.isLt }

/-- Lanes lo to lo + n - 1, below 192 (R66). -/
def laneRange (lo n : Nat) : Lanes := BitVec.ofNat 192 ((2 ^ min n 192 - 1) <<< lo)

/-- Replace lanes 64p to 64p + 63 of a mask (R66). -/
def insertLanes (m : Lanes) (p : BitVec 2) (v : Word) : Lanes :=
  (m &&& ~~~(laneRange (64 * p.toNat) 64)) ||| (v.setWidth 192 <<< (64 * p.toNat))

def execKset (k : BitVec 3) (x : BitVec 5) (p : BitVec 2) (st : State) : Host.Outcome State Fault Refusal :=
  runCore (.kset k x p) false (fun s id c =>
    readReg false x c fun v c =>
    finish s id (advance false (modCore c fun q => setMask q k (insertLanes (getMask q k) p v)))) st

def execKrange (k : BitVec 3) (x : BitVec 5) (st : State) : Host.Outcome State Fault Refusal :=
  runCore (.krange k x) false (fun s id c =>
    readReg false x c fun v c =>
    finish s id (advance false
      (modCore c fun q => setMask q k (laneRange (field v 0 8).toNat (field v 8 8).toNat)))) st

/-- kd from mask sources, all read before kd is written (R66). -/
def maskForm (i : Instr) (k : BitVec 3) (f : Core → Lanes) : State → Host.Outcome State Fault Refusal :=
  runCore i false fun s id c => finish s id (advance false (modCore c fun q => setMask q k (f q)))

def execKand (k a b : BitVec 3) (st : State) : Host.Outcome State Fault Refusal :=
  maskForm (.kand k a b) k (fun q => getMask q a &&& getMask q b) st

def execKor (k a b : BitVec 3) (st : State) : Host.Outcome State Fault Refusal :=
  maskForm (.kor k a b) k (fun q => getMask q a ||| getMask q b) st

def execKnot (k a : BitVec 3) (st : State) : Host.Outcome State Fault Refusal :=
  maskForm (.knot k a) k (fun q => ~~~getMask q a) st

def execKpop (a : BitVec 3) (x : BitVec 5) (st : State) : Host.Outcome State Fault Refusal :=
  runCore (.kpop a x) false (fun s id c =>
    writeReg false x (BitVec.ofNat 64 ((List.range 192).countP fun i => bit (getMask c.core a) i)) c fun c =>
    finish s id (advance false c)) st

/-! ### Special registers (R15, R16) -/

/-- CYC: cycles since the superstep began, standing still while the cell is frozen (R86, R348). -/
def cycNow (s : State) (c : Cell) : Word :=
  BitVec.ofNat 64 (((c.frozen.getD s.now) - c.core.sr.cycBase) % 2 ^ 32)

/-- A special register by number; none where R16 names no register. -/
def readSpecial (s : State) (c : Cell) (n : BitVec 8) : Option Word :=
  let r := c.core.sr
  match n.toNat with
  | 0x00 => some (zx r.cellid)
  | 0x01 => some (zx r.lcell)
  | 0x02 => some (zx r.taskid)
  | 0x03 => some (cycNow s c)
  | 0x04 => some (zx r.maxk)
  | 0x05 => some (zx r.pgmode)
  | 0x06 => some r.domain
  | 0x07 => some r.trapvec
  | 0x08 => some (zx r.defer)
  | 0x09 => some (zx r.ftz)
  | 0x10 => some r.trec[0]
  | 0x11 => some r.trec[1]
  | 0x12 => some r.trec[2]
  | 0x13 => some r.trec[3]
  | 0x14 => some r.trec[4]
  | 0x15 => some r.trec[5]
  | 0x16 => some r.trec[6]
  | 0x17 => some r.trec[7]
  | _ => none

/-- PGMODE changes: a group newly in presence mode becomes full; one that leaves it loses its bits, and its deferred
reads complete; the other groups keep theirs (R103). -/
def writePgmode (v : BitVec 6) (c : Cell) : Cell :=
  let old := c.core.sr.pgmode
  let stays (w : Nat) : Bool := bit old (groupOf (w * 32)) && bit v (groupOf (w * 32))
  { c with
    core := { c.core with sr := { c.core.sr with pgmode := v } }
    mem := { c.mem with empty := c.mem.empty.filter stays } }

/-- `mfs` (R72). -/
def execMfs (y : Bool) (d : BitVec 5) (n : BitVec 8) (st : State) : Host.Outcome State Fault Refusal :=
  runCore (.mfs y d n) y (fun s id c =>
    match readSpecial s c n with
    | none => .trap illegalTrap
    | some v => writeReg y d v c fun c => finish s id (advance y c)) st

/-- `mts`: writable are PGMODE, TRAPVEC, DEFER and FTZ; a read-only register traps ACCESS, an absent one ILLEGAL
(R15, R16, R72). It takes effect for all that follows it in program order, and for nothing before: it waits until the access
stream has come to it, and a write of PGMODE until every buffered store has retired; the access stream goes on after it
(R17, R72; assumption 15). -/
def execMts (a : BitVec 5) (n : BitVec 8) (st : State) : Host.Outcome State Fault Refusal :=
  runCore (.mts a n) false (fun s id c =>
    if !accessReached c.core || (n == 0x05 && c.mem.bufs.toList.any fun q => !q.isEmpty) then .wait
    else
    readReg false a c fun v c =>
    let set (f : Specials → Specials) : Res :=
      finish s id (advance false (passOn (modCore c fun k => { k with sr := f k.sr })))
    match n.toNat with
    | 0x05 =>
      let m : BitVec 6 := field v 0 6
      let old := c.core.sr.pgmode
      let s' := setCell s id (advance false (passOn (writePgmode m c)))
      .done (completeReads s' id fun w => bit old (groupOf (w * 32)) && !bit m (groupOf (w * 32)))
    | 0x07 => set fun r => { r with trapvec := v &&& ~~~3 }
    | 0x08 => set fun r => { r with defer := if (field v 0 32).toNat < 256 then 256 else field v 0 32 }
    | 0x09 => set fun r => { r with ftz := field v 0 16 }
    | _ =>
      match readSpecial s c n with
      | none => .trap illegalTrap
      | some _ => .trap (coreTrap .access 0)) st

/-! ### The rest of major 0x00 -/

/-- `nop` (R67). -/
def execNop (y : Bool) (st : State) : Host.Outcome State Fault Refusal :=
  runCore (.nop y) y (fun s id c => finish s id (advance y c)) st

/-- `trap` raises SOFT; its code stands in the record's WORD, and TREC1 is zero (R69, R339, R340). -/
def execTrap (y : Bool) (i : BitVec 10) (st : State) : Host.Outcome State Fault Refusal :=
  runCore (.trap y i) y (fun _ _ _ => .trap (coreTrap .soft 0)) st

/-- `brk` raises BRK; its code stands in the record's WORD (R69, R339, R340). -/
def execBrk (y : Bool) (i : BitVec 10) (st : State) : Host.Outcome State Fault Refusal :=
  runCore (.brk y i) y (fun _ _ _ => .trap (coreTrap .brk 0)) st

/-- `chkb` (R73). -/
def execChkb (y : Bool) (a b : BitVec 5) (st : State) : Host.Outcome State Fault Refusal :=
  runCore (.chkb y a b) y (fun s id c =>
    readReg y a c fun va c => readReg y b c fun vb c =>
    if va.ult vb then finish s id (advance y c) else .trap (coreTrap .chk va)) st

/-- Every instruction before the execute stream's place, in both streams, has completed (R68, R109, R344). -/
def earlierDone (s : State) (id : Nat) (c : Cell) : Bool :=
  accessReached c.core && accessesDone s id c && !streamDeferred c true && c.core.busy == 0

/-- Number of cells of the cell's cluster. -/
def clusterSize (s : State) (c : Cell) : Nat :=
  match taskOf s c with
  | none => 1
  | some t => t.w * t.h

/-- `halt`: once every earlier instruction of both streams has completed, fetch stops. A clear exit bit traps ILLEGAL in
a cluster of several cells (R110). In a handler it also discards every held entry and loads the Strainer (R344, R361). -/
def execHalt (st : State) : Host.Outcome State Fault Refusal :=
  runCore .halt false (fun s id c =>
    if earlierDone s id c = false then .wait
    else if 1 < clusterSize s c ∧ c.core.exitBit = false then .trap illegalTrap
    else if c.core.hm then
      let s1 := discardEntries s id
      let s2 := modCell s1 id fun c =>
        strainCell { c with core := { c.core with halted := true } }
      .done (modTask s2 c.task fun t => { t with hhalt := t.hhalt ++ [c.core.sr.lcell.toNat] })
    else finish s id (modCore c fun k => { k with halted := true })) st

/-- A freeze that a trap of cell `id` caused stands unresolved; one for a page is resolved by firmware's report alone
(R348). -/
def openFreeze (id : Nat) (f : Freeze) : Bool := f.faulty == id && f.done && f.resolved.isNone && f.page.isNone

/-- A `tret` in the faulting cell resolves its freeze (R349). -/
def noteThaw (s : State) (id : Nat) (c : Cell) : State :=
  if (partOf s c.part).freezes.any (openFreeze id) then
    modPart s c.part fun p =>
      { p with freezes := p.freezes.map fun f => if openFreeze id f then { f with resolved := some s.now } else f }
  else s

/-- `tret` (R344): in a handler it waits for the handler's instructions and returns; outside one it traps ILLEGAL. A halt
that has waited for the handler goes on (R249, R356). -/
def execTret (st : State) : Host.Outcome State Fault Refusal :=
  runCore .tret false (fun s id c =>
    if c.core.hm = false then .trap illegalTrap
    else if earlierDone s id c = false then .wait
    else
      match c.core.save with
      | none => .wait
      | some v =>
        let back := leaveHandler c v
        .done (raiseHeld (noteThaw (setCell s id (if halting s c then stopCell back else back)) id c) id)) st

/-- TRAP_ENTRY: the cell's streams and engines have come to rest, and its handler starts (R343). -/
def execTrapEntry (id : Nat) (s : State) : Host.Outcome State Fault Refusal := settle s (settleTrap s id)

end Sys2Proof.Machine
end

