-- ==== Sys2Proof/Machine/Packet.lean ====
section
/-! DEFINITION. Engine packets: the parameter stack, configuration fields, the checks of a packet and its issue
(R42, R225-R240, R250, R251, R327, R330). -/

namespace Sys2Proof.Machine

/-! ### Configuration fields (R227, R232, R250, R327) -/

/-- A signed 32-bit field: the value as a signed 64-bit integer lies in its range (R250). -/
def signed32 (v : Word) : Option Word := if v = sx (field v 0 32) then some (zx (field v 0 32)) else none

def inField (ok : Bool) (v : Word) : Option Word := if ok then some v else none

/-- A multiple of 32 from `lo` to 0xB_FFE0. -/
def lineField (lo : Nat) (v : Word) : Option Word :=
  inField (decide (lo ≤ v.toNat ∧ v.toNat ≤ 0xBFFE0 ∧ v.toNat % 32 = 0)) v

/-- What a `setf` stores in a q0 field; none where the field is undefined or the value does not fit (R250). -/
def matrixField (f : Nat) (v : Word) : Option Word :=
  match f with
  | 0x00 | 0x02 => lineField 0 v
  | 0x01 | 0x03 => lineField 32 v
  | 0x04 | 0x06 => inField (decide (v.toNat < Config.scratchBytes)) v
  | 0x05 | 0x07 => inField (decide (v.toNat < 4096)) v
  | 0x08 => inField (decide (v.toNat < 2 ^ 32)) v
  | 0x09 => inField (decide (v.toNat < 2 ^ 14) && field v 10 2 != 3#2 && field v 12 2 != 3#2) v
  | 0x0A => inField (decide (v.toNat < 2 ^ 23 ∧ (field v 0 8).toNat ≤ 191 ∧ (field v 8 8).toNat ≤ 191)) v
  | 0x0B => inField (decide (v.toNat < 512)) v
  | 0x0C => inField (decide (v.toNat < 1024)) v
  | 0x0D => inField (decide (v.toNat < 2)) v
  | _ =>
    if 0x10 ≤ f ∧ f < 0x70 then
      match f % 16 with
      | 0 => inField (decide (1 ≤ v.toNat ∧ v.toNat < 65536)) v
      | 1 => inField (decide (v.toNat < 4)) v
      | 2 | 3 | 4 | 5 | 6 => signed32 v
      | _ => none
    else none

/-- Default of a q0 field (R250). -/
def matrixDefault (f : Nat) : Word :=
  match f with
  | 0x01 | 0x03 => 128
  | 0x05 | 0x07 => 4
  | 0x09 => 0x33
  | 0x0A => 0x7FBFBF
  | 0x0D => 1
  | _ =>
    if 0x10 ≤ f ∧ f < 0x70 then
      match f % 16 with
      | 0 => 1
      | 1 => 3
      | _ => 0
    else 0

/-- What a `setf` stores (R232): q1 and q3 define no field, q2 defines eight of any value (R327). -/
def storedField (q : BitVec 2) (f : Nat) (v : Word) : Option Word :=
  match q.toNat with
  | 0 => matrixField f v
  | 2 => if f < 8 then some v else none
  | _ => none

/-- A field's default (R227). -/
def fieldDefault (q : BitVec 2) (f : Nat) : Word := if q = 0 then matrixDefault f else 0

/-- A field of a captured configuration. -/
def cfgField (q : BitVec 2) (cfg : SMap Word) (f : Nat) : Word := peek (fieldDefault q f) cfg f

/-! ### Running a packet's words (R228-R240) -/

/-- What the words of a packet have done so far. -/
structure Parse where
  stack : List Word := []
  waits : List (BitVec 6 × BitVec 16) := []
  sigs : List (BitVec 32) := []
  phase : Option (BitVec 3) := none
  tok : Option (BitVec 6 × BitVec 2) := none
  shadow : SMap Word
  launch : Option Launch := none

/-- A PACKET trap: reason and word index in the address field (R240). -/
def packetTrap (reason i : Nat) : Trap := coreTrap .packet (BitVec.ofNat 64 (reason * 256 + i))

/-- One word of a packet: goes on, or traps. -/
abbrev Parsed := Except Trap Parse

/-- A word that pops `pops` entries and pushes `pushes`: first the overflow, then the underflow (R230, R240). -/
def stackWord (i pops pushes : Nat) (p : Parse) (f : List Word → List Word) : Parsed :=
  if 8 < p.stack.length - pops + pushes then .error (packetTrap 3 i)
  else if p.stack.length < pops then .error (packetTrap 4 i)
  else .ok { p with stack := f p.stack }

/-- A binary stack word: pops t, then u, pushes g u t (R231). -/
def binaryWord (i : Nat) (p : Parse) (g : Word → Word → Word) : Parsed :=
  stackWord i 2 1 p fun st =>
    match st with
    | t :: u :: r => g u t :: r
    | r => r

/-- The queue of a launch op, and how many operands it pops (R229, R238). -/
def launchQueue (op : Nat) : Option (Nat × Nat) :=
  match op with
  | 0x020 | 0x021 => some (0, 0)
  | 0x030 | 0x035 => some (1, 0)
  | 0x031 | 0x032 | 0x033 => some (1, 1)
  | 0x034 => some (1, 2)
  | 0x040 | 0x043 => some (2, 2)
  | 0x041 | 0x042 => some (2, 1)
  | 0x050 => some (3, 1)
  | _ => none

/-- A launch with its operands, t on top and u below it; none where one lies outside its limits (R238). -/
def launchOf (op : Nat) (t u : Word) : Option Launch :=
  match op with
  | 0x020 => some .goMm
  | 0x021 => some .goMmacc
  | 0x030 => some .fire
  | 0x031 => if t.toNat < 16 then some (.arm (field t 0 4)) else none
  | 0x032 => if t.toNat < 16 then some (.recfgE (field t 0 4)) else none
  | 0x033 => if t.toNat < 16 then some (.recfgX (field t 0 4)) else none
  | 0x034 =>
    if t.toNat % 32 = 0 ∧ t.toNat ≤ 0xBE000 ∧ u.toNat < 32 then some (.xctx t (field u 0 4) (bit u 4)) else none
  | 0x035 => some .strain
  | 0x040 =>
    if t.toNat % 64 = 0 ∧ t.toNat < 2 ^ 57 ∧ u.toNat < 4 then some (.chain t (field u 0 2)) else none
  | 0x041 => if t.toNat < 4 then some (.kick (field t 0 2)) else none
  | 0x042 => if t.toNat < 4 then some (.copy (field t 0 2)) else none
  | 0x043 => if t.toNat < 2 ^ 32 ∧ u.toNat < 4 then some (.fill (field t 0 32) (field u 0 2)) else none
  | 0x050 => if t.toNat % 128 = 0 ∧ t.toNat < 2 ^ 57 then some (.blend t) else none
  | _ => none

/-- A launch word: its operands, its queue, their limits, and the packet's one `tok` (R238, R240). -/
def launchWord (q : BitVec 2) (i op : Nat) (p : Parse) : Parsed :=
  match launchQueue op with
  | none => .error (packetTrap 1 i)
  | some (lq, n) =>
    if p.stack.length < n then .error (packetTrap 4 i)
    else if lq ≠ q.toNat then .error (packetTrap 6 i)
    else
      match launchOf op (p.stack.getD 0 0) (p.stack.getD 1 0) with
      | none => .error (packetTrap 8 i)
      | some l => if p.tok.isNone then .error (packetTrap 13 i) else .ok { p with launch := some l }

/-- `sig`: a counter operand of a counter the partition owns (R236). -/
def sigWord (s : State) (part : BitVec 4) (i : Nat) (p : Parse) : Parsed :=
  match p.stack with
  | [] => .error (packetTrap 4 i)
  | t :: r =>
    if 2 ≤ p.sigs.length then .error (packetTrap 9 i)
    else if field t 32 32 ≠ 0#32 then .error (packetTrap 10 i)
    else if (counterOperand s part t).isNone then .error (coreTrap .access t)
    else .ok { p with stack := r, sigs := p.sigs ++ [field t 0 32] }

/-- `phase`: a barrier level (R237). -/
def phaseWord (i : Nat) (p : Parse) : Parsed :=
  match p.stack with
  | [] => .error (packetTrap 4 i)
  | t :: r =>
    if p.phase.isSome then .error (packetTrap 9 i)
    else if 4 < t.toNat then .error (packetTrap 10 i)
    else .ok { p with stack := r, phase := some (field t 0 3) }

/-- A zero-operand word by its op (R229, R231). -/
def zeroWord (s : State) (part : BitVec 4) (q : BitVec 2) (i op : Nat) (p : Parse) : Parsed :=
  match op with
  | 0x000 => if p.stack.isEmpty then .error (packetTrap 4 i) else stackWord i 0 1 p fun st => st.getD 0 0 :: st
  | 0x001 => stackWord i 1 0 p (·.drop 1)
  | 0x002 => stackWord i 2 2 p fun st => st.getD 1 0 :: st.getD 0 0 :: st.drop 2
  | 0x003 =>
    if 8 ≤ p.stack.length then .error (packetTrap 3 i)
    else if p.stack.length < 2 then .error (packetTrap 4 i)
    else stackWord i 0 1 p fun st => st.getD 1 0 :: st
  | 0x004 => binaryWord i p (· + ·)
  | 0x005 => binaryWord i p (· - ·)
  | 0x006 => binaryWord i p (· * ·)
  | 0x007 => binaryWord i p fun u t => u <<< (field t 0 6).toNat
  | 0x008 => binaryWord i p fun u t => u >>> (field t 0 6).toNat
  | 0x009 => binaryWord i p (· &&& ·)
  | 0x00A => binaryWord i p (· ||| ·)
  | 0x010 => sigWord s part i p
  | 0x011 => phaseWord i p
  | _ => launchWord q i op p

/-- `setf f` (R232). -/
def setfWord (q : BitVec 2) (i f : Nat) (p : Parse) : Parsed :=
  match p.stack with
  | [] => .error (packetTrap 4 i)
  | t :: r =>
    match storedField q f t with
    | none => .error (packetTrap 5 i)
    | some v => .ok { p with stack := r, shadow := poke (fieldDefault q f) p.shadow f v }

/-- `wait tkN`: records the production current before the packet's own `tok` (R234). -/
def waitWord (k : Core) (i : Nat) (x : BitVec 8) (p : Parse) : Parsed :=
  if field x 6 2 ≠ 0#2 then .error (packetTrap 2 i)
  else if 3 ≤ p.waits.length then .error (packetTrap 9 i)
  else .ok { p with waits := p.waits ++ [(field x 0 6, (getToken k (field x 0 6)).seq)] }

/-- `tok tkN, S` (R234). -/
def tokWord (k : Core) (i : Nat) (x : BitVec 8) (p : Parse) : Parsed :=
  if p.tok.isSome then .error (packetTrap 9 i)
  else if (getToken k (field x 0 6)).pend then .error (packetTrap 11 i)
  else .ok { p with tok := some (field x 0 6, field x 6 2) }

/-- `pick n` (R231). -/
def pickWord (i : Nat) (x : BitVec 8) (p : Parse) : Parsed :=
  let n := (field x 0 3).toNat
  if field x 3 5 ≠ 0#5 then .error (packetTrap 2 i)
  else if 8 ≤ p.stack.length then .error (packetTrap 3 i)
  else if p.stack.length ≤ n then .error (packetTrap 4 i)
  else .ok { p with stack := p.stack.getD n 0 :: p.stack }

/-- `ext v` (R231). -/
def extWord (i : Nat) (v : BitVec 14) (p : Parse) : Parsed :=
  stackWord i 1 1 p fun st => (st.getD 0 0 <<< 14 ||| zx v) :: st.drop 1

/-- A word after the launch word: nonzero is an error by the reasons 1, 2, 6 and else 7 (R240). -/
def afterLaunch (q : BitVec 2) (i : Nat) (w : BitVec 16) (p : Parse) : Parsed :=
  if w = 0 then .ok p
  else if field w 12 4 = 15#4 then .error (packetTrap 1 i)
  else if field w 12 4 = 14#4 then
    let op := (field w 0 12).toNat
    if op ≤ 0x00A ∨ op = 0x010 ∨ op = 0x011 then .error (packetTrap 7 i)
    else
      match launchQueue op with
      | none => .error (packetTrap 1 i)
      | some (lq, _) => .error (packetTrap (if lq ≠ q.toNat then 6 else 7) i)
  else if field w 13 3 = 6#3 then
    let op := (field w 8 5).toNat
    if 4 ≤ op then .error (packetTrap 1 i)
    else if op = 1 ∧ field w 6 2 ≠ 0#2 then .error (packetTrap 2 i)
    else if op = 3 ∧ field w 3 5 ≠ 0#5 then .error (packetTrap 2 i)
    else .error (packetTrap 7 i)
  else .error (packetTrap 7 i)

/-- One word of a packet for queue q (R228, R229). -/
def packetWord (s : State) (c : Cell) (q : BitVec 2) (i : Nat) (w : BitVec 16) (p : Parse) : Parsed :=
  if p.launch.isSome then afterLaunch q i w p
  else if bit w 15 = false then stackWord i 0 1 p fun st => zx (field w 0 15) :: st
  else if bit w 14 = false then extWord i (field w 0 14) p
  else if bit w 13 = false then
    let x : BitVec 8 := field w 0 8
    match (field w 8 5).toNat with
    | 0 => setfWord q i x.toNat p
    | 1 => waitWord c.core i x p
    | 2 => tokWord c.core i x p
    | 3 => pickWord i x p
    | _ => .error (packetTrap 1 i)
  else if bit w 12 = false then zeroWord s c.part q i (field w 0 12).toNat p
  else .error (packetTrap 1 i)

/-- All words of a packet, from word `i` on; one without a launch word is reason 12 at its last word (R240). -/
def packetWords (s : State) (c : Cell) (q : BitVec 2) : Nat → List (BitVec 16) → Parse → Parsed
  | i, [], p => if p.launch.isSome then .ok p else .error (packetTrap 12 (i - 1))
  | i, w :: ws, p =>
    match packetWord s c q i w p with
    | .ok p' => packetWords s c q (i + 1) ws p'
    | .error t => .error t

/-! ### Issue (R234, R239, R251, R330) -/

/-- Which of OUT0 and OUT1 an item of this cell counts in: the current phase, or the next while an arrival of the cell
is pending at the level (R330). -/
def phaseSide (s : State) (id : Nat) (c : Cell) (l : BitVec 3) : Bool :=
  let g := (barrierAt s (cellBarrier id c l.toNat)).gen
  if bit c.bar.pending l.toNat then !g else g

/-- An item of this cell at a level, as it is counted now (R330). -/
def phaseItem (s : State) (id : Nat) (c : Cell) (l : BitVec 3) : PhaseItem :=
  ⟨l, phaseSide s id c l, cellBarrier id c l.toNat⟩

/-- The count an item goes into is full (R330). -/
def phaseFull (s : State) (ph : PhaseItem) : Bool :=
  let b := barrierAt s ph.key
  (if ph.side then b.out1 else b.out0) == 0xFFFF

/-- The entry a packet leaves in its queue. -/
def entryOf (s : State) (id : Nat) (c : Cell) (q : BitVec 2) (p : Parse) (l : Launch) (t : BitVec 6 × BitVec 2) : Entry :=
  let m := cfgField 0 p.shadow 0x0B
  let mask (lo : Nat) : Lanes := getMask c.core (field m lo 3)
  let mm := q == 0
  { seq := (getQueue c q).iseq + 1, launch := l, waits := p.waits, tok := t.1, prod := (getToken c.core t.1).seq + 1, scope := t.2.setWidth 3
    sigs := p.sigs, phase := p.phase.map (phaseItem s id c), cfg := p.shadow
    km := if mm then mask 0 else 0, kn := if mm then mask 3 else 0, kk := if mm then mask 6 else 0
    br := c.core.brE, pc := c.core.pcE, hm := c.core.hm, run := c.core.run }

/-- A checked packet issues: its production is bound, its fields are set, its entry joins the queue, its phase item is
counted (R234, R239, R330). -/
def issueEntry (s : State) (id : Nat) (c : Cell) (q : BitVec 2) (p : Parse) (e : Entry) : Res :=
  if (match e.phase with | some ph => phaseFull s ph | none => false) then .wait
  else
    let k := getToken c.core e.tok
    let s' := match e.phase with
      | none => s
      | some ph => countPhase s ph true
    let c' := setQueue c q { getQueue c q with
      iseq := e.seq, shadow := p.shadow, entries := (getQueue c q).entries ++ [e] }
    finish s' id (advance false (modCore c' fun x => setToken x e.tok ⟨true, k.seq + 1⟩))

/-- Check and issue a packet (R239). -/
def issuePacket (s : State) (id : Nat) (c : Cell) (q : BitVec 2) (ws : List (BitVec 16)) : Res :=
  if 16 ≤ (getQueue c q).entries.length then .wait
  else
    match packetWords s c q 0 ws { shadow := (getQueue c q).shadow } with
    | .error t => .trap t
    | .ok p =>
      match p.launch, p.tok with
      | some l, some t => issueEntry s id c q p (entryOf s id c q p l t)
      | _, _ => .wait

/-- The four packet words of a doubleword, lowest first (R42). -/
def fourWords (v : Word) : List (BitVec 16) := [field v 0 16, field v 16 16, field v 32 16, field v 48 16]

/-- `enq`: a packet from 1-8 registers (R42, R239). -/
def execEnq (q : BitVec 3) (f : BitVec 5) (n : BitVec 3) (st : State) : Host.Outcome State Fault Refusal :=
  runCore (.enq q f n) false (fun s id c =>
    if (illegal (.enq q f n)).isSome then .trap illegalTrap
    else
      issuePacket s id c (q.setWidth 2)
        ((range 0 (n.toNat + 1)).flatMap fun j => fourWords (getReg c.core false (f + BitVec.ofNat 5 j)))) st

/-- Packet words of the image: two per image word, lower half first (R42). -/
def imageWords (m : Mem) (a : Nat) : Nat → List (BitVec 16)
  | 0 => []
  | n + 1 => BitVec.ofNat 16 (ofBytes (readBytes m a 2)) :: imageWords m (a + 2) n

/-- `enqi`: a packet from the code and constant sections; outside them it is ILLEGAL (R42, R239). -/
def execEnqi (q : BitVec 3) (l : BitVec 5) (o : BitVec 16) (st : State) : Host.Outcome State Fault Refusal :=
  runCore (.enqi q l o) false (fun s id c =>
    let n := l.toNat + 1
    let a : Int := c.core.pcE.toNat + 4 * o.toInt
    if (illegal (.enqi q l o)).isSome then .trap illegalTrap
    else if a < 0 ∨ a + 2 * n > ((c.mem.codeLen + c.mem.constLen : Nat) : Int) then .trap illegalTrap
    else issuePacket s id c (q.setWidth 2) (imageWords c.mem.code a.toNat n)) st

end Sys2Proof.Machine
end

