-- ==== Sys2Proof/Machine/Engines.lean ====
section
/-! DEFINITION. What every engine shares: the head of a queue, the start of an entry (R242), faults of entries
(R235, R343, R347) and the launch of a step of an entry. -/

namespace Sys2Proof.Machine

/-- UNIT of a queue's engine (R339). -/
def engineUnit (q : BitVec 2) : BitVec 4 :=
  match q.toNat with
  | 0 => 2
  | 1 => 3
  | 2 => 5
  | _ => 6

/-- The entry at the head of a queue. -/
def headEntry (c : Cell) (q : BitVec 2) : Option Entry := (getQueue c q).entries.head?

/-- Replace the entry at the head of a queue. -/
def setHead (c : Cell) (q : BitVec 2) (e : Entry) : Cell :=
  setQueue c q { getQueue c q with entries := setAt (getQueue c q).entries 0 e }

/-- Change the entry at the head of a queue. -/
def modHead (c : Cell) (q : BitVec 2) (f : Entry → Entry) : Cell :=
  setQueue c q { getQueue c q with
    entries := match (getQueue c q).entries with
      | [] => []
      | e :: es => f e :: es }

/-- The program that issued the entry runs now: the task's own, or the same run of the handler. -/
def ownProgram (c : Cell) (e : Entry) : Bool := c.core.hm == e.hm && (!e.hm || c.core.run == e.run)

/-- The access stream of the program that issued an entry has passed it. An earlier handler's entry is beyond doubt, for
its handler has returned (R344); an interrupted program's stream stands in the save area. -/
def accessPassed (c : Cell) (e : Entry) : Bool :=
  if ownProgram c e then !earlier c.core.brA c.core.pcA e.br e.pc
  else if e.hm then true
  else
    match c.core.save with
    | some v => !earlier v.brA v.pcA e.br e.pc
    | none => true

/-- Every write before the entry's `enq`, in either stream, is performed, non-temporal stores apart (R242). Those of an
earlier handler are since its return, those of an interrupted program since the trap (R343, R344). -/
def writesBefore (s : State) (id : Nat) (c : Cell) (e : Entry) : Bool :=
  accessPassed c e && (!ownProgram c e || !writesPending s id c e.br e.pc 4)

/-- The engines of a cell run: it is not frozen (R348). -/
def enginesRun (c : Cell) : Bool := c.frozen.isNone

/-- The entry at the head of queue `q` may start (R242). -/
def startable (s : State) (id : Nat) (c : Cell) (q : BitVec 2) (e : Entry) : Bool :=
  e.status == .waiting && !(getQueue c q).stopped && enginesRun c && e.waits.all (waitOver c.core) &&
  writesBefore s id c e

/-- Run the start of an entry of queue `q` in the cell at `focus`, when the head entry may start and is of the kind. -/
def startEntry (q : BitVec 2) (kind : Launch → Bool) (body : State → Nat → Cell → Entry → State) (s : State) :
    Host.Outcome State Fault Refusal :=
  settle s (
    match look s.cells s.focus.cell with
    | none => none
    | some c =>
      match headEntry c q with
      | none => none
      | some e => if kind e.launch && startable s s.focus.cell c q e then some (body s s.focus.cell c e) else none)

/-- An entry stands at a fault, and its queue stops (R235, R343). -/
def faultEntry (s : State) (id : Nat) (q : BitVec 2) (t : Trap) (started : Bool) : State :=
  modCell s id fun c =>
    let c' := modHead c q fun e => { e with status := .faulted t started }
    setQueue c' q { getQueue c' q with stopped := true }

/-! ### Engine accesses in debug mode (R243, R410) -/

/-- A span of bytes that an entry accesses. -/
structure Span where
  place : DebugPlace
  addr : Nat
  size : Nat

/-- The productions an entry comes after: those it waits on, and those their entries came after. -/
def orderedAfter (c : Cell) (e : Entry) : List (BitVec 6 × BitVec 16) :=
  e.waits ++ (c.engineLog.filter fun a => e.waits.contains a.prod).flatMap (·.after)

/-- A noted access of another entry meets a span, and no token edge orders them: a pair of reads is one too, for R410 says
accesses (R243; assumption 35). -/
def engineHazard (after : List (BitVec 6 × BitVec 16)) (x : EngineAccess) (o : EngineAccess) : Bool :=
  !(o.q == x.q && o.seq == x.seq) && o.place == x.place && meets o.addr o.size x.addr x.size &&
  !after.contains o.prod

/-- In debug mode the accesses of an entry are noted, and one that races with another entry's raises BRK (R410). -/
def noteEngine (s : State) (id : Nat) (q : BitVec 2) (e : Entry) (spans : List Span) : State :=
  match look s.cells id with
  | none => s
  | some c =>
    if debugs s c then
      let after := orderedAfter c e
      let xs : List EngineAccess := spans.map fun p =>
        { q := q, seq := e.seq, prod := (e.tok, e.prod), after := after, place := p.place, addr := p.addr
          size := p.size }
      let hit := (xs.flatMap fun x => (c.engineLog.filter (engineHazard after x)).map fun o => (o.addr, x.addr)).head?
      let s1 := setCell s id { c with engineLog := c.engineLog ++ xs }
      match hit with
      | none => s1
      | some (a, b) => raise s1 id (hazardTrap (engineUnit q) 0 1022 a b)
    else s

/-- Accesses of the entry at the head of a queue. -/
def noteHead (s : State) (id : Nat) (q : BitVec 2) (spans : List Span) : State :=
  match (look s.cells id).bind fun c => headEntry c q with
  | some e => noteEngine s id q e spans
  | none => s

/-- What stands at an entry that waits for a page (R347, R348): a page fault is no trap, and the entry is retried when the
page is resident. -/
def pageTrap : Trap := { code := .xlatfault, unit := 5, late := true }

/-- An engine fault on the fall-back path (R343, R347). -/
def engineFault (s : State) (id : Nat) (q : BitVec 2) (t : Trap) (started : Bool) : State :=
  let t' := { t with unit := engineUnit q }
  raise (faultEntry s id q t' started) id t'

/-- An engine fault of an item of the static schedule: its domain freezes forty cycles on. A page fault is not delivered
to a handler (R347, R348). -/
def freezeFault (s : State) (id : Nat) (q : BitVec 2) (t : Trap) (started : Bool) (level : BitVec 3)
    (page : Option (BitVec 57)) : State :=
  match look s.cells id with
  | none => s
  | some c =>
    let t' := { t with unit := engineUnit q }
    let s1 := modPart (faultEntry s id q t' started) c.part fun p =>
      { p with freezes := p.freezes ++ [{ at_ := s.now + 40, level := level, faulty := id, page := page }] }
    if page.isSome then s1 else raise s1 id t'

/-- The head entry of queue `q` begins to run. -/
def begin_ (c : Cell) (q : BitVec 2) : Cell := modHead c q fun e => { e with status := .running }

/-- The operation of the head entry of queue `q` has finished. -/
def finishHead (c : Cell) (q : BitVec 2) : Cell := modHead c q fun e => { e with status := .finished }

/-- The head entry of a queue while it runs: a queue that is to stop still brings it to its next stopping point (R245). -/
def runningHead (c : Cell) (q : BitVec 2) : Option Entry :=
  match headEntry c q with
  | some e => if e.status = .running ∧ enginesRun c then some e else none
  | none => none

end Sys2Proof.Machine
end

