-- ==== Sys2Proof/Machine/Translate.lean ====
section
/-! DEFINITION. Address translation: page tables (R154-R156), the die's translation cache (R181), and the handle walk
(R158). -/

namespace Sys2Proof.Machine

/-- How a walk or a cached leaf ends (R156). -/
inductive Walk where
  | pageFault
  | fault (code : TrapCode)
  | leaf (size : BitVec 2) (pte : Word)
deriving DecidableEq, Repr

/-- Virtual page base of a leaf, in 64 KiB units (R181). -/
def vpageOf (va : Nat) (size : BitVec 2) : Nat := va / pageBytes size * (pageBytes size / 0x10000)

/-- PFN of a leaf (R155). -/
def ptePfn (pte : Word) : BitVec 36 := field pte 16 36

/-- The checks of a leaf: zero fields, alignment and region of the frame, and the permission (R156). -/
def leafVerdict (fw : Firmware) (size : BitVec 2) (pte : Word) (rw : Bool) : Walk :=
  let pa := (ptePfn pte).toNat * 0x10000
  let n := pageBytes size
  if field pte 0 16 ≠ 0 ∨ pa % n ≠ 0 then .fault .xlatfault
  else if !populated fw pa n || reservedShadow fw pa n then .fault .xlatfault
  else if rw && !bit pte 61 then .fault .access
  else .leaf size pte

/-- The index bits of a level: VA[56:52], then nine bits each (R154). -/
def walkIndex (va level : Nat) : Nat :=
  if level = 0 then va / 2 ^ 52 % 32 else va / 2 ^ (52 - 9 * level) % 512

/-- Uncorrectable bytes meet the range (R166). -/
def poisonMeets (poison : List Nat) (pa n : Nat) : Bool := poison.any fun a => pa ≤ a && a < pa + n

/-- The walk from the node at `node` on; `n` levels are left, so the level is 5 - n (R154-R156). With it the address of
the entry read last. A node outside HBM, which R154 rules out and R156's table does not list, ends the walk with XLATFAULT
(DESIGN CHOICE, assumption 62); one in the part of an HBM window that no stack populates reads as zeros, so that the walk ends
with a page fault (DESIGN CHOICE, assumption 62: the manual gives no result). -/
def walkFrom (fw : Firmware) (mem : Mem) (poison : List Nat) (va : Nat) (rw : Bool) : Nat → Nat → Walk × Nat
  | 0, node => (.fault .xlatfault, node)
  | n + 1, node =>
    let level := 4 - n
    let at_ := node + 8 * walkIndex va level
    let pte := readWord mem at_ 8
    if regionOf node ≠ some 1 then (.fault .xlatfault, at_)
    else if poisonMeets poison at_ 8 then (.fault .ecc, at_)
    else if bit pte 63 = false then (.pageFault, at_)
    else if bit pte 62 then
      if level ≤ 1 then (.fault .xlatfault, at_) else (leafVerdict fw (BitVec.ofNat 2 (4 - level)) pte rw, at_)
    else if level = 4 ∨ field pte 52 10 ≠ 0 ∨ field pte 0 12 ≠ 0 then (.fault .xlatfault, at_)
    else walkFrom fw mem poison va rw n ((field pte 12 40).toNat * 4096)

/-- A walk of a partition's page table (R154). -/
def walk (s : State) (part : BitVec 4) (va : Nat) (rw : Bool) : Walk :=
  (walkFrom s.fw s.mem s.poison va rw 5 (partOf s part).root).1

/-- The address of the entry at which a walk ends. -/
def walkEnd (s : State) (part : BitVec 4) (va : Nat) : Nat :=
  (walkFrom s.fw s.mem s.poison va false 5 (partOf s part).root).2

/-- A cached leaf covers an address (R181). -/
def tlbHit (die : Nat) (part : BitVec 4) (va : Nat) (e : TlbEntry) : Bool :=
  e.die.toNat == die && e.part == part && e.vpage.toNat == vpageOf va e.size

/-- Leaves the cache of a die holds (R181). -/
def tlbCapacity : Nat := 8192

/-- Bring an entry to the front of its die's cache, which is replaced least recently used (R181). -/
def tlbTouch (s : State) (e : TlbEntry) : State :=
  let rest := s.tlb.filter (· != e)
  let mine := rest.filter (fun x => x.die == e.die)
  let rest := if tlbCapacity ≤ mine.length then
      match mine.getLast? with
      | some old => rest.filter (· != old)
      | none => rest
    else rest
  { s with tlb := e :: rest }

/-- Translate for an access: a walk, whose result enters the die's cache. -/
def translate (s : State) (die : Nat) (part : BitVec 4) (va : Nat) (rw : Bool) : Walk × State :=
  match walk s part va rw with
  | .leaf size pte =>
    (.leaf size pte, tlbTouch s ⟨BitVec.ofNat 2 die, part, BitVec.ofNat 41 (vpageOf va size), size, pte⟩)
  | r => (r, s)

/-- Physical address of a virtual address under a leaf. -/
def leafAddr (size : BitVec 2) (pte : Word) (va : Nat) : Nat := (ptePfn pte).toNat * 0x10000 + va % pageBytes size

/-- A handle bound to a leaf (R157, R181). -/
def bindHandle (size : BitVec 2) (pte : Word) (va : Nat) (rw : Bool) : Handle :=
  { v := true, w := bit pte 61 && rw
    kind := (regionOf ((ptePfn pte).toNat * 0x10000)).getD 0
    size := size, bound := true, pfn := ptePfn pte, gen := field pte 52 8
    vpage := BitVec.ofNat 41 (vpageOf va size), rwreq := rw }

def getHandle (k : Core) (h : BitVec 4) : Handle := k.handles[h.toNat]'h.isLt

def setHandle (k : Core) (h : BitVec 4) (v : Handle) : Core := { k with handles := k.handles.set h.toNat v h.isLt }

/-! ### Bytes as they are served, and the windows of other packages and this one (R162, R187, R188) -/

/-- A page in migration whose source frame holds an address. -/
def migrationAt (s : State) (pa : Nat) : Option (Nat × Migration) :=
  s.migrations.find? fun (_, m) => m.src.toNat * 0x10000 ≤ pa && pa < m.src.toNat * 0x10000 + m.bytes

/-- The step holds new writes (R162 steps 4 and 5). -/
def MigStep.holds : MigStep → Bool
  | .hold => true
  | .switched => true
  | _ => false

/-- A byte as its controller serves it: held writes are merged over the frame (R162). -/
def servedByte (s : State) (pa : Nat) : Byte :=
  let base := readByte s.mem pa
  match migrationAt s pa with
  | none => base
  | some (_, m) =>
    m.held.foldl (fun b w => if w.1 ≤ pa && pa < w.1 + w.2.length then w.2.getD (pa - w.1) b else b) base

def servedBytes (s : State) (pa : Nat) : Nat → List Byte
  | 0 => []
  | n + 1 => servedByte s pa :: servedBytes s (pa + 1) n

/-- A window table entry with its read-only zero bits zero (R187). -/
def maskWindow (e : WinEntry) : WinEntry := ⟨e.d0 &&& 0xFF0FFFFFFFFF0000, e.d1 &&& 0xFFFFFF⟩

/-- A window's entry: this package's table lies in its memory, the tables of other packages of the domain in theirs
(R187). -/
def windowAt (s : State) (pkg : BitVec 9) (wid : BitVec 16) : WinEntry :=
  maskWindow (
    if pkg = s.fw.pkg then
    let a := s.fw.windowBase + 16 * wid.toNat
    ⟨wordOf (servedBytes s a 8), wordOf (servedBytes s (a + 8) 8)⟩
  else peek ⟨0, 0⟩ s.windows (pkg.toNat * 65536 + wid.toNat))

/-- The window's physical address at an offset (R188). -/
def windowAddr (e : WinEntry) (off : Nat) : Nat := (field e.d0 16 36).toNat * 0x10000 + off

/-! ### Where an access lies, for debug mode (R410) -/

/-- Bytes of a window: of this package's memory, or of another's. -/
def windowPlace (s : State) (pkg : BitVec 9) (wid : BitVec 16) (off : Nat) : DebugPlace × Nat :=
  let a := windowAddr (windowAt s pkg wid) off
  (if pkg = s.fw.pkg then .physical else .far pkg, a)

/-- Bytes of a virtual address, where the page that maps it lies. -/
def virtPlace (s : State) (part : BitVec 4) (va : Nat) : DebugPlace × Nat :=
  match walk s part va false with
  | .leaf size pte => (.physical, leafAddr size pte va)
  | _ => (.virt, va)

end Sys2Proof.Machine
end

