-- ==== Sys2Proof/Machine/Remote.lean ====
section
/-! DEFINITION. Handles, atomics, remote access, fences and stream windows as the access stream issues them
(R108, R177, R181-R197). What a target does with a request stands in `MemSys.lean`. -/

namespace Sys2Proof.Machine

/-! ### Issuing a request (R177, R190, R198) -/

/-- The place of a message as debug mode knows it. -/
def debugPlace (s : State) (m : Msg) : DebugPlace × Nat :=
  match m.target with
  | .cell t => (.cell t, m.addr)
  | .pa => (.physical, m.addr)
  | .window pkg wid => windowPlace s pkg wid m.addr

/-- A request that a meaning has issued is noted in debug mode (R410). -/
def noteRequest (i : Instr) (s : State) (id : Nat) (t : State) : State :=
  if s.nextMsg < t.nextMsg then
    match look t.msgs s.nextMsg with
    | some m => noteAccess t id (coreWord i) ⟨m.acc, m.cls, m.rc, m.nt, (debugPlace t m).1, (debugPlace t m).2, m.size⟩
    | none => t
  else t

/-- Run a meaning of this file: a word whose fields are no legal instruction traps ILLEGAL (R44). -/
def legalCore (i : Instr) (y : Bool) (body : State → Nat → Cell → Res) : State → Host.Outcome State Fault Refusal :=
  runCore i y fun s id c =>
    if (illegal i).isSome then .trap illegalTrap
    else
      match body s id c with
      | .done t => .done (noteRequest i s id t)
      | r => r

/-- What a request carries beside its issuer's place. -/
structure Request where
  word : BitVec 32
  cls : BitVec 2
  rc : BitVec 2
  nt : Bool := false
  target : Target
  addr : Nat
  off : Nat
  size : Nat
  frame : Option (BitVec 36) := none

/-- A request through a handle: class `ord`, at a physical address (R176, R183). -/
def handleRequest (i : Instr) (h : Handle) (cls : BitVec 2) (nt : Bool) (pa off size : Nat) : Request :=
  { word := coreWord i, cls := cls, rc := 0, nt := nt, target := .pa, addr := pa, off := off, size := size, frame := some h.pfn }

/-- A request at a place (R190). -/
def placeRequest (i : Instr) (cls rc : BitVec 2) (t : Target) (off : Word) (size : Nat) : Request :=
  { word := coreWord i, cls := cls, rc := rc, target := t, addr := off.toNat, off := off.toNat, size := size }

/-- The message of a request from the access stream's place. -/
def messageOf (id : Nat) (c : Cell) (r : Request) (k : Access) : Msg :=
  { cell := id, task := c.task, acc := true, br := c.core.brA, pc := c.core.pcA, word := r.word
    cls := r.cls, rc := r.rc, nt := r.nt, target := r.target, addr := r.addr, off := r.off, size := r.size, kind := k
    frame := r.frame }

/-- A message enters its channel, behind every earlier one (R198). -/
def enterChannel (s : State) (m : Msg) : State :=
  { s with msgs := put s.msgs s.nextMsg m, nextMsg := s.nextMsg + 1 }

/-- The LFSR of a router steps: x^16 + x^14 + x^13 + x^11 + 1, toward bit 15 (R176; the direction: assumption 52). -/
def routerStep (l : BitVec 16) : BitVec 16 := field l 0 15 ++ BitVec.ofBool (bit l 15 ^^ bit l 13 ^^ bit l 12 ^^ bit l 10)

/-- The intermediate stop of a `two` request: the site that the source router's LFSR names, or to another package a package
of the domain (R176, R373). -/
def drawVia (s : State) (m : Msg) : State × Msg :=
  if m.rc != 2 then (s, m)
  else
    let l := peek 0 s.fw.lfsr m.cell
    let step : State := { s with fw := { s.fw with lfsr := put s.fw.lfsr m.cell (routerStep l) } }
    match m.target with
    | .window pkg _ =>
      if pkg = s.fw.pkg then (step, { m with via := some (field l 0 7 : BitVec 7).toNat })
      else (s, { m with via := some (Config.viaPackage s.fw.pkg.toNat m.cell (peek 0 s.sends m.cell)) })
    | _ => (step, { m with via := some (field l 0 7 : BitVec 7).toNat })

/-- A request leaves its cell (R176, R198, R373). -/
def sendMsg (s : State) (m : Msg) : State :=
  let (s1, m1) := drawVia s m
  enterChannel { s1 with sends := put s1.sends m.cell (peek 0 s.sends m.cell + 1) } m1

/-- A register waits for a response (R49). -/
def setBusy (d : BitVec 5) (k : Core) : Core := if d = 0 then k else { k with busy := k.busy ||| (1#32 <<< d.toNat) }

/-- A load holds a response slot, and its register or LDQ entry, from issue on (R177, R190, R191). -/
def issueLoad (s : State) (id : Nat) (c : Cell) (d : BitVec 5) (r : Request) (signed : Bool) : Res :=
  let held (c : Cell) : Cell := modCore c fun k => { k with slots := k.slots + 1 }
  if 8 ≤ c.core.slots then .wait
  else if d = 30 then
    reserveEntry false c fun n c =>
      finish (sendMsg s (messageOf id c r (.load signed (.ldq n)))) id (advance true (held c))
  else if bit c.core.busy d.toNat then .wait
  else
    finish (sendMsg s (messageOf id c r (.load signed (.reg d)))) id
      (advance true (held (modCore c (setBusy d))))

/-- A store holds a write credit until its acknowledgement; a non-temporal one enters the bag (R177, R184). -/
def issueStore (s : State) (id : Nat) (c : Cell) (r : Request) (v : Word) : Res :=
  if 16 ≤ c.core.credits then .wait
  else
    let c1 := modCore c fun k => { k with credits := k.credits + 1 }
    let c2 := if r.nt then { c1 with bag := c1.bag ++ [s.nextMsg] } else c1
    finish (sendMsg s (messageOf id c r (.store v))) id (advance true c2)

/-- An atomic holds a response slot and its register (R185, R191). -/
def issueAtomic (s : State) (id : Nat) (c : Cell) (d : BitVec 5) (r : Request) (op : BitVec 4) (v v2 : Word) : Res :=
  if 8 ≤ c.core.slots then .wait
  else
    finish (sendMsg s (messageOf id c r (.amo op v v2 d))) id
      (advance true (modCore c fun k => { setBusy d k with slots := k.slots + 1 }))

/-! ### Binding handles (R181, R182) -/

/-- `xlat`: a hit that R156 accepts binds the handle at once; otherwise its first access walks (R158, R181). -/
def translateForm (i : Instr) (h : BitVec 4) (a : BitVec 5) (rw : Bool) : State → Host.Outcome State Fault Refusal :=
  runCore i true fun s id c =>
    readReg true a c fun va c =>
    if field va 57 7 ≠ 0 then .trap (coreTrap .xlatfault 0)
    else
      let unbound : Handle := { bound := true, vpage := field va 16 41, rwreq := rw }
      match s.tlb.find? (tlbHit (dieOfCell id) c.part va.toNat) with
      | none => finish s id (advance true (modCore c fun k => setHandle k h unbound))
      | some e =>
        match leafVerdict s.fw e.size e.pte rw with
        | .leaf size pte =>
          finish (tlbTouch s e) id (advance true (modCore c fun k => setHandle k h (bindHandle size pte va.toNat rw)))
        | _ => finish s id (advance true (modCore c fun k => setHandle k h unbound))

def execXlatR (h : BitVec 4) (a : BitVec 5) (st : State) : Host.Outcome State Fault Refusal :=
  translateForm (.xlatR h a) h a false st

def execXlatRw (h : BitVec 4) (a : BitVec 5) (st : State) : Host.Outcome State Fault Refusal :=
  translateForm (.xlatRw h a) h a true st

/-- `hrel` (R182). -/
def execHrel (h : BitVec 4) (st : State) : Host.Outcome State Fault Refusal :=
  runCore (.hrel h) true (fun s id c => finish s id (advance true (modCore c fun k => setHandle k h {}))) st

/-! ### Access through a handle (R183-R185) -/

/-- The address checks of R183: a handle that is bound but not valid makes the access wait for its walk (R158). -/
def handleAccess (h : Handle) (off size : Nat) (writes host : Bool) (k : Nat → Res) : Res :=
  if h.bound = false then .trap (coreTrap .handle 0)
  else if h.v = false then .wait
  else if pageBytes h.size < off + size then .trap (coreTrap .access 0)
  else
    let pa := h.pfn.toNat * 0x10000 + off
    if pa % size ≠ 0 then .trap (coreTrap .align 0)
    else if (writes && !h.w) || (host && h.kind == 3) then .trap (coreTrap .access 0)
    else k pa

/-- Offset of a handle access: the index plus imm6 × size, modulo 2^64 (R183). -/
def handleOffset (x : Word) (i : BitVec 6) (size : Nat) : Nat := (x + zx i * BitVec.ofNat 64 size).toNat

/-- A handle load (R183). -/
def handleLoad (i : Instr) (d : BitVec 5) (h : BitVec 4) (cls z : BitVec 2) (x : BitVec 5) (imm : BitVec 6) (signed : Bool) :
    State → Host.Outcome State Fault Refusal :=
  legalCore i true fun s id c =>
    readReg true x c fun vx c =>
    let size := 2 ^ z.toNat
    handleAccess (getHandle c.core h) (handleOffset vx imm size) size false false fun pa =>
      issueLoad s id c d (handleRequest i (getHandle c.core h) cls false pa (handleOffset vx imm size) size) signed

/-- A handle store; x[ox] is read before s (R183). -/
def handleStore (i : Instr) (r : BitVec 5) (h : BitVec 4) (cls z : BitVec 2) (x : BitVec 5) (imm : BitVec 6) (nt : Bool) :
    State → Host.Outcome State Fault Refusal :=
  legalCore i true fun s id c =>
    readReg true x c fun vx c => readReg true r c fun v c =>
    let size := 2 ^ z.toNat
    handleAccess (getHandle c.core h) (handleOffset vx imm size) size true false fun pa =>
      issueStore s id c (handleRequest i (getHandle c.core h) cls nt pa (handleOffset vx imm size) size) v

def execHld (d : BitVec 5) (h : BitVec 4) (c z : BitVec 2) (x : BitVec 5) (i : BitVec 6) (st : State) :
    Host.Outcome State Fault Refusal :=
  handleLoad (.hld d h c z x i) d h c z x i true st

def execHldn (d : BitVec 5) (h : BitVec 4) (c z : BitVec 2) (x : BitVec 5) (i : BitVec 6) (st : State) :
    Host.Outcome State Fault Refusal :=
  handleLoad (.hldn d h c z x i) d h c z x i false st

def execHst (s : BitVec 5) (h : BitVec 4) (c z : BitVec 2) (x : BitVec 5) (i : BitVec 6) (st : State) :
    Host.Outcome State Fault Refusal :=
  handleStore (.hst s h c z x i) s h c z x i false st

def execHstnt (s : BitVec 5) (h : BitVec 4) (c z : BitVec 2) (x : BitVec 5) (i : BitVec 6) (st : State) :
    Host.Outcome State Fault Refusal :=
  handleStore (.hstnt s h c z x i) s h c z x i true st

/-- The operands of an atomic: d, and d + 1 for `cas` (R37, R185). -/
def atomicOperands (d : BitVec 5) (op : BitVec 4) (c : Cell) (k : Word → Word → Cell → Res) : Res :=
  readReg true d c fun v c =>
    if op = 2 then readReg true (d + 1) c fun v2 c => k v v2 c else k v 0 c

/-- `amo`: the write check applies to every operation, and host memory takes none (R185). -/
def execAmo (d : BitVec 5) (h : BitVec 4) (cl : BitVec 2) (x : BitVec 5) (k : BitVec 4) (z : BitVec 1) (st : State) :
    Host.Outcome State Fault Refusal :=
  legalCore (.amo d h cl x k z) true (fun s id c =>
    readReg true x c fun vx c => atomicOperands d k c fun v v2 c =>
    let size := if z = 1 then 8 else 4
    handleAccess (getHandle c.core h) vx.toNat size true true fun pa =>
      issueAtomic s id c d (handleRequest (.amo d h cl x k z) (getHandle c.core h) cl false pa vx.toNat size) k v v2) st

/-! ### Places (R88, R89, R108, R186, R372) -/

/-- A signed 4-bit field. -/
def nibble (v : Word) (lo : Nat) : Int := (field v lo 4 : BitVec 4).toInt

/-- The physical cell at a relative place of the issuer's cluster; none outside it (R89). -/
def clusterTarget (s : State) (c : Cell) (dx dy : Int) : Option Nat :=
  match taskOf s c with
  | none => none
  | some t =>
    let l := c.core.sr.lcell.toNat
    let x := (l % t.w : Int) + dx
    let y := (l / t.w : Int) + dy
    if 0 ≤ x ∧ x < t.w ∧ 0 ≤ y ∧ y < t.h then t.cells[(y * t.w + x).toNat]? else none

/-- The package at a relative torus offset (R372). -/
def torusTarget (s : State) (dX dY dZ : Int) : BitVec 9 :=
  let (sx_, sy_, sz_) := s.fw.torus
  let p := s.fw.pkg.toNat
  let wrap (v : Nat) (d : Int) (n : BitVec 4) : Nat := ((v + d) % (n.toNat : Int)).toNat
  BitVec.ofNat 9 (64 * wrap (p / 64) dZ sz_ + 8 * wrap (p / 8 % 8) dY sy_ + wrap (p % 8) dX sx_)

/-- The target a place register names, with the checks made at issue; none traps ACCESS (R108, R186). -/
def placeTarget (s : State) (c : Cell) (p : Word) (off : Word) : Option Target :=
  match (field p 62 2).toNat with
  | 0 =>
    if field p 8 54 ≠ 0 ∨ Config.scratchBytes ≤ off.toNat then none
    else (clusterTarget s c (nibble p 0) (nibble p 4)).map .cell
  | 1 =>
    if field p 32 30 ≠ 0 ∨ field p 0 16 ≠ 0 then none else some (.window s.fw.pkg (field p 16 16))
  | 2 =>
    if field p 48 14 ≠ 0 ∨ field p 32 4 ≠ 0 ∨ field p 0 16 ≠ 0 then none
    else some (.window (torusTarget s (nibble p 36) (nibble p 40) (nibble p 44)) (field p 16 16))
  | _ => none

/-- The checks of a remote access at issue: the place and its range, then the alignment (R108, R190, R191). -/
def checkedPlace (s : State) (c : Cell) (p off : Word) (size : Nat) (k : Target → Res) : Res :=
  match placeTarget s c p off with
  | none => .trap (coreTrap .access 0)
  | some t => if off.toNat % size ≠ 0 then .trap (coreTrap .align 0) else k t

/-- `rld`: sizes and extensions of R38; it clears the exit bit (R110, R190). -/
def execRld (d p o : BitVec 5) (r cl : BitVec 2) (f : BitVec 5) (st : State) : Host.Outcome State Fault Refusal :=
  legalCore (.rld d p o r cl f) true (fun s id c =>
    readReg true p c fun vp c => readReg true o c fun vo c =>
    let size := 2 ^ (f.toNat % 4)
    checkedPlace s c vp vo size fun t =>
      issueLoad s id (clearExit c) d
        (placeRequest (.rld d p o r cl f) cl r t vo size)
        (decide (f.toNat ≤ 3))) st

/-- The line form holds its slot and its LDQ entry until the sixteenth doubleword is popped (R79, R191). -/
def execRldLine (p o : BitVec 5) (r cl : BitVec 2) (st : State) : Host.Outcome State Fault Refusal :=
  legalCore (.rldLine p o r cl) true (fun s id c =>
    readReg true p c fun vp c => readReg true o c fun vo c =>
    checkedPlace s c vp vo 128 fun t =>
      if 8 ≤ c.core.slots then .wait
      else
        reserveEntry true (clearExit c) fun n c =>
          finish (sendMsg s (messageOf id c
            (placeRequest (.rldLine p o r cl) cl r t vo 128) (.line n)))
            id (advance true (modCore c fun k => { k with slots := k.slots + 1 }))) st

/-- `rst` (R190). -/
def execRst (s p o : BitVec 5) (r cl : BitVec 2) (f : BitVec 5) (st : State) : Host.Outcome State Fault Refusal :=
  legalCore (.rst s p o r cl f) true (fun m id c =>
    readReg true p c fun vp c => readReg true o c fun vo c => readReg true s c fun v c =>
    let size := 2 ^ (f.toNat % 4)
    checkedPlace m c vp vo size fun t =>
      issueStore m id (clearExit c)
        (placeRequest (.rst s p o r cl f) cl r t vo size) v) st

/-- `ramo` (R192). -/
def execRamo (d p o : BitVec 5) (r cl : BitVec 2) (k : BitVec 4) (z : BitVec 1) (st : State) :
    Host.Outcome State Fault Refusal :=
  legalCore (.ramo d p o r cl k z) true (fun s id c =>
    readReg true p c fun vp c => readReg true o c fun vo c => atomicOperands d k c fun v v2 c =>
    let size := if z = 1 then 8 else 4
    checkedPlace s c vp vo size fun t =>
      issueAtomic s id (clearExit c) d
        (placeRequest (.ramo d p o r cl k z) cl r t vo size) k v v2) st

/-! ### Fences (R194-R196) -/

/-- A fence names a class when its set is empty or holds it (R195). -/
def inSet {n : Nat} (set : BitVec n) (i : Nat) : Bool := set == 0 || bit set i

/-- An access of stream `y` that a fence covers is not yet performed at its scope (R195). Local accesses are of class
`ord`. -/
def fenceWaits (s : State) (id : Nat) (c : Cell) (y : Bool) (scope : Nat) (rcs : BitVec 3) (acs : BitVec 4) : Bool :=
  let localCls (cl : BitVec 2) : Bool := inSet rcs 0 && inSet acs cl.toNat
  let pendingStore : Bool := [0, 1, 2, 3].any fun (cl : BitVec 2) =>
    localCls cl && (c.mem.bufs[cl.toNat]'cl.isLt).any (fun e => e.acc == y)
  let pendingLoad : Bool := y && c.mem.deferred.any fun d =>
    match d.reader with
    | .ldq _ => localCls d.cls
    | _ => false
  let pendingMsg : Bool := (unperformedOf s id).any fun m =>
    m.acc == y && !m.nt && inSet rcs m.rc.toNat && inSet acs m.cls.toNat && insideScope s m scope
  pendingStore || pendingLoad || pendingMsg

/-- A fence of stream `y` covers an access noted in debug mode: by its classes alone, and never a non-temporal store (R195,
R199). -/
def fenceCovers (y : Bool) (rcs : BitVec 3) (acs : BitVec 4) (x : DebugAccess) : Bool :=
  x.acc == y && !x.nt && inSet rcs x.rc.toNat && inSet acs x.cls.toNat

/-- `fence` completes once what it covers is performed at its scope (R195). -/
def execFence (y : Bool) (e r : BitVec 3) (cl : BitVec 4) (st : State) : Host.Outcome State Fault Refusal :=
  legalCore (.fence y e r cl) y (fun s id c =>
    if fenceWaits s id c y e.toNat r cl then .wait
    else finish s id (advance y (modCore c fun k => { k with recent := k.recent.filter fun x => !fenceCovers y r cl x }))) st

/-- A non-temporal store that a drain covers is not yet performed at its scope; an execute-stream drain covers those
issued before the access stream reached its place (R196). -/
def drainWaits (s : State) (id : Nat) (c : Cell) (y : Bool) (scope : Nat) : Bool :=
  (!y && !accessReached c.core) ||
  (requestsOf s id).any fun m =>
    m.nt && insideScope s m scope && (y || earlier m.br m.pc c.core.brE c.core.pcE)

/-- `drain` (R196). -/
def execDrain (y : Bool) (e : BitVec 3) (st : State) : Host.Outcome State Fault Refusal :=
  legalCore (.drain y e) y (fun s id c =>
    if drainWaits s id c y e.toNat then .wait else finish s id (advance y c)) st

/-! ### Stream windows (R164, R197) -/

def setWindow (c : Cell) (w : BitVec 4) (v : Option StreamWindow) : Cell :=
  modCore c fun k => { k with windows := k.windows.set w.toNat v w.isLt }

/-- `swopen`; a zero length closes the window before any check (R197). -/
def execSwopen (w : BitVec 4) (a b : BitVec 5) (st : State) : Host.Outcome State Fault Refusal :=
  runCore (.swopen w a b) true (fun s id c =>
    readReg true a c fun va c => readReg true b c fun vb c =>
    if vb = 0 then finish s id (advance true (setWindow c w none))
    else if va.toNat % 65536 ≠ 0 ∨ vb.toNat % 65536 ≠ 0 then .trap (coreTrap .align 0)
    else if field va 57 7 ≠ 0 ∨ 2 ^ 57 < va.toNat + vb.toNat then .trap (coreTrap .access 0)
    else finish s id (advance true (setWindow c w (some ⟨va, vb, va⟩)))) st

/-- `swadv` raises the mark, at most to the end of the window (R197). -/
def execSwadv (w : BitVec 4) (a : BitVec 5) (st : State) : Host.Outcome State Fault Refusal :=
  runCore (.swadv w a) true (fun s id c =>
    readReg true a c fun va c =>
    match c.core.windows[w.toNat]'w.isLt with
    | none => finish s id (advance true c)
    | some x =>
      let m := max x.mark.toNat (min va.toNat (x.base.toNat + x.len.toNat))
      finish s id (advance true (setWindow c w (some { x with mark := BitVec.ofNat 64 m })))) st

/-- `swclose` (R197). -/
def execSwclose (w : BitVec 4) (st : State) : Host.Outcome State Fault Refusal :=
  runCore (.swclose w) true (fun s id c => finish s id (advance true (setWindow c w none))) st

end Sys2Proof.Machine
end

