-- ==== Sys2Proof/Machine/MemSys.lean ====
section
/-! DEFINITION. The memory system: what a target does with a request and what its response does (R104, R105, R185,
R187-R192, R198-R202, R407), the handle walk (R158), revocation (R159), heat (R161), migration (R162, R163), windows
(R193), eviction (R165) and rows (R166, R167). -/

namespace Sys2Proof.Machine

/-! ### Physical memory (R152, R161-R163, R166) -/

/-- 256-byte sectors that a range meets (R162). -/
def sectorsOf (pa n : Nat) : List Nat := range (pa / 256) ((pa + n - 1) / 256 + 1 - pa / 256)

/-- Write bytes that lie within one 64 KiB frame: a migrating page marks its sectors dirty, or holds the write (R162). -/
def storePhysical (s : State) (pa : Nat) (bs : List Byte) : State :=
  match migrationAt s pa with
  | none => { s with mem := writeBytes s.mem pa bs }
  | some (die, m) =>
    if m.step.holds then
      { s with migrations := put s.migrations die { m with held := m.held ++ [(pa, bs)] } }
    else
      { s with
        mem := writeBytes s.mem pa bs
        migrations := put s.migrations die { m with dirty := (sectorsOf pa bs.length).foldl insertNum m.dirty } }

/-- A migration keeps an access from being served now: the source's hold buffer is full, or the destination still
defers (R162). -/
def migrationBlocks (s : State) (pa n : Nat) (writes : Bool) : Bool :=
  s.migrations.any fun (_, m) =>
    (writes && m.step.holds && decide (64 ≤ m.held.length) && m.src.toNat * 0x10000 < pa + n && pa < m.src.toNat * 0x10000 + m.bytes)
    || (m.step == .switched && m.dst.toNat * 0x10000 < pa + n && pa < m.dst.toNat * 0x10000 + m.bytes)

/-- Bytes of the range are uncorrectable (R166). -/
def poisoned (s : State) (pa n : Nat) : Bool := poisonMeets s.poison pa n

/-- Unit whose access table governs an address; host memory and unpopulated addresses have none (R407). -/
def tableOf (fw : Firmware) (pa : Nat) : Option Nat :=
  if populatedAt fw pa then
    match regionOf pa with
    | some 3 => none
    | _ => some (controllerOf fw pa)
  else none

/-- An access table admits a request: some valid entry matches its master kind, its partition, for a remote package the
package, the permission and every byte (R407). -/
def admits (s : State) (unit : Nat) (mkind : Nat) (part : BitVec 4) (dev : BitVec 9) (perm : Nat) (lo hi : Nat) : Bool :=
  (List.range 256).any fun i =>
    match look s.access (unit * 256 + i) with
    | none => false
    | some (d0, d1) =>
      bit d0 63 && bit d0 perm && (field d0 57 3).toNat == mkind && field d0 53 4 == part &&
      (mkind != 1 || field d0 44 9 == dev) &&
      decide ((field d0 0 36).toNat ≤ lo / 0x10000) && decide (hi / 0x10000 ≤ (field d1 0 36).toNat)

/-- Permission bit of a request kind (R407). -/
def permBit : Access → Nat
  | .load _ _ => 62
  | .line _ => 62
  | .store _ => 61
  | .amo _ _ _ _ => 60

/-- A physical access of a requester of this package is admitted: by the table of the unit that serves it; host memory
has no table; an unpopulated address no unit (R152, R407). -/
def admitsPhysical (s : State) (mkind : Nat) (part : BitVec 4) (dev : BitVec 9) (perm : Nat) (pa n : Nat) : Bool :=
  !reservedShadow s.fw pa n &&
  match tableOf s.fw pa with
  | some u => populated s.fw pa n && admits s u mkind part dev perm pa (pa + n - 1)
  | none => regionOf pa == some 3

/-- An HBM or CXL controller serves an access: the sixty-fourth is sampled into its frame's heat (R161). Of the accesses
that R161 neither lists nor excludes, the scheduler's are counted; page-table walks and window-table reads are not (DESIGN
CHOICE, assumption 54). -/
def sampleHeat (s : State) (pa : Nat) : State :=
  match regionOf pa with
  | some 1 | some 2 =>
    let k := controllerOf s.fw pa
    let n := peek (0 : BitVec 6) s.heatTick k + 1
    let s' := { s with heatTick := poke 0 s.heatTick k n }
    if n = 0 then
      let f := pa / 0x10000
      let h := peek (0 : Byte) s.heat f
      { s' with heat := poke 0 s'.heat f (if h = 255 then h else h + 1) }
    else s'
  | _ => s

/-! ### Atomics (R185) -/

/-- The new value of an atomic over `size` bytes; none where it writes nothing. -/
def atomicResult (op : BitVec 4) (size : Nat) (old v v2 : Word) : Option Word :=
  let w := extend true size old
  let x := extend true size v
  let uw := extend false size old
  let ux := extend false size v
  match op.toNat with
  | 0 => some (old + v)
  | 1 => some v
  | 2 => if uw = ux then some v2 else none
  | 3 => some (if w.slt x then old else v)
  | 4 => some (if w.slt x then v else old)
  | 5 => some (if uw.ult ux then old else v)
  | 6 => some (if uw.ult ux then v else old)
  | 7 => some (old &&& v)
  | 8 => some (old ||| v)
  | _ => some (old ^^^ v)

/-! ### Performing a request at its target (R183-R192, R198, R201) -/

/-- What a target does with a request. -/
inductive Served where
  /-- it cannot be performed yet -/
  | blocked
  | refused (code : TrapCode)
  | done (vals : List Word) (s : State)
  /-- a scratch read of an empty word -/
  | deferred

/-- The access writes the bytes at its target as they stand: a `cas` whose comparison fails does not (R185). -/
def writesNow (s : State) (m : Msg) (pa : Nat) : Bool :=
  match m.kind with
  | .store _ => true
  | .amo op v v2 _ => (atomicResult op m.size (wordOf (servedBytes s pa m.size)) v v2).isSome
  | _ => false

/-- Perform an admitted access at a physical address (R183, R201, R202). A step of a line load reads a part of its line;
the line counts as one access, at its first bytes (R161). -/
def performPhysical (s : State) (m : Msg) (pa : Nat) : Served :=
  if migrationBlocks s pa m.size (writesNow s m pa) then .blocked
  else if poisoned s pa m.size then .refused .ecc
  else
    let s' := match m.kind with
      | .line _ => if pa % 128 = 0 then sampleHeat s pa else s
      | _ => sampleHeat s pa
    match m.kind with
    | .load sg _ => .done [extend sg m.size (wordOf (servedBytes s pa m.size))] s'
    | .line _ => .done (dwords (m.size / 8) (servedBytes s pa m.size)) s'
    | .store v => .done [] (storePhysical s' pa (bytesOf v.toNat m.size))
    | .amo op v v2 _ =>
      let old := wordOf (servedBytes s pa m.size)
      match atomicResult op m.size old v v2 with
      | none => .done [extend true m.size old] s'
      | some new => .done [extend true m.size old] (storePhysical s' pa (bytesOf new.toNat m.size))

/-- Perform a request at the scratch of cell `t` (R104, R105, R192, R201). -/
def performScratch (s : State) (m : Msg) (t : Nat) (part : BitVec 4) : Served :=
  match look s.cells t with
  | none => .blocked
  | some c =>
    let u := unitKey (.cellRemote (BitVec.ofNat 9 t))
    if !admits s u 0 part 0 (permBit m.kind) m.addr (m.addr + m.size - 1) then .refused .access
    else
      match m.kind with
      | .load sg _ =>
        if isEmpty c m.addr then .deferred else .done [extend sg m.size (readWord c.mem.scratch m.addr m.size)] s
      | .line _ =>
        if isEmpty c m.addr then .deferred else .done (dwords (m.size / 8) (readBytes c.mem.scratch m.addr m.size)) s
      | .store v =>
        if meetsFull c m.addr then .refused .presence
        else .done [] (storeScratch s t m.addr (bytesOf v.toNat m.size))
      | .amo op v v2 _ =>
        if presenceMode c m.addr then .refused .presence
        else
          let old := readWord c.mem.scratch m.addr m.size
          match atomicResult op m.size old v v2 with
          | none => .done [extend true m.size old] s
          | some new => .done [extend true m.size old] (storeScratch s t m.addr (bytesOf new.toNat m.size))

/-- The entry's bytes in this package's table are uncorrectable: a read of them is ECC (R166, R187). -/
def windowPoisoned (s : State) (pkg : BitVec 9) (wid : BitVec 16) : Bool :=
  pkg == s.fw.pkg && poisoned s (s.fw.windowBase + 16 * wid.toNat) 16

/-- The checks of R188 that the table entry decides. -/
def windowAllows (e : WinEntry) (k : Access) (off size : Nat) : Bool :=
  bit e.d0 63 && bit e.d0 (permBit k) && (field e.d1 0 24 != 0) &&
  decide (off + size ≤ (field e.d1 0 24).toNat * 65536)

/-- The shorter ways round along one torus dimension, `true` for +: both at half-way, + first (R373). -/
def torusWays (src dst n : Nat) : List Bool :=
  let d := (dst + n - src) % n
  if d = 0 then [] else if 2 * d < n then [true] else if 2 * d = n then [true, false] else [false]

/-- The links of a direction: dimension 0-2 and sign, on the dies of the source's side and on the other pair (R364). -/
def linkOf (die dim : Nat) (plus : Bool) : Nat × Nat :=
  let near := dim + (if plus then 0 else 3) + (if die < 2 then 0 else 6)
  let far := dim + (if plus then 0 else 3) + (if die < 2 then 6 else 0)
  (near, far)

def linkDown (s : State) (l : Nat) : Bool :=
  match look s.links l with
  | none => false
  | some k => k.down

/-- Directions that bring a request nearer its package, X before Y before Z (R373). -/
def productive (s : State) (pkg : BitVec 9) : List (Nat × Bool) :=
  let (nx, ny, nz) := s.fw.torus
  let p := s.fw.pkg.toNat
  let q := pkg.toNat
  [(0, torusWays (p % 8) (q % 8) nx.toNat), (1, torusWays (p / 8 % 8) (q / 8 % 8) ny.toNat),
   (2, torusWays (p / 64) (q / 64) nz.toNat)].flatMap fun (d, vs) => vs.map fun v => (d, v)

/-- The package a draw names: one of the torus (R373). -/
def drawnPackage (fw : Firmware) (v : Nat) : BitVec 9 :=
  let (nx, ny, nz) := fw.torus
  BitVec.ofNat 9 (64 * (v / nx.toNat / ny.toNat % nz.toNat) + 8 * (v / nx.toNat % ny.toNat) + v % nx.toNat)

/-- The links by which a request may leave this package for another, each with the virtual channel it takes there: `ord`
the fixed link of its first direction on ORD0, `ada` either link of any productive direction on ADA, `two` as `ord` toward
its intermediate package on TWO0, and on TWO1 where this package is the intermediate one; where that link is down `two`
takes the other one of the pair; an `ada` request that has moved to the `ord` path keeps to it (R366, R369, R373). -/
def waysOut (s : State) (m : Msg) (pkg : BitVec 9) : List (Nat × BitVec 3) :=
  let die := dieOfCell m.cell
  let fixed (q : BitVec 9) (vc : BitVec 3) : List (Nat × BitVec 3) :=
    ((productive s q).take 1).map fun (d, plus) =>
      let (near, far) := linkOf die d plus
      (if m.rc != 0 && !m.onOrd && linkDown s near then far else near, vc)
  match if m.onOrd then 0 else m.rc.toNat with
  | 0 => fixed pkg 0
  | 1 => (productive s pkg).flatMap fun (d, plus) => [((linkOf die d plus).1, 2), ((linkOf die d plus).2, 2)]
  | _ =>
    let mid := drawnPackage s.fw (m.via.getD 0)
    if productive s mid = [] then fixed pkg 4 else fixed mid 3

/-- A request to another package finds no link out of this one (R369, R373). -/
def pathDown (s : State) (m : Msg) (pkg : BitVec 9) : Bool :=
  let ways := waysOut s m pkg
  !ways.isEmpty && ways.all fun w => linkDown s w.1

/-- Perform a window request: R188's checks in order, then the access at the window's memory. A request to another package
has to leave this one first; one of another package is master kind 1 with its device (R373, R374, R407). A window serves
requests for the partition that owns its memory (assumption 53). The access table of another package is not state of this one: whether
it admits is a free value (R188, R375; assumption 11). -/
def performWindow (s : State) (m : Msg) (pkg : BitVec 9) (wid : BitVec 16) (part : BitVec 4) : Served :=
  let e := windowAt s pkg wid
  let (mkind, dev) : Nat × BitVec 9 := match m.origin with
    | some (pkg, _) => (1, pkg)
    | none => (0, 0)
  if pkg != s.fw.pkg && m.trip == .here then (if pathDown s m pkg then .refused .link else .blocked)
  else if windowPoisoned s pkg wid then .refused .ecc
  else if !windowAllows e m.kind m.addr m.size || field e.d0 56 4 != part then .refused .access
  else
    let pa := windowAddr e m.addr
    if pkg = s.fw.pkg then
      if admitsPhysical s mkind part dev (permBit m.kind) pa m.size then performPhysical s m pa else .refused .access
    else
      let s' := { s with free := s.free + 1 }
      if Config.choice s.free then .refused .access
      else
        let at_ := pkg.toNat * 2 ^ 52 + pa
        match m.kind with
        | .load sg _ => .done [extend sg m.size (readWord s.remote at_ m.size)] s'
        | .line _ => .done (dwords (m.size / 8) (readBytes s.remote at_ m.size)) s'
        | .store v => .done [] { s' with remote := writeWord s.remote at_ m.size v }
        | .amo op v v2 _ =>
          let old := readWord s.remote at_ m.size
          match atomicResult op m.size old v v2 with
          | none => .done [extend true m.size old] s'
          | some new => .done [extend true m.size old] { s' with remote := writeWord s.remote at_ m.size new }

/-- Partition of a message's issuer. -/
def issuerPart (s : State) (m : Msg) : BitVec 4 :=
  match m.origin, look s.tasks m.task with
  | some (_, part), _ => part
  | none, none => 0
  | none, some t => t.part

/-- Perform a message at its target. -/
def performMsg (s : State) (m : Msg) : Served :=
  let part := issuerPart s m
  match m.target with
  | .cell t => performScratch s m t part
  | .pa => if admitsPhysical s 0 part 0 (permBit m.kind) m.addr m.size then performPhysical s m m.addr else .refused .access
  | .window pkg wid => performWindow s m pkg wid part

/-! ### Channels (R198) -/

/-- The target of a message as a channel knows it. -/
def channelOf (fw : Firmware) (m : Msg) : Target × Nat :=
  match m.target with
  | .pa => (.pa, controllerOf fw m.addr)
  | t => (t, 0)

def overlaps (a n b k : Nat) : Bool := a < b + k && b < a + n

/-- A message still stands in its cell's non-temporal bag (R184). -/
def inBag (s : State) (n : Nat) (m : Msg) : Bool :=
  m.nt && match look s.cells m.cell with
    | none => false
    | some c => c.bag.contains n

/-- The oldest message of an `ord` channel may be delivered; of the other channels any that no earlier one of its stream
and alias class overlaps (R198). -/
def deliverable (s : State) (n : Nat) (m : Msg) : Bool :=
  !inBag s n m && s.msgs.all fun (k, x) =>
    n ≤ k || x.cell != m.cell || x.rc != m.rc || channelOf s.fw x != channelOf s.fw m || inBag s k x ||
    (m.rc != 0 && !(x.acc == m.acc && x.cls == m.cls && overlaps x.addr x.size m.addr m.size))

/-- A request leaves its channel. -/
def leaveChannel (s : State) (n : Nat) : State := { s with msgs := del s.msgs n }

/-- A request is refused: nothing of it stays deferred (R189). -/
def refuseMsg (s : State) (n : Nat) (m : Msg) (code : TrapCode) : State :=
  let s1 := match m.target with
    | .cell t => modCell s t fun c => modMem c fun x => { x with deferred := x.deferred.filter (·.reader != .msg n) }
    | _ => s
  answer (leaveChannel s1 n) n ⟨m, [], some code, true, [], 0, 0⟩

/-- A read of message `n` waits at its bank for the word at `m`'s address (R105). -/
def deferMsg (s : State) (n : Nat) (m : Msg) : State :=
  let sg := match m.kind with
    | .load sg _ => sg
    | _ => false
  match m.target with
  | .cell t =>
    modCell s t fun c => modMem c fun x =>
      { x with deferred := x.deferred ++ [{ addr := m.addr, size := m.size, signed := sg, reader := .msg n, since := s.now, pc := 0, cls := m.cls }] }
  | _ => s

/-- The independent steps of a line load, by their offsets: one for each 32-byte word of scratch, elsewhere one for each
doubleword (R201). -/
def lineSteps (t : Target) : List Nat × Nat :=
  match t with
  | .cell _ => ([0, 32, 64, 96], 32)
  | _ => ((List.range 16).map (8 * ·), 8)

/-- One step of a line load that is being performed, any of those left; its request leaves the channel with its last step
(R198, R201). -/
def deliverStep (s : State) (n : Nat) (m : Msg) : Option State :=
  let (steps, size) := lineSteps m.target
  let r := (look s.resps n).getD { msg := m, vals := List.replicate 16 0, refusal := none, ready := false, left := steps }
  let (v, s1) := freeValue s
  let o := r.left.getD (v.toNat % r.left.length) 0
  let r1 := { r with left := r.left.erase o }
  let step := { m with addr := m.addr + o, size := size }
  let left (t : State) : State := if r1.left.isEmpty then leaveChannel t n else t
  match performMsg s1 step with
  | .blocked => none
  | .refused code => some (refuseMsg s1 n m code)
  | .done vals t => some (stepAnswer (left t) n { r1 with vals := layAt r1.vals (o / 8) vals })
  | .deferred => some (stepAnswer (left (deferMsg s1 n step)) n { r1 with pending := r1.pending + 1 })

/-- DELIVER: a message is performed at its target, refused, or its read defers; a line load takes one such step for each of
its parts (R105, R189, R198, R201). -/
def deliverMsg (n : Nat) (s : State) : Option State :=
  match look s.msgs n with
  | none => none
  | some m =>
    if !deliverable s n m then none
    else
      match m.kind with
      | .line _ => deliverStep s n m
      | _ =>
        match performMsg s m with
        | .blocked => none
        | .refused code => some (refuseMsg s n m code)
        | .done vals t => some (answer (leaveChannel t n) n ⟨m, vals, none, true, [], 0, 0⟩)
        | .deferred =>
          let s1 := deferMsg (leaveChannel s n) n m
          some { s1 with resps := put s1.resps n ⟨m, [], none, false, [], 0, 0⟩ }

def execDeliver (n : Nat) (s : State) : Host.Outcome State Fault Refusal := settle s (deliverMsg n s)

/-- The cell of a response's issuer, while it still runs the task that issued. -/
def issuerOf (s : State) (m : Msg) : Option Cell :=
  match look s.cells m.cell with
  | none => none
  | some c => if c.task = m.task then some c else none

/-- The other package that a request goes to. -/
def farTarget (s : State) (m : Msg) : Option (BitVec 9) :=
  match m.target with
  | .window pkg _ => if pkg = s.fw.pkg then none else some pkg
  | _ => none

/-- A response of another package has come: in a flit on RSP, or made here where the request never left or was lost (R366,
R369). -/
def hasCome (s : State) (m : Msg) : Bool := (farTarget s m).isNone || m.trip == .here

/-- Of the responses that one target sends to one requester this one was performed first: it arrives first (R205). Responses
to other packages leave by the links, those of other packages come by them. -/
def firstAnswer (s : State) (n : Nat) (r : Resp) : Bool :=
  r.ready && r.msg.origin.isNone && hasCome s r.msg && s.resps.all fun (k, x) =>
    k == n || !x.ready || x.msg.cell != r.msg.cell || channelOf s.fw x.msg != channelOf s.fw r.msg || r.perf < x.perf

/-- A response's register is free again. -/
def clearBusy (d : BitVec 5) (k : Core) : Core := { k with busy := k.busy &&& ~~~(1#32 <<< d.toNat) }

def freeSlot (k : Core) : Core := { k with slots := k.slots - 1 }

/-- RESPONSE_ARRIVAL: a load or atomic response writes its destination or fills its LDQ entry; a scalar one frees its
slot, a line keeps it until its last doubleword is popped (R190, R191). The load finishes with it (R91). -/
def responseArrival (n : Nat) (s : State) : Option State :=
  match look s.resps n with
  | none => none
  | some r =>
    if !firstAnswer s n r || r.refusal.isSome || (match r.msg.kind with | .store _ => true | _ => false) then none
    else
      let s' := { s with resps := del s.resps n }
      match issuerOf s r.msg with
      | none => some s'
      | some c =>
        let v := r.vals.headD 0
        let core := match r.msg.kind with
          | .load _ (.reg d) => freeSlot (clearBusy d (setReg c.core true d v))
          | .load _ (.ldq e) => freeSlot (fillEntry e [v] c.core)
          | .line e => fillEntry e r.vals c.core
          | .amo _ _ _ d => freeSlot (clearBusy d (setReg c.core true d v))
          | .store _ => c.core
        some (noteDone (setCell s' r.msg.cell { c with core := core }) c.part)

def execResponseArrival (n : Nat) (s : State) : Host.Outcome State Fault Refusal := settle s (responseArrival n s)

/-- WRITE_ACKNOWLEDGEMENT: a store's acknowledgement returns its credit (R190). -/
def writeAck (n : Nat) (s : State) : Option State :=
  match look s.resps n with
  | none => none
  | some r =>
    match r.msg.kind, r.refusal, firstAnswer s n r with
    | .store _, none, true =>
      let s' := { s with resps := del s.resps n }
      match issuerOf s r.msg with
      | none => some s'
      | some c => some (setCell s' r.msg.cell (modCore c fun k => { k with credits := k.credits - 1 }))
    | _, _, _ => none

def execWriteAcknowledgement (n : Nat) (s : State) : Host.Outcome State Fault Refusal := settle s (writeAck n s)

/-- The trap a refusal raises: late, with the target offset and the refused instruction's place (R189, R342). -/
def refusalTrap (m : Msg) (code : TrapCode) : Trap :=
  { code := code, unit := 1, late := true, addr := BitVec.ofNat 64 m.off, d6 := m.pc }

/-- REFUSAL: the slot or credit returns, no register is written, a refused load's LDQ entry stays unfilled until `tret`,
and the issuer traps late (R189, R342). -/
def refusalArrival (n : Nat) (s : State) : Option State :=
  match look s.resps n with
  | none => none
  | some r =>
    match firstAnswer s n r, r.refusal with
    | true, some code =>
      let s' := { s with resps := del s.resps n }
      match issuerOf s r.msg with
      | none => some s'
      | some c =>
        let note (e : Nat) (k : Core) : Core := { k with refusedLoads := k.refusedLoads ++ [e] }
        let core := match r.msg.kind with
          | .load _ (.reg d) => freeSlot (clearBusy d c.core)
          | .load _ (.ldq e) => freeSlot (note e c.core)
          | .line e => note e c.core
          | .amo _ _ _ d => freeSlot (clearBusy d c.core)
          | .store _ => { c.core with credits := c.core.credits - 1 }
        some (raise (setCell s' r.msg.cell { c with core := core }) r.msg.cell (refusalTrap r.msg code))
    | _, _ => none

def execRefusal (n : Nat) (s : State) : Host.Outcome State Fault Refusal := settle s (refusalArrival n s)

/-! ### Local stores and the bag (R104, R184, R198) -/

/-- The stream of a buffered store stands at it again: what it removed from the queues is back, and the stores that its stream
has issued behind it are gone from the buffers (R18, R104). -/
def undoStore (e : BufStore) (c : Cell) : Cell :=
  { c with
    core := giveBack e.ldqBack e.eaqBack (setPlace c.core e.acc e.pc)
    mem := { c.mem with bufs := mapAll (fun q => q.filter fun x => !(x.acc == e.acc && earlier e.br e.pc x.br x.pc)) c.mem.bufs } }

/-- PRESENCE of a store that has met a full word: a trap at the store (R18, R104, R198). A trap at a store that its stream has
issued behind it goes with that store; the resumed stream meets it again. -/
def storeFault (s : State) (id : Nat) (c : Cell) (e : BufStore) : State :=
  let t : Trap := { code := .presence, unit := streamUnit e.acc, word := codeWord c.mem e.pc.toNat }
  let c' := undoStore e c
  match c.core.trap with
  | none => raise (setCell s id c') id t
  | some o =>
    if atStream o e.acc then restand s id c' fun k => { k with trap := some t } else raise (setCell s id c') id t

/-- STORE_RETIRE: the oldest entry of a buffer writes scratch, or faults at a full presence word (R104, R198). -/
def storeRetire (id : Nat) (cl : BitVec 2) (s : State) : Option State :=
  match look s.cells id with
  | none => none
  | some c =>
    match c.mem.bufs[cl.toNat]'cl.isLt with
    | [] => none
    | e :: es =>
      let c' := modMem c fun m => { m with bufs := m.bufs.set cl.toNat es cl.isLt }
      if meetsFull c e.addr then some (storeFault s id c' e)
      else some (storeScratch (setCell s id c') id e.addr (bytesOf e.data.toNat e.size))

def execStoreRetire (id : Nat) (cl : BitVec 2) (s : State) : Host.Outcome State Fault Refusal :=
  settle s (storeRetire id cl s)

/-- LEAVE_BAG: one store of the bag joins the back of its `ord` channel (R184, R198). -/
def leaveBag (id i : Nat) (s : State) : Option State :=
  match look s.cells id with
  | none => none
  | some c =>
    match c.bag[i]? with
    | none => none
    | some n =>
      match look s.msgs n with
      | none => none
      | some m =>
        let s' := setCell s id { c with bag := c.bag.eraseIdx i }
        some (enterChannel { s' with msgs := del s'.msgs n } m)

def execLeaveBag (id i : Nat) (s : State) : Host.Outcome State Fault Refusal := settle s (leaveBag id i s)

/-! ### The handle walk (R156, R158) -/

/-- The word is an access through handle `h`. -/
def usesHandle (w : BitVec 32) (h : BitVec 4) : Bool :=
  match decodeCore w with
  | .ok (.hld _ g _ _ _ _) | .ok (.hldn _ g _ _ _ _) | .ok (.hst _ g _ _ _ _) | .ok (.hstnt _ g _ _ _ _)
  | .ok (.amo _ g _ _ _ _) => g == h
  | _ => false

/-- A page fault: the scheduler is asked to save the task, which waits for the page (R127, R156). -/
def pageFault (s : State) (c : Cell) (va : Nat) : State :=
  let s' := match taskOf s c with
    | some t => (match t.stage with
        | .saving _ => s
        | _ => askSave s c.task false)
    | none => s
  { modTask s' c.task fun t => { t with waitsPage := t.waitsPage ++ [BitVec.ofNat 57 va] } with
    fw := { s.fw with reports := s.fw.reports ++ [.page c.part (BitVec.ofNat 57 va)] } }

/-- TRANSLATION_WALK: while the access stream stands at an access through a bound handle that is not valid, the hardware
walks its page and rewrites the handle, or the access takes the walk's result (R156, R158). -/
def translationWalk (id : Nat) (h : BitVec 4) (s : State) : Option State :=
  match look s.cells id with
  | none => none
  | some c =>
    let x := getHandle c.core h
    let p := nextPlace c true
    let w := codeWord c.mem p.toNat
    if !(streamRuns c true && x.bound && !x.v && fetchOk c.mem p && usesHandle w h) then none
    else
      let va := x.vpage.toNat * 0x10000
      match translate s (dieOfCell id) c.part va x.rwreq with
      | (.leaf size pte, s') =>
        some (setCell s' id (modCore c fun k => setHandle k h (bindHandle size pte va x.rwreq)))
      | (.pageFault, s') => some (pageFault s' c va)
      | (.fault code, s') =>
        let s1 := setCell s' id (modCore c fun k => setPlace k true p)
        some (raise s1 id { code := code, unit := 1, word := w })

def execTranslationWalk (id : Nat) (h : BitVec 4) (s : State) : Host.Outcome State Fault Refusal :=
  settle s (translationWalk id h s)

/-! ### Revocation (R159) -/

/-- A revocation of a frame begins: the translation caches drop its leaves, and every placed cell of the partition has
to acknowledge. -/
def startRevocation (s : State) (part : BitVec 4) (pfn : BitVec 36) : State :=
  { s with
    tlb := s.tlb.filter fun e => !(e.part == part && ptePfn e.pte == pfn)
    revocations := s.revocations ++ [⟨part, pfn, (s.cells.filter fun p => p.2.part == part).map (·.1)⟩] }

def revokeHandles (pfn : BitVec 36) (c : Cell) : Cell :=
  let off (h : Handle) : Handle := if h.pfn == pfn then { h with v := false } else h
  { modCore c fun k => { k with handles := mapAll off k.handles } with
    channels := mapAll (fun h => { h with readsBy := off h.readsBy, writesBy := off h.writesBy }) c.channels }

/-- A request stands at the controller of a migrating page, which takes it later (R162 steps 4 and 5), or behind one of its
own channel that does: it has reached its controller (R159). -/
def heldBack (s : State) (n : Nat) (m : Msg) : Bool :=
  !inBag s n m && s.msgs.any fun (k, x) =>
    k ≤ n && x.cell == m.cell && x.rc == m.rc && channelOf s.fw x == channelOf s.fw m && !inBag s k x && x.target == .pa &&
    migrationBlocks s x.addr x.size (writesNow s x x.addr)

/-- A request that the cell issued through a handle of the frame has not reached its controller. -/
def frameInFlight (s : State) (id : Nat) (pfn : BitVec 36) : Bool :=
  s.msgs.any fun (n, m) => m.cell == id && m.frame == some pfn && !heldBack s n m

/-- REVOCATION: the handles of the frame in the cell's registers and in its engine's channels lose V; it acknowledges once every access issued through them has reached
its controller (R159). -/
def revocation (id : Nat) (pfn : BitVec 36) (s : State) : Option State :=
  match look s.cells id, s.revocations.find? (fun r => r.pfn == pfn && r.waiting.contains id) with
  | some c, some r =>
    let s' := setCell s id (revokeHandles pfn c)
    let ack (x : Revocation) : Revocation := if x == r then { x with waiting := removeNum x.waiting id } else x
    if frameInFlight s id pfn then some s' else some { s' with revocations := s'.revocations.map ack }
  | _, _ => none

def execRevocation (id : Nat) (pfn : BitVec 36) (s : State) : Host.Outcome State Fault Refusal :=
  settle s (revocation id pfn s)

/-- REVOCATION_COMPLETE (R159). -/
def revocationComplete (pfn : BitVec 36) (s : State) : Option State :=
  match s.revocations.find? (fun r => r.pfn == pfn && r.waiting.isEmpty) with
  | some r => some { s with revocations := s.revocations.erase r }
  | none => none

def execRevocationComplete (pfn : BitVec 36) (s : State) : Host.Outcome State Fault Refusal :=
  settle s (revocationComplete pfn s)

/-! ### Heat and migration (R161-R163) -/

/-- HEAT_DECAY: every counter is halved (R161). -/
def execHeatDecay (s : State) : Host.Outcome State Fault Refusal :=
  .next { s with heat := s.heat.filterMap fun (f, h) => if h.toNat < 2 then none else some (f, BitVec.ofNat 8 (h.toNat / 2)) }

/-- Copy `n` bytes of a sparse memory from one place to another. -/
def copyRange (m : Mem) (src dst n : Nat) : Mem :=
  let moved := (m.filter fun (a, _) => src ≤ a && a < src + n).map fun (a, b) => (a - src + dst, b)
  let cleared := m.filter fun (a, _) => !(dst ≤ a && a < dst + n)
  moved.foldl (fun m p => writeByte m p.1 p.2) cleared

/-- The contents of `n` bytes go from one place to another, poison with them (R163, R166). -/
def copyBytes (s : State) (src dst n : Nat) : State :=
  let moved := (s.poison.filter fun a => src ≤ a && a < src + n).map fun a => a - src + dst
  { s with
    mem := copyRange s.mem src dst n
    poison := moved.foldl insertNum (s.poison.filter fun a => !(dst ≤ a && a < dst + n)) }

/-- The page may be moved: HBM to or from the CXL tier, or between stacks of different dies (R162). -/
def mayMove (src dst : Nat) : Bool :=
  match regionOf src, regionOf dst with
  | some 1, some 2 => true
  | some 2, some 1 => true
  | some 1, some 1 => dieOfPa src != dieOfPa dst
  | _, _ => false

/-- The valid entries of this package's window table. V is bit 7 of an entry's eighth byte, so that byte is listed. -/
def validWindows (s : State) : List WinEntry :=
  let base := s.fw.windowBase
  (s.mem.filterMap fun (a, _) =>
    if base ≤ a ∧ a < base + 0x100000 ∧ (a - base) % 16 = 7 then
      some (windowAt s s.fw.pkg (BitVec.ofNat 16 ((a - base) / 16)))
    else none).filter fun e => bit e.d0 63

/-- A frame lies under a valid window, which pins it (R187). -/
def underWindow (s : State) (pa n : Nat) : Bool :=
  (validWindows s).any fun e => overlaps (windowAddr e 0) ((field e.d1 0 24).toNat * 65536) pa n

/-- Frames that firmware has offlined meet the range (R166). -/
def offlinedIn (s : State) (pa n : Nat) : Bool := s.fw.offlined.any fun f => overlaps (f.toNat * 0x10000) 0x10000 pa n

/-- HBM may be handed out, for a retirement list has been applied; the frames that it, or a later retirement, offlined
never are (R166, R168). -/
def mayHandOut (s : State) (pa n : Nat) : Bool :=
  !offlinedIn s pa n && (regionOf pa != some 1 || s.fw.retActive.isSome)

/-- A migration under way takes bytes of the range, as its source or its destination (R163). -/
def migrationMeets (s : State) (pa n : Nat) : Bool :=
  s.migrations.any fun (_, m) =>
    overlaps (m.src.toNat * 0x10000) m.bytes pa n || overlaps (m.dst.toNat * 0x10000) m.bytes pa n

/-- MIGRATION_ARM: the dirty bitmap is cleared and armed at the source (R162 step 1). Pinned pages and pages of 16 GiB
are never moved, no page is moved by two engines at once (R163), and offlined frames are no destination (R166). -/
def migrationArm (die : BitVec 2) (part : BitVec 4) (va : BitVec 57) (dst : BitVec 36) (s : State) : Option State :=
  match look s.migrations die.toNat, walk s part va.toNat false with
  | none, .leaf size pte =>
    let src := ptePfn pte
    let n := pageBytes size
    if size = 2 ∨ bit pte 60 ∨ !mayMove (src.toNat * 0x10000) (dst.toNat * 0x10000) ∨
        !populated s.fw (dst.toNat * 0x10000) n ∨ dst.toNat * 0x10000 % n ≠ 0 ∨ underWindow s (src.toNat * 0x10000) n ∨
        !mayHandOut s (dst.toNat * 0x10000) n ∨ migrationMeets s (src.toNat * 0x10000) n ∨
        migrationMeets s (dst.toNat * 0x10000) n then none
    else
      let m : Migration :=
        { part := part, va := BitVec.ofNat 57 (va.toNat / n * n), bytes := n, src := src, dst := dst
          gen := field pte 52 8, leafAt := walkEnd s part va.toNat, step := .arm }
      some { s with migrations := put s.migrations die.toNat m }
  | _, _ => none

def execMigrationArm (die : BitVec 2) (part : BitVec 4) (va : BitVec 57) (dst : BitVec 36) (s : State) :
    Host.Outcome State Fault Refusal := settle s (migrationArm die part va dst s)

/-- The access tables admit the engine's reads of the source and its writes of the destination at these offsets of the page
(R407, master kind 3). -/
def copyAdmitted (s : State) (m : Migration) (offs : List Nat) : Bool :=
  offs.all fun o => admitsPhysical s 3 m.part 0 62 (m.src.toNat * 0x10000 + o) 1 &&
    admitsPhysical s 3 m.part 0 61 (m.dst.toNat * 0x10000 + o) 1

/-- Offsets of the dirty sectors in their page. -/
def dirtyOffsets (m : Migration) : List Nat := m.dirty.map fun k => k * 256 - m.src.toNat * 0x10000

/-- A request of the migration engine is refused: ACCESS is reported, once, and the migration stands where it is (R407;
assumption 61). -/
def migrationRefused (s : State) (part : BitVec 4) : Option State :=
  if s.fw.reports.contains (.trap part .access) then none else some (refuseWrite s part)

def setMigration (s : State) (die : BitVec 2) (m : Migration) : State :=
  { s with migrations := put s.migrations die.toNat m }

/-- Copy the dirty sectors of a migrating page. -/
def copyDirty (s : State) (m : Migration) : State :=
  m.dirty.foldl (fun s k => copyBytes s (k * 256) (k * 256 - m.src.toNat * 0x10000 + m.dst.toNat * 0x10000) 256) s

/-- MIGRATION_COPY: every sector is copied (R162 step 2). -/
def migrationCopy (die : BitVec 2) (s : State) : Option State :=
  match look s.migrations die.toNat with
  | some m =>
    if m.step = .arm then
      if !copyAdmitted s m ((List.range (m.bytes / 4096)).map (· * 4096)) then migrationRefused s m.part
      else some (setMigration (copyBytes s (m.src.toNat * 0x10000) (m.dst.toNat * 0x10000) m.bytes) die
        { m with step := .copy, dirty := [] })
    else none
  | none => none

def execMigrationCopy (die : BitVec 2) (s : State) : Host.Outcome State Fault Refusal := settle s (migrationCopy die s)

/-- More than 4 sectors are dirty and fewer than 8 rounds have run (R162 step 3). -/
def moreRounds (m : Migration) : Bool := 4 < m.dirty.length && m.rounds < 8

def copying (m : Migration) : Bool := m.step == .copy || m.step == .recopy

/-- MIGRATION_RECOPY: the dirty sectors are cleared and recopied (R162 step 3). -/
def migrationRecopy (die : BitVec 2) (s : State) : Option State :=
  match look s.migrations die.toNat with
  | some m =>
    if copying m && moreRounds m then
      if !copyAdmitted s m (dirtyOffsets m) then migrationRefused s m.part
      else some (setMigration (copyDirty s m) die
        { m with step := .recopy, dirty := [], rounds := m.rounds + 1 })
    else none
  | none => none

def execMigrationRecopy (die : BitVec 2) (s : State) : Host.Outcome State Fault Refusal :=
  settle s (migrationRecopy die s)

/-- MIGRATION_HOLD: new writes are held from now on, and the last dirty sectors are recopied (R162 step 4). -/
def migrationHold (die : BitVec 2) (s : State) : Option State :=
  match look s.migrations die.toNat with
  | some m =>
    if copying m && !moreRounds m then
      if !copyAdmitted s m (dirtyOffsets m) then migrationRefused s m.part
      else some (setMigration (copyDirty s m) die { m with step := .hold, dirty := [] })
    else none
  | none => none

def execMigrationHold (die : BitVec 2) (s : State) : Host.Outcome State Fault Refusal := settle s (migrationHold die s)

/-- The leaf of a moved page: the new PFN and the next generation (R162 step 5). -/
def movedLeaf (pte : Word) (dst : BitVec 36) : Word :=
  field pte 60 4 ++ (field pte 52 8 + 1 : BitVec 8) ++ dst ++ (0 : BitVec 16)

/-- MIGRATION_SWITCH: the leaf is rewritten in one step and the old frame revoked (R162 step 5). -/
def migrationSwitch (die : BitVec 2) (s : State) : Option State :=
  match look s.migrations die.toNat with
  | some m =>
    if m.step = .hold then
      if !admitsPhysical s 3 m.part 0 61 m.leafAt 8 then migrationRefused s m.part else
      let pte := readWord s.mem m.leafAt 8
      let s' := setMigration { s with mem := writeWord s.mem m.leafAt 8 (movedLeaf pte m.dst) } die
        { m with step := .switched }
      some (startRevocation s' m.part m.src)
    else none
  | none => none

def execMigrationSwitch (die : BitVec 2) (s : State) : Host.Outcome State Fault Refusal :=
  settle s (migrationSwitch die s)

/-- The heat of a page goes with it (R161). -/
def moveHeat (h : SMap Byte) (src dst n : Nat) : SMap Byte :=
  (List.range n).foldl (fun h i => poke 0 (poke 0 h (dst + i) (peek 0 h (src + i))) (src + i) 0) h

/-- HBM pages of the partition that are free after a page of it has moved (R162 step 6, R165). -/
def freeAfter (free : Nat) (m : Migration) : Nat :=
  let n := m.bytes / 0x10000
  let freed := if regionOf (m.src.toNat * 0x10000) == some 1 then free + n else free
  if regionOf (m.dst.toNat * 0x10000) == some 1 then freed - n else freed

/-- Where the source's byte `a` of a migrating page lies at its destination. -/
def movedAddr (m : Migration) (a : Nat) : Nat := a - m.src.toNat * 0x10000 + m.dst.toNat * 0x10000

/-- A request that the source has kept waiting goes on to the destination (R162 step 6, R163). -/
def forwardMsg (m : Migration) (x : Msg) : Msg :=
  if x.target = .pa ∧ m.src.toNat * 0x10000 ≤ x.addr ∧ x.addr < m.src.toNat * 0x10000 + m.bytes then
    { x with addr := movedAddr m x.addr, frame := x.frame.map fun _ => m.dst }
  else x

/-- MIGRATION_FORWARD: once the revocation has completed, the held writes are applied at the destination in arrival order,
the destination serves the page, and the old frame is free (R162 step 6). -/
def migrationForward (die : BitVec 2) (s : State) : Option State :=
  match look s.migrations die.toNat with
  | some m =>
    if m.step = .switched ∧ (s.revocations.any fun r => r.part == m.part && r.pfn == m.src) = false then
      if !(m.held.all fun w => admitsPhysical s 3 m.part 0 61 (movedAddr m w.1) w.2.length) then migrationRefused s m.part else
      let mem := m.held.foldl (fun mem w => writeBytes mem (movedAddr m w.1) w.2) s.mem
      some { modPart s m.part (fun p => { p with freePages := freeAfter p.freePages m }) with
        mem := mem
        msgs := s.msgs.map fun (k, x) => (k, forwardMsg m x)
        heat := moveHeat s.heat m.src.toNat m.dst.toNat (m.bytes / 0x10000)
        migrations := del s.migrations die.toNat }
    else none
  | none => none

def execMigrationForward (die : BitVec 2) (s : State) : Host.Outcome State Fault Refusal :=
  settle s (migrationForward die s)

/-! ### Stream windows and the evictor (R164, R165, R193) -/

/-- WINDOW_PUBLISH: the mark of a window reaches the partition's controllers, all of them in one step (R193, R197;
assumption 54: the manual gives each controller's publication a time of its own). -/
def execWindowPublish (id : Nat) (w : BitVec 4) (s : State) : Host.Outcome State Fault Refusal :=
  match look s.cells id with
  | none => .next s
  | some c =>
    let key := memberOf c * 16 + w.toNat
    match c.core.windows[w.toNat]'w.isLt with
    | none => .next { s with published := del s.published key }
    | some x => .next { s with published := put s.published key ⟨c.part, x⟩ }

/-- The leaves of the table below a node, with their virtual base and SIZE code; `n` levels are left. An entry at which a
walk would trap maps nothing (R154, R156, R166). -/
def leavesFrom (s : State) : Nat → Nat → Nat → List (Nat × BitVec 2 × Word)
  | 0, _, _ => []
  | n + 1, node, va =>
    let level := 4 - n
    if regionOf node ≠ some 1 then []
    else (List.range (if level = 0 then 32 else 512)).flatMap fun i =>
      let pte := readWord s.mem (node + 8 * i) 8
      let va' := va + i * 2 ^ (52 - 9 * level)
      if bit pte 63 = false || poisoned s (node + 8 * i) 8 then []
      else if bit pte 62 then
        if level ≤ 1 || leafVerdict s.fw (BitVec.ofNat 2 (4 - level)) pte false != .leaf (BitVec.ofNat 2 (4 - level)) pte then []
        else [(va', BitVec.ofNat 2 (4 - level), pte)]
      else if level = 4 || field pte 52 10 != 0 || field pte 0 12 != 0 then []
      else leavesFrom s n ((field pte 12 40).toNat * 4096) va'

/-- The least mark among the published windows of a partition that cover a page (R164, R165). -/
def leastMark (s : State) (part : BitVec 4) (va n : Nat) : Option Nat :=
  s.published.foldl (fun r (_, p) =>
    if p.part == part && overlaps p.win.base.toNat p.win.len.toNat va n then
      some (match r with | none => p.win.mark.toNat | some x => min x p.win.mark.toNat)
    else r) none

/-- Heat of a page: the sum over its frames (R161, R165; assumption 54: the manual gives each frame a counter and does not
say how a page of many frames ranks). -/
def pageHeat (s : State) (pfn n : Nat) : Nat :=
  ((List.range (n / 0x10000)).map fun i => (peek (0 : Byte) s.heat (pfn + i)).toNat).sum

/-- The order in which the evictor takes eligible pages: covered pages first, lowest address first; then uncovered pages
by heat, ties to the lowest frame (R165). None where the page is not eligible. -/
def evictRank (s : State) (die : BitVec 2) (part : BitVec 4) (p : Nat × BitVec 2 × Word) : Option (Nat × Nat × Nat) :=
  let (va, size, pte) := p
  let pfn := (ptePfn pte).toNat
  let n := pageBytes size
  if size = 2 ∨ bit pte 60 ∨ regionOf (pfn * 0x10000) ≠ some 1 ∨ dieOfPa (pfn * 0x10000) ≠ some die.toNat ∨
      underWindow s (pfn * 0x10000) n then none
  else
    match leastMark s part va n with
    | some m => if va + n ≤ m then some (0, va, pfn) else none
    | none => some (1, pageHeat s pfn n, pfn)

def rankBefore (a b : Nat × Nat × Nat) : Bool :=
  a.1 < b.1 || (a.1 == b.1 && (a.2.1 < b.2.1 || (a.2.1 == b.2.1 && a.2.2 < b.2.2)))

/-- The page the evictor demotes (R165). -/
def evictChoice (s : State) (die : BitVec 2) (part : BitVec 4) : Option Nat :=
  let best := (leavesFrom s 5 (partOf s part).root 0).foldl
    (fun (b : Option ((Nat × Nat × Nat) × Nat)) p =>
      match evictRank s die part p with
      | none => b
      | some r =>
        match b with
        | none => some (r, p.1)
        | some (r', _) => if rankBefore r r' then some (r, p.1) else b) none
  best.map (·.2)

/-- EVICTION: free HBM has fallen below the partition's threshold, and the page chosen starts its migration to the frame
that firmware assigns in the CXL tier (R165). -/
def eviction (die : BitVec 2) (part : BitVec 4) (dst : BitVec 36) (s : State) : Option State :=
  if (partOf s part).evictPages ≤ (partOf s part).freePages ∨ regionOf (dst.toNat * 0x10000) ≠ some 2 then none
  else
    match evictChoice s die part with
    | none => none
    | some va => migrationArm die part (BitVec.ofNat 57 va) dst s

def execEviction (die : BitVec 2) (part : BitVec 4) (dst : BitVec 36) (s : State) : Host.Outcome State Fault Refusal :=
  settle s (eviction die part dst s)

/-! ### Rows and the retirement list (R166, R167) -/

/-- Number of an HBM bank. -/
def bankKey (r : RowId) : Nat := ((r.stack.toNat * 32 + r.chan.toNat) * 2 + r.pch.toNat) * 64 + r.bank.toNat

/-- Number of an HBM row. -/
def rowKey (r : RowId) : Nat := bankKey r * 131072 + r.row.toNat

/-- The 64 KiB frames that hold bytes of a row. -/
def framesOf (r : RowId) : List (BitVec 36) := Config.rowFrames (rowKey r)

/-- Some partition's page table maps bytes of a frame. -/
def frameMapped (s : State) (f : BitVec 36) : Bool :=
  s.parts.any fun (_, p) => (leavesFrom s 5 p.root 0).any fun (_, size, pte) =>
    overlaps ((ptePfn pte).toNat * 0x10000) (pageBytes size) (f.toNat * 0x10000) 0x10000

/-- A row retires: to a spare of its bank, or by offlining its frames (R166). -/
def retireRow (fw : Firmware) (r : RowId) : Firmware :=
  let used := peek 0 fw.spares (bankKey r)
  if used < 16 then { fw with spares := put fw.spares (bankKey r) (used + 1) }
  else { fw with offlined := fw.offlined ++ framesOf r }

/-- ROW_RETIREMENT: a spare row takes the row's place and no address changes; when the bank's sixteen spares are used,
firmware offlines the frames that hold bytes of the row instead, once their pages have been migrated away (R166). `fs` are
the frames that firmware names: where no spare is left they have to be those of the row. -/
def execRowRetirement (r : RowId) (fs : List (BitVec 36)) (s : State) : Host.Outcome State Fault Refusal :=
  settle s (ofFirmware s (
    if 16 ≤ peek 0 s.fw.spares (bankKey r) && (fs != framesOf r || fs.any (frameMapped s)) then none
    else some { s with fw := retireRow s.fw r }))

/-- The bytes of a slot that its signature covers: a header of 64 bytes with sequence number and count, then the entries
(R167). The manual does not place the two numbers within the header (assumption 55). -/
def slotBytes (seq : Word) (es : List Word) : List Byte :=
  bytesOf seq.toNat 8 ++ bytesOf es.length 8 ++ List.replicate 48 0 ++ es.flatMap fun w => bytesOf w.toNat 8

/-- The device's signature of a slot (R167). -/
def slotSig (seq : Word) (es : List Word) : BitVec 512 := Config.sm2Sign (Config.sm3 (slotBytes seq es))

/-- A slot verifies: it is whole, and its signature is the device's (R167, R168). -/
def RetSlot.verifies (r : RetSlot) : Bool := !r.torn && decide (r.sig = slotSig r.seq r.entries) && decide (r.entries.length ≤ 4096)

/-- A slot that holds a list that verifies. -/
def goodSlot (o : Option RetSlot) : Option RetSlot := o.filter (·.verifies)

/-- Sequence number of a flash slot; an empty or torn one counts as lowest. -/
def slotSeq (o : Option RetSlot) : Nat := match goodSlot o with
  | none => 0
  | some r => r.seq.toNat + 1

/-- RETIREMENT_LIST_UPDATE: firmware writes the slot with the lower sequence number, with the number raised by 1
(R167). Where neither slot holds a list that verifies, the first number is 0 (DESIGN CHOICE, assumption 55). -/
def updateList (es : List Word) (s : State) : Option State :=
  if 4096 < es.length then none
  else
    let a := s.fw.ret[0]
    let b := s.fw.ret[1]
    let seq := BitVec.ofNat 64 (max (slotSeq a) (slotSeq b))
    let next : RetSlot := ⟨seq, es, slotSig seq es, false⟩
    let ret := if slotSeq a ≤ slotSeq b then s.fw.ret.set 0 (some next) else s.fw.ret.set 1 (some next)
    some { s with fw := { s.fw with ret := ret } }

def execRetirementListUpdate (es : List Word) (s : State) : Host.Outcome State Fault Refusal :=
  settle s (ofFirmware s (updateList es s))

/-- MEMORY_ERROR: an uncorrectable error poisons the bytes; either kind is reported to firmware, which decides on
retirement (R166). -/
def execMemoryError (pa : BitVec 52) (len : Nat) (uncorrectable : Bool) (s : State) : Host.Outcome State Fault Refusal :=
  .next { s with
    poison := if uncorrectable then (range pa.toNat len).foldl insertNum s.poison else s.poison
    fw := { s.fw with reports := s.fw.reports ++ [.memory pa.toNat] } }

end Sys2Proof.Machine
end

