-- ==== Sys2Proof/Machine/Links.lean ====
section
/-! DEFINITION. Narmos links: flits, allowances, totals, replay, keys (R365-R371), and what the Kettle learns of them
(R403). -/

namespace Sys2Proof.Machine

def linkOn (s : State) (l : Nat) : Link := peek {} s.links l

def setLinkOn (s : State) (l : Nat) (k : Link) : State := { s with links := put s.links l k }

/-! ### The Kettle's event queue (R403) -/

/-- A record joins the ring of 1,024, else the overflow buffer of 64, else it is lost. -/
def kettlePost (r : BitVec 128) (f : Firmware) : Firmware :=
  if f.kettle.length < 1024 then { f with kettle := f.kettle ++ [r] }
  else if f.kettleOver.length < 64 then { f with kettleOver := f.kettleOver ++ [r] }
  else { f with lost := true }

/-- Device time in nanoseconds since power-up: 2.7 cycles make one (R4, R403). -/
def deviceNs (s : State) : Word := BitVec.ofNat 64 (s.now * 10 / 27)

/-- A Kettle event record (R403). -/
def kettleEvent (s : State) (kind : BitVec 8) (cause : BitVec 4) (ki : BitVec 1) (dir : Bool) (l : Nat) : State :=
  let d0 : Word := kind ++ (0 : BitVec 44) ++ cause ++ (0 : BitVec 2) ++ ki ++ BitVec.ofBool dir ++ BitVec.ofNat 4 l
  { s with fw := kettlePost (deviceNs s ++ d0) s.fw }

/-- The package at the far end of a link (R364, R372). -/
def farPackage (f : Firmware) (l : Nat) : Nat :=
  let p := f.pkg.toNat
  let (nx, ny, nz) := f.torus
  let move (c n : Nat) : Nat := if l / 3 % 2 = 0 then (c + 1) % n else (c + n - 1) % n
  match l % 3 with
  | 0 => 64 * (p / 64) + 8 * (p / 8 % 8) + move (p % 8) nx.toNat
  | 1 => 64 * (p / 64) + 8 * move (p / 8 % 8) ny.toNat + p % 8
  | _ => 64 * move (p / 64) nz.toNat + 8 * (p / 8 % 8) + p % 8

/-- A partition holds a window or a level-4 domain that reaches a package (R403). -/
def reaches (s : State) (part : BitVec 4) (pkg : Nat) : Bool :=
  bit (partOf s part).memb 4 ||
  s.windows.any fun (k, e) => k / 65536 == pkg && bit e.d0 63 && field e.d0 56 4 == part

/-- The LINK event of a Kettle record of kind 1 to 3 to every partition concerned (R400, R403). -/
def postLink (s : State) (r : BitVec 128) : State :=
  let detail : BitVec 4 := match (field r 56 8 : BitVec 8).toNat with
    | 1 => 0
    | 2 => 1
    | _ => 2
  let l : BitVec 4 := field r 0 4
  (keys s.parts).foldl (fun s p =>
    let part : BitVec 4 := BitVec.ofNat 4 p
    if reaches s part (farPackage s.fw l.toNat) then postEvent s part 6 0 ((0 : BitVec 8) ++ l ++ detail) 0 0 else s) s

/-- The Kettle reads the oldest record and clears LOST; a waiting record takes the place freed (R403). -/
def kettleRead (s : State) : State :=
  match s.fw.kettle with
  | [] => { s with fw := { s.fw with lost := false } }
  | r :: rs =>
    let s1 := { s with fw := { s.fw with
      kettle := rs ++ s.fw.kettleOver.take 1, kettleOver := s.fw.kettleOver.drop 1, lost := false } }
    if (field r 56 8 : BitVec 8).toNat ≤ 3 then postLink s1 r else s1

/-! ### Flits (R365) -/

def flitCrc (f : BitVec 512) : BitVec 32 := Config.crc32 (field f 32 480)

/-- Put the CRC into a flit. -/
def sealFlit (f : BitVec 480) : BitVec 512 := f ++ Config.crc32 f

/-- Bits [63:32] of doubleword 0. -/
def flitHead (type : BitVec 4) (vc : BitVec 3) (ki : BitVec 1) (seq : BitVec 16) : BitVec 32 :=
  type ++ vc ++ ki ++ (0 : BitVec 8) ++ seq

def flitType (f : BitVec 512) : Nat := (field f 60 4 : BitVec 4).toNat
def flitVc (f : BitVec 512) : BitVec 3 := field f 57 3
def flitKi (f : BitVec 512) : BitVec 1 := field f 56 1
def flitSeq (f : BitVec 512) : BitVec 16 := field f 32 16

/-- Doubleword `n` of a flit. -/
def flitDw (f : BitVec 512) (n : Nat) : Word := field f (64 * n) 64

/-- CRC, type and zero fields are right (R365). -/
def flitGood (type : Nat) (f : BitVec 512) : Bool :=
  flitCrc f == field f 0 32 && flitType f == type && field f 48 8 == 0#8 &&
  (match type with
   | 0 => decide ((flitVc f).toNat < 6)
   | 1 => field f 32 25 == 0#25 && field f 57 3 == 0#3 && field f 464 48 == 0#48
   | _ => field f 32 25 == 0#25 && field f 57 3 == 0#3 && field f 80 432 == 0#432)

def totalOf (v : Vector (BitVec 32) 6) (n : Nat) : BitVec 32 := v.toList.getD n 0

def addTotal (v : Vector (BitVec 32) 6) (n : Nat) : Vector (BitVec 32) 6 :=
  if h : n < 6 then v.set n (v[n] + 1) h else v

/-! ### Requests and responses on links (R366, R369, R373, R374) -/

/-- Buffer slots the far end still has for a channel (R367). -/
def allowance (k : Link) (v : Nat) : Nat := 256 - (totalOf k.sent v - totalOf k.freedLatest v).toNat

/-- Credit that a link has on a channel; none where it is down. -/
def credit (s : State) (w : Nat × BitVec 3) : Nat := if linkDown s w.1 then 0 else allowance (linkOn s w.1) w.2.toNat

/-- A request may leave by a link on a channel: `ada` where the credit is greatest (R369, R373). -/
def mayLeave (s : State) (m : Msg) (pkg : BitVec 9) (w : Nat × BitVec 3) : Bool :=
  let ways := (waysOut s m pkg).filter fun x => !linkDown s x.1
  ways.contains w && (m.rc != 1 || m.onOrd || (credit s w != 0 && ways.all fun x => credit s x ≤ credit s w))

/-- A request of this package that has to leave it, or has left: of a stream or of an engine. -/
def requestAt (s : State) (n : Nat) : Option Msg := (look s.msgs n).or ((look s.asks n).map (·.msg))

/-- Change such a request. -/
def modRequest (s : State) (n : Nat) (f : Msg → Msg) : State :=
  { s with msgs := upd s.msgs n f, asks := upd s.asks n fun x => { x with msg := f x.msg } }

/-- The package to which a request still has to leave. -/
def leavesFor (s : State) (n : Nat) (m : Msg) : Option (BitVec 9) :=
  if m.trip == .here && !inBag s n m then farTarget s m else none

/-- Cycles without credit after which an `ada` request moves to the `ord` path: 256 flit times of 2 / 7 ns (R4, R364, R373). -/
def stallOver (n : Nat) : Bool := decide (256 * 27 ≤ 35 * n)

/-- An `ada` request without credit: the time it waits is counted, and when 256 flit times have passed it moves to the `ord`
path (R373). -/
def stallRequest (n : Nat) (s : State) : Option State :=
  match requestAt s n with
  | none => none
  | some m =>
    match leavesFor s n m with
    | none => none
    | some pkg =>
      let dry := (waysOut s m pkg).all fun w => credit s w == 0
      if m.rc != 1 || m.onOrd then none
      else
        match m.stalled with
        | none => if dry then some (modRequest s n fun m => { m with stalled := some s.now }) else none
        | some t =>
          if !dry then some (modRequest s n fun m => { m with stalled := none })
          else if stallOver (s.now - t) then some (modRequest s n fun m => { m with onOrd := true })
          else none

/-- The request that a link's next flit on a channel carries: the oldest that may leave there (R198, R373). -/
def carriedRequest (s : State) (w : Nat × BitVec 3) : Option (Nat × Msg) :=
  let fits (x : Nat × Msg) : Bool := match leavesFor s x.1 x.2 with
    | some pkg => mayLeave s x.2 pkg w
    | none => false
  match s.msgs.find? fits, (s.asks.map fun x => (x.1, x.2.msg)).find? fits with
  | some x, some y => some (if x.1 < y.1 then x else y)
  | x, y => x.or y

/-- The links by which a response of this package may leave for its requester's: the `ord` path, from the die that holds
its target (R362, R373). -/
def wayBack (s : State) (m : Msg) (pkg : BitVec 9) : List (Nat × BitVec 3) :=
  let pa := match m.target with
    | .window p wid => windowAddr (windowAt s p wid) m.addr
    | _ => m.addr
  waysOut s { m with rc := 0, cell := 128 * (dieOfPa pa).getD 0 } pkg

/-- The response to another package that the next flit on RSP of a link carries: of those whose path leaves there, the one
performed first (R205, R366). -/
def carriedResponse (s : State) (l : Nat) : Option Nat :=
  let rs := s.resps.filter fun (_, r) => r.ready && match r.msg.origin with
    | some (pkg, _) => (wayBack s r.msg pkg).any fun w => w.1 == l
    | none => false
  (rs.find? fun (_, r) => rs.all fun (_, x) => r.perf ≤ x.perf).map (·.1)

/-- A level-4 record of which this package's partial count has still to go up the combining tree (R92, R376). -/
def reportDue (s : State) : Option Nat :=
  (s.barriers.find? fun (k, b) => k / 16 % 8 == 4 && owesReport s b).map (·.1)

/-- A partial count goes up the tree as it stands. -/
def sendReport (s : State) (k l : Nat) (seq : BitVec 16) : State :=
  modBarrier s k fun b => { b with told := some (partialCount b), toldBy := .flit l seq }

/-- A flit with a SEQ is to go out: what it carries, chosen by the credit that stands before it, goes with it; channel 5 is
RSP: a response, else a message of the barrier network (R366, R376). -/
def carry (s : State) (l : Nat) (vc : BitVec 3) (seq : BitVec 16) : State :=
  if vc = 5 then
    match carriedResponse s l with
    | some n => { s with resps := del s.resps n }
    | none =>
      match reportDue s with
      | some k => sendReport s k l seq
      | none => s
  else
    match carriedRequest s (l, vc) with
    | some (n, _) => modRequest s n fun m => { m with trip := .flit l seq }
    | none => s

/-- Flits of a link up to some have been acknowledged: what they carried is beyond it (R368). -/
def arrived (l : Nat) (replay : List (BitVec 512)) (t : Trip) : Trip :=
  match t with
  | .flit k q => if k = l ∧ !(replay.any fun f => flitSeq f == q) then .away else t
  | _ => t

/-- It stands in the replay buffer of a link. -/
def inReplay (l : Nat) (replay : List (BitVec 512)) (t : Trip) : Bool :=
  match t with
  | .flit k q => k == l && replay.any fun f => flitSeq f == q
  | _ => false

/-- The state with every request and every partial count beyond the flits of a link that are not in its replay buffer. -/
def passFlits (s : State) (l : Nat) (replay : List (BitVec 512)) : State :=
  let on (m : Msg) : Msg := { m with trip := arrived l replay m.trip }
  { s with
    msgs := s.msgs.map fun x => (x.1, on x.2)
    asks := s.asks.map fun x => (x.1, { x.2 with msg := on x.2.msg })
    barriers := s.barriers.map fun x => (x.1, { x.2 with toldBy := arrived l replay x.2.toldBy }) }

/-- What a replay buffer that is dropped takes from engines and barriers: their requests are refused with LINK, and a partial
count has to be sent again (R369, R376). -/
def dropFlits (s : State) (l : Nat) (replay : List (BitVec 512)) : State :=
  { s with
    asks := s.asks.map fun x => (x.1, if inReplay l replay x.2.msg.trip then { x.2 with answer := x.2.answer.or (some false) } else x.2)
    barriers := s.barriers.map fun x =>
      (x.1, if inReplay l replay x.2.toldBy then { x.2 with told := none, toldBy := .away } else x.2) }

/-- An answer from another package that was on its way when a link failed may have been in a flit that is dropped: it then
becomes a refusal with LINK. Which are is a free choice (R369; assumption 11). -/
def dropResponses (s : State) : State :=
  let lost (i : Nat) (r : Resp) : Resp :=
    if r.ready && !hasCome s r.msg && Config.choice (s.free + i) then
      { r with msg := { r.msg with trip := .here }, vals := [], refusal := some .link }
    else r
  let n := s.free + s.resps.length
  let unasked (i : Nat) (x : Ask) : Ask :=
    if x.msg.trip == .away && x.answer.isNone && Config.choice (n + i) then { x with answer := some false } else x
  { s with
    resps := s.resps.zipIdx.map fun (x, i) => (x.1, lost i x.2)
    asks := s.asks.zipIdx.map fun (x, i) => (x.1, unasked i x.2)
    free := n + s.asks.length }

/-! ### Links that go down (R369) -/

/-- The link goes down: flits in its replay buffer are dropped and what they carried is refused, firmware learns the cause
(R369, R403). -/
def linkFails (s : State) (l : Nat) (cause : BitVec 4) (dir : Bool) : State :=
  let replay := (linkOn s l).replay
  let lost := s.msgs.filter fun x => inReplay l replay x.2.trip
  let s1 := dropResponses (lost.foldl (fun s x => refuseMsg s x.1 { x.2 with trip := .here } .link) (dropFlits s l replay))
  kettleEvent (setLinkOn s1 l { linkOn s1 l with down := true, replay := [], wire := [] }) 1 cause 0 dir l

/-! ### Sending (R367, R368, R370, R371) -/

def keyAt (ks : Vector (Option KeySlot) 2) (i : BitVec 1) : Option KeySlot := ks[i.toNat]'i.isLt

def setKey (ks : Vector (Option KeySlot) 2) (i : BitVec 1) (k : Option KeySlot) : Vector (Option KeySlot) 2 :=
  ks.set i.toNat k i.isLt

/-- The sender goes on under the next key from C = 0 (R371). -/
def flipKey (k : Link) : Link :=
  { k with txKi := ~~~k.txKi, txC := 0, txState := .active, txKeys := setKey k.txKeys k.txKi none }

/-- The nonce of a flit (R370). -/
def nonceOf (salt c : BitVec 48) : BitVec 96 := salt ++ c

/-- Send one new data flit of a link whose key is current. -/
def sendUnder (s : State) (l : Nat) (k : Link) (key : KeySlot) (vc : BitVec 3) (payload : BitVec 384) : State :=
  let head := flitHead 0 vc k.txKi k.seq
  let (cipher, tag) := Config.sm4Seal key.key (nonceOf key.salt k.txC) head payload
  let flit := sealFlit (tag ++ cipher ++ head)
  setLinkOn s l { k with
    sent := addTotal k.sent vc.toNat, seq := k.seq + 1, txC := k.txC + 1, replay := k.replay ++ [flit], wire := k.wire ++ [flit] }

/-- A data flit is sent, and `load` takes what it carries, by its SEQ: while the allowance, the replay buffer and the key
counter permit; at 2^47 the sender takes the next key, and without one it is exhausted at 2^48 − 1 (R367, R368, R370,
R371). -/
def sendFlit (load : State → BitVec 16 → State) (l : Nat) (vc : BitVec 3) (payload : BitVec 384) (s : State) : Option State :=
  let k := linkOn s l
  if 12 ≤ l || k.down || k.txState == .exhausted || 6 ≤ vc.toNat || allowance k vc.toNat = 0 || 512 ≤ k.replay.length then none
  else
    let flips := k.txState == .activeNext && decide (2 ^ 47 ≤ k.txC.toNat)
    let k1 := if flips then flipKey k else k
    let s1 := if flips then kettleEvent s 4 0 k1.txKi false l else s
    if k1.txC.toNat = 2 ^ 48 - 1 then some (kettleEvent (setLinkOn s1 l { k1 with txState := .exhausted, exhausted := s.now }) 3 0 0 false l)
    else
      match keyAt k1.txKeys k1.txKi with
      | none => some (linkFails s1 l 2 false)
      | some key => some (sendUnder (load s1 k1.seq) l k1 key vc payload)

/-- DATA_FLIT_SEND: the flit carries a request of this package that is to leave there, a response, or a message of the
barrier network; else it is another package's on its way. -/
def dataFlitSend (l : Nat) (vc : BitVec 3) (payload : BitVec 384) (s : State) : Option State :=
  sendFlit (fun s seq => carry s l vc seq) l vc payload s

def execDataFlitSend (l : Nat) (vc : BitVec 3) (payload : BitVec 384) (s : State) : Host.Outcome State Fault Refusal :=
  settle s (dataFlitSend l vc payload s)

/-- TOTALS_SEND: every 64 flit times each end sends its totals and its ACK (R365, R367). -/
def totalsSend (l : Nat) (s : State) : Option State :=
  let k := linkOn s l
  if 12 ≤ l || k.down then none
  else
    let dw (v : Nat) : Word := totalOf k.sent v ++ totalOf k.freed v
    let flit := sealFlit (((0 : BitVec 48) ++ k.ackIn : Word) ++ dw 5 ++ dw 4 ++ dw 3 ++ dw 2 ++ dw 1 ++ dw 0 ++ flitHead 1 0 0 0)
    some (setLinkOn s l { k with
      wire := k.wire ++ [flit], askWait := false, rxOld := false
      rxKeys := if k.rxOld then setKey k.rxKeys (~~~k.rxKi) none else k.rxKeys })

def execTotalsSend (l : Nat) (s : State) : Host.Outcome State Fault Refusal := settle s (totalsSend l s)

/-! ### Receiving (R367, R368, R370) -/

/-- The receiver asks for the flit it expects, at most once between two totals flits; the sixteenth request for one SEQ
takes the link down (R368). -/
def askReplay (s : State) (l : Nat) : State :=
  let k := linkOn s l
  if k.askWait then s
  else
    let flit := sealFlit (((0 : BitVec 432) ++ k.expect : BitVec 448) ++ flitHead 2 0 0 0)
    let s1 := setLinkOn s l { k with wire := k.wire ++ [flit], askWait := true, askedHere := k.askedHere + 1 }
    if 16 ≤ k.askedHere + 1 then linkFails s1 l 0 true else s1

/-- What a request of another package asks (R183-R192); one that no cell could issue asks nothing. -/
def farAccess (q : Config.FarRequest) : Option Access :=
  let plain := (q.size == 1 || q.size == 2 || q.size == 4 || q.size == 8) && q.off % q.size == 0
  match q.kind with
  | 0 => if plain then some (.load false (.reg 0)) else none
  | 1 => if plain then some (.load true (.reg 0)) else none
  | 2 => if q.size = 128 ∧ q.off % 128 = 0 then some (.line 0) else none
  | 3 => if plain then some (.store q.v) else none
  | 4 => if plain && 4 ≤ q.size && q.op.toNat ≤ 9 then some (.amo q.op q.v q.v2 0) else none
  | _ => none

/-- A request of another package joins the channel of its cell to the window (R374, R375). -/
def takeRequest (s : State) (q : Config.FarRequest) : State :=
  match farAccess q with
  | none => s
  | some k =>
    let m : Msg :=
      { cell := 512 * (q.pkg.toNat + 1) + q.cell, task := 0, acc := true, br := 0, pc := 0, cls := 0, rc := q.rc
        target := .window s.fw.pkg q.wid, addr := q.off, off := q.off, size := q.size, kind := k, trip := .away
        origin := some (q.pkg, q.part) }
    { s with msgs := put s.msgs s.nextMsg m, nextMsg := s.nextMsg + 1 }

/-- A message of the barrier network: the partial count of another package at the level-4 barrier of a partition, in the
place of the one it sent before (R92, R376). -/
def takeArrival (s : State) (a : Config.FarArrival) : State :=
  modBarrier s (barrierKey a.part 4 0) fun b =>
    { b with far := (b.far.filter fun x => !(x.pkg == a.pkg && x.gen == a.gen)) ++ [a] }

/-- A response of another package to a request of this one has come, of a stream or of an engine (R366). -/
def takeResponse (s : State) (n : Nat) : State :=
  match look s.resps n, look s.asks n with
  | some r, _ => { s with resps := put s.resps n { r with msg := { r.msg with trip := .here } } }
  | none, some x => if x.msg.trip == .here then s else { s with asks := put s.asks n { x with answer := x.answer.or (some true) } }
  | none, none => s

/-- The payload of an accepted flit: on RSP a barrier message, or a response; on the other channels a request to this
package, or another's on its way (R366, R374, R376). -/
def takePayload (s : State) (vc : BitVec 3) (p : BitVec 384) : State :=
  if vc = 5 then
    match Config.farArrival p, Config.farResponse p with
    | some a, _ => takeArrival s a
    | none, some n => takeResponse s n
    | none, none => s
  else
    match Config.farRequest p with
    | some q => takeRequest s q
    | none => s

/-- DATA_FLIT: the next flit in order is opened and accepted, any other makes the receiver ask again; a tag that fails or
a key slot that is empty takes the link down (R368, R370, R371). -/
def dataFlit (l : Nat) (f : BitVec 512) (s : State) : Option State :=
  let k := linkOn s l
  if 12 ≤ l || k.down then none
  else if !flitGood 0 f || flitSeq f != k.expect then some (askReplay s l)
  else
    let flips := flitKi f != k.rxKi
    let c : BitVec 48 := if flips then 0 else k.rxC
    match keyAt k.rxKeys (flitKi f) with
    | none => some (linkFails s l 2 true)
    | some key =>
      match Config.sm4Open key.key (nonceOf key.salt c) (field f 32 32) (field f 64 384) (field f 448 64) with
      | none => some (linkFails s l 1 true)
      | some p =>
        let s1 := setLinkOn (takePayload s (flitVc f) p) l { k with
          expect := k.expect + 1, ackIn := k.expect, askedHere := 0, freed := addTotal k.freed (flitVc f).toNat
          received := k.received ++ [(flitVc f, p)], rxKi := flitKi f, rxC := c + 1, rxOld := k.rxOld || flips }
        some (if flips then kettleEvent s1 4 0 (flitKi f) true l else s1)

def execDataFlit (l : Nat) (f : BitVec 512) (s : State) : Host.Outcome State Fault Refusal := settle s (dataFlit l f s)

/-- The flits of a replay buffer from a SEQ on. -/
def fromSeq (n : BitVec 16) : List (BitVec 512) → List (BitVec 512)
  | [] => []
  | f :: fs => if flitSeq f = n then f :: fs else fromSeq n fs

/-- What stays unacknowledged: the flits after the one that ACK names; all of them where it names none (R368). -/
def afterAck (ack : BitVec 16) (fs : List (BitVec 512)) : List (BitVec 512) :=
  match fromSeq ack fs with
  | [] => fs
  | _ :: rest => rest

/-- TOTALS_FLIT: an intact one brings FREED and ACK (R367, R368). -/
def totalsFlit (l : Nat) (f : BitVec 512) (s : State) : Option State :=
  let k := linkOn s l
  if 12 ≤ l || k.down || !flitGood 1 f then none
  else
    let rest := afterAck (field (flitDw f 7) 0 16) k.replay
    some (setLinkOn (passFlits s l rest) l { k with
      freedLatest := Vector.ofFn fun v : Fin 6 => field (flitDw f (v.val + 1)) 0 32
      replay := rest })

def execTotalsFlit (l : Nat) (f : BitVec 512) (s : State) : Host.Outcome State Fault Refusal := settle s (totalsFlit l f s)

/-- REPLAY_REQUEST: the sender resends byte for byte from the SEQ named; the sixteenth request for one SEQ takes the link
down (R368). -/
def replayRequest (l : Nat) (f : BitVec 512) (s : State) : Option State :=
  let k := linkOn s l
  if 12 ≤ l || k.down || !flitGood 2 f then none
  else
    let n : BitVec 16 := field (flitDw f 1) 0 16
    let times := if n = k.askedSeq then k.askedThere + 1 else 1
    let s1 := setLinkOn s l { k with wire := k.wire ++ fromSeq n k.replay, askedSeq := n, askedThere := times }
    some (if 16 ≤ times then linkFails s1 l 0 false else s1)

def execReplayRequest (l : Nat) (f : BitVec 512) (s : State) : Host.Outcome State Fault Refusal :=
  settle s (replayRequest l f s)

/-! ### Keys and retraining (R369, R371) -/

/-- KEY_INSTALL: firmware writes the slot that is not current; an exhausted sender goes on under it (R371). -/
def keyInstall (l : Nat) (rx : Bool) (key : BitVec 128) (salt : BitVec 48) (s : State) : Option State :=
  let k := linkOn s l
  let slot : Option KeySlot := some ⟨key, salt⟩
  if 12 ≤ l then none
  else if rx then some (setLinkOn s l { k with rxKeys := setKey k.rxKeys (~~~k.rxKi) slot, rxOld := false })
  else
    let k1 := { k with txKeys := setKey k.txKeys (~~~k.txKi) slot, txState := .activeNext }
    if k.txState == .exhausted then
      let k2 := flipKey k1
      some (kettleEvent (setLinkOn s l k2) 4 0 k2.txKi false l)
    else some (setLinkOn s l k1)

def execKeyInstall (l : Nat) (rx : Bool) (key : BitVec 128) (salt : BitVec 48) (s : State) :
    Host.Outcome State Fault Refusal := settle s (ofFirmware s (keyInstall l rx key salt s))

/-- KEY_SWITCH: firmware requests the switch to the next key (R371). -/
def keySwitch (l : Nat) (s : State) : Option State :=
  let k := linkOn s l
  if 12 ≤ l || k.down || k.txState != .activeNext then none
  else
    let k1 := flipKey k
    some (kettleEvent (setLinkOn s l k1) 4 0 k1.txKi false l)

def execKeySwitch (l : Nat) (s : State) : Host.Outcome State Fault Refusal := 
  settle s (ofFirmware s (keySwitch l s))

/-- EXHAUSTION_TIMEOUT: ten ms, of 2,700,000 cycles each, without a key (R4, R371). -/
def exhaustionTimeout (l : Nat) (s : State) : Option State :=
  let k := linkOn s l
  if 12 ≤ l || k.down || k.txState != .exhausted || s.now < k.exhausted + 27000000 then none
  else some (linkFails s l 3 false)

def execExhaustionTimeout (l : Nat) (s : State) : Host.Outcome State Fault Refusal := settle s (exhaustionTimeout l s)

/-- LINK_RETRAIN: both ends begin anew: totals, SEQ and replay buffer are as at reset, the keys and their counters stay
(R369, R370). Training may fail, which is a free choice: the link then stays down, with cause 4 (R403). -/
def linkRetrain (l : Nat) (s : State) : Option State :=
  let k := linkOn s l
  if 12 ≤ l || !k.down then none
  else if Config.choice s.free then some (kettleEvent { s with free := s.free + 1 } 1 4 0 false l)
  else
    let s := { s with free := s.free + 1 }
    let fresh : Link := {
      txKeys := k.txKeys, rxKeys := k.rxKeys, txKi := k.txKi, rxKi := k.rxKi, txC := k.txC, rxC := k.rxC
      txState := k.txState, exhausted := k.exhausted, rxOld := k.rxOld, received := k.received }
    some (kettleEvent (setLinkOn s l fresh) 2 0 0 false l)

def execLinkRetrain (l : Nat) (s : State) : Host.Outcome State Fault Refusal := settle s (ofFirmware s (linkRetrain l s))

end Sys2Proof.Machine
end

