-- ==== Sys2Proof/Machine/EngineMem.lean ====
section
/-! DEFINITION. Byte accesses of the copy engine and the Blender at the places a cell can name (R320, R328, R407). One
access covers bytes of one aligned 32-byte word, so it lies in one page, one presence word and one controller. -/

namespace Sys2Proof.Machine

/-- Why an engine access does not go through: a trap with its address field, or a page that is not resident. -/
inductive Miss where
  | trap (code : TrapCode) (addr : Nat)
  | page (va : Nat)

/-- What an engine read comes to; `deferred` names the cell and the byte of the empty word it waits for, `asked` says that
its request is on its way to another package. -/
inductive Got where
  | bytes (bs : List Byte) (s : State)
  | blocked
  | asked (s : State)
  | deferred (cell a : Nat) (s : State)
  | miss (m : Miss) (s : State)

/-- What an engine write comes to. -/
inductive Wrote where
  | done (s : State)
  | blocked
  | asked (s : State)
  | miss (m : Miss) (s : State)

/-- Who makes an engine access: its cell and that cell's partition; a copy channel, which holds translations (R318). -/
structure Master where
  id : Nat
  part : BitVec 4
  rc : BitVec 2 := 0
  ch : Option (BitVec 2) := none

def getChannel (c : Cell) (ch : BitVec 2) : Channel := c.channels[ch.toNat]'ch.isLt

def setChannel (c : Cell) (ch : BitVec 2) (h : Channel) : Cell := { c with channels := c.channels.set ch.toNat h ch.isLt }

/-- Bytes of a scratch word as the copy engine of cell `id` reads them, or the wait for it; a word that a deferred read
has returned is used once (R105). -/
def readScratchOf (s : State) (id t : Nat) (a n : Nat) : Got :=
  match look s.cells t with
  | none => .blocked
  | some c =>
    if readDefers c (.copy id) a then .deferred t a s
    else
      .bytes (readBytes (engineMem c (.copy id)) a n) (
        if (servedWord c (.copy id) a).isNone then s
        else setCell s t (modMem c fun m =>
          { m with served := m.served.filter fun x => !(x.reader == .copy id && x.word == wordIdx a) }))

/-- Bytes written into a scratch word, which faults PRESENCE when it is full (R104). -/
def writeScratchOf (s : State) (t : Nat) (a : Nat) (bs : List Byte) : Wrote :=
  match look s.cells t with
  | none => .blocked
  | some c => if meetsFull c a then .miss (.trap .presence a) s else .done (storeScratch s t a bs)

/-- The remote port of a cell admits an engine of this package (R407). -/
def portAdmits (s : State) (m : Master) (t perm a n : Nat) : Bool :=
  admits s (unitKey (.cellRemote (BitVec.ofNat 9 t))) 0 m.part 0 perm a (a + n - 1)

/-- The request that an engine makes of a cluster cell or a window, as its path knows it (R373). -/
def engineMsg (m : Master) (t : Target) (a n : Nat) : Msg :=
  { cell := m.id, task := 0, acc := false, br := 0, pc := 0, cls := 0, rc := m.rc, target := t
    addr := a, size := n, kind := .store 0 }

/-- A request of an engine leaves its cell: one of class `two` draws its intermediate stop (R176, R373). -/
def engineLeaves (s : State) (q : Msg) : State × Msg :=
  let (s1, q) := drawVia s q
  ({ s1 with sends := put s1.sends q.cell (peek 0 s.sends q.cell + 1) }, q)

/-- A read of a cluster cell's word that is deferred there, or that its bank has served: its request has left before (R105). -/
def atBank (s : State) (id t a : Nat) : Bool :=
  match look s.cells t with
  | none => false
  | some c => waitsFor c (.copy id) a || (servedWord c (.copy id) a).isSome

/-- What becomes of an engine's request to another package: it is served now that its answer has come, it waits, it has been
made, or it is refused with LINK. -/
inductive Far where
  | served (s : State)
  | waits
  | asked (s : State)
  | down (s : State)

/-- The request of an engine that stands: to the same bytes of the same place, with the same data. -/
def askOf (s : State) (q : Msg) (data : Option (List Byte)) : Option (Nat × Ask) :=
  s.asks.find? fun (_, x) =>
    x.msg.cell == q.cell && x.msg.rc == q.rc && x.msg.target == q.target && x.msg.addr == q.addr && x.msg.size == q.size &&
    x.data == data

/-- An engine's access of another package: its request leaves in a flit like one of a stream, and the access is made when its
answer has come in a flit on RSP (R366, R367, R369, R373; when in between it acts at its target: assumption 46). -/
def askFar (s : State) (m : Master) (t : Target) (pkg : BitVec 9) (a n : Nat) (data : Option (List Byte)) : Far :=
  let q := engineMsg m t a n
  match askOf s q data with
  | some (k, x) =>
    let over_ : State := { s with asks := del s.asks k }
    (match x.answer with
     | some true => .served over_
     | some false => .down over_
     | none => if x.msg.trip == .here && pathDown s x.msg pkg then .down over_ else .waits)
  | none =>
    let (s1, q) := engineLeaves s q
    .asked { s1 with asks := put s1.asks s1.nextMsg { msg := q, data := data }, nextMsg := s1.nextMsg + 1 }

/-- The permission of R188 and the range of the window. -/
def windowPasses (e : WinEntry) (part : BitVec 4) (perm off n : Nat) : Bool :=
  bit e.d0 63 && field e.d0 56 4 == part && bit e.d0 perm && (field e.d1 0 24 != 0) && decide (off + n ≤ (field e.d1 0 24).toNat * 65536)

/-- Physical bytes of a range that its controller serves (R161-R163, R166). -/
def readPhysical (s : State) (m : Master) (pa off n : Nat) : Got :=
  if !admitsPhysical s 0 m.part 0 62 pa n then .miss (.trap .access off) s
  else if migrationBlocks s pa n false then .blocked
  else if poisoned s pa n then .miss (.trap .ecc off) s
  else .bytes (servedBytes s pa n) (sampleHeat s pa)

def writePhysical (s : State) (m : Master) (pa off : Nat) (bs : List Byte) : Wrote :=
  if !admitsPhysical s 0 m.part 0 61 pa bs.length then .miss (.trap .access off) s
  else if migrationBlocks s pa bs.length true then .blocked
  else if poisoned s pa bs.length then .miss (.trap .ecc off) s
  else .done (storePhysical (sampleHeat s pa) pa bs)

/-- A valid translation covers an address. -/
def covers (h : Handle) (va : Nat) : Bool := h.bound && h.v && h.vpage.toNat == vpageOf va h.size

/-- The translation of its channel that a copy access goes through, where that is valid and covers the address (R318). -/
def heldPage (s : State) (m : Master) (va : Nat) (rw : Bool) : Option Handle :=
  match m.ch, look s.cells m.id with
  | some ch, some c =>
    let k := getChannel c ch
    let h := if rw then k.writesBy else k.readsBy
    if covers h va then some h else none
  | _, _ => none

/-- A channel holds a translation that it has made (R318). -/
def holdPage (s : State) (m : Master) (rw : Bool) (h : Handle) : State :=
  match m.ch with
  | none => s
  | some ch => modCell s m.id fun c =>
    let k := getChannel c ch
    setChannel c ch (if rw then { k with writesBy := h } else { k with readsBy := h })

/-- Physical address of a virtual one through a handle. -/
def handleAddr (h : Handle) (va : Nat) : Nat := h.pfn.toNat * 0x10000 + va % pageBytes h.size

/-- A virtual address under the partition's page table: its physical address, by its channel's translation as long as no
revocation has taken it back (R154-R156, R159, R318). -/
def placeOfVa (s : State) (m : Master) (va : Nat) (rw : Bool) : Except Miss Nat × State :=
  if 2 ^ 57 ≤ va then (.error (.trap .xlatfault 0), s)
  else
    match heldPage s m va rw with
    | some h => (.ok (handleAddr h va), s)
    | none =>
      match translate s (dieOfCell m.id) m.part va rw with
      | (.leaf size pte, s') => (.ok (leafAddr size pte va), holdPage s' m rw (bindHandle size pte va rw))
      | (.pageFault, s') => (.error (.page va), s')
      | (.fault code, s') => (.error (.trap code 0), s')

/-- Offset of a virtual address in its 64 KiB page, as a refusal reports it (R189). -/
def pageOffset (va : Nat) : Nat := va % 65536

/-- Read `n` bytes of one aligned 32-byte word. -/
def readPlace (s : State) (m : Master) (p : Place) (a n : Nat) : Got :=
  match p with
  | .scratch => readScratchOf s m.id m.id a n
  | .cluster t =>
    let s1 := if atBank s m.id t a then s else (engineLeaves s (engineMsg m (.cell t) a n)).1
    if portAdmits s m t 62 a n then readScratchOf s1 m.id t a n else .miss (.trap .access a) s1
  | .virt =>
    (match placeOfVa s m a false with
     | (.ok pa, s') => readPhysical s' m pa (pageOffset a) n
     | (.error e, s') => .miss e s')
  | .window pkg wid =>
    let e := windowAt s pkg wid
    let here (s1 : State) : Option Got :=
      if windowPoisoned s1 pkg wid then some (.miss (.trap .ecc a) s1)
      else if !windowPasses e m.part 62 a n then some (.miss (.trap .access a) s1)
      else none
    if pkg = s.fw.pkg then
      let s1 := (engineLeaves s (engineMsg m (.window pkg wid) a n)).1
      (here s1).getD (readPhysical s1 m (windowAddr e a) a n)
    else
      match askFar s m (.window pkg wid) pkg a n none with
      | .waits => .blocked
      | .asked s1 => .asked s1
      | .down s1 => .miss (.trap .link a) s1
      | .served s1 =>
        let s2 := { s1 with free := s1.free + 1 }
        (here s1).getD (
          if Config.choice s1.free then .miss (.trap .access a) s2
          else .bytes (readBytes s2.remote (pkg.toNat * 2 ^ 52 + windowAddr e a) n) s2)

/-- Write bytes of one aligned 32-byte word. -/
def writePlace (s : State) (m : Master) (p : Place) (a : Nat) (bs : List Byte) : Wrote :=
  match p with
  | .scratch => writeScratchOf s m.id a bs
  | .cluster t =>
    let s1 := (engineLeaves s (engineMsg m (.cell t) a bs.length)).1
    if portAdmits s m t 61 a bs.length then writeScratchOf s1 t a bs else .miss (.trap .access a) s1
  | .virt =>
    (match placeOfVa s m a true with
     | (.ok pa, s') => writePhysical s' m pa (pageOffset a) bs
     | (.error e, s') => .miss e s')
  | .window pkg wid =>
    let e := windowAt s pkg wid
    let here (s1 : State) : Option Wrote :=
      if windowPoisoned s1 pkg wid then some (.miss (.trap .ecc a) s1)
      else if !windowPasses e m.part 61 a bs.length then some (.miss (.trap .access a) s1)
      else none
    if pkg = s.fw.pkg then
      let s1 := (engineLeaves s (engineMsg m (.window pkg wid) a bs.length)).1
      (here s1).getD (writePhysical s1 m (windowAddr e a) a bs)
    else
      match askFar s m (.window pkg wid) pkg a bs.length (some bs) with
      | .waits => .blocked
      | .asked s1 => .asked s1
      | .down s1 => .miss (.trap .link a) s1
      | .served s1 =>
        let s2 := { s1 with free := s1.free + 1 }
        (here s1).getD (
          if Config.choice s1.free then .miss (.trap .access a) s2
          else .done { s2 with remote := writeBytes s2.remote (pkg.toNat * 2 ^ 52 + windowAddr e a) bs })

/-- Read `n` bytes from `a` on, word by word: `k` words at most. -/
def readSpan (s : State) (m : Master) (p : Place) : Nat → Nat → Nat → Got
  | 0, _, _ => .bytes [] s
  | k + 1, a, n =>
    if n = 0 then .bytes [] s
    else
      let here := min n (32 - a % 32)
      match readPlace s m p a here with
      | .bytes bs s' =>
        (match readSpan s' m p k (a + here) (n - here) with
         | .bytes cs s'' => .bytes (bs ++ cs) s''
         | r => r)
      | r => r

/-- Write bytes from `a` on, word by word: `k` words at most. -/
def writeSpan (m : Master) (p : Place) : Nat → State → Nat → List Byte → Wrote
  | 0, s, _, _ => .done s
  | k + 1, s, a, bs =>
    if bs.isEmpty then .done s
    else
      let here := min bs.length (32 - a % 32)
      match writePlace s m p a (bs.take here) with
      | .done s' => writeSpan m p k s' (a + here) (bs.drop here)
      | r => r

/-- The scheduler's own accesses to a partition's virtual memory (R134, R397, R399); it makes them as an engine of the
package would. -/
def schedMaster (part : BitVec 4) : Master := { id := 0, part := part }

/-- Firmware learns once of a page that a reader waits for. -/
def reportPage (s : State) (part : BitVec 4) (va : Nat) : Option State :=
  let r := Report.page part (BitVec.ofNat 57 va)
  if s.fw.reports.contains r then none else some { s with fw := { s.fw with reports := s.fw.reports ++ [r] } }

end Sys2Proof.Machine
end

