-- ==== Sys2Proof/Machine/Formats.lean ====
section
/-! DEFINITION. Number formats, exact values, rounding and events (R206-R224). Every operation forms the exact value and
rounds it once. -/

namespace Sys2Proof.Machine

/-! ### Elements (R206, R209, R213) -/

/-- A floating-point format: widths of exponent and fraction, bias, and whether it has infinities (R206). -/
structure Fmt where
  eb : Nat
  fb : Nat
  bias : Nat
  hasInf : Bool
deriving DecidableEq, Repr

def fp32 : Fmt := ⟨8, 23, 127, true⟩
def bf16 : Fmt := ⟨8, 7, 127, true⟩
def fp16 : Fmt := ⟨5, 10, 15, true⟩
def e4m3 : Fmt := ⟨4, 3, 7, false⟩
def e5m2 : Fmt := ⟨5, 2, 15, true⟩

/-- The floating-point format of a tag 1-5. -/
def fmtOf (tag : BitVec 4) : Fmt :=
  match tag.toNat with
  | 2 => bf16
  | 3 => fp16
  | 4 => e4m3
  | 5 => e5m2
  | _ => fp32

/-- Bits of an element of a tag (R213). -/
def elemBits (tag : BitVec 4) : Nat :=
  match tag.toNat with
  | 2 | 3 | 9 => 16
  | 4 | 5 | 6 | 10 | 11 | 12 => 8
  | 7 => 4
  | _ => 32

/-- Elements of a lane (R213). -/
def perLane (tag : BitVec 4) : Nat := 32 / elemBits tag

/-- Element k of a lane, zero-extended (R213). -/
def elemOf (tag : BitVec 4) (lane : BitVec 32) (k : Nat) : Nat := lane.toNat / 2 ^ (elemBits tag * k) % 2 ^ elemBits tag

/-- A lane from its elements, element 0 first (R213). -/
def laneOf (tag : BitVec 4) (es : List Nat) : BitVec 32 :=
  BitVec.ofNat 32 (es.foldr (fun e r => e % 2 ^ elemBits tag + 2 ^ elemBits tag * r) 0)

/-- An exact value: NaN, an infinity, or (−1)^neg × m × 2^e. -/
inductive FV where
  | nan
  | inf (neg : Bool)
  | fin (neg : Bool) (m : Nat) (e : Int)
deriving DecidableEq, Repr

/-- The value of an element (R206). -/
def decodeFp (f : Fmt) (w : Nat) : FV :=
  let neg := w / 2 ^ (f.eb + f.fb) % 2 == 1
  let x := w / 2 ^ f.fb % 2 ^ f.eb
  let fr := w % 2 ^ f.fb
  if x = 2 ^ f.eb - 1 ∧ f.hasInf ∧ fr = 0 then .inf neg
  else if x = 2 ^ f.eb - 1 ∧ (f.hasInf ∨ fr = 2 ^ f.fb - 1) then .nan
  else if x = 0 then .fin neg fr (1 - f.bias - f.fb : Int)
  else .fin neg (2 ^ f.fb + fr) ((x : Int) - f.bias - f.fb)

/-- Sign bit of a format. -/
def signBit (f : Fmt) (neg : Bool) : Nat := if neg then 2 ^ (f.eb + f.fb) else 0

/-- The canonical NaN (R206, R207). -/
def nanBits (f : Fmt) : Nat :=
  if f.hasInf then (2 ^ f.eb - 1) * 2 ^ f.fb + 2 ^ (f.fb - 1) else 2 ^ (f.eb + f.fb) - 1

/-- An infinity; in E4M3, which has none, 0x7F (R218). -/
def infBits (f : Fmt) (neg : Bool) : Nat :=
  if f.hasInf then signBit f neg + (2 ^ f.eb - 1) * 2 ^ f.fb else nanBits f

/-- The largest finite value (R206). -/
def maxBits (f : Fmt) (neg : Bool) : Nat :=
  signBit f neg + (if f.hasInf then (2 ^ f.eb - 1) * 2 ^ f.fb - 1 else 2 ^ (f.eb + f.fb) - 2)

/-- A two's-complement or unsigned integer element. -/
def intOf (tag : BitVec 4) (w : Nat) : Int :=
  let b := elemBits tag
  if tag = 11 then w else if 2 ^ (b - 1) ≤ w then (w : Int) - 2 ^ b else w

/-- The bits of an integer in an element. -/
def intBits (tag : BitVec 4) (v : Int) : Nat := (v % (2 ^ elemBits tag : Nat)).toNat

/-- Least and greatest value of an integer element (R219). -/
def intRange (tag : BitVec 4) : Int × Int :=
  match tag.toNat with
  | 8 => (-2147483648, 2147483647)
  | 9 => (-32768, 32767)
  | 10 => (-128, 127)
  | 11 => (0, 255)
  | _ => (-127, 127)

/-! ### Events (R219, R293) -/

/-- The events of one element. -/
structure Ev where
  dz : Bool := false
  inv : Bool := false
  ovf : Bool := false
deriving DecidableEq, Repr

def Ev.or (a b : Ev) : Ev := ⟨a.dz || b.dz, a.inv || b.inv, a.ovf || b.ovf⟩

def Ev.any (a : Ev) : Bool := a.dz || a.inv || a.ovf

/-! ### Rounding (R218-R220) -/

/-- A rounding mode; stochastic rounding carries its sixteen random bits (R220). -/
inductive RMode where
  | rne | rtz | rdn | rup
  | sr (rnd : Nat)
deriving DecidableEq, Repr

/-- The mode of a rounding field with the random bits of the element (R218). -/
def modeOf (r : BitVec 3) (rnd : Nat) : RMode :=
  match r.toNat with
  | 1 => .rtz
  | 2 => .rdn
  | 3 => .rup
  | 4 | 6 => .sr rnd
  | _ => .rne

/-- The mode of an operation that does not narrow: SR acts as RNE (R218, R294). -/
def exactMode (r : BitVec 3) : RMode :=
  match r.toNat with
  | 1 => .rtz
  | 2 => .rdn
  | 3 => .rup
  | _ => .rne

/-- Round m / 2^k to an integer (R218, R220). -/
def roundShift (mode : RMode) (neg : Bool) (m k : Nat) : Nat :=
  let q := m / 2 ^ k
  let r := m % 2 ^ k
  if r = 0 then q
  else
    match mode with
    | .rtz => q
    | .rdn => if neg then q + 1 else q
    | .rup => if neg then q else q + 1
    | .rne => if 2 * r < 2 ^ k then q else if 2 ^ k < 2 * r then q + 1 else q + q % 2
    | .sr rnd => if 65536 ≤ r * 65536 / 2 ^ k + rnd then q + 1 else q

/-- Round m × 2^e to the integers. -/
def roundInt (mode : RMode) (neg : Bool) (m : Nat) (e : Int) : Nat :=
  if 0 ≤ e then m * 2 ^ e.toNat else roundShift mode neg m (-e).toNat

/-- What an overflow gives: an infinity or the largest finite value. -/
inductive OverflowRule where
  /-- as IEEE 754 for the mode (R218) -/
  | ieee
  /-- the largest finite value (R218, codes 0-4) -/
  | saturate
  /-- an infinity, in E4M3 0x7F (R218, codes 5 and 6) -/
  | infinite
deriving DecidableEq, Repr

/-- The overflow rule of a narrowing operation (R218). -/
def narrowRule (r : BitVec 3) : OverflowRule := if r = 5 ∨ r = 6 then .infinite else .saturate

def overflowBits (f : Fmt) (rule : OverflowRule) (mode : RMode) (neg : Bool) : Nat :=
  match rule, mode with
  | .saturate, _ => maxBits f neg
  | .infinite, _ => infBits f neg
  | .ieee, .rtz => maxBits f neg
  | .ieee, .rdn => if neg then infBits f neg else maxBits f neg
  | .ieee, .rup => if neg then maxBits f neg else infBits f neg
  | .ieee, _ => infBits f neg

/-- Round a nonzero finite magnitude m × 2^e to a format (R219); a subnormal result is flushed when `ftz` is set
(R208). -/
def roundFin (f : Fmt) (rule : OverflowRule) (mode : RMode) (ftz neg : Bool) (m : Nat) (e : Int) : Nat × Ev :=
  if m = 0 then (signBit f neg, {})
  else
    let top : Int := e + Nat.log2 m
    let u : Int := max (top - f.fb) (1 - f.bias - f.fb)
    let q := if u ≤ e then m * 2 ^ (e - u).toNat else roundShift mode neg m (u - e).toNat
    let (q, u) := if 2 ^ (f.fb + 1) ≤ q then (q / 2, u + 1) else (q, u)
    if q < 2 ^ f.fb then (if ftz then signBit f neg else signBit f neg + q, {})
    else
      let bits := ((u + f.fb + f.bias).toNat) * 2 ^ f.fb + (q - 2 ^ f.fb)
      if bits ≤ maxBits f false then (signBit f neg + bits, {})
      else (overflowBits f rule mode neg, { ovf := true })

/-- Round an exact value; an infinity stays one, or goes where a format without infinities sends it with an overflow
(R219). -/
def roundTo (f : Fmt) (rule : OverflowRule) (mode : RMode) (ftz : Bool) (v : FV) : Nat × Ev :=
  match v with
  | .nan => (nanBits f, {})
  | .inf neg => if f.hasInf then (infBits f neg, {}) else (overflowBits f rule mode neg, { ovf := true })
  | .fin neg m e => roundFin f rule mode ftz neg m e

/-- A conversion to an integer element: clamps; NaN gives 0; NaN and infinity signal invalid only (R219). -/
def toInt (tag : BitVec 4) (mode : RMode) (v : FV) : Nat × Ev :=
  let (lo, hi) := intRange tag
  match v with
  | .nan => (0, { inv := true })
  | .inf neg => (intBits tag (if neg then lo else hi), { inv := true })
  | .fin neg m e =>
    let q : Int := roundInt mode neg m e
    let x := if neg then -q else q
    if x < lo then (intBits tag lo, { ovf := true })
    else if hi < x then (intBits tag hi, { ovf := true })
    else (intBits tag x, {})

/-- An operand as FTZ reads it: a subnormal becomes a zero of its own sign (R208). -/
def readFp (f : Fmt) (ftz : Bool) (w : Nat) : FV :=
  match decodeFp f w with
  | .fin neg m e => if ftz && decide (m < 2 ^ f.fb) then .fin neg 0 e else .fin neg m e
  | v => v

/-! ### Exact arithmetic (R207, R294) -/

/-- The integer that a finite value is at exponent `e0` or above. -/
def scaled (neg : Bool) (m : Nat) (e e0 : Int) : Int :=
  let v : Int := m * 2 ^ (e - e0).toNat
  if neg then -v else v

/-- Exact sum; a zero sum of unlike signs is +0, or −0 under RDN. `inv` marks ∞ − ∞ (R207). -/
def addFV (mode : RMode) (a b : FV) : FV × Bool :=
  match a, b with
  | .nan, _ => (.nan, false)
  | _, .nan => (.nan, false)
  | .inf x, .inf y => if x = y then (.inf x, false) else (.nan, true)
  | .inf x, _ => (.inf x, false)
  | _, .inf y => (.inf y, false)
  | .fin x m e, .fin y n d =>
    let e0 := min e d
    let s := scaled x m e e0 + scaled y n d e0
    if s = 0 then (.fin (if x = y then x else mode == .rdn) 0 0, false)
    else (.fin (decide (s < 0)) s.natAbs e0, false)

/-- Exact product; `inv` marks 0 × ∞. -/
def mulFV (a b : FV) : FV × Bool :=
  match a, b with
  | .nan, _ => (.nan, false)
  | _, .nan => (.nan, false)
  | .inf x, .inf y => (.inf (x != y), false)
  | .inf x, .fin y n _ => if n = 0 then (.nan, true) else (.inf (x != y), false)
  | .fin x m _, .inf y => if m = 0 then (.nan, true) else (.inf (x != y), false)
  | .fin x m e, .fin y n d => (.fin (x != y) (m * n) (e + d), false)

def negFV : FV → FV
  | .nan => .nan
  | .inf n => .inf (!n)
  | .fin n m e => .fin (!n) m e

/-- Order of two values that are not NaN, with −0 below +0 when `signed` is set (R294, R303). -/
def lessFV (signed : Bool) (a b : FV) : Bool :=
  match a, b with
  | .nan, _ => false
  | _, .nan => false
  | .inf x, .inf y => x && !y
  | .inf x, _ => x
  | _, .inf y => !y
  | .fin x m e, .fin y n d =>
    let e0 := min e d
    let u := scaled x m e e0
    let v := scaled y n d e0
    if u = 0 ∧ v = 0 then signed && x && !y else decide (u < v)

def isNan : FV → Bool
  | .nan => true
  | _ => false

/-- Equality of values that are not NaN; the zeros are equal (R295). -/
def sameFV (a b : FV) : Bool := !isNan a && !isNan b && !lessFV false a b && !lessFV false b a

/-- A value scaled by a power of two. -/
def scaleFV (k : Int) : FV → FV
  | .fin n m e => .fin n m (e + k)
  | v => v

/-- A finite quotient with its remainder folded into a last bit, precise enough for any format here: strictly between
two neighbours its last bit is odd, so one rounding of it is one rounding of the exact quotient. -/
def divFin (m n : Nat) (e : Int) : Nat × Int :=
  let k := 64 + Nat.log2 n
  let x := m * 2 ^ k
  (2 * (x / n) + (if x % n = 0 then 0 else 1), e - k - 1)

/-- An integer value as an exact value. -/
def ofInt (v : Int) : FV := .fin (decide (v < 0)) v.natAbs 0

/-! ### Rows of lanes (R269) -/

/-- Lane i of a row. -/
def laneAt (r : Row) (i : Nat) : BitVec 32 := field r (32 * i) 32

/-- A row from its lanes, lane 0 first. -/
def rowOf (ls : List (BitVec 32)) : Row := BitVec.ofNat 6144 (ls.foldr (fun l r => l.toNat + 2 ^ 32 * r) 0)

/-- A row from a function of its lane number. -/
def rowBy (f : Nat → BitVec 32) : Row := rowOf ((List.range 192).map f)

/-- A lane mask from a function of its lane number. -/
def lanesBy (f : Nat → Bool) : Lanes :=
  BitVec.ofNat 192 ((List.range 192).foldr (fun i r => (if f i then 1 else 0) + 2 * r) 0)

/-! ### N4X (R215) -/

/-- The four element values of a quad before the block scale; none where it is malformed (R215). Under flush-to-zero a
subnormal outlier reads as zero (R208). -/
def decodeQuad (ftz : Bool) (q : Nat) : Option (List FV) :=
  let s (k : Nat) : Nat := q / 2 ^ (4 * k) % 16
  let m (k : Nat) : Bool := s k == 8
  let int (k : Nat) : FV := ofInt (if 8 ≤ s k then (s k : Int) - 16 else s k)
  let zero : FV := .fin false 0 0
  if m 0 && m 1 then none
  else if m 0 || m 1 then
    let o := readFp e4m3 ftz (q / 256)
    some (if m 0 then [o, int 1, zero, zero] else [int 0, o, zero, zero])
  else if m 2 && m 3 then none
  else if m 2 || m 3 then
    let o := readFp e4m3 ftz (q % 256)
    some (if m 2 then [zero, zero, o, int 3] else [zero, zero, int 2, o])
  else some [int 0, int 1, int 2, int 3]

/-- An E8M0 scale applied to an element: 0xFF makes it NaN (R210). -/
def applyScale (sc : Nat) (v : FV) : FV := if sc = 255 then .nan else scaleFV ((sc : Int) - 127) v

/-! ### Random bits (R220) -/

/-- Sixteen bits of the LFSR for element k of lane i. -/
def randomBits (s : BitVec 32) (i k : Nat) : Nat :=
  (List.range 16).foldr (fun j r => (if bit s ((i + 8 * k + j) % 32) then 1 else 0) + 2 * r) 0

/-- One step of the LFSR. -/
def stepLfsr (s : BitVec 32) : BitVec 32 :=
  (s <<< 1) ||| (BitVec.ofBool (bit s 31 ^^ bit s 21 ^^ bit s 1 ^^ bit s 0)).setWidth 32

/-! ### Format tags on registers (R224) -/

/-- An operation that names format `t` may read a register tagged `u`. -/
def tagReads (u t : BitVec 4) : Bool := u == t || u == 0 || t == 0

end Sys2Proof.Machine
end

