-- ==== Sys2Proof/Machine/Matrix.lean ====
section
/-! DEFINITION. The matrix engine: the loop nest, its checks, one K-block step, retirement and the exit bank
(R221, R248-R265). -/

namespace Sys2Proof.Machine

/-! ### The configuration of an entry (R250) -/

def mmField (e : Entry) (f : Nat) : Word := cfgField 0 e.cfg f

def fmtA (e : Entry) : BitVec 4 := field (mmField e 0x09) 0 4
def fmtB (e : Entry) : BitVec 4 := field (mmField e 0x09) 4 4
def tileM (e : Entry) : Nat := (field (mmField e 0x0A) 0 8).toNat + 1
def tileN (e : Entry) : Nat := (field (mmField e 0x0A) 8 8).toNat + 1
def blockK (e : Entry) : Nat := (field (mmField e 0x0A) 16 7).toNat + 1
def retires (e : Entry) : Bool := bit (mmField e 0x0D) 0
def paired (e : Entry) : Bool := bit (mmField e 0x0C) 0
def follower (e : Entry) : Bool := bit (mmField e 0x0C) 1

def levelCount (e : Entry) (l : Nat) : Nat := (mmField e (0x10 * (l + 1))).toNat
def levelKind (e : Entry) (l : Nat) : Nat := (mmField e (0x10 * (l + 1) + 1)).toNat
def levelStride (e : Entry) (l n : Nat) : Int := (field (mmField e (0x10 * (l + 1) + n)) 0 32 : BitVec 32).toInt

/-- The nest's levels, innermost first. -/
def nestLevels : List Nat := [0, 1, 2, 3, 4, 5]

def isK (e : Entry) (l : Nat) : Bool := levelKind e l == 2

/-- base + Σ i_l × stride_l (R252). -/
def nestAt (e : Entry) (base n : Nat) : Int :=
  nestLevels.foldl (fun a l => a + (e.idx.getD l 0 : Nat) * levelStride e l n) ((mmField e base).toNat : Int)

/-- g and the accumulator tag of a pairing of formats; none where R248 has none. -/
def pairing (a b : BitVec 4) : Option (Nat × BitVec 4) :=
  let small (t : BitVec 4) : Bool := t == 4 || t == 5 || t == 6
  let int (t : BitVec 4) : Bool := t == 10 || t == 11
  let half (t : BitVec 4) : Bool := t == 2 || t == 3
  if small a && small b then some (2, 1)
  else if int a && int b then some (2, 8)
  else if half a && half b then some (1, 1)
  else if a == 7 && b == 7 then some (4, 1)
  else none

/-- One operand of an entry: tag, base, stride, whether it has scales, their base and stride, block length. -/
structure Operand where
  tag : BitVec 4
  base : Int
  ld : Nat
  scaled : Bool
  sbase : Int
  sld : Nat
  blen : Nat

def blockLen (v : BitVec 2) : Nat := 32 * 2 ^ v.toNat

def operandA (e : Entry) : Operand :=
  { tag := fmtA e, base := nestAt e 0x00 2, ld := (mmField e 0x01).toNat, scaled := bit (mmField e 0x09) 8
    sbase := nestAt e 0x04 5, sld := (mmField e 0x05).toNat, blen := blockLen (field (mmField e 0x09) 10 2) }

def operandB (e : Entry) : Operand :=
  { tag := fmtB e, base := nestAt e 0x02 3, ld := (mmField e 0x03).toNat, scaled := bit (mmField e 0x09) 9
    sbase := nestAt e 0x06 6, sld := (mmField e 0x07).toNat, blen := blockLen (field (mmField e 0x09) 12 2) }

/-- Bytes of a row or column of a K-block (R255). -/
def rowBytes (tag : BitVec 4) (kb : Nat) : Nat := kb * elemBits tag / 8

/-- Active rows, columns and K indices (R258). -/
def activeUpTo (m : Lanes) (n : Nat) : List Nat := (List.range n).filter fun i => bit m i

/-- Level indices of a step in TREC6 and TREC7 (R265, R340). -/
def withLevels (e : Entry) (t : Trap) : Trap :=
  let i (l : Nat) : BitVec 16 := BitVec.ofNat 16 (e.idx.getD l 0)
  { t with d6 := i 3 ++ i 2 ++ i 1 ++ i 0, d7 := (0 : BitVec 32) ++ i 5 ++ i 4 }

def mmTrap (code : TrapCode) (addr : Nat) : Trap := { code := code, unit := 2, addr := BitVec.ofNat 64 addr }

/-! ### The start of an entry (R248, R253, R254, R259) -/

/-- The scale rules of one operand (R254). -/
def scaleRule (o : Operand) (kb : Nat) : Bool :=
  (if o.tag = 6 ∨ o.tag = 7 then o.scaled else if o.tag = 4 ∨ o.tag = 5 then true else !o.scaled) &&
  (!o.scaled || kb % o.blen == 0) && (o.tag != 7 || kb % 4 == 0)

/-- The checks made once, when an entry starts (R253). -/
def startFault (c : Cell) (e : Entry) : Option Trap :=
  let big (l : Nat) : Bool := decide (1 < levelCount e l)
  let kProd := (nestLevels.filter (isK e)).foldl (fun p l => p * levelCount e l) 1
  let points := (nestLevels.filter fun l => !isK e l).foldl (fun p l => p * levelCount e l) 1
  if nestLevels.any (fun h => big h && isK e h && (List.range h).any fun l => big l && !isK e l) then
    some (mmTrap .matgroup 1)
  else if c.core.sr.maxk.toNat < kProd then some (mmTrap .matgroup 2)
  else if !retires e && decide (1 < points) then some (mmTrap .matgroup 3)
  else if (pairing (fmtA e) (fmtB e)).isNone then some (mmTrap .format 0)
  else if !(scaleRule (operandA e) (blockK e) && scaleRule (operandB e) (blockK e)) then some (mmTrap .format 0)
  else none

/-- An entry at its first step. -/
def startedEntry (e : Entry) : Entry :=
  { e with
    status := .running, idx := [0, 0, 0, 0, 0, 0]
    clr := match e.launch with | .goMm => true | _ => false
    retire := false, atPoint := true }

/-- Offset of the partner of a paired entry. -/
def partnerDx (e : Entry) : Int := (field (mmField e 0x0C) 2 4 : BitVec 4).toInt
def partnerDy (e : Entry) : Int := (field (mmField e 0x0C) 6 4 : BitVec 4).toInt

/-- The partner cell of a paired entry, or the fault of naming it (R89, R253 reason 7). -/
def partnerOf (s : State) (c : Cell) (e : Entry) : Except Trap Nat :=
  if (partnerDx e).natAbs + (partnerDy e).natAbs ≠ 1 then .error (mmTrap .matgroup 7)
  else
    match clusterTarget s c (partnerDx e) (partnerDy e) with
    | none => .error (mmTrap .access 0)
    | some p => .ok p

/-- Two entries are a pair's: each names the other's cell. -/
def namesBack (e f : Entry) : Bool := paired f && partnerDx f == -partnerDx e && partnerDy f == -partnerDy e

/-- The agreement a pair needs (R259). -/
def pairAgrees (e f : Entry) : Bool :=
  follower e != follower f && e.launch == f.launch && e.km == f.km && e.kk == f.kk &&
  tileM e == tileM f && blockK e == blockK f && fmtA e == fmtA f &&
  bit (mmField e 0x09) 8 == bit (mmField f 0x09) 8 &&
  (field (mmField e 0x09) 10 2 == (field (mmField f 0x09) 10 2 : BitVec 2)) &&
  mmField e 0x0D == mmField f 0x0D &&
  nestLevels.all fun l => levelCount e l == levelCount f l && levelKind e l == levelKind f l

/-- Start a single entry (R252). -/
def startAlone (s : State) (id : Nat) (c : Cell) (e : Entry) : State :=
  match startFault c e with
  | some t => engineFault s id 0 t false
  | none => setCell s id (modHead c 0 startedEntry)

/-- Start both entries of a pair at once, when both may start; a fault of one is reason 8 at the other (R259). -/
def startPair (s : State) (id : Nat) (c : Cell) (e : Entry) (p : Nat) : State :=
  match look s.cells p with
  | none => s
  | some pc =>
    match headEntry pc 0 with
    | none => s
    | some f =>
      if !(namesBack e f && startable s p pc 0 f) then s
      else
        match startFault c e, startFault pc f with
        | some t, some u => engineFault (engineFault s id 0 t false) p 0 u false
        | some t, none => engineFault (engineFault s id 0 t false) p 0 (mmTrap .matgroup 8) false
        | none, some u => engineFault (engineFault s id 0 (mmTrap .matgroup 8) false) p 0 u false
        | none, none =>
          if pairAgrees e f then
            setCell (setCell s id (modHead c 0 startedEntry)) p (modHead pc 0 startedEntry)
          else engineFault (engineFault s id 0 (mmTrap .matgroup 6) false) p 0 (mmTrap .matgroup 6) false

/-- The start of a `go.mm` or `go.mmacc` entry. -/
def startMatrix (s : State) (id : Nat) (c : Cell) (e : Entry) : State :=
  if paired e then
    match partnerOf s c e with
    | .error t => engineFault s id 0 t false
    | .ok p => startPair s id c e p
  else startAlone s id c e

/-- `go.mm` (R252). -/
def execGoMm (s : State) : Host.Outcome State Fault Refusal :=
  startEntry 0 (fun l => l == .goMm) startMatrix s

/-- `go.mmacc` (R252). -/
def execGoMmacc (s : State) : Host.Outcome State Fault Refusal :=
  startEntry 0 (fun l => l == .goMmacc) startMatrix s

/-! ### The checks of a step (R252-R256) -/

/-- Every active row lies in scratch (R255). -/
def rowsInScratch (o : Operand) (kb : Nat) (rows : List Nat) : Bool :=
  rows.all fun r =>
    let a := o.base + (r * o.ld : Nat)
    decide (0 ≤ a) && decide (a + rowBytes o.tag kb ≤ Config.scratchBytes)

/-- First scale byte outside scratch, rows and blocks in order (R254). -/
def scaleOutside (o : Operand) (kb : Nat) (rows : List Nat) : Option Int :=
  if o.scaled then
    (rows.flatMap fun r => (List.range (kb / o.blen)).map fun j => o.sbase + (r * o.sld + j : Nat)).find? fun a =>
      decide (a < 0) || decide ((Config.scratchBytes : Int) ≤ a)
  else none

/-- The group of an operand, when every active row lies in it (R255). -/
def operandGroup (o : Operand) (kb : Nat) (rows : List Nat) : Option Int :=
  let g := o.base / 0x20000
  if rows.all fun r =>
      let a := o.base + (r * o.ld : Nat)
      a / 0x20000 == g && (a + rowBytes o.tag kb - 1) / 0x20000 == g
  then some g else none

/-- First pair of active rows of one aligned set of four that meet in a bank (R256). -/
def bankClash (o : Operand) (rows : List Nat) : Option (Nat × Nat) :=
  let s := o.ld / 32
  (rows.flatMap fun a => (rows.filter fun b => a < b && a / 4 == b / 4).map fun b => (a, b)).find? fun (a, b) =>
    (b - a) * s % 32 == 0

/-- Quadrants that an MT × NT tile touches (R249, R252). -/
def touched (e : Entry) : List (Fin 4) :=
  [0] ++ (if 96 < tileN e then [1] else []) ++ (if 96 < tileM e then [2] else []) ++
  (if 96 < tileM e ∧ 96 < tileN e then [3] else [])

/-- The rows of A, columns of B and K indices that are active in an entry's step (R258). -/
def actRows (e : Entry) : List Nat := activeUpTo e.km (tileM e)
def actCols (e : Entry) : List Nat := activeUpTo e.kn (tileN e)
def actK (e : Entry) : List Nat := activeUpTo e.kk (blockK e)

/-- Tag that the accumulator takes (R248). -/
def accTag (e : Entry) : BitVec 4 :=
  match pairing (fmtA e) (fmtB e) with
  | some (_, t) => t
  | none => 1

/-- The checks before a step, in order (R253). A follower reads no A of its own (R259). -/
def stepFault (c : Cell) (e : Entry) : Option Trap :=
  let a := operandA e
  let b := operandB e
  let kb := blockK e
  let ownA := !(paired e && follower e)
  let rows := if ownA then actRows e else []
  let cols := actCols e
  if !(rowsInScratch a kb rows && rowsInScratch b kb cols) then some (mmTrap .access 0)
  else
    match (scaleOutside a kb rows).or (scaleOutside b kb cols) with
    | some x => some { code := .access, unit := 2, addr := BitVec.ofInt 64 x }
    | none =>
      let ga := operandGroup a kb rows
      let gb := operandGroup b kb cols
      if gb.isNone || (ownA && (ga.isNone || ga == gb)) then some (mmTrap .matgroup 4)
      else
        let inPresence (g : Option Int) : Bool :=
          match g with
          | some g => bit c.core.sr.pgmode g.toNat
          | none => false
        if (ownA && inPresence ga) || inPresence gb then some (mmTrap .matgroup 5)
        else
          match bankClash a rows, bankClash b cols with
          | some (x, y), _ => some (mmTrap .bankconf (x * 256 + y))
          | none, some (x, y) => some (mmTrap .bankconf (0x10000 + x * 256 + y))
          | none, none =>
            if !e.clr && (touched e).any (fun q => !tagReads c.qtag[q] (accTag e)) then some (mmTrap .format 0)
            else none

/-- The first scale byte of the step in an empty presence word: the step's read of it defers (R105, R254). -/
def emptyScale (c : Cell) (o : Operand) (kb : Nat) (rows : List Nat) : Option Nat :=
  if o.scaled then
    (rows.flatMap fun r => (List.range (kb / o.blen)).map fun j => (o.sbase + (r * o.sld + j : Nat)).toNat).find?
      (readDefers c .matrix)
  else none

/-! ### One K-block step (R221, R252, R258, R262) -/

/-- Element k of the row at `a`: its value before the scale; none where its quad is malformed (R215, R255). -/
def elemAt (m : Mem) (tag : BitVec 4) (a k : Nat) : Option FV :=
  match tag.toNat with
  | 2 | 3 => some (decodeFp (fmtOf tag) (readWord m (a + 2 * k) 2).toNat)
  | 4 | 5 => some (decodeFp (fmtOf tag) (readByte m (a + k)).toNat)
  | 7 => (decodeQuad false (readWord m (a + 2 * (k / 4)) 2).toNat).map fun q => q.getD (k % 4) (.fin false 0 0)
  | _ => some (ofInt (intOf tag (readByte m (a + k)).toNat))

/-- The elements of one K-block of a row; an inactive or malformed one is zero. -/
def rowElems (m : Mem) (o : Operand) (kb r : Nat) (ks : Lanes) : List FV :=
  (List.range kb).map fun k =>
    if bit ks k then (elemAt m o.tag (o.base + (r * o.ld : Nat)).toNat k).getD (.fin false 0 0) else .fin false 0 0

/-- Some quad that the step reads is malformed (R265). -/
def readsMalformed (m : Mem) (o : Operand) (rows ks : List Nat) : Bool :=
  o.tag == 7 && rows.any fun r => ks.any fun k => (elemAt m o.tag (o.base + (r * o.ld : Nat)).toNat k).isNone

/-- Scale code of block j of a row; 127 without scales (R221, R254). -/
def rowScale (m : Mem) (o : Operand) (r k : Nat) : Nat :=
  if o.scaled then (readByte m (o.sbase + (r * o.sld + k / o.blen : Nat)).toNat).toNat else 127

/-- The sum of g products of one K-step, exact (R221). -/
def stepSum (as bs : List FV) : FV :=
  match List.zipWith (fun a b => (mulFV a b).1) as bs with
  | [] => .fin false 0 0
  | p :: ps => ps.foldl (fun a b => (addFV .rne a b).1) p

/-- One accumulator position after a K-step: one rounding (R221, R262). -/
def accStep (tag : BitVec 4) (acc : BitVec 32) (p : FV) (sa sb : Nat) : BitVec 32 :=
  if tag = 8 then
    match p with
    | .fin n m e => acc + BitVec.ofInt 32 (scaled n m e 0)
    | _ => acc
  else
    let v := (addFV .rne (decodeFp fp32 acc.toNat) (applyScale sb (applyScale sa p))).1
    BitVec.ofNat 32 (roundTo fp32 .ieee .rne false v).1

/-- An accumulator position after all K-steps of a block, `n` steps from index k on (R262). A step with no active index
contributes nothing (R258). -/
def accBlock (tag : BitVec 4) (g : Nat) (ks : Lanes) (as bs : List FV) (sa sb : Nat → Nat) : Nat → Nat → BitVec 32 → BitVec 32
  | 0, _, acc => acc
  | n + 1, k, acc =>
    let live := (range k g).any fun i => bit ks i
    let acc' := if live then accStep tag acc (stepSum ((as.drop k).take g) ((bs.drop k).take g)) (sa k) (sb k) else acc
    accBlock tag g ks as bs sa sb n (k + g) acc'

/-- The accumulator rows and tags after one step of an entry; A stands in `mA`, B in `mB` (R252). -/
def stepRows (c : Cell) (e : Entry) (a b : Operand) (mA mB : Mem) : SMap Row :=
  let g := ((pairing a.tag b.tag).getD (1, 1)).1
  let kb := blockK e
  let keff := ((actK e).getLast?.map (· + 1)).getD 0
  let ks : Lanes := e.kk
  let cols := (actCols e).map fun j => (j, rowElems mB b kb j ks)
  (actRows e).foldl (fun rows i =>
    let as := rowElems mA a kb i ks
    let old := peek 0 c.acc i
    let new := cols.foldl (fun (ls : List (BitVec 32)) (j, bs) =>
      let start := if e.clr then 0 else laneAt old j
      setAt ls j (accBlock (accTag e) g ks as bs (rowScale mA a i) (rowScale mB b j) (ceilDiv keff g) 0 start))
      ((List.range 192).map (laneAt old))
    poke 0 rows i (rowOf new)) c.acc

/-- The next K index, and whether the K levels wrapped: innermost level fastest (R252). -/
def advanceLevels (e : Entry) : List Nat → List Nat → List Nat × Bool
  | [], idx => (idx, true)
  | l :: ls, idx =>
    let i := idx.getD l 0 + 1
    if i < levelCount e l then (setAt idx l i, false) else advanceLevels e ls (setAt idx l 0)

def kLevels (e : Entry) : List Nat := nestLevels.filter (isK e)
def pointLevels (e : Entry) : List Nat := nestLevels.filter fun l => !isK e l

/-- An entry after a step: the next K-block, or the end of its point (R252). -/
def afterStep (e : Entry) : Entry :=
  let (idx, wrapped) := advanceLevels e (kLevels e) e.idx
  let e' := { e with idx := idx, clr := false, atPoint := false }
  if !wrapped then e'
  else if retires e then { e' with retire := true }
  else { e' with status := .finished }

/-- A cell after one step of its own entry. -/
def stepCell (c : Cell) (e : Entry) (a : Operand) (mA : Mem) : Cell :=
  let b := operandB e
  let tags := if e.clr then (touched e).foldl (fun t q => t.set q (accTag e)) c.qtag else c.qtag
  let mB := engineMem c .matrix
  let bad := readsMalformed mA a (actRows e) (actK e) || readsMalformed mB b (actCols e) (actK e)
  modHead (dropServed .matrix { c with acc := stepRows c e a b mA mB, qtag := tags, malformed := c.malformed || bad }) 0 fun _ =>
    afterStep e

/-- The running entry of q0 may take a step now: not at a retirement, and not at a point where its queue is to stop
(R264). -/
def stepsNow (c : Cell) : Option Entry :=
  match runningHead c 0 with
  | some e => if e.retire || (e.atPoint && (getQueue c 0).stopped) then none else some e
  | none => none

/-- A scale byte of the step stands in an empty word: the read defers, once (R105). -/
def deferScale (s : State) (id : Nat) (c : Cell) (a : Nat) : Option State :=
  if waitsFor c .matrix a then none else some (setCell s id (deferEngine s.now .matrix a 1 c))

/-- A step's fault: the step changes nothing and is made anew when the entry runs again (R265). -/
def stepFaults (s : State) (id : Nat) (e : Entry) (t : Trap) : State :=
  engineFault (modCell s id (dropServed .matrix)) id 0 (withLevels e t) true

/-- Scratch bytes that one step of an entry reads in its own cell: its operand rows and their scales (R253-R255). -/
def stepSpans (id : Nat) (e : Entry) : List Span :=
  let rows (o : Operand) (rs : List Nat) : List Span := rs.flatMap fun r =>
    ⟨.cell id, (o.base + (r * o.ld : Nat)).toNat, rowBytes o.tag (blockK e)⟩ ::
      (if o.scaled then [⟨.cell id, (o.sbase + (r * o.sld : Nat)).toNat, blockK e / o.blen⟩] else [])
  (if follower e then [] else rows (operandA e) (actRows e)) ++ rows (operandB e) (actCols e)

/-- A step of an unpaired entry (R252, R265). -/
def stepAlone (s : State) (id : Nat) (c : Cell) (e : Entry) : Option State :=
  match stepFault c e with
  | some t => some (stepFaults s id e t)
  | none =>
    match (emptyScale c (operandA e) (blockK e) (actRows e)).or (emptyScale c (operandB e) (blockK e) (actCols e)) with
    | some a => deferScale s id c a
    | none => some (noteEngine (setCell s id (stepCell c e (operandA e) (engineMem c .matrix))) id 0 e (stepSpans id e))

/-- A step of a pair, at both cells at once: the leader's A serves both; a fault of either ends it at both (R259). -/
def stepPair (s : State) (id : Nat) (c : Cell) (e : Entry) (p : Nat) : Option State :=
  match look s.cells p with
  | none => none
  | some pc =>
    match stepsNow pc with
    | none => none
    | some f =>
      if !(namesBack e f && e.idx == f.idx) then none
      else
        let reason8 := mmTrap .matgroup 8
        match stepFault c e, stepFault pc f with
        | some t, some u => some (stepFaults (stepFaults s id e t) p f u)
        | some t, none => some (stepFaults (stepFaults s id e t) p f reason8)
        | none, some u => some (stepFaults (stepFaults s id e reason8) p f u)
        | none, none =>
          let (lc, le) := if follower e then (pc, f) else (c, e)
          let a := operandA le
          match (if follower e then none else emptyScale c a (blockK e) (actRows e)).or
              (emptyScale c (operandB e) (blockK e) (actCols e)) with
          | some x => deferScale s id c x
          | none =>
            match (if follower f then none else emptyScale pc a (blockK f) (actRows f)).or
                (emptyScale pc (operandB f) (blockK f) (actCols f)) with
            | some x => deferScale s p pc x
            | none =>
              let s1 := setCell (setCell s id (stepCell c e a (engineMem lc .matrix))) p (stepCell pc f a (engineMem lc .matrix))
              some (noteEngine (noteEngine s1 id 0 e (stepSpans id e)) p 0 f (stepSpans p f))

/-- A read of the running entry's step has timed out: the step faults, and at a partner that stands at the same step too
(R105, R259). -/
def matrixTimeOut (s : State) (id : Nat) (c : Cell) (a : Nat) : State :=
  match runningHead c 0 with
  | none => s
  | some e =>
    let s1 := stepFaults s id e { code := .deferto, unit := 2, addr := BitVec.ofNat 64 a }
    match (if paired e then (partnerOf s c e).toOption else none) with
    | none => s1
    | some p =>
      match (look s.cells p).bind fun pc => runningHead pc 0 with
      | some f => if namesBack e f && e.idx == f.idx then stepFaults s1 p f (mmTrap .matgroup 8) else s1
      | none => s1

/-- MATRIX_STEP: the running q0 entry of a cell checks and performs one K-block step (R252, R260). -/
def matrixStep (id : Nat) (s : State) : Option State :=
  match look s.cells id with
  | none => none
  | some c =>
    match stepsNow c with
    | none => none
    | some e =>
      if paired e then
        match partnerOf s c e with
        | .error _ => none
        | .ok p => stepPair s id c e p
      else stepAlone s id c e

def execMatrixStep (id : Nat) (s : State) : Host.Outcome State Fault Refusal := settle s (matrixStep id s)

/-! ### Retirement (R261, R263) -/

/-- The tokens of a retirement: MT rows, `eod1`, and `eos` after the entry's last (R263). -/
def tileTokens (c : Cell) (e : Entry) (last : Bool) : List Tok :=
  let side : BitVec 32 := BitVec.ofInt 32 (nestAt e 0x08 4)
  let live (r : Nat) : Lanes := if bit e.km r then lanesBy fun j => bit e.kn j && decide (j < tileN e) else 0
  let rows := (List.range (tileM e)).map fun r =>
    ({ data := rowBy fun j => if j < tileN e then laneAt (peek 0 c.acc r) j else 0, pred := live r, tag := 0, side := side } : Tok)
  rows ++ [{ tag := 2, side := side }] ++ (if last then [{ tag := 7, side := side }] else [])

/-- RETIREMENT: once the exit bank is empty, the point's tile is copied into it, and the next point begins or the nest
ends (R261, R263). -/
def retirement (id : Nat) (s : State) : Option State :=
  match look s.cells id with
  | none => none
  | some c =>
    match runningHead c 0 with
    | none => none
    | some e =>
      if !e.retire || !c.exitBank.isEmpty then none
      else
        let (idx, last) := advanceLevels e (pointLevels e) e.idx
        let e' := { e with
          idx := idx, clr := true, retire := false, atPoint := true
          status := if last then .finished else .running }
        some (setCell s id { modHead c 0 (fun _ => e') with exitBank := tileTokens c e last })

def execRetirement (id : Nat) (s : State) : Host.Outcome State Fault Refusal := settle s (retirement id s)

end Sys2Proof.Machine
end

