-- ==== Sys2Proof/Machine/Circuit.lean ====
section
/-! DEFINITION. The circuit plane: switch boxes, slot tables, partition time slots (R169-R174, R178-R180). A beat in
flight carries the cycle in which it stands at its box, so that its path follows the tables as R173 counts them and no
segment carries two beats in a cycle (R170). -/

namespace Sys2Proof.Machine

/-! ### Slots and their owners (R171, R178, R179) -/

/-- The slot of a device cycle (R171). All four dies count alike, from 0 in device cycle 0 (DESIGN CHOICE, assumption 59: the
manual gives no start and no phase of the counters). -/
def slotAt (cyc : Nat) : BitVec 8 := BitVec.ofNat 8 cyc

/-- The slot counter (R171). -/
def slotNow (s : State) : BitVec 8 := slotAt s.now

/-- Key of an owner map: a die, or an HBM pseudo-channel frame after the four dies. -/
def ownerKey (frame : Option Nat) (die : BitVec 2) : Nat :=
  match frame with
  | none => die.toNat
  | some f => 4 + f

def ownerMap (s : State) (key : Nat) : OwnerMap := peek {} s.owners key

/-- A frame start lies behind the pending writes of a die's map, as of a cycle (R180). HBM frames have slots of no stated
length: there any cycle after the write may be one (DESIGN CHOICE, assumption 59). -/
def frameBegun (key : Nat) (m : OwnerMap) (cyc : Nat) : Bool := 4 ≤ key || m.since / 256 < cyc / 256

/-- The writes of a map take effect (R180). -/
def applyPending (m : OwnerMap) : OwnerMap := { m with dw := m.pending.foldl (fun d (k, v) => poke 0 d k v) m.dw, pending := [] }

/-- A map as it stands in a cycle. -/
def mapAt (s : State) (key cyc : Nat) : OwnerMap :=
  let m := ownerMap s key
  if !m.pending.isEmpty && key < 4 && frameBegun key m cyc then applyPending m else m

/-- Owner of slot `k` of a map; none where it is not owned (R178). -/
def slotOwner (m : OwnerMap) (k : Nat) : Option (BitVec 4) :=
  let b : BitVec 8 := field (peek 0 m.dw (k / 8)) (8 * (k % 8)) 8
  if bit b 7 then some (field b 0 4) else none

/-- Blocks of 16 slots of a die that a partition owns, rising (R174, R178). -/
def ownedBlocks (s : State) (die : BitVec 2) (part : BitVec 4) : List Nat :=
  (List.range 16).filter fun b => slotOwner (mapAt s die.toNat s.now) (16 * b) == some part

/-! ### Switch boxes (R170-R173) -/

/-- Length of the track of an input or output code 2-13 (R171). -/
def trackLength (code : Nat) : Nat :=
  match (code - 2) % 3 with
  | 0 => 1
  | 1 => 4
  | _ => 16

/-- The code under which the far end of a track names it: the opposite side, the same length. -/
def farCode (code : Nat) : Nat := if code < 8 then code + 6 else code - 6

/-- The site at the far end of an output's track; none where the track would leave the die (R170). -/
def trackEnd (row col code : Nat) : Option (Nat × Nat) :=
  let n := trackLength code
  match (code - 2) / 3 with
  | 0 => if n ≤ row then some (row - n, col) else none
  | 1 => if col + n < 16 then some (row, col + n) else none
  | 2 => if row + n < 8 then some (row + n, col) else none
  | _ => if n ≤ col then some (row, col - n) else none

/-- A beat leaves a box on an output's track: it stands at the far box in the next cycle (R173). -/
def sendOn (f : Flying) (code : Nat) : Option Flying :=
  (trackEnd f.row f.col code).map fun (r, c) =>
    { f with row := r, col := c, input := BitVec.ofNat 4 (farCode code), cyc := f.cyc + 1 }

/-- Outputs of a slot table entry that select an input and exist (R171). -/
def selected (entry : Word) (row col : Nat) (input : BitVec 4) : List Nat :=
  (range 1 13).filter fun code =>
    field entry (4 * (code - 1)) 4 == input && (code == 1 || (trackEnd row col code).isSome)

/-- A discarded beat counts in its partition's CIRCDROP, which saturates (R172). -/
def dropBeat (s : State) (part : BitVec 4) : State :=
  modPart s part fun p => { p with circdrop := if p.circdrop = BitVec.allOnes 32 then p.circdrop else p.circdrop + 1 }

/-- Cell number of a site (R15). -/
def siteCell (die : BitVec 2) (row col : Nat) : Nat := die.toNat * 128 + row * 16 + col

/-- A beat reaches the landing buffer of a cell, or is discarded when it is full (R172). -/
def landBeat (s : State) (id : Nat) (b : Beat) : State :=
  match look s.cells id with
  | none => dropBeat s b.part
  | some c => if c.landing.length < 16 then setCell s id { c with landing := c.landing ++ [b] } else dropBeat s b.part

/-- What a box does with a beat that stands at it (R171-R173). -/
def routeBeat (s : State) (f : Flying) : State :=
  let id := siteCell f.die f.row f.col
  let slot := (slotAt f.cyc).toNat
  if slotOwner (mapAt s f.die.toNat f.cyc) slot ≠ some f.beat.part then dropBeat s f.beat.part
  else if Config.isSliceSite id then
    match sendOn f (farCode f.input.toNat) with
    | some g => { s with flying := s.flying ++ [g] }
    | none => dropBeat s f.beat.part
  else
    let entry := match look s.cells id with
      | none => 0
      | some c => peek 0 c.slotTable slot
    match selected entry f.row f.col f.input with
    | [] => dropBeat s f.beat.part
    | outs => outs.foldl (fun s code =>
        if code = 1 then landBeat s id f.beat
        else
          match sendOn f code with
          | some g => { s with flying := s.flying ++ [g] }
          | none => s) s

/-- CIRCUIT_BEAT: the i-th beat in flight reaches its box, once its cycle has come and no beat of an earlier cycle is in
flight (R172, R173). -/
def circuitBeat (i : Nat) (s : State) : Option State :=
  match s.flying[i]? with
  | none => none
  | some f =>
    if s.now < f.cyc || s.flying.any (fun g => g.cyc < f.cyc) then none
    else some (routeBeat { s with flying := s.flying.eraseIdx i } f)

def execCircuitBeat (i : Nat) (s : State) : Host.Outcome State Fault Refusal := settle s (circuitBeat i s)

/-- The LOC input of a cell's box is free in the next cycle: it takes one beat per cycle (R170). Of two store ports of a cell
the one whose turn comes first has the cycle, and the other waits (DESIGN CHOICE, assumption 59: R173 gives no order). -/
def locFree (s : State) (c : Cell) : Bool := c.injected != some (s.now + 1)

/-- A beat injected on the LOC input of a cell's box, in the cycle after the firing, uses the entry of that cycle (R173,
R309). -/
def injectBeat (s : State) (id : Nat) (b : Beat) : State :=
  { modCell s id (fun c => { c with injected := some (s.now + 1) }) with
    flying := s.flying ++ [⟨b, BitVec.ofNat 2 (dieOfCell id), rowOfCell id, colOfCell id, 1, s.now + 1⟩] }

/-- An end marker that waits enters the landing buffer once it has room (R324). -/
def admitMarkers (c : Cell) : Cell :=
  match c.markers with
  | [] => c
  | m :: ms => if c.landing.length < 16 then { c with landing := c.landing ++ [m], markers := ms } else c

/-! ### Owner maps (R180) -/

/-- The eight slots of a doubleword carry one V and one PART, which is `b`. -/
def uniformSlots (v : Word) (b : BitVec 8) : Bool := (List.range 8).all fun k => (field v (8 * k) 8 &&& 0x8F#8) == (b &&& 0x8F#8)

/-- A running or saved task of a die holds a block that the write would take away (R180). A task whose launch has been
granted the block counts from the grant on, for it runs with it (DESIGN CHOICE, assumption 59: the rule names running and saved
tasks). -/
def takesAway (s : State) (die : BitVec 2) (block : Nat) (b : BitVec 8) : Bool :=
  s.tasks.any fun (_, t) =>
    t.blocks.contains block && t.die == die &&
    !(bit b 7 && field b 0 4 == t.part)

/-- SLOT_OWNER_WRITE: a whole block of one owner; a refused write changes no byte and is reported (R180). -/
def slotOwnerWrite (frame : Option Nat) (die : BitVec 2) (offset : Nat) (bs : List Byte) (s : State) : State :=
  let size := if frame.isNone then 16 else 8
  let limit := if frame.isNone then 256 else 64
  let key := ownerKey frame die
  let dws := (List.range (bs.length / 8)).map fun i => wordOf ((bs.drop (8 * i)).take 8)
  let b := bs.headD 0
  if bs.length ≠ size ∨ offset % size ≠ 0 ∨ limit ≤ offset then refuseWrite s (field b 0 4)
  else if !(dws.all fun v => uniformSlots v b) then refuseWrite s (field b 0 4)
  else if frame.isNone && takesAway s die (offset / 16) b then refuseWrite s (field b 0 4)
  else
    let m := mapAt s key s.now
    let put1 (p : SMap Word) (i : Nat) (v : Word) : SMap Word := put p (offset / 8 + i) (v &&& 0x8F8F8F8F8F8F8F8F)
    let pending := (dws.zipIdx).foldl (fun p (v, i) => put1 p i v) m.pending
    { s with owners := put s.owners key { m with pending := pending, since := if m.pending.isEmpty then s.now else m.since } }

def execSlotOwnerWrite (frame : Option Nat) (die : BitVec 2) (offset : Nat) (bs : List Byte) (s : State) :
    Host.Outcome State Fault Refusal := settle s (ofFirmware s (some (slotOwnerWrite frame die offset bs s)))

/-- SLOT_OWNER_APPLY: the written blocks take effect at a frame start (R180). -/
def slotOwnerApply (frame : Option Nat) (die : BitVec 2) (s : State) : Option State :=
  let key := ownerKey frame die
  let m := ownerMap s key
  if m.pending.isEmpty || !frameBegun key m s.now then none
  else some { s with owners := put s.owners key (applyPending m) }

def execSlotOwnerApply (frame : Option Nat) (die : BitVec 2) (s : State) : Host.Outcome State Fault Refusal :=
  settle s (slotOwnerApply frame die s)

end Sys2Proof.Machine
end

