-- ==== Sys2Proof/Machine/Fabric.lean ====
section
/-! DEFINITION. The fabric of the collar: live halves, routes, links, room, and how tokens leave outputs and are taken
from inputs (R266-R274, R280, R289, R352). -/

namespace Sys2Proof.Machine

/-! ### Live sets (R271-R274) -/

/-- Doubleword `n` of a context's header (R273). -/
def header (h : Half) (n : Nat) : Word := readWord h.bytes (8 * n) 8

def halfUses (h : Half) (j : Nat) : Bool := bit (header h 0) j
def exitSide (h : Half) (j : Nat) : Bool := bit (header h 0) (32 + j)

/-- The live half that a strip belongs to; none where it takes no part (R271). -/
def halfOfStrip (k : Collar) (j : Nat) : Option Half :=
  let inHalf (h : Option Half) (x : Bool) : Option Half := h.filter fun h => halfUses h j && exitSide h j == x
  (inHalf k.actE false).or (inHalf k.actX true)

def programLength (h : Half) (j : Nat) : Nat := (readByte h.bytes (16 + j)).toNat

/-- Word `n` of a strip's program (R272). -/
def programWord (h : Half) (j n : Nat) : BitVec 32 := field (readWord h.bytes (0x500 + 432 * j + 4 * n) 4) 0 32

/-- Constant n of strip j in a context (R272). -/
def contextConst (h : Half) (j n : Nat) : BitVec 32 := field (readWord h.bytes (0x100 + 32 * j + 4 * n) 4) 0 32

/-- The route word of an input: input n of strip i at key 4i + n, AE at 64, BE at 65 (R272, R274). -/
def routeWord (h : Half) (key : Nat) : BitVec 32 := field (readWord h.bytes (0x300 + 4 * key) 4) 0 32

def routeOn (w : BitVec 32) : Bool := bit w 31
def routeFrom (w : BitVec 32) : Nat := (field w 24 5).toNat
def routeOut (w : BitVec 32) : Bool := bit w 23

/-- Tokens a route's latches hold: two for each box crossed and for each track between them (R268). -/
def linkCapacity (w : BitVec 32) : Nat := 2 * (2 * (field w 16 2).toNat + 1)

/-- The live route word of an input. -/
def liveRoute (k : Collar) (key : Nat) : BitVec 32 :=
  match (if key < 64 then halfOfStrip k (key / 4) else k.actE) with
  | some h => routeWord h key
  | none => 0

/-- Keys of the inputs that an output feeds; the array exit is source 16 (R268, R274). -/
def sinksOf (k : Collar) (src : Nat) (out : Bool) : List Nat :=
  (List.range 66).filter fun key =>
    let w := liveRoute k key
    routeOn w && routeFrom w == src && routeOut w == out

/-! ### Links (R268) -/

def linkAt (k : Collar) (key : Nat) : List Tok := peek [] k.links key

def setLink (k : Collar) (key : Nat) (ts : List Tok) : Collar := { k with links := poke [] k.links key ts }

/-- Every input that an output feeds has room (R268). -/
def hasRoom (k : Collar) (src : Nat) (out : Bool) : Bool :=
  (sinksOf k src out).all fun key => decide ((linkAt k key).length < linkCapacity (liveRoute k key))

/-- A token leaves an output into every input it feeds; under the Strainer it is discarded (R268, R354). -/
def sendToken (k : Collar) (src : Nat) (out : Bool) (t : Tok) : Collar :=
  if k.strainer then k else (sinksOf k src out).foldl (fun k key => setLink k key (linkAt k key ++ [t])) k

def stripAt (k : Collar) (j : BitVec 4) : Strip := k.strips[j.toNat]'j.isLt

def setStrip (k : Collar) (j : BitVec 4) (p : Strip) : Collar := { k with strips := k.strips.set j.toNat p j.isLt }

def modStrip (k : Collar) (j : BitVec 4) (f : Strip → Strip) : Collar := setStrip k j (f (stripAt k j))

/-- Tag of the place that an ordered gather holds in its output until it is performed; no unit of the manual produces it
(R270, R283). -/
def placeTag : BitVec 4 := 15

/-- Output codes: 1 o0, 2 o1 (R285). -/
def outIsO1 (o : BitVec 2) : Bool := o == 2

/-- Let the tokens of an output queue leave in order, each as its output has room (R289). `b0` and `b1` say which output
is blocked by an earlier token. -/
def drainQueue (src : Nat) : List (BitVec 2 × Tok) → Bool → Bool → Collar → Collar × List (BitVec 2 × Tok)
  | [], _, _, k => (k, [])
  | (o, t) :: ts, b0, b1, k =>
    let o1 := outIsO1 o
    if (if o1 then b1 else b0) || t.tag == placeTag || !hasRoom k src o1 then
      let (k', rest) := drainQueue src ts (b0 || !o1) (b1 || o1) k
      (k', (o, t) :: rest)
    else drainQueue src ts b0 b1 (sendToken k src o1 t)

/-- Let waiting tokens of one strip leave. -/
def drainStrip (k : Collar) (j : Nat) : Collar :=
  let jj : BitVec 4 := BitVec.ofNat 4 j
  let (k', rest) := drainQueue j (stripAt k jj).outQ false false k
  modStrip k' jj fun p => { p with outQ := rest }

/-- Tokens that reach a marked input enter the strip's skid buffer of four (R352). -/
def absorbSkid (k : Collar) (j : Nat) : Collar :=
  let jj : BitVec 4 := BitVec.ofNat 4 j
  (List.range 4).foldl (fun k n =>
    if bit (stripAt k jj).marked n then
      let ts := linkAt k (4 * j + n)
      let free := 4 - (stripAt k jj).skid.length
      let k' := setLink k (4 * j + n) (ts.drop free)
      modStrip k' jj fun p => { p with skid := p.skid ++ (ts.take free).map fun t => (BitVec.ofNat 2 n, t) }
    else k) k

/-- Let every token that has room leave, and marked inputs fill their skid buffers. -/
def settleFabric (k : Collar) : Collar :=
  let k1 := (List.range 16).foldl drainStrip k
  if k1.snapping then (List.range 16).foldl absorbSkid k1 else k1

/-! ### Inputs (R269, R280, R289, R352) -/

/-- The head token of an input: a skid token of before the cut first (R353); none while the input is marked. -/
def headToken (k : Collar) (j : BitVec 4) (n : BitVec 2) : Option Tok :=
  let p := stripAt k j
  if bit p.marked n.toNat then none
  else
    match p.skid.find? (·.1 == n) with
    | some (_, t) => some t
    | none => (linkAt k (4 * j.toNat + n.toNat)).head?

/-- Remove the first skid token of an input. -/
def dropSkid (n : BitVec 2) : List (BitVec 2 × Tok) → List (BitVec 2 × Tok)
  | [] => []
  | (m, t) :: ts => if m = n then ts else (m, t) :: dropSkid n ts

/-- Constants after a `cfg` token (R280). -/
def applyCfg (t : Tok) (w : Vector (BitVec 32) 8) : Vector (BitVec 32) 8 :=
  Vector.ofFn fun i : Fin 8 => if bit t.pred i.val then laneAt t.data i.val else w[i.val]

/-- What the consumption of a token does to its strip: it opens or closes the input's stream, and an `eos` lets the
input's waiting `cfg` tokens take effect (R280). -/
def noteToken (n : BitVec 2) (t : Tok) (p : Strip) : Strip :=
  let m : BitVec 4 := 1#4 <<< n.toNat
  if t.tag = 0 ∨ t.tag = 1 then { p with opened := p.opened ||| m }
  else if t.tag = 7 then
    let mine := p.holder.filter (·.1 == n)
    { p with
      opened := p.opened &&& ~~~m
      holder := p.holder.filter (·.1 != n)
      w := mine.foldl (fun w (_, t) => applyCfg t w) p.w }
  else p

/-- Consume the head token of an input. -/
def takeToken (k : Collar) (j : BitVec 4) (n : BitVec 2) : Collar :=
  match headToken k j n with
  | none => k
  | some t =>
    let p := stripAt k j
    let key := 4 * j.toNat + n.toNat
    if p.skid.any (·.1 == n) then modStrip k j fun p => noteToken n t { p with skid := dropSkid n p.skid }
    else modStrip (setLink k key ((linkAt k key).drop 1)) j (noteToken n t)

/-- Put tokens on the outputs that a strip word selects (R285, R289). -/
def emitTokens (j : BitVec 4) (u : BitVec 2) (ts : List Tok) (k : Collar) : Collar :=
  let both := ts.flatMap fun t => (if bit u 0 then [(1#2, t)] else []) ++ (if bit u 1 then [(2#2, t)] else [])
  modStrip k j fun p => { p with outQ := p.outQ ++ both }

/-- Every output that a word selects has room, and no earlier token of the strip waits on it (R289). -/
def outputsFree (k : Collar) (j : BitVec 4) (u : BitVec 2) : Bool :=
  let free (o1 : Bool) : Bool := hasRoom k j.toNat o1 && (stripAt k j).outQ.all fun (o, _) => outIsO1 o != o1
  (!bit u 0 || free false) && (!bit u 1 || free true)

/-! ### Paths (R277) -/

/-- Inputs that a set of sources feeds, directly or through other strips. -/
def pathKeys (k : Collar) : Nat → List Nat → List Nat
  | 0, _ => []
  | n + 1, srcs =>
    let keys := (List.range 66).filter fun key => routeOn (liveRoute k key) && srcs.contains (routeFrom (liveRoute k key))
    let more := (keys.map (· / 4)).filter fun j => j < 16 && !srcs.contains j
    if more.isEmpty then keys else pathKeys k n (srcs ++ more.eraseDups)

/-- A strip holds nothing: no token waits, in a group, in its FIFO or at the wave sequencer. -/
def stripEmpty (k : Collar) (j : Nat) : Bool :=
  let p := stripAt k (BitVec.ofNat 4 j)
  p.group.isEmpty && p.fifo.isEmpty && p.outQ.isEmpty && p.skid.isEmpty && k.wave.buf.all fun o => o.strip != j

/-- Everything that the sources have sent along their paths to inputs that `own` names is consumed (R277). -/
def pathDrained (k : Collar) (srcs : List Nat) (own : Nat → Bool) : Bool :=
  ((pathKeys k 17 srcs).filter own).all fun key =>
    (linkAt k key).isEmpty && (64 ≤ key || stripEmpty k (key / 4))

end Sys2Proof.Machine
end

