-- ==== Sys2Proof/Machine/Collar.lean ====
section
/-! DEFINITION. The collar's contexts and queue words: checks (R279, R288), loading and switching (R275-R278), the
Strainer (R354, R355), array entry ports (R268), constant updates (R280) and snapshots (R351-R353). -/

namespace Sys2Proof.Machine

/-! ### Checks of a context (R279, R288) -/

/-- Operand codes that a strip word reads (R285, R287). -/
def stripOperands : Instr → List (BitVec 3)
  | .stripPass a _ => [a]
  | .fadd a b _ _ _ => [a, b]
  | .fsub a b _ _ _ => [a, b]
  | .fmul a b _ _ _ => [a, b]
  | .ffma a b c _ _ _ => [a, b, c]
  | .fmin a b _ _ => [a, b]
  | .fmax a b _ _ => [a, b]
  | .fabs a _ _ => [a]
  | .fneg a _ _ => [a]
  | .fcmpEq a b _ _ => [a, b]
  | .fcmpLt a b _ _ => [a, b]
  | .fcmpLe a b _ _ => [a, b]
  | .fsel a b c _ _ => [a, b, c]
  | .iadd a b _ _ _ => [a, b]
  | .isub a b _ _ _ => [a, b]
  | .iand a b _ _ => [a, b]
  | .ior a b _ _ => [a, b]
  | .ixor a b _ _ => [a, b]
  | .ishl a b _ _ => [a, b]
  | .ishr a b _ _ => [a, b]
  | .isar a b _ _ => [a, b]
  | .imin a b _ _ => [a, b]
  | .imax a b _ _ => [a, b]
  | .cvt a _ _ _ _ => [a]
  | .quant a b _ _ _ _ => [a, b]
  | .dequant a _ _ _ => [a]
  | .pk4 a _ => [a]
  | .upk4 a _ => [a]
  | .stripHdr a _ _ => [a]
  | .rcp a _ _ _ => [a]
  | .stripDiv a b _ _ _ => [a, b]
  | .sqrt a _ _ _ => [a]
  | .rsqrt a _ _ _ => [a]
  | .exp2 a _ _ _ => [a]
  | .log2 a _ _ _ => [a]
  | .tanh a _ _ _ => [a]
  | .rsum a _ _ _ _ => [a]
  | .rmax a _ _ _ _ => [a]
  | .rmin a _ _ _ _ => [a]
  | .scan a _ _ _ => [a]
  | .perm a b _ => [a, b]
  | .rot a _ _ => [a]
  | .bcast a _ _ => [a]
  | .sts a _ _ => [a]
  | .gath a _ => [a]
  | .scat a b => [a, b]
  | .dly a _ _ => [a]
  | .vwr a _ _ => [a]
  | _ => []

/-- Port inputs that a strip word reads or names in an `eos` mask (R285, R288). -/
def portInputs (i : Instr) : List Nat :=
  match i with
  | .stripEos _ _ m => (List.range 4).filter fun n => bit m n
  | _ => ((stripOperands i).filter fun a => a.toNat < 4).map (·.toNat)

/-- The visible strips whose function a word has (R266, R287). -/
def stripFunction (i : Instr) : List Nat :=
  match i with
  | .fadd .. | .fsub .. | .fmin .. | .fmax .. | .fabs .. | .fneg .. | .fcmpEq .. | .fcmpLt .. | .fcmpLe .. | .fsel ..
  | .iadd .. | .isub .. | .iand .. | .ior .. | .ixor .. | .ishl .. | .ishr .. | .isar .. | .imin .. | .imax .. => [5, 6, 7]
  | .fmul .. | .ffma .. => [8, 9]
  | .cvt .. | .quant .. | .dequant .. | .pk4 .. | .upk4 .. | .stripHdr .. => [12, 13]
  | .rcp .. | .stripDiv .. | .sqrt .. | .rsqrt .. | .exp2 .. | .log2 .. | .tanh .. => [10]
  | .rsum .. | .rmax .. | .rmin .. | .scan .. | .perm .. | .rot .. | .bcast .. => [11]
  | .lds .. | .gath .. => [0, 1, 2]
  | .sts .. | .scat .. => [3, 4]
  | .dly .. => [14]
  | .vrd .. | .vwr .. => [15]
  | _ => List.range 16

/-- A word of strip j is well formed in its context (R288). -/
def wordFits (h : Half) (j : Nat) (w : BitVec 32) : Bool :=
  match decodeStrip w with
  | .ok i => (stripFunction i).contains j && (portInputs i).all fun n => routeOn (routeWord h (4 * j + n))
  | _ => false

/-- The strips a context uses. -/
def usedStrips (h : Half) : List Nat := (List.range 16).filter (halfUses h)

/-- First malformed word: strip and word index (R288). -/
def malformedWord (h : Half) : Option (Nat × Nat) :=
  ((usedStrips h).flatMap fun j => (List.range (programLength h j)).map fun n => (j, n)).find? fun (j, n) =>
    !wordFits h j (programWord h j n)

/-- The bytes from `a` on are zero. -/
def zeroBytes (m : Mem) (a n : Nat) : Bool := m.all fun (x, _) => x < a || a + n ≤ x

/-- The AE or BE descriptor: zero fields, and for a driven port the ranges of BASE and STRIDE (R272). -/
def portFits (h : Half) (key off : Nat) : Bool :=
  let d := readWord h.bytes off 8
  let base : BitVec 20 := field d 0 20
  let stride : BitVec 20 := field d 32 20
  field d 20 12 == 0#12 && field d 52 12 == 0#12 && zeroBytes h.bytes (off + 8) 8 && base.toNat % 32 == 0 &&
  (!routeOn (routeWord h key) ||
    (decide (32 ≤ stride.toNat) && decide (stride.toNat ≤ 0xBFFE0) && stride.toNat % 32 == 0))

/-- One route word (R274, R279). -/
def routeFits (h : Half) (key : Nat) : Bool :=
  let w := routeWord h key
  let src := routeFrom w
  let entrySide := if key < 64 then !exitSide h (key / 4) else true
  field w 29 2 == 0#2 && field w 18 5 == 0#5 && decide (src ≤ 16) && !(src == 16 && routeOut w) &&
  (!routeOn w ||
    ((decide (64 ≤ key) || halfUses h (key / 4)) && (src == 16 || halfUses h src) &&
     !(src == 16 && entrySide) && !(64 ≤ key && exitSide h src)))

/-- The strip map binds each used strip to a healthy physical strip of its own: P0-P15 in their own place, P16 and P17
for any but VR0 (R267, R272). -/
def mapFits (healthy : BitVec 18) (h : Half) : Bool :=
  let phys (j : Nat) : Nat := (readByte h.bytes (0xC0 + j)).toNat
  (usedStrips h).all (fun j =>
    let p := phys j
    decide (p < 18) && bit healthy p && (p == j || (decide (16 ≤ p) && j != 15))) &&
  ((usedStrips h).map phys).eraseDups.length == (usedStrips h).length

/-- The zero bits of the uniform slot descriptors (R142). -/
def slotsFit (h : Half) : Bool :=
  (List.range 16).all fun n => field (readWord h.bytes (0x80 + 4 * n) 4) 10 14 == 0#14

/-- The zero fields, lengths and routes of a context (R272, R273, R279 reason 4). -/
def fieldsFit (h : Half) : Bool :=
  field (header h 0) 51 12 == 0#12 && field (header h 0) 16 16 == 0#16 && field (header h 1) 0 32 == 0#32 &&
  zeroBytes h.bytes 32 32 && zeroBytes h.bytes 0x60 32 && zeroBytes h.bytes 0xD0 48 && zeroBytes h.bytes 0x408 248 &&
  slotsFit h && portFits h 64 0x40 && portFits h 65 0x50 &&
  (List.range 16).all (fun j => decide (programLength h j ≤ 108) && (!halfUses h j || programLength h j != 0)) &&
  (List.range 66).all (routeFits h)

/-- The fields of a context, and its strip map on a cell (R279 reason 4). -/
def contextFits (healthy : BitVec 18) (h : Half) : Bool := fieldsFit h && mapFits healthy h

/-- Healthy physical strips of a cell (R267). -/
def healthyStrips (s : State) (id : Nat) : BitVec 18 := peek (BitVec.allOnes 18) s.fw.strips id

def illegalCheck (reason : Nat) : Trap := { code := .illegal, unit := 3, sub := 2, addr := BitVec.ofNat 64 reason }

/-- Why a context may not be loaded (R279 reasons 3 and 4, R288). -/
def contextFault (healthy : BitVec 18) (h : Half) : Option Trap :=
  if bit (header h 0) 63 = false then some (illegalCheck 3)
  else if !contextFits healthy h then some (illegalCheck 4)
  else
    match malformedWord h with
    | some (j, n) => some (illegalCheck (5 + 256 * j + 65536 * n))
    | none => none

/-! ### Loading and switching (R271, R275, R276) -/

/-- Entries of a memory within a range, counted from its start. -/
def sliceMem (m : Mem) (a n : Nat) : Mem := (m.filter fun (k, _) => a ≤ k && k < a + n).map fun (k, v) => (k - a, v)

/-- A range of a memory replaced by another memory's entries. -/
def pasteMem (m : Mem) (a n : Nat) (src : Mem) : Mem :=
  m.filter (fun (k, _) => k < a) ++ (src.filter (fun (k, _) => k < n)).map (fun (k, v) => (k + a, v)) ++
    m.filter (fun (k, _) => a + n ≤ k)

/-- A copy of a context of the store (R271). -/
def loadContext (k : Collar) (ctx : BitVec 4) : Half := { ctx := ctx, bytes := sliceMem k.store (ctx.toNat * 0x2000) 0x2000 }

/-- Every strip of a half is DONE; an empty half has always ended (R271). -/
def halfEnded (k : Collar) (h : Option Half) (x : Bool) : Bool :=
  match h with
  | none => true
  | some h => (usedStrips h).all fun j => exitSide h j != x || (stripAt k (BitVec.ofNat 4 j)).done

/-- A strip as a newly activated half starts it (R220, R271, R289, R334); its status word, and tokens still on its
outputs, stay. -/
def startStrip (h : Half) (j : Nat) (p : Strip) : Strip :=
  let seed : BitVec 32 := field (header h 1) 32 32
  { p with
    pp := 0, sc := 0, done := false
    w := Vector.ofFn fun n : Fin 8 => contextConst h j n.val
    lfsr := if seed = 0 then 1 else seed
    group := [], fifo := [], holder := [], opened := 0, gen := {}, holdUntil := 0, fault := none }

/-- Start the strips of one half. -/
def activateHalf (h : Option Half) (x : Bool) (k : Collar) : Collar :=
  match h with
  | none => k
  | some h => (usedStrips h).foldl (fun k j =>
      if exitSide h j = x then modStrip k (BitVec.ofNat 4 j) (startStrip h j) else k) k

/-- Make the shadow's entry half active. -/
def swapEntry (k : Collar) : Collar :=
  activateHalf k.shE false { k with actE := k.shE, shE := none, aeK := 0, beK := 0 }

/-- Make the shadow's exit half active. -/
def swapExit (k : Collar) : Collar := activateHalf k.shX true { k with actX := k.shX, shX := none }

/-- A half of the shadow is loaded unless it holds the context as it stands in the store (R275). -/
def loadHalf (k : Collar) (old : Option Half) (ctx : BitVec 4) : Half :=
  match old with
  | some h => if h.ctx = ctx ∧ h.stale = false then h else loadContext k ctx
  | none => loadContext k ctx

/-- A context's USE and SIDE (R273). -/
def contextUse (h : Half) : BitVec 16 × BitVec 16 := (field (header h 0) 0 16, field (header h 0) 32 16)

/-- USE and SIDE of the active set: both halves come from contexts that agree in them (R275, R279 reason 2). An empty set
uses no strip. -/
def activeUse (k : Collar) : BitVec 16 × BitVec 16 :=
  match k.actE.or k.actX with
  | some h => contextUse h
  | none => (0, 0)

/-- The swap that a running `fire` or `recfg` entry waits for (R275). -/
def trySwap (l : Launch) (k : Collar) : Option Collar :=
  match l with
  | .fire =>
    if halfEnded k k.actE false && halfEnded k k.actX true then some { swapExit (swapEntry k) with shValid := false }
    else none
  | .recfgE _ => if halfEnded k k.actE false then some { swapEntry k with shValid := false } else none
  | .recfgX _ => if halfEnded k k.actX true then some { swapExit k with shValid := false } else none
  | _ => none

/-- A running entry of q1 makes its swap once it may (R275). -/
def swapNow (c : Cell) (e : Entry) : Option Cell :=
  if e.swapped then none
  else (trySwap e.launch c.collar).map fun k =>
    modHead { c with collar := settleFabric k } 1 fun e => { e with swapped := true }

/-- Run a q1 word: its start, or, for one that waits for its swap, the swap (R242, R275). -/
def collarWord (kind : Launch → Bool) (start : State → Nat → Cell → Entry → State) (s : State) :
    Host.Outcome State Fault Refusal :=
  settle s (
    match look s.cells s.focus.cell with
    | none => none
    | some c =>
      match headEntry c 1 with
      | none => none
      | some e =>
        if !kind e.launch then none
        else if startable s s.focus.cell c 1 e then some (start s s.focus.cell c e)
        else if (runningHead c 1).isSome then (swapNow c e).map (setCell s s.focus.cell)
        else none)

/-- An entry that has started swaps at once where it may. -/
def beginSwap (s : State) (id : Nat) (c : Cell) (e : Entry) : State :=
  let c' := begin_ c 1
  setCell s id ((swapNow c' { e with status := .running }).getD c')

def startFire (s : State) (id : Nat) (c : Cell) (e : Entry) : State :=
  if c.collar.shValid then beginSwap s id c e else engineFault s id 1 (illegalCheck 1) false

/-- `fire` (R275, R279 reason 1). -/
def execFire (s : State) : Host.Outcome State Fault Refusal := collarWord (fun l => l == .fire) startFire s

def startArm (s : State) (id : Nat) (c : Cell) (e : Entry) : State :=
  match e.launch with
  | .arm ctx =>
    let h := loadContext c.collar ctx
    match contextFault (healthyStrips s id) h with
    | some t => engineFault s id 1 t false
    | none => setCell s id (finishHead { c with collar := { c.collar with shE := some h, shX := some h, shValid := true } } 1)
  | _ => s

/-- `arm` (R275, R279, R288). -/
def execCollarArm (s : State) : Host.Outcome State Fault Refusal :=
  collarWord (fun l => match l with | .arm _ => true | _ => false) startArm s

/-- Start a `recfg`: reasons 2 to 5, then the load of one half of the shadow (R275, R279). -/
def startRecfg (exit : Bool) (s : State) (id : Nat) (c : Cell) (e : Entry) : State :=
  let run (ctx : BitVec 4) : State :=
    let h := loadContext c.collar ctx
    if contextUse h ≠ activeUse c.collar then engineFault s id 1 (illegalCheck 2) false
    else
      match contextFault (healthyStrips s id) h with
      | some t => engineFault s id 1 t false
      | none =>
        let k := c.collar
        let k' := if exit then { k with shX := some (loadHalf k k.shX ctx) } else { k with shE := some (loadHalf k k.shE ctx) }
        beginSwap s id { c with collar := k' } e
  match e.launch with
  | .recfgE ctx => run ctx
  | .recfgX ctx => run ctx
  | _ => s

/-- `recfg.e` (R275). -/
def execRecfgE (s : State) : Host.Outcome State Fault Refusal :=
  collarWord (fun l => match l with | .recfgE _ => true | _ => false) (startRecfg false) s

/-- `recfg.x` (R275). -/
def execRecfgX (s : State) : Host.Outcome State Fault Refusal :=
  collarWord (fun l => match l with | .recfgX _ => true | _ => false) (startRecfg true) s

/-- The range of an `xctx` touches a group in presence mode (R278). -/
def touchesPresence (c : Cell) (a n : Nat) : Bool := presenceMode c a || presenceMode c (a + n - 1)

def markStale (ctx : BitVec 4) (h : Option Half) : Option Half :=
  h.map fun h => if h.ctx = ctx then { h with stale := true } else h

def startXctx (s : State) (id : Nat) (c : Cell) (e : Entry) : State :=
  match e.launch with
  | .xctx addr ctx save =>
    let a := addr.toNat
    let at_ := ctx.toNat * 0x2000
    if touchesPresence c a 0x2000 then
      engineFault s id 1 { code := .access, unit := 3 } false
    else if save then
      noteEngine (setCell s id (finishHead
        (modMem c fun m => { m with scratch := pasteMem m.scratch a 0x2000 (sliceMem c.collar.store at_ 0x2000) }) 1))
        id 1 e [⟨.cell id, a, 0x2000⟩]
    else
      let k := c.collar
      let k' := { k with
        store := pasteMem k.store at_ 0x2000 (sliceMem c.mem.scratch a 0x2000)
        shE := markStale ctx k.shE, shX := markStale ctx k.shX }
      noteEngine (setCell s id (finishHead { c with collar := k' } 1)) id 1 e [⟨.cell id, a, 0x2000⟩]
  | _ => s

/-- `xctx` (R275, R278). -/
def execXctx (s : State) : Host.Outcome State Fault Refusal :=
  collarWord (fun l => match l with | .xctx _ _ _ => true | _ => false) startXctx s

/-! ### The Strainer (R344, R354, R355) -/

/-- Entries of a queue end as discarded: productions become done, phase items are uncounted (R344). -/
def discardList (s : State) (id : Nat) (es : List Entry) : State :=
  let s' := (es.flatMap (·.phase.toList)).foldl (fun s ph => countPhase s ph false) s
  modCell s' id fun c => { c with core := es.foldl (fun k e => productionDone e.tok k) c.core }

/-- The first `strain` entry of q1 that a handler issued, with the entries before and after it (R355). -/
def splitStrain : List Entry → Option (List Entry × Entry × List Entry)
  | [] => none
  | e :: es =>
    if e.launch = .strain ∧ e.hm then some ([], e, es)
    else (splitStrain es).map fun (b, x, a) => (e :: b, x, a)

/-- q1 holds a faulted entry: one that stopped at its own check, or one whose strips or ports stand at a fault (R332,
R344). -/
def q1Faulted (c : Cell) (h : Entry) : Bool :=
  match h.status with
  | .faulted _ _ => true
  | .running => collarFaulted c.collar
  | _ => false

/-- `strain` issued in a handler behind a faulted entry starts at once and discards the entries that q1 held when it was
issued (R355). -/
def strainAhead (s : State) (id : Nat) (c : Cell) : Option State :=
  match headEntry c 1 with
  | none => none
  | some h =>
    match splitStrain (getQueue c 1).entries with
    | some (held, e, later) =>
      if !c.core.hm || !q1Faulted c h || !enginesRun c then none
      else
        let s' := discardList s id held
        some (modCell s' id fun c =>
          strainCell (setQueue c 1 { getQueue c 1 with entries := { e with status := .running } :: later, stopped := false }))
    | none => none

/-- `strain` (R354). -/
def execStrain (s : State) : Host.Outcome State Fault Refusal :=
  settle s (
    match look s.cells s.focus.cell with
    | none => none
    | some c =>
      match strainAhead s s.focus.cell c with
      | some t => some t
      | none =>
        match headEntry c 1 with
        | some e =>
          if e.launch = .strain ∧ startable s s.focus.cell c 1 e then
            some (setCell s s.focus.cell (strainCell (begin_ c 1)))
          else none
        | none => none)

/-- An empty active set, an invalid shadow, DONE cleared, the status words kept (R354). -/
def releaseStrainer (k : Collar) : Collar :=
  { k with
    strainer := false, actE := none, actX := none, shE := none, shX := none, shValid := false, links := []
    strips := mapAll (fun p => { p with done := false }) k.strips }

/-- STRAINER_RELEASE: the collar is empty and q0 has no retirement in progress (R354). -/
def strainerRelease (id : Nat) (s : State) : Option State :=
  match look s.cells id with
  | none => none
  | some c =>
    let busy := !c.exitBank.isEmpty || (match headEntry c 0 with | some e => e.retire | none => false)
    if !c.collar.strainer || busy || !enginesRun c then none
    else
      let c' := { c with collar := releaseStrainer c.collar }
      some (setCell s id (match runningHead c' 1 with
        | some e => if e.launch = .strain then finishHead c' 1 else c'
        | none => c'))

def execStrainerRelease (id : Nat) (s : State) : Host.Outcome State Fault Refusal := settle s (strainerRelease id s)

/-! ### The array exit (R261, R263, R268, R276) -/

/-- CX sends its marker of a snapshot: behind the retirement in progress, where the matrix engine has stopped (R264,
R351). -/
def exitSnap (id : Nat) (c : Cell) (s : State) : Option State :=
  let k := c.collar
  if !(k.snapping && !k.cxSnapped && atStop c 0 && hasRoom k 16 false) then none
  else some (setCell s id { c with collar := { settleFabric (sendToken k 16 false { tag := 9 }) with cxSnapped := true } })

/-- EXIT_BANK_EMIT: CX emits the next token of the exit bank into the exit half, when that half routes CX and has room;
under the Strainer it discards it (R276, R354). With the bank empty it may send its snapshot marker (R351). -/
def exitBankEmit (id : Nat) (s : State) : Option State :=
  match look s.cells id with
  | none => none
  | some c =>
    match c.exitBank with
    | [] => if enginesRun c then exitSnap id c s else none
    | t :: ts =>
      let k := c.collar
      if !enginesRun c then none
      else if k.strainer then some (setCell s id { c with exitBank := ts })
      else if (sinksOf k 16 false).isEmpty || !hasRoom k 16 false then none
      else
        some (setCell s id { c with exitBank := ts, collar := settleFabric (sendToken k 16 false t) })

def execExitBankEmit (id : Nat) (s : State) : Host.Outcome State Fault Refusal := settle s (exitBankEmit id s)

/-! ### Writes by ports (R104, R268, R311) -/

/-- Store bytes at addresses in one step: the words written become full and their deferred reads complete (R104, R308). -/
def storePlaces (s : State) (id : Nat) (ws : List (Nat × List Byte)) : State :=
  match look s.cells id with
  | none => s
  | some c =>
    let touchedWords := ws.flatMap fun (a, bs) => (range a bs.length).map wordIdx
    let filled := touchedWords.filter fun w => isEmpty c (32 * w)
    let c' := modMem c fun m =>
      { m with
        scratch := ws.foldl (fun m (a, bs) => writeBytes m a bs) m.scratch
        empty := m.empty.filter fun w => !filled.contains w }
    completeReads (setCell s id c') id fun w => filled.contains w

/-- The lanes of a token at ascending 4-byte positions from `a` on: live lanes below `n` (R268, R308). -/
def laneWrites (t : Tok) (a : Int) (n : Nat) : List (Int × List Byte) :=
  ((List.range n).filter fun j => bit t.pred j).map fun (j : Nat) =>
    (a + (4 * j : Nat), bytesOf (laneAt t.data j).toNat 4)

/-- First address of a list of lane accesses that leaves scratch (R268, R306). -/
def firstOutside (ws : List (Int × List Byte)) : Option Int :=
  (ws.map (·.1)).find? fun a => decide (a < 0) || decide ((Config.scratchBytes : Int) < a + 4)

/-- First address whose write would meet a full presence word (R104, R311). -/
def firstFull (c : Cell) (ws : List (Int × List Byte)) : Option Int :=
  (ws.map (·.1)).find? fun a => meetsFull c a.toNat || meetsFull c (a.toNat + 3)

/-- Writes of a port of the collar, by its input's key: of the q0 entry where CX's tokens reach it, else of the q1 entry that
activated it (R277). -/
def notePort (s : State) (id : Nat) (key : Nat → Bool) (spans : List Span) : State :=
  match look s.cells id with
  | some c => noteHead s id (if (pathKeys c.collar 17 [16]).any key then 0 else 1) spans
  | none => s

/-- Four-byte places as debug mode notes them. -/
def laneSpans (id : Nat) (as : List Int) : List Span := as.map fun a => ⟨.cell id, a.toNat, 4⟩

/-- AE_BE_WRITE: an array entry port takes its next token (R268). -/
def aeBeWrite (id : Nat) (be : Bool) (s : State) : Option State :=
  match look s.cells id with
  | none => none
  | some c =>
    let k := c.collar
    let key := if be then 65 else 64
    match k.actE, linkAt k key with
    | some h, t :: ts =>
      let n := if be then k.beK else k.aeK
      let setK (k : Collar) (n : Nat) : Collar := if be then { k with beK := n } else { k with aeK := n }
      let took := settleFabric (setLink k key ts)
      let stood := if be then k.beFault else k.aeFault
      let fault (code : TrapCode) (sub : BitVec 2) (a : Int) : Option State :=
        let tr : Trap := { code := code, unit := 3, sub := sub, addr := BitVec.ofInt 64 a,
                           d6 := BitVec.ofNat 64 (n % 2 ^ 32) ||| (if be then 1#64 <<< 32 else 0) }
        let k' := if be then { k with beFault := some tr } else { k with aeFault := some tr }
        some (raise (setCell s id { c with collar := k' }) id tr)
      let go (k : Collar) : Option State := some (setCell s id { c with collar := k })
      if !enginesRun c || k.strainer || stood.isSome || (if be then k.beMarked else k.aeMarked) then none
      else
        match t.tag.toNat with
        | 0 =>
          let d := readWord h.bytes (if be then 0x50 else 0x40) 8
          let a : Int := ((field d 0 20 : BitVec 20).toNat + n * (field d 32 20 : BitVec 20).toNat : Nat)
          let ws := laneWrites t a 192
          (match firstOutside ws, firstFull c ws with
          | some x, _ => fault .access 0 x
          | none, some x => fault .presence 0 x
          | none, none =>
            let s' := notePort (storePlaces s id (ws.map fun (a, b) => (a.toNat, b))) id (· == key) (laneSpans id (ws.map (·.1)))
            some (modCell s' id fun c => { c with collar := setK took (n + 1) }))
        | 2 | 3 | 4 | 5 | 6 => go took
        | 7 => go (setK took 0)
        | 9 =>
          go (if k.snapping then (if be then { took with beMarked := true } else { took with aeMarked := true }) else took)
        | _ => fault .stripinv 2 0
    | _, _ => none

def execAeBeWrite (id : Nat) (be : Bool) (s : State) : Host.Outcome State Fault Refusal := settle s (aeBeWrite id be s)

/-! ### Constant updates (R280) -/

/-- A strip faults: it stops at its word, and the trap goes to the cell (R293, R332). -/
def stripFault (s : State) (id : Nat) (c : Cell) (j : BitVec 4) (t : Trap) : State :=
  let t' := { t with unit := 4, strip := j, widx := BitVec.ofNat 7 (stripAt c.collar j).pp }
  raise (setCell s id { c with collar := modStrip c.collar j fun p => { p with fault := some t' } }) id t'

/-- The strip takes part and may act: engines run, no Strainer, not DONE, no fault, not recorded (R289, R292, R352). -/
def stripLive (c : Cell) (j : BitVec 4) : Bool :=
  let p := stripAt c.collar j
  enginesRun c && !c.collar.strainer && (halfOfStrip c.collar j.toNat).isSome && !p.done && p.fault.isNone && !p.recorded

/-- CFG_TOKEN: a `cfg` token at the head of an input takes effect at once, or waits in the holder until the open stream
ends; a ninth waiting one faults (R280). -/
def cfgToken (id : Nat) (j : BitVec 4) (n : BitVec 2) (s : State) : Option State :=
  match look s.cells id with
  | none => none
  | some c =>
    match headToken c.collar j n with
    | none => none
    | some t =>
      if t.tag ≠ 8 || !stripLive c j then none
      else
        let p := stripAt c.collar j
        let k := takeToken c.collar j n
        if bit p.opened n.toNat then
          if 8 ≤ p.holder.length then some (stripFault s id c j { code := .stripinv, unit := 4, sub := 2 })
          else some (setCell s id { c with collar := settleFabric (modStrip k j fun p => { p with holder := p.holder ++ [(n, t)] }) })
        else some (setCell s id { c with collar := settleFabric (modStrip k j fun p => { p with w := applyCfg t p.w }) })

def execCfgToken (id : Nat) (j : BitVec 4) (n : BitVec 2) (s : State) : Host.Outcome State Fault Refusal :=
  settle s (cfgToken id j n s)

/-! ### Snapshots (R351-R353) -/

/-- A `snap` marker. -/
def snapTok : Tok := { tag := 9 }

/-- A strip records its state: it fires no more and sends a marker on every routed output, behind its earlier tokens
(R352). -/
def recordStrip (j : BitVec 4) (k : Collar) : Collar :=
  let outs : List (BitVec 2 × Tok) :=
    (if (sinksOf k j.toNat false).isEmpty then [] else [(1, snapTok)]) ++
    (if (sinksOf k j.toNat true).isEmpty then [] else [(2, snapTok)])
  modStrip k j fun p => { p with recorded := true, outQ := p.outQ ++ outs }

/-- The word at a strip's program pointer. -/
def stripWord (k : Collar) (j : BitVec 4) : Option Instr :=
  match halfOfStrip k j.toNat with
  | none => none
  | some h =>
    match decodeStrip (programWord h j.toNat (stripAt k j).pp) with
    | .ok i => some i
    | _ => none

/-- A source stands at a boundary: its next word reads no input, and its stream, if open, has finished a dimension-1 run
(R351). A DONE strip is recorded as it stands. -/
def snapsNow (k : Collar) (j : BitVec 4) : Bool :=
  let p := stripAt k j
  (halfOfStrip k j.toNat).isSome && (p.done ||
    match stripWord k j with
    | some i => (portInputs i).isEmpty && (!p.gen.open_ || p.gen.i1 == 0)
    | none => true)

/-- The routed inputs of a strip. -/
def routedInputs (k : Collar) (j : Nat) : List Nat := (List.range 4).filter fun n => routeOn (liveRoute k (4 * j + n))

/-- SNAPSHOT_REQUEST: a cell whose collar entry is to stop is cut: sources at a boundary emit their markers, an LD port
within a run at the end of it, the array exit behind the retirement in progress (R351). A collar that stands at a fault is the
faulting engine: it is not cut, and its other strips go on (R332, R343). -/
def snapshotRequest (id : Nat) (s : State) : Option State :=
  match look s.cells id with
  | none => none
  | some c =>
    if c.collar.snapping || c.collar.strainer || !(getQueue c 1).stopped || !enginesRun c || (runningHead c 1).isNone ||
        collarFaulted c.collar then none
    else
      let k := { c.collar with snapping := true }
      let cx := !(sinksOf k 16 false).isEmpty
      let k' := (List.range 16).foldl (fun k j =>
        let jj : BitVec 4 := BitVec.ofNat 4 j
        if snapsNow k jj then recordStrip jj k else k) k
      some (setCell s id { c with collar := settleFabric { k' with cxSnapped := !cx } })

def execSnapshotRequest (id : Nat) (s : State) : Host.Outcome State Fault Refusal := settle s (snapshotRequest id s)

/-- SNAP_MARKER: a marker at the head of an input marks it; a strip whose routed inputs are all marked records (R352). A
marker that arrives after the cut is only consumed. -/
def snapMarker (id : Nat) (j : BitVec 4) (n : BitVec 2) (s : State) : Option State :=
  match look s.cells id with
  | none => none
  | some c =>
    match headToken c.collar j n with
    | none => none
    | some t =>
      if t.tag ≠ 9 || !enginesRun c then none
      else
        let k := takeToken c.collar j n
        if !k.snapping then some (setCell s id { c with collar := settleFabric k })
        else
          let k1 := modStrip k j fun p => { p with marked := p.marked ||| (1#4 <<< n.toNat) }
          let p := stripAt k1 j
          let all := (routedInputs k1 j.toNat).all fun i => bit p.marked i
          some (setCell s id { c with collar := settleFabric (if all && !p.recorded then recordStrip j k1 else k1) })

def execSnapMarker (id : Nat) (j : BitVec 4) (n : BitVec 2) (s : State) : Host.Outcome State Fault Refusal :=
  settle s (snapMarker id j n s)

/-- SNAPSHOT_COMPLETE: every used strip and both array entry ports have finished (R353). -/
def snapshotComplete (id : Nat) (s : State) : Option State :=
  match look s.cells id with
  | none => none
  | some c =>
    let k := c.collar
    let strips := (List.range 16).all fun j =>
      (halfOfStrip k j).isNone || (stripAt k (BitVec.ofNat 4 j)).recorded
    let ports := (k.aeMarked || !routeOn (liveRoute k 64)) && (k.beMarked || !routeOn (liveRoute k 65))
    if k.snapping && !k.snapDone && strips && ports && k.cxSnapped then
      some (setCell s id { c with collar := { k with snapDone := true } })
    else none

def execSnapshotComplete (id : Nat) (s : State) : Host.Outcome State Fault Refusal := settle s (snapshotComplete id s)

end Sys2Proof.Machine
end

