-- ==== Sys2Proof/Machine/Flags.lean ====
section
/-! DEFINITION. Strip events and status: which lanes signal, when an event traps, and the sticky flags (R219, R293). -/

namespace Sys2Proof.Machine

/-- TRAPEN of a half: division by zero, invalid, overflow (R273). -/
def trapsDz (h : Half) : Bool := bit (header h 0) 48
def trapsInv (h : Half) : Bool := bit (header h 0) 49
def trapsOvf (h : Half) : Bool := bit (header h 0) 50

/-- A strip trap that reports the lanes of an event (R293, R340). -/
def laneTrap (code : TrapCode) (sub : BitVec 2) (m : Lanes) : Trap :=
  { code := code, unit := 4, sub := sub, addr := field m 0 64, d6 := field m 64 64, d7 := field m 128 64 }

/-- STRIPINV for any other cause than an event (R339). -/
def stripInvalid : Trap := { code := .stripinv, unit := 4, sub := 2 }

/-- FORMAT at a strip. -/
def stripFormat : Trap := { code := .format, unit := 4 }

/-- Lanes in which an event arose. -/
def eventLanes (evs : List Ev) (f : Ev → Bool) : Lanes := lanesBy fun i => f (evs.getD i {})

/-- The trap that the events of a firing raise: division by zero first, then invalid, then overflow (R293). -/
def eventTrap (h : Half) (evs : List Ev) : Option Trap :=
  if trapsDz h && evs.any (·.dz) then some (laneTrap .stripdz 0 (eventLanes evs (·.dz)))
  else if trapsInv h && evs.any (·.inv) then some (laneTrap .stripinv 0 (eventLanes evs (·.inv)))
  else if trapsOvf h && evs.any (·.ovf) then some (laneTrap .stripinv 1 (eventLanes evs (·.ovf)))
  else none

/-- The sticky flags after events that did not trap (R293). -/
def noteEvents (evs : List Ev) (p : Strip) : Strip :=
  { p with
    dzf := p.dzf || evs.any (·.dz)
    invf := p.invf || evs.any (·.inv)
    ovff := p.ovff || evs.any (·.ovf) }

/-- DISPLACED saturates at 2^32 − 1 (R293). -/
def addDisplaced (n : Nat) (p : Strip) : Strip :=
  { p with displaced := BitVec.ofNat 32 (min (2 ^ 32 - 1) (p.displaced.toNat + n)) }

/-- A strip's status word (R293). -/
def statusWord (p : Strip) : Word :=
  p.displaced ++ (0 : BitVec 27) ++ BitVec.ofBool p.malf ++ BitVec.ofBool p.ovff ++ BitVec.ofBool p.invf ++
    BitVec.ofBool p.dzf ++ (0 : BitVec 1)

end Sys2Proof.Machine
end

