-- ==== Sys2Proof/Machine/Special.lean ====
section
/-! DEFINITION. SF0's functions: the exact mathematical result of an element, rounded once (R302). Quotients and roots are
exact with a sticky bit. The transcendental functions are enclosed between two numbers of 700 binary places; where both
round alike, so does the value between them (assumption 20 covers the rest). -/

namespace Sys2Proof.Machine

/-! ### Enclosures: a pair (lo, hi) of multiples of 2^−700 -/

def places : Nat := 700

/-- Bounds of a value in units of 2^−700. -/
structure Bounds where
  lo : Nat
  hi : Nat

def Bounds.exact (n : Nat) : Bounds := ⟨n, n⟩

def Bounds.one : Bounds := .exact (2 ^ places)

def Bounds.add (a b : Bounds) : Bounds := ⟨a.lo + b.lo, a.hi + b.hi⟩

/-- Difference of values of which the first is the larger. -/
def Bounds.sub (a b : Bounds) : Bounds := ⟨a.lo - b.hi, a.hi - b.lo⟩

def Bounds.mul (a b : Bounds) : Bounds := ⟨a.lo * b.lo / 2 ^ places, a.hi * b.hi / 2 ^ places + 1⟩

def Bounds.div (a b : Bounds) : Bounds := ⟨a.lo * 2 ^ places / b.hi, a.hi * 2 ^ places / b.lo + 1⟩

def Bounds.divNat (a : Bounds) (n : Nat) : Bounds := ⟨a.lo / n, a.hi / n + 1⟩

def Bounds.shiftDown (a : Bounds) (k : Nat) : Bounds := ⟨a.lo / 2 ^ k, a.hi / 2 ^ k + 1⟩

/-- z + z³/3 + z⁵/5 + … by its first terms; `t` is the power reached, `sq` the square of z. -/
def atanhFrom (sq t : Bounds) : Nat → Nat → Bounds
  | 0, _ => ⟨0, 2⟩
  | n + 1, k => (t.divNat k).add (atanhFrom sq (t.mul sq) n (k + 2))

/-- The inverse hyperbolic tangent of z ≤ 1/3: 230 terms leave less than 2^−700. -/
def atanhB (z : Bounds) : Bounds := atanhFrom (z.mul z) z 230 1

/-- ln 2 = 2 atanh(1/3). -/
def ln2B : Bounds :=
  let a := atanhB (Bounds.one.divNat 3)
  a.add a

/-- 1 + t + t²/2! + … by its first terms. -/
def expFrom (t term : Bounds) : Nat → Nat → Bounds
  | 0, _ => ⟨0, 2⟩
  | n + 1, k => term.add (expFrom t ((term.mul t).divNat k) n (k + 1))

/-- e^t for t < 1: 160 terms leave less than 2^−700. -/
def expB (t : Bounds) : Bounds := expFrom t .one 160 1

/-- 2^f for 0 ≤ f < 1. -/
def pow2B (f : Bounds) : Bounds := expB (f.mul ln2B)

/-- The natural logarithm of y, 1 ≤ y < 2. -/
def lnB (y : Bounds) : Bounds :=
  let a := atanhB ((y.sub .one).div (y.add .one))
  a.add a

/-! ### Rounding an enclosed value -/

/-- A value strictly inside its bounds, times 2^e: rounded when both ends round alike. -/
def roundBounds (f : Fmt) (mode : RMode) (ftz neg : Bool) (b : Bounds) (e : Int) : Option (Nat × Ev) :=
  let x := roundFin f .ieee mode ftz neg (2 * b.lo + 1) (e - places - 1)
  let y := roundFin f .ieee mode ftz neg (2 * b.hi - 1) (e - places - 1)
  if x = y then some x else none

/-- A number m × 2^e below 1 as a multiple of 2^−700, exact for the operands met here. -/
def asPlaces (m : Nat) (e : Int) : Nat :=
  if 0 ≤ e + places then m * 2 ^ (e + places).toNat else m / 2 ^ (-(e + places)).toNat

/-! ### The functions (R302) -/

/-- The result of a special function and its events. -/
abbrev Special := Nat × Ev

/-- A free value of a fixed result per element where the enclosure leaves two candidates (assumption 20). -/
def tieOr (fn : Nat) (f : Fmt) (w : Nat) (r : BitVec 3) (x : Option Special) : Special :=
  x.getD ((Config.specialTie fn (BitVec.ofNat 32 w) r).toNat % 2 ^ (f.eb + f.fb + 1), {})

def nanOf (f : Fmt) (inv : Bool) : Special := (nanBits f, { inv := inv })

/-- `div`, and `rcp` as 1 / b (R302). -/
def divSpecial (f : Fmt) (mode : RMode) (ftz : Bool) (a b : FV) : Special :=
  match a, b with
  | .nan, _ => nanOf f false
  | _, .nan => nanOf f false
  | .inf _, .inf _ => nanOf f true
  | .inf x, .fin y _ _ => (infBits f (x != y), {})
  | .fin x _ _, .inf y => (signBit f (x != y), {})
  | .fin x m e, .fin y n d =>
    if n = 0 then (if m = 0 then nanOf f true else (infBits f (x != y), { dz := true }))
    else if m = 0 then (signBit f (x != y), {})
    else
      let (q, k) := divFin m n (e - d)
      roundFin f .ieee mode ftz (x != y) q k

/-- The root of m × 2^e, as a number whose last bit is odd unless it is exact. -/
def rootFin (m : Nat) (e : Int) : Nat × Int :=
  let k : Nat := 200 + (e % 2).toNat
  let x := m * 2 ^ k
  let q := Nat.sqrt x
  (2 * q + (if q * q = x then 0 else 1), (e - k) / 2 - 1)

/-- `sqrt` (R302). -/
def sqrtSpecial (f : Fmt) (mode : RMode) (ftz : Bool) (a : FV) : Special :=
  match a with
  | .nan => nanOf f false
  | .inf neg => if neg then nanOf f true else (infBits f false, {})
  | .fin neg m e =>
    if m = 0 then (signBit f neg, {})
    else if neg then nanOf f true
    else
      let (q, k) := rootFin m e
      roundFin f .ieee mode ftz false q k

/-- `rsqrt`: the root of the reciprocal (R302). The root of 2^2k / m is taken on whole numbers, its last bit odd unless
it is exact. -/
def rsqrtSpecial (f : Fmt) (mode : RMode) (ftz : Bool) (a : FV) : Special :=
  match a with
  | .nan => nanOf f false
  | .inf neg => if neg then nanOf f true else (0, {})
  | .fin neg m e =>
    if m = 0 then (infBits f neg, { dz := true })
    else if neg then nanOf f true
    else
      let odd := (e % 2).toNat
      let m' := m * 2 ^ odd
      let e' := e - odd
      let q := Nat.sqrt (2 ^ 400 / m')
      roundFin f .ieee mode ftz false (2 * q + (if q * q * m' = 2 ^ 400 then 0 else 1)) (-(e' / 2) - 200 - 1)

/-- Integer part and fraction of a finite value: floor, and the fraction in units of 2^−700. -/
def splitFin (neg : Bool) (m : Nat) (e : Int) : Int × Nat :=
  let whole := if 0 ≤ e then m * 2 ^ e.toNat else m / 2 ^ (-e).toNat
  let fr := if 0 ≤ e then 0 else asPlaces (m % 2 ^ (-e).toNat) e
  if neg then (if fr = 0 then (-(whole : Int), 0) else (-(whole : Int) - 1, 2 ^ places - fr)) else (whole, fr)

/-- `exp2` (R302). Beyond ±400 every format here overflows or rounds a value below its least subnormal. -/
def exp2Special (f : Fmt) (mode : RMode) (ftz : Bool) (a : FV) (w : Nat) (r : BitVec 3) : Special :=
  match a with
  | .nan => nanOf f false
  | .inf neg => (if neg then 0 else infBits f false, {})
  | .fin neg m e =>
    if m ≠ 0 ∧ 9 ≤ e + Nat.log2 m then roundFin f .ieee mode ftz false 1 (if neg then -400 else 400)
    else
      let (n, fr) := splitFin neg m e
      if fr = 0 then roundFin f .ieee mode ftz false 1 n
      else tieOr 0 f w r (roundBounds f mode ftz false (pow2B (.exact fr)) n)

/-- `log2` (R302). -/
def log2Special (f : Fmt) (mode : RMode) (ftz : Bool) (a : FV) (w : Nat) (r : BitVec 3) : Special :=
  match a with
  | .nan => nanOf f false
  | .inf neg => if neg then nanOf f true else (infBits f false, {})
  | .fin neg m e =>
    if m = 0 then (infBits f true, { dz := true })
    else if neg then nanOf f true
    else
      let top := Nat.log2 m
      let x : Int := e + top
      if m = 2 ^ top then roundFin f .ieee mode ftz (decide (x < 0)) x.natAbs 0
      else
        let l := (lnB (.exact (asPlaces m (-(top : Int))))).div ln2B
        let whole : Bounds := .exact (x.natAbs * 2 ^ places)
        if 0 ≤ x then tieOr 1 f w r (roundBounds f mode ftz false (whole.add l) 0)
        else tieOr 1 f w r (roundBounds f mode ftz true (whole.sub l) 0)

/-- `tanh`: (1 − u) / (1 + u) with u = 2^−(2|x| / ln 2); from 128 on it lies between 1 − 2^−300 and 1 (R302). -/
def tanhSpecial (f : Fmt) (mode : RMode) (ftz : Bool) (a : FV) (w : Nat) (r : BitVec 3) : Special :=
  match a with
  | .nan => nanOf f false
  | .inf neg => (signBit f neg + f.bias * 2 ^ f.fb, {})
  | .fin neg m e =>
    if m = 0 then (signBit f neg, {})
    else if 7 ≤ e + Nat.log2 m then roundFin f .ieee mode ftz neg (2 ^ 301 - 1) (-301)
    else
      let v := (Bounds.exact (2 * asPlaces m e)).div ln2B
      let k := v.lo / 2 ^ places
      let fr : Bounds := ⟨v.lo - k * 2 ^ places, v.hi - k * 2 ^ places⟩
      let u := (Bounds.one.div (pow2B fr)).shiftDown k
      tieOr 2 f w r (roundBounds f mode ftz neg ((Bounds.one.sub u).div (Bounds.one.add u)) 0)

end Sys2Proof.Machine
end

