-- ==== Sys2Proof/Machine/Strip.lean ====
section
/-! DEFINITION. How a strip fires a word (R286, R289-R292), and the words `pass`, `idle` and `eos` (R292, R314). -/

namespace Sys2Proof.Machine

/-- What firing a word comes to. -/
inductive Fired where
  | done (s : State)
  | wait
  | fault (t : Trap)
  /-- a fault that gives back the tokens which the firing has gathered -/
  | givesBack (c : Cell) (t : Trap)

/-- A strip that is about to fire: its cell, its half, its state. -/
structure Firing where
  s : State
  id : Nat
  c : Cell
  j : BitVec 4
  h : Half
  p : Strip

def Firing.k (v : Firing) : Collar := v.c.collar

/-- Run a word on the strip at `focus`, when the strip may act (R289, R292, R314, R348, R352). A word whose fields are no
legal word never reaches a running strip (R288). -/
def stripForm (i : Instr) (body : Firing → Fired) (s : State) : Host.Outcome State Fault Refusal :=
  settle s (
    match s.focus.unit with
    | .strip j =>
      match look s.cells s.focus.cell with
      | none => none
      | some c =>
        match halfOfStrip c.collar j.toNat with
        | none => none
        | some h =>
          let p := stripAt c.collar j
          if (illegal i).isSome || !stripLive c j || s.now < p.holdUntil then none
          else
            match body ⟨s, s.focus.cell, c, j, h, p⟩ with
            | .done t => some t
            | .wait => none
            | .fault t => some (stripFault s s.focus.cell c j t)
            | .givesBack c' t => some (stripFault (setCell s s.focus.cell c') s.focus.cell c' j t)
    | _ => none)

/-- The place of the next word, wrapping (R289). -/
def nextWord (v : Firing) : Nat := if v.p.pp + 1 < programLength v.h v.j.toNat then v.p.pp + 1 else 0

def movePP (v : Firing) (p : Strip) : Strip := { p with pp := nextWord v }

/-- The next `eos` word from PP on, wrapping (R291). -/
def nextEos (v : Firing) : Option Nat :=
  let n := programLength v.h v.j.toNat
  ((range (v.p.pp + 1) n).map (· % n)).find? fun x => field (programWord v.h v.j.toNat x) 26 6 == 2#6

/-- The collar after a firing: inputs taken, the strip changed, tokens put on the selected outputs, what has room
gone on. -/
def fireCollar (v : Firing) (ins : List Nat) (f : Strip → Strip) (u : BitVec 2) (ts : List Tok) : Collar :=
  let k1 := ins.foldl (fun k n => takeToken k v.j (BitVec.ofNat 2 n)) v.k
  settleFabric (emitTokens v.j u ts (modStrip k1 v.j f))

/-- A firing that touches nothing beyond the collar. -/
def fire (v : Firing) (ins : List Nat) (f : Strip → Strip) (u : BitVec 2) (ts : List Tok) : Fired :=
  .done (setCell v.s v.id { v.c with collar := fireCollar v ins f u ts })

/-- The token an operand names: an input's head, or a constant in every lane, all live (R285, R286). -/
def operandTok (v : Firing) (a : BitVec 3) : Option Tok :=
  if a.toNat < 4 then headToken v.k v.j (field a 0 2)
  else some { data := rowBy fun _ => v.p.w[(field a 0 2).toNat]!, pred := BitVec.allOnes 192 }

/-- The operands of a word, when every input it reads holds a token. -/
def operandToks (v : Firing) : List (BitVec 3) → Option (List Tok)
  | [] => some []
  | a :: as =>
    match operandTok v a, operandToks v as with
    | some t, some ts => some (t :: ts)
    | _, _ => none

/-- How the heads of a word's inputs read (R291). -/
inductive Heads where
  | data
  /-- one marker at every input, or `hdr` at the only one -/
  | marker
  | eos
  | mix
  /-- a `cfg` or `snap` token, which never reaches a word -/
  | control
deriving DecidableEq, Repr

def readHeads (ts : List Tok) : Heads :=
  let all (f : Tok → Bool) : Bool := ts.all f
  if ts.any fun t => t.tag == 8 || t.tag == 9 then .control
  else if all (·.tag == 0) then .data
  else if all (·.tag == 7) then .eos
  else
    match ts with
    | t :: _ =>
      if (2 ≤ t.tag.toNat && t.tag.toNat ≤ 6 && all (·.tag == t.tag)) || (t.tag == 1 && ts.length == 1) then .marker
      else .mix
    | [] => .data

/-- Heads of the inputs that a word reads, each once. -/
def inputHeads (v : Firing) (i : Instr) : List Nat × List Tok :=
  let ins := (portInputs i).eraseDups
  (ins, ins.filterMap fun n => headToken v.k v.j (BitVec.ofNat 2 n))

/-- All `eos`: nothing is consumed and PP moves to the next `eos` word (R291). -/
def skipToEos (v : Firing) : Fired :=
  match nextEos v with
  | none => .wait
  | some n => fire v [] (fun p => { p with pp := n }) 0 []

/-- A compute word (R291): on data it runs `f` over its operand tokens; a marker passes; `eos` moves PP. -/
def computeWord (i : Instr) (u : BitVec 2) (f : Firing → List Nat → List Tok → Fired) : State → Host.Outcome State Fault Refusal :=
  stripForm i fun v =>
    let (ins, heads) := inputHeads v i
    match operandToks v (stripOperands i) with
    | none => .wait
    | some ops =>
      match readHeads heads with
      | .control => .wait
      | .eos => skipToEos v
      | .mix => .fault stripInvalid
      | .marker => if outputsFree v.k v.j u then fire v ins (fun p => p) u (heads.take 1) else .wait
      | .data => if outputsFree v.k v.j u then f v ins ops else .wait

/-- The output predicate: live where every input read is live; constants count as live (R290). -/
def andPred (ts : List Tok) : Lanes := ts.foldl (fun m t => m &&& t.pred) (BitVec.allOnes 192)

/-- A `dat` token that follows its operand a in SIDE and ORD (R269). -/
def dataTok (like : Tok) (data : Row) (pred : Lanes) : Tok := { data := data, pred := pred, tag := 0, side := like.side, ord := like.ord }

/-- A word that computes each lane from the same lane of its operands, dead lanes carrying zero (R290, R293). -/
def lanesWord (i : Instr) (u : BitVec 2) (f : Firing → Nat → List (BitVec 32) → BitVec 32 × Ev) :
    State → Host.Outcome State Fault Refusal :=
  computeWord i u fun v ins ops =>
    let pred := andPred ops
    let out := (List.range 192).map fun n => if bit pred n then f v n (ops.map fun t => laneAt t.data n) else (0, {})
    let evs := out.map (·.2)
    match eventTrap v.h evs with
    | some t => .fault t
    | none =>
      fire v ins (fun p => noteEvents evs (movePP v p)) u [dataTok (ops.headD {}) (rowOf (out.map (·.1))) pred]

/-- Combine the elements of a lane one by one (R213). -/
def elementwise (tag : BitVec 4) (ls : List (BitVec 32)) (f : List Nat → Nat × Ev) : BitVec 32 × Ev :=
  let rs := (List.range (perLane tag)).map fun k => f (ls.map fun l => elemOf tag l k)
  (laneOf tag (rs.map (·.1)), rs.foldl (fun e r => e.or r.2) {})

/-- Flush-to-zero of the strip's half: FTZ bit i for context i (R208, R334). -/
def flushes (v : Firing) : Bool := bit v.c.core.sr.ftz v.h.ctx.toNat

/-! ### pass, idle, eos (R292, R314) -/

/-- `pass` copies a token of any kind; an `eos` follows R291. -/
def execStripPass (a : BitVec 3) (u : BitVec 2) (s : State) : Host.Outcome State Fault Refusal :=
  stripForm (.stripPass a u) (fun v =>
    match operandTok v a with
    | none => .wait
    | some t =>
      if a.toNat < 4 && (t.tag == 8 || t.tag == 9) then .wait
      else if t.tag == 7 then skipToEos v
      else if 10 ≤ t.tag.toNat then .fault stripInvalid
      else if outputsFree v.k v.j u then fire v ((inputHeads v (.stripPass a u)).1) (movePP v) u [t]
      else .wait) s

/-- `idle n`: PP moves on, and the strip fires no word for n cycles; 0 means 256 (R287, R314). -/
def execIdle (u : BitVec 2) (n : BitVec 8) (s : State) : Host.Outcome State Fault Refusal :=
  stripForm (.idle u n) (fun v =>
    if outputsFree v.k v.j u then
      fire v [] (fun p => { movePP v p with holdUntil := v.s.now + (if n = 0 then 256 else n.toNat) }) 0 []
    else .wait) s

/-- `eos`: fires when every named input holds an `eos`, is passed over when one holds another token (R292). -/
def execStripEos (u : BitVec 2) (rep m : BitVec 4) (s : State) : Host.Outcome State Fault Refusal :=
  stripForm (.stripEos u rep m) (fun v =>
    let (ins, heads) := inputHeads v (.stripEos u rep m)
    if heads.any fun t => t.tag == 8 || t.tag == 9 then .wait
    else if heads.any fun t => t.tag != 7 then fire v [] (movePP v) 0 []
    else if heads.length < ins.length then .wait
    else if outputsFree v.k v.j u then
      let like := heads.headD {}
      fire v ins (fun p =>
        let n := p.sc + 1
        if rep.toNat < n then { p with sc := n, done := true, gen := {} } else { p with sc := n, pp := 0, gen := {} })
        u [{ tag := 7, side := like.side, ord := like.ord }]
    else .wait) s

end Sys2Proof.Machine
end

