-- ==== Sys2Proof/Machine/StripPort.lean ====
section
/-! DEFINITION. Ports, wave order, the delay strip and vector registers (R283, R306-R313, R336). -/

namespace Sys2Proof.Machine

/-! ### Address generators (R306) -/

/-- Parameters of an address generator. -/
structure GenPar where
  base : Nat
  n1 : Nat
  n2 : Nat
  n3 : Nat
  n4 : Nat
  s1 : Int
  s2 : Int
  s3 : Int
  s4 : Int
  lanes : Nat

/-- BASE of w0, when it is in range. -/
def genBase (w0 : BitVec 32) : Option Nat :=
  let b : BitVec 20 := field w0 0 20
  if field w0 20 12 = 0#12 ∧ b.toNat ≤ 0xBFFE0 ∧ b.toNat % 32 = 0 then some b.toNat else none

/-- Low and high half of a constant. -/
def lowHalf (w : BitVec 32) : BitVec 16 := field w 0 16
def highHalf (w : BitVec 32) : BitVec 16 := field w 16 16

/-- The parameters in a strip's constants; none when one is out of range. -/
def genPar (w : Vector (BitVec 32) 8) : Option GenPar :=
  let n (x : BitVec 16) : Nat := x.toNat
  match genBase w[0] with
  | none => none
  | some b =>
    if lowHalf w[1] = 0 ∨ highHalf w[1] = 0 ∨ lowHalf w[2] = 0 ∨ highHalf w[2] = 0 ∨ 191 < w[5].toNat then none
    else some ⟨b, n (lowHalf w[1]), n (highHalf w[1]), n (lowHalf w[2]), n (highHalf w[2]),
      (lowHalf w[3]).toInt, (highHalf w[3]).toInt, (lowHalf w[4]).toInt, (highHalf w[4]).toInt, w[5].toNat⟩

/-- Address of the next token, modulo 2^64, read as a signed number. -/
def genAddr (g : GenPar) (base : Nat) (t : GenState) : Int :=
  (BitVec.ofInt 64 ((base : Int) + 32 * (t.i1 * g.s1 + t.i2 * g.s2 + t.i3 * g.s3 + t.i4 * g.s4))).toInt

/-- Dimensions that the token at hand ends: 0 to 4. -/
def endedDims (g : GenPar) (t : GenState) : Nat :=
  if t.i1 + 1 < g.n1 then 0 else if t.i2 + 1 < g.n2 then 1 else if t.i3 + 1 < g.n3 then 2 else if t.i4 + 1 < g.n4 then 3 else 4

/-- The start of the next iteration of dimension m + 1; past the last one the generator has passed its last token. -/
def nextIter (g : GenPar) (m : Nat) (t : GenState) : GenState :=
  let up2 := t.i2 + 1 < g.n2
  let up3 := t.i3 + 1 < g.n3
  let up4 := t.i4 + 1 < g.n4
  let at4 : GenState := if up4 then { t with i1 := 0, i2 := 0, i3 := 0, i4 := t.i4 + 1 } else { t with passed := true }
  let at3 : GenState := if up3 then { t with i1 := 0, i2 := 0, i3 := t.i3 + 1 } else at4
  let at2 : GenState := if up2 then { t with i1 := 0, i2 := t.i2 + 1 } else at3
  match m with
  | 0 => if t.i1 + 1 < g.n1 then { t with i1 := t.i1 + 1 } else at2
  | 1 => at2
  | 2 => at3
  | 3 => at4
  | _ => { t with passed := true }

/-- The generator stands at the first token of an iteration of dimension m + 1 (R336). -/
def atIterStart (m : Nat) (t : GenState) : Bool :=
  !t.passed && t.i1 == 0 && (m < 2 || t.i2 == 0) && (m < 3 || t.i3 == 0) && (m < 4 || t.i4 == 0)

/-- Generator indices as a trap record holds them (R340). -/
def genDetail (t : GenState) : Word :=
  BitVec.ofNat 16 t.i4 ++ BitVec.ofNat 16 t.i3 ++ BitVec.ofNat 16 t.i2 ++ BitVec.ofNat 16 t.i1

/-- A port fault: address of the first failing lane and the indices (R340). -/
def portTrap (code : TrapCode) (a : Int) (p : Strip) : Trap :=
  { code := code, unit := 4, addr := BitVec.ofInt 64 a, d6 := genDetail p.gen }

/-! ### Reads and writes of a port (R308, R310, R311) -/

/-- First of a list of 4-byte places that leaves scratch. -/
def placeOutside (as : List Int) : Option Int :=
  as.find? fun a => decide (a < 0) || decide ((Config.scratchBytes : Int) < a + 4)

/-- First of a list of 4-byte places whose read by port j defers. -/
def placeEmpty (c : Cell) (j : Nat) (as : List Int) : Option Int :=
  as.find? fun a => readDefers c (.port j) a.toNat || readDefers c (.port j) (a.toNat + 3)

/-- The read joins the deferred reads of its bank, unless it waits there already. -/
def portDefer (s : State) (id : Nat) (c : Cell) (j : Nat) (a : Int) : Option State :=
  let at_ := if readDefers c (.port j) a.toNat then a.toNat else a.toNat + 3
  if waitsFor c (.port j) at_ then none else some (setCell s id (deferEngine s.now (.port j) at_ 4 c))

/-- The 32-bit lane at an address of scratch as port j reads it. -/
def laneIn (m : Mem) (a : Int) : BitVec 32 := field (readWord m a.toNat 4) 0 32

/-- A port's firing has used the words that its deferred reads returned. -/
def usedReads (s : State) (id j : Nat) : State := modCell s id (dropServed (.port j))

/-- A firing goes on in the state its stores have made. -/
def onState (v : Firing) (s : State) : Firing := { v with s := s, c := (look s.cells v.id).getD v.c }

/-- Read lanes, or defer where a word is empty. -/
def portRead (v : Firing) (as : List Int) (k : Fired) : Fired :=
  match placeEmpty v.c v.j.toNat as with
  | none => k
  | some a =>
    match portDefer v.s v.id v.c v.j.toNat a with
    | some s => .done s
    | none => .wait

/-! ### lds (R307, R309) -/

def firePast (v : Firing) : Fired := fire v [] (fun p => { movePP v p with gen := {} }) 0 []

/-- A firing of an LD port: one that ends a run of dimension 1 during a snapshot records the strip behind it (R351). -/
def fireCut (v : Firing) (ends : Bool) (f : Strip → Strip) (u : BitVec 2) (ts : List Tok) : Fired :=
  let k := fireCollar v [] f u ts
  .done (setCell v.s v.id { v.c with collar := if ends && v.k.snapping then settleFabric (recordStrip v.j k) else k })

/-- `lds` from scratch: the next token of the generator, with an `eod` where it ends dimensions. -/
def ldsScratch (u : BitVec 2) (v : Firing) : Fired :=
  let t := v.p.gen
  match genPar v.p.w with
  | none => .fault stripInvalid
  | some g =>
    let a := genAddr g g.base t
    let as := (List.range (g.lanes + 1)).map fun (j : Nat) => a + 4 * j
    match placeOutside as with
    | some x => .fault (portTrap .access x v.p)
    | none =>
      portRead v as (
        let live := lanesBy fun i => i ≤ g.lanes
        let mem := engineMem v.c (.port v.j.toNat)
        let tok : Tok := { data := rowBy fun i => if i ≤ g.lanes then laneIn mem (a + 4 * (i : Nat)) else 0, pred := live }
        let m := endedDims g t
        let eod : List Tok := if 1 ≤ m ∧ m ≤ 3 then [{ tag := BitVec.ofNat 4 (m + 1) }] else []
        fireCut (onState v (usedReads (noteHead v.s v.id 1 (laneSpans v.id as)) v.id v.j.toNat)) (1 ≤ m) (fun p =>
          if m = 4 then { movePP v p with gen := {} } else { p with gen := { nextIter g 0 t with open_ := true } }) u (tok :: eod))

/-- `lds` from the landing buffer: one beat per firing; an END beat ends the stream (R309). -/
def ldsCircuit (u : BitVec 2) (v : Firing) : Fired :=
  match v.c.landing with
  | [] => .wait
  | b :: bs =>
    let v' := { v with c := admitMarkers { v.c with landing := bs } }
    if b.fin then firePast v'
    else
      let tok : Tok :=
        { data := rowBy fun i => if i < 8 then field b.data (32 * i) 32 else 0, pred := lanesBy fun i => i < 8 }
      fire v' [] (fun p => p) u [tok]

def execLds (u : BitVec 2) (circ : BitVec 1) (s : State) : Host.Outcome State Fault Refusal :=
  stripForm (.lds u circ) (fun v =>
    if !outputsFree v.k v.j u then .wait else if circ = 1 then ldsCircuit u v else ldsScratch u v) s

/-! ### sts (R308, R309, R336) -/

/-- An `eos` at a store port ends its stream, and PP moves to the next `eos` word (R291, R308). -/
def endStream (v : Firing) : Fired :=
  match nextEos v with
  | none => .wait
  | some n => fire v [] (fun p => { p with pp := n, gen := {} }) 0 []

/-- An `eod` m at a store port moves the generator, and `eod1` ends the base segment (R308, R336). -/
def eodAtStore (v : Firing) (ins : List Nat) (m : Nat) : Fired :=
  let t := v.p.gen
  let moved (g : GenPar) : GenState := if t.passed || atIterStart m t then t else nextIter g m t
  match genPar v.p.w with
  | none => .fault stripInvalid
  | some g => fire v ins (fun p => { movePP v p with gen := { moved g with base := if m = 1 then none else t.base } }) 0 []

/-- A `dat` token writes its live lanes at the next address; every lane of the generator must lie in scratch (R306,
R308). -/
def stsData (side : Bool) (v : Firing) (ins : List Nat) (x : Tok) : Fired :=
  let t := v.p.gen
  match genPar v.p.w with
  | none => .fault stripInvalid
  | some g =>
    if t.passed then .fault stripInvalid
    else
      let base : BitVec 20 :=
        if side then t.base.getD (BitVec.ofNat 20 g.base + field x.side 0 20) else BitVec.ofNat 20 g.base
      let a := genAddr g base.toNat t
      let ws := laneWrites x a (g.lanes + 1)
      match placeOutside ((List.range (g.lanes + 1)).map fun (j : Nat) => a + 4 * j), firstFull v.c ws with
      | some y, _ => .fault (portTrap .access y v.p)
      | none, some y => .fault (portTrap .presence y v.p)
      | none, none =>
        let s' := notePort (storePlaces v.s v.id (ws.map fun (a, b) => (a.toNat, b))) v.id (fun k => k / 4 == v.j.toNat)
          (laneSpans v.id (ws.map (·.1)))
        let v' := onState v s'
        fire v' ins (fun p =>
          { movePP v p with gen := { nextIter g 0 t with open_ := true, base := if side then some base else none } }) 0 []

/-- The first 32 bytes of a token as a beat; dead lanes send zeros (R309). -/
def beatOf (x : Tok) (part : BitVec 4) : Beat :=
  let l (i : Nat) : BitVec 32 := if bit x.pred i then laneAt x.data i else 0
  ⟨l 7 ++ l 6 ++ l 5 ++ l 4 ++ l 3 ++ l 2 ++ l 1 ++ l 0, part, false⟩

/-- Inject a beat in the cycle after the firing, once the LOC input is free then (R170, R309). -/
def injectAfter (v : Firing) (b : Beat) (k : Firing → Fired) : Fired :=
  if locFree v.s v.c then k (onState v (injectBeat v.s v.id b)) else .wait

def execSts (a : BitVec 3) (circ sideBase : BitVec 1) (s : State) : Host.Outcome State Fault Refusal :=
  stripForm (.sts a circ sideBase) (fun v =>
    let ins := portInputs (.sts a circ sideBase)
    match operandTok v a with
    | none => .wait
    | some x =>
      if x.tag = 8 ∨ x.tag = 9 then .wait
      else if x.tag = 7 then
        if circ = 1 ∧ (nextEos v).isSome then injectAfter v ⟨0, v.c.part, true⟩ endStream else endStream v
      else if x.tag = 0 then
        if circ = 1 then injectAfter v (beatOf x v.c.part) fun v => fire v ins (movePP v) 0 []
        else stsData (sideBase == 1) v ins x
      else if 2 ≤ x.tag.toNat ∧ x.tag.toNat ≤ 6 ∧ circ = 0 then eodAtStore v ins (x.tag.toNat - 1)
      else .fault stripInvalid) s

/-! ### gath, scat and wave order (R283, R310) -/

def ordWave (t : Tok) : BitVec 8 := field t.ord 24 8
def ordSucc (t : Tok) : BitVec 8 := field t.ord 16 8
def ordPred (t : Tok) : BitVec 8 := field t.ord 8 8
def ordOwn (t : Tok) : BitVec 8 := field t.ord 0 8

/-- Lanes that an operation touches: live in a, and for `scat` in b. -/
def opLanes (o : WaveOp) : List Nat :=
  (List.range 192).filter fun i => bit o.a.pred i && (!o.scat || bit o.b.pred i)

/-- Address of lane i of an operation. -/
def opAddr (base : Nat) (o : WaveOp) (i : Nat) : Int := ((base + (laneAt o.a.data i).toNat : Nat) : Int)

/-- Checks of the whole token, before any lane moves (R310). -/
def opFault (base : Nat) (o : WaveOp) (p : Strip) : Option Trap :=
  match (opLanes o).find? fun i => (laneAt o.a.data i).toNat % 4 != 0 with
  | some i => some (portTrap .align (opAddr base o i) p)
  | none =>
    match placeOutside ((opLanes o).map (opAddr base o)) with
    | some a => some (portTrap .access a p)
    | none => none

/-- What performing a gather or scatter comes to. -/
inductive OpRes where
  | done (s : State) (t : Tok)
  | wait (s : Option State)
  | fault (t : Trap)

/-- Perform a gather or scatter of the strip it came from; a gather's token is the answer (R310, R311). -/
def performOp (s : State) (id : Nat) (c : Cell) (o : WaveOp) : OpRes :=
  let p := stripAt c.collar (BitVec.ofNat 4 o.strip)
  match genBase p.w[0] with
  | none => .fault stripInvalid
  | some base =>
    match opFault base o p with
    | some t => .fault t
    | none =>
      let lanes := opLanes o
      if o.scat then
        let ws := lanes.map fun i => (opAddr base o i, bytesOf (laneAt o.b.data i).toNat 4)
        match firstFull c ws with
        | some a => .fault (portTrap .presence a p)
        | none =>
          .done (notePort (storePlaces s id (ws.map fun (a, b) => (a.toNat, b))) id (fun k => k / 4 == o.strip)
            (laneSpans id (ws.map (·.1)))) {}
      else
        match placeEmpty c o.strip (lanes.map (opAddr base o)) with
        | some a => .wait (portDefer s id c o.strip a)
        | none =>
          let mem := engineMem c (.port o.strip)
          .done (usedReads (noteHead s id 1 (laneSpans id (lanes.map (opAddr base o)))) id o.strip)
            (dataTok o.a (rowBy fun i => if bit o.a.pred i then laneIn mem (opAddr base o i) else 0) o.a.pred)

/-- The operation is next in wave order (R283). -/
def nextInWave (w : Wave) (t : Tok) : Bool := ordWave t == w.wave && ordPred t == w.last

/-- The sequencer after an operation is performed (R283). -/
def afterOp (t : Tok) (w : Wave) : Wave :=
  if ordSucc t = 0xFF then { w with wave := w.wave + 1, last := 0, seen := [] }
  else { w with last := ordOwn t, seen := w.seen ++ [ordOwn t] }

/-- Another operation of the wave has the same own number (R283). -/
def ownTaken (w : Wave) (t : Tok) : Bool :=
  (ordWave t == w.wave && w.seen.contains (ordOwn t)) ||
  w.buf.any fun o => ordWave o.a == ordWave t && ordOwn o.a == ordOwn t

/-- The result of a buffered gather takes the place that waits for it. -/
def fillPlace (o : WaveOp) (t : Tok) (k : Collar) : Collar :=
  if o.scat then k
  else modStrip k (BitVec.ofNat 4 o.strip) fun p =>
    { p with outQ := p.outQ.map fun (out, x) => if x.tag == placeTag && x.ord == o.a.ord then (out, t) else (out, x) }

/-- The buffered operation of a port that is next in order stands at a fault. -/
def stickWave (j : Nat) (k : Collar) : Collar :=
  { k with wave := { k.wave with
      buf := k.wave.buf.map fun o => if o.strip == j && nextInWave k.wave o.a then { o with stuck := true } else o } }

/-- Perform the buffered operation that is next in order, also when a later firing of its port has faulted (R283, R332). -/
def drainWave (s : State) (id : Nat) : Option State :=
  match look s.cells id with
  | none => none
  | some c =>
    match c.collar.wave.buf.find? fun o => nextInWave c.collar.wave o.a with
    | none => none
    | some o =>
      let j : BitVec 4 := BitVec.ofNat 4 o.strip
      if !enginesRun c || c.collar.strainer || o.stuck then none
      else
        match performOp s id c o with
        | .wait r => r
        | .fault t =>
          if (stripAt c.collar j).fault.isSome then none
          else
            let c' := { c with collar := stickWave o.strip c.collar }
            some (stripFault (setCell s id c') id c' j t)
        | .done s' t =>
          some (modCell s' id fun c =>
            let w := c.collar.wave
            let w' := afterOp o.a { w with buf := w.buf.filter fun x => ordWave x.a != ordWave o.a || ordOwn x.a != ordOwn o.a }
            { c with collar := settleFabric (fillPlace o t { c.collar with wave := w' }) })

/-- Fire a gather or scatter: at once when it is unordered or next in order, else into the buffer, whose last free entry
is kept for the next in order (R283). -/
def fireOp (u : BitVec 2) (v : Firing) (ins : List Nat) (o : WaveOp) : Fired :=
  let w := v.k.wave
  let ordered := o.a.ord != 0
  let emits (t : Tok) : List Tok := if o.scat then [] else [t]
  if ordered && ownTaken w o.a then .fault stripInvalid
  else if !ordered || nextInWave w o.a then
    match performOp v.s v.id v.c o with
    | .fault t => .fault t
    | .wait (some s) => .done s
    | .wait none => .wait
    | .done s t =>
      let v' := onState v s
      let v' := if ordered then { v' with c := { v'.c with collar := { v'.c.collar with wave := afterOp o.a w } } } else v'
      fire v' ins (movePP v) u (emits t)
  else
    match genBase v.p.w[0] with
    | none => .fault stripInvalid
    | some base =>
      match opFault base o v.p with
      | some t => .fault t
      | none =>
        if 15 ≤ w.buf.length then .wait
        else
          let v' := { v with c := { v.c with collar := { v.k with wave := { w with buf := w.buf ++ [o] } } } }
          fire v' ins (movePP v) u (emits { tag := placeTag, ord := o.a.ord })

/-- Room for a gather's token: an ordered one may stand behind a place that is not filled yet. -/
def gatherFree (v : Firing) (u : BitVec 2) (ordered : Bool) : Bool :=
  if ordered then (!bit u 0 || hasRoom v.k v.j.toNat false) && (!bit u 1 || hasRoom v.k v.j.toNat true)
  else outputsFree v.k v.j u

/-- `gath` (R310); markers follow R291. -/
def execGath (a : BitVec 3) (u : BitVec 2) (s : State) : Host.Outcome State Fault Refusal :=
  stripForm (.gath a u) (fun v =>
    let ins := portInputs (.gath a u)
    match operandTok v a with
    | none => .wait
    | some x =>
      match readHeads [x] with
      | .control => .wait
      | .mix => .fault stripInvalid
      | .eos => skipToEos v
      | .marker => if outputsFree v.k v.j u then fire v ins (fun p => p) u [x] else .wait
      | .data =>
        if gatherFree v u (x.ord != 0) then fireOp u v ins ⟨v.j.toNat, u, false, x, {}, false⟩ else .wait) s

/-- `scat` (R310); its markers are those of a store port (R336). -/
def execScat (a b : BitVec 3) (s : State) : Host.Outcome State Fault Refusal :=
  stripForm (.scat a b) (fun v =>
    let (ins, heads) := inputHeads v (.scat a b)
    match operandTok v a, operandTok v b with
    | some x, some y =>
      match readHeads heads with
      | .control => .wait
      | .mix => .fault stripInvalid
      | .eos => endStream v
      | .marker => fire v ins (movePP v) 0 []
      | .data => fireOp 0 v ins ⟨v.j.toNat, 0, true, x, y, false⟩
    | _, _ => .wait) s

/-! ### dly (R312) -/

/-- The oldest held token may leave. -/
def dlyMayEmit (d : Nat) (fifo : List Tok) : Bool :=
  decide (d ≤ fifo.length) || fifo.any fun t => 1 ≤ t.tag.toNat && t.tag.toNat ≤ 6

/-- `dly n`: emits the oldest held token when it may and an output has room, else takes a token; an `eos` is handled
once the FIFO is empty. PP stays until then. -/
def execDly (a : BitVec 3) (u : BitVec 2) (n : BitVec 8) (s : State) : Host.Outcome State Fault Refusal :=
  stripForm (.dly a u n) (fun v =>
    let ins := portInputs (.dly a u n)
    let d := n.toNat + 1
    let emit : Option Fired :=
      match v.p.fifo with
      | [] => none
      | t :: ts =>
        if dlyMayEmit d v.p.fifo && outputsFree v.k v.j u then some (fire v [] (fun p => { p with fifo := ts }) u [t]) else none
    match operandTok v a with
    | some x =>
      if x.tag = 8 ∨ x.tag = 9 then emit.getD .wait
      else if 10 ≤ x.tag.toNat then .fault stripInvalid
      else if x.tag = 7 then (if v.p.fifo.isEmpty then skipToEos v else emit.getD .wait)
      else
        match emit with
        | some r => r
        | none => if v.p.fifo.length < d then fire v ins (fun p => { p with fifo := p.fifo ++ [x] }) 0 [] else .wait
    | none => emit.getD .wait) s

/-! ### vrd and vwr (R224, R313) -/

def vregAt (k : Collar) (n : BitVec 6) : Row := peek 0 k.vreg n.toNat
def vtagAt (k : Collar) (n : BitVec 6) : BitVec 4 := peek 0 k.vtag n.toNat

/-- Live lanes of a token over the old contents of a row. -/
def mergeLanes (old : Row) (x : Tok) : Row := rowBy fun i => if bit x.pred i then laneAt x.data i else laneAt old i

def execVrd (u : BitVec 2) (t : BitVec 4) (n : BitVec 6) (s : State) : Host.Outcome State Fault Refusal :=
  stripForm (.vrd u t n) (fun v =>
    if !outputsFree v.k v.j u then .wait
    else if !tagReads (vtagAt v.k n) t then .fault stripFormat
    else fire v [] (movePP v) u [{ data := vregAt v.k n, pred := BitVec.allOnes 192 }]) s

def execVwr (a : BitVec 3) (t : BitVec 4) (n : BitVec 6) (s : State) : Host.Outcome State Fault Refusal :=
  stripForm (.vwr a t n) (fun v =>
    let ins := portInputs (.vwr a t n)
    match operandTok v a with
    | none => .wait
    | some x =>
      match readHeads [x] with
      | .control => .wait
      | .mix => .fault stripInvalid
      | .eos => skipToEos v
      | .marker => fire v ins (fun p => p) 0 []
      | .data =>
        let k := v.k
        let k' := { k with vreg := poke 0 k.vreg n.toNat (mergeLanes (vregAt k n) x), vtag := poke 0 k.vtag n.toNat t }
        fire { v with c := { v.c with collar := k' } } ins (movePP v) 0 []) s

end Sys2Proof.Machine
end

