-- ==== Sys2Proof/Machine/CopyEngine.lean ====
section
/-! DEFINITION. The copy engine: channels, transfer records, inline copies and fills (R317-R328), and the reads that
stay deferred too long (R105). -/

namespace Sys2Proof.Machine

/-- The channel a copy launch names. -/
def channelOfLaunch : Launch → Option (BitVec 2)
  | .chain _ ch => some ch
  | .kick ch => some ch
  | .copy ch => some ch
  | .fill _ ch => some ch
  | _ => none

/-- The launch performs the captured inline record (R327). -/
def isInline : Launch → Bool
  | .copy _ => true
  | .fill _ _ => true
  | _ => false

/-! ### Faults (R327, R340, R347) -/

/-- ILLEGAL of a record: pointer, channel and reason in the address field (R327). -/
def recordIllegal (ptr : Word) (ch : BitVec 2) (reason : Nat) : Trap :=
  { code := .illegal, unit := 5, sub := 2,
    addr := (0 : BitVec 5) ++ ch ++ (field ptr 6 51 : BitVec 51) ++ BitVec.ofNat 6 reason }

/-- Faults that freeze the domain of a static schedule (R347). -/
def freezes : TrapCode → Bool
  | .xlatfault | .access | .presence | .deferto | .ecc => true
  | _ => false

/-- Level of the phase a faulting item counts in, when it belongs to the static schedule (R347). -/
def staticLevel (e : Entry) : Option (BitVec 3) :=
  match e.counted with
  | some p => some p.level
  | none => e.phase.map (·.level)

/-- A started copy entry faults: its channel is FAULTED, HEAD, CUR and the map kept (R325, R327). `lvl` is the level of
the static schedule it belongs to, if it does. -/
def copyFault (s : State) (id : Nat) (lvl : Option (BitVec 3)) (t : Trap) : State :=
  match look s.cells id with
  | none => s
  | some c =>
    match headEntry c 2 with
    | none => s
    | some e =>
      match channelOfLaunch e.launch with
      | none => s
      | some ch =>
        let h := getChannel c ch
        let t' := { t with d6 := h.head, d7 := (0 : BitVec 14) ++ ch ++ BitVec.ofNat 48 h.cur }
        let s' := setCell s id (setChannel c ch { h with state := .faulted, got := [] })
        match lvl with
        | some l => if freezes t.code then freezeFault s' id 2 t' true l none else engineFault s' id 2 t' true
        | none => engineFault s' id 2 t' true

/-- A page that a started copy entry needs is not resident: a static item freezes its domain, another entry's task is
saved; either way the channel retranslates afterwards (R127, R156, R347, R348). -/
def copyPageFault (s : State) (id : Nat) (lvl : Option (BitVec 3)) (va : Nat) : State :=
  match look s.cells id with
  | none => s
  | some c =>
    match lvl with
    | some l =>
      let s' := freezeFault s id 2 pageTrap true l (some (BitVec.ofNat 57 va))
      { s' with fw := { s'.fw with reports := s'.fw.reports ++ [.page c.part (BitVec.ofNat 57 va)] } }
    | none => pageFault (faultEntry s id 2 pageTrap true) c va

/-- What a miss of an engine access does. -/
def copyMiss (s : State) (id : Nat) (lvl : Option (BitVec 3)) : Miss → State
  | .trap code a => copyFault s id lvl { code := code, unit := 5, addr := BitVec.ofNat 64 a }
  | .page va => copyPageFault s id lvl va

/-! ### Starting an entry (R325, R327) -/

/-- Start a copy launch on its channel; a FAULTED channel faults the entry. -/
def startCopy (f : Channel → Cell → Cell) (ptr : Channel → Word) (s : State) (id : Nat) (c : Cell) (e : Entry) : State :=
  match channelOfLaunch e.launch with
  | none => s
  | some ch =>
    let h := getChannel c ch
    if h.state = .faulted then
      engineFault s id 2 { recordIllegal (ptr h) ch 5 with d6 := h.head, d7 := (0 : BitVec 14) ++ ch ++ BitVec.ofNat 48 h.cur } false
    else setCell s id (f h c)

def startChain (s : State) (id : Nat) (c : Cell) (e : Entry) : State :=
  match e.launch with
  | .chain p ch =>
    startCopy (fun _ c => begin_ (setChannel c ch { state := .walk, head := p }) 2) (fun _ => p) s id c e
  | _ => s

/-- `chain` (R325). -/
def execChain (s : State) : Host.Outcome State Fault Refusal :=
  startEntry 2 (fun l => match l with | .chain _ _ => true | _ => false) startChain s

def startKick (s : State) (id : Nat) (c : Cell) (e : Entry) : State :=
  match e.launch with
  | .kick ch =>
    startCopy (fun h c =>
      if h.state = .parked then begin_ (setChannel c ch { h with state := .walk }) 2 else finishHead c 2) (·.head) s id c e
  | _ => s

/-- `kick` (R325). -/
def execKick (s : State) : Host.Outcome State Fault Refusal :=
  startEntry 2 (fun l => match l with | .kick _ => true | _ => false) startKick s

/-- An inline record runs on its channel, whose state it gives back at its end (R327). -/
def startInline (s : State) (id : Nat) (c : Cell) (e : Entry) : State :=
  match channelOfLaunch e.launch with
  | some ch =>
    startCopy (fun h c => begin_ (setChannel c ch { h with state := .walk, prior := h.state, cur := 0, map := 0 }) 2)
      (fun _ => 0) s id c e
  | none => s

/-- `copy` (R327). -/
def execCopy (s : State) : Host.Outcome State Fault Refusal :=
  startEntry 2 (fun l => match l with | .copy _ => true | _ => false) startInline s

/-- `fill` (R327). -/
def execFill (s : State) : Host.Outcome State Fault Refusal :=
  startEntry 2 (fun l => match l with | .fill _ _ => true | _ => false) startInline s

/-! ### Records (R319-R321) -/

/-- A record: its eight doublewords. -/
abbrev Rec := Vector Word 8

def recOwn (r : Rec) : Bool := bit r[0] 63
def recSig (r : Rec) : Bool := bit r[0] 62
def recPh (r : Rec) : Bool := bit r[0] 61
def recEos (r : Rec) : Bool := bit r[0] 60
def recLevel (r : Rec) : BitVec 3 := field r[0] 57 3
/-- The next record's address (R325). -/
def recNext (r : Rec) : Word := zx (field r[0] 6 51 : BitVec 51) <<< 6

def epKind (w : Word) : Nat := (field w 61 3 : BitVec 3).toNat

/-- Bits that an endpoint's kind does not use are zero (R320). -/
def epZero (w : Word) : Bool :=
  match epKind w with
  | 0 => field w 20 41 == 0#41
  | 1 => field w 57 4 == 0#4
  | 2 => field w 28 33 == 0#33
  | 3 => bit w 60 == false
  | _ => true

/-- Why a record is malformed (R327): 1 to 4, in that order. -/
def recReason (fill : Bool) (r : Rec) : Option Nat :=
  let ks := epKind r[2]
  let kd := epKind r[4]
  let rcS : BitVec 2 := field r[7] 0 2
  let rcD : BitVec 2 := field r[7] 2 2
  if (!fill && 4 ≤ ks) || 4 ≤ kd then some 1
  else if field r[0] 0 6 ≠ 0 ∨ field r[1] 0 24 ≠ 0 ∨ bit r[5] 63 ∨ epZero r[4] = false ∨ (kd ≤ 1 ∧ rcD ≠ 0) then some 2
  else if !fill && (field r[7] 4 60 != 0 || bit r[3] 63 || !epZero r[2] || (ks ≤ 1 && rcS != 0)) then some 2
  else if recPh r && 5 ≤ (recLevel r).toNat then some 3
  else if (2 ≤ kd ∧ rcD = 3) ∨ (!fill ∧ 2 ≤ ks ∧ rcS = 3) then some 4
  else none

/-- Shape of a record (R321). -/
def recN (r : Rec) (i : Nat) : Nat := (field r[6] (16 * i) 16 : BitVec 16).toNat

def recBytes (r : Rec) : Nat := recN r 0 * recN r 1 * recN r 2 * recN r 3

/-- One stride of a side. -/
def strideOf (w : Word) (i : Nat) : Int := (field w (21 * i) 21 : BitVec 21).toInt

/-- Offset of transfer byte `j` from its side's base (R321). -/
def byteAt (r : Rec) (strides : Word) (j : Nat) : Int :=
  let b := j % recN r 0
  let q := j / recN r 0
  let i1 := q % recN r 1
  let i2 := q / recN r 1 % recN r 2
  let i3 := q / recN r 1 / recN r 2
  b + i1 * strideOf strides 0 + i2 * strideOf strides 1 + i3 * strideOf strides 2

/-- Least and greatest offset of a side, when it moves bytes. -/
def sideSpan (r : Rec) (strides : Word) : Int × Int :=
  let part (i : Nat) (s : Int) : Int × Int :=
    let v := (recN r i - 1 : Nat) * s
    (min 0 v, max 0 v)
  let (l1, h1) := part 1 (strideOf strides 0)
  let (l2, h2) := part 2 (strideOf strides 1)
  let (l3, h3) := part 3 (strideOf strides 2)
  (l1 + l2 + l3, h1 + h2 + h3 + (recN r 0 - 1 : Nat))

/-- The place an endpoint names and the address of its first byte; none where it lies outside its limits (R320). -/
def epPlace (s : State) (c : Cell) (w : Word) : Option (Place × Nat) :=
  match epKind w with
  | 0 => some (.scratch, (field w 0 20 : BitVec 20).toNat)
  | 1 => some (.virt, (field w 0 57 : BitVec 57).toNat)
  | 2 => (clusterTarget s c (nibble w 20) (nibble w 24)).map fun t => (.cluster t, (field w 0 20 : BitVec 20).toNat)
  | _ =>
    some (.window (torusTarget s (nibble w 48) (nibble w 52) (nibble w 56)) (field w 32 16), (field w 0 32 : BitVec 32).toNat)

/-- Every byte of a scratch side lies in scratch (R320). -/
def sideInside (r : Rec) (w strides : Word) (base : Nat) : Bool :=
  epKind w % 2 == 1 || recBytes r == 0 ||
    (let (lo, hi) := sideSpan r strides
     decide (0 ≤ base + lo) && decide (base + hi < (Config.scratchBytes : Int)))

/-- The checks of R327 that fault ACCESS before a byte moves. -/
def recAccess (s : State) (c : Cell) (fill : Bool) (r : Rec) : Bool :=
  let side (w strides : Word) : Bool :=
    match epPlace s c w with
    | none => false
    | some (_, base) => sideInside r w strides base
  side r[4] r[5] && (fill || side r[2] r[3]) &&
  (!recSig r || (counterAt s (field r[1] 32 16)).part == c.part) &&
  (!recEos r || (clusterTarget s c (nibble r[1] 24) (nibble r[1] 28)).isSome) &&
  (!recPh r || takesPart c (recLevel r))

/-! ### Moving bytes (R321, R323, R328, R331) -/

/-- A running record: where its bytes come from and go to. -/
structure Run where
  m : Master
  r : Rec
  fill : Option (BitVec 32)
  src : Place
  srcBase : Nat
  dst : Place
  dstBase : Nat

/-- Addresses of transfer byte `j` at the two sides. -/
def srcAt (x : Run) (j : Nat) : Int := x.srcBase + byteAt x.r x.r[3] j
def dstAt (x : Run) (j : Nat) : Int := x.dstBase + byteAt x.r x.r[5] j

/-- Bytes that a place moves in one step: an aligned word of scratch, an aligned doubleword elsewhere (R201, R328). -/
def unitBytes : Place → Nat
  | .scratch => 32
  | .cluster _ => 32
  | _ => 8

/-- The bytes that are moved in one step with byte `j` at a side: those of its run within one aligned unit, as a range of
transfer order (R328). -/
def unitOf (x : Run) (unit : Nat) (addr : Nat → Int) (j : Nat) : Nat × Nat :=
  let n := recN x.r 0
  let b := j % n
  let o := (addr j).toNat % unit
  let back := min b o
  (j - back, min (n - b) (unit - o) + back)

/-- Byte `j` is performed: it lies before CUR, or the window map marks it (R328). -/
def performed (h : Channel) (j : Nat) : Bool := j < h.cur || bit h.map (j - h.cur)

/-- A unit lies in the window (R328). -/
def inWindow (h : Channel) (u : Nat × Nat) : Bool := u.1 + u.2 ≤ h.cur + 4096

/-- Bytes of a unit that are still to be performed. -/
def openBytes (h : Channel) (u : Nat × Nat) : List Nat := (range u.1 u.2).filter fun j => !performed h j

/-- The next bytes of a unit that one delivery performs: from the first open one to the next that is performed already. -/
def openRun (h : Channel) (u : Nat × Nat) : List Nat :=
  ((range u.1 u.2).dropWhile (performed h)).takeWhile fun j => !performed h j

/-- Some byte of a unit has still to be read. -/
def needsRead (x : Run) (h : Channel) (u : Nat × Nat) : Bool :=
  x.fill.isNone && inWindow h u && (openBytes h u).any fun j => (look h.got j).isNone

/-- A unit may be delivered: its bytes have been read, and no earlier byte in transfer order has still to be written to
one of its addresses (R321, R331). -/
def mayDeliver (x : Run) (h : Channel) (u : Nat × Nat) : Bool :=
  let js := openRun h u
  inWindow h u && !js.isEmpty && (x.fill.isSome || js.all fun j => (look h.got j).isSome) &&
  (range h.cur (u.1 - h.cur)).all fun i => performed h i || js.all fun j => dstAt x i != dstAt x j

/-- A move of a record's bytes: a read of a unit of the source, the delivery of a unit of the destination, or the end of
the record with its last writes still in the entry's bag. -/
inductive ByteMove where
  | read (u : Nat × Nat)
  | deliver (u : Nat × Nat)
  | leave

/-- The moves that a record has before it, over the bytes of its window (R328). -/
def byteMoves (x : Run) (h : Channel) : List ByteMove :=
  let js := range h.cur (min 4096 (recBytes x.r - h.cur))
  let units (unit : Nat) (addr : Nat → Int) : List (Nat × Nat) := (js.map (unitOf x unit addr)).eraseDups
  (if x.fill.isSome then [] else ((units (unitBytes x.src) (srcAt x)).filter (needsRead x h)).map .read) ++
    ((units (unitBytes x.dst) (dstAt x)).filter (mayDeliver x h)).map .deliver

/-- A target of an engine's writes lies inside a scope of its cell; a virtual address lies where its page does (R194). -/
def placeInside (s : State) (m : Master) (p : Place) (a scope : Nat) : Bool :=
  match p with
  | .scratch => true
  | .cluster t => insideScope s (engineMsg m (.cell t) a 1) scope
  | .window pkg wid => insideScope s (engineMsg m (.window pkg wid) a 1) scope
  | .virt =>
    match heldPage s m a true, walk s m.part a false with
    | some h, _ => insideScope s (engineMsg m .pa (handleAddr h a) 1) scope
    | none, .leaf size pte => insideScope s (engineMsg m .pa (leafAddr size pte a) 1) scope
    | none, _ => true

/-- The widest scope that a record needs: package for SIG, its level for PH, cluster for EOS, otherwise that of the
entry's `tok` (R323 step 4). -/
def recScope (e : Entry) (r : Rec) : Nat :=
  match (if recSig r then [3] else []) ++ (if recPh r then [(recLevel r).toNat] else []) ++ (if recEos r then [1] else []) with
  | [] => e.scope.toNat
  | ls => ls.foldl max 0

/-- The units of the destination that a record has still to perform. -/
def lastUnits (x : Run) (h : Channel) : List (Nat × Nat) :=
  (((range h.cur (recBytes x.r - h.cur)).filter fun j => !performed h j).map (unitOf x (unitBytes x.dst) (dstAt x))).eraseDups

/-- What is left of a record may stay in the bag: it lies in the window, its bytes have been read, and its targets lie
outside the scope that the record needs, where a write counts as performed (R194, R323, R328, R331). -/
def mayLeaveRecord (s : State) (e : Entry) (x : Run) (h : Channel) : Bool :=
  let us := lastUnits x h
  decide (recBytes x.r ≤ h.cur + 4096) && us.all fun u =>
    let js := openRun h u
    js == openBytes h u && decide (0 ≤ dstAt x (js.headD u.1)) && (x.fill.isSome || js.all fun j => (look h.got j).isSome) &&
    !placeInside s x.m x.dst (dstAt x (js.headD u.1)).toNat (recScope e x.r)

/-- CUR moves to the first byte not yet performed, and the map with it (R328): `n` bytes at most. -/
def settleCursor : Nat → Nat → BitVec 4096 → Nat × BitVec 4096
  | 0, cur, map => (cur, map)
  | n + 1, cur, map => if bit map 0 then settleCursor n (cur + 1) (map >>> 1) else (cur, map)

/-- Bytes of a record are performed, by their places in transfer order. -/
def markBytes (js : List Nat) (h : Channel) : Channel :=
  let (cur, map) := settleCursor 4096 h.cur (js.foldl (fun m j => m ||| (1#4096 <<< (j - h.cur))) h.map)
  { h with cur := cur, map := map, got := js.foldl del h.got }

/-- The bytes of a unit are performed. -/
def markUnit (u : Nat × Nat) (h : Channel) : Channel := markBytes (openRun h u) h

/-- The value of byte `j` that a delivery writes. -/
def byteOf (x : Run) (h : Channel) (j : Nat) : Byte :=
  match x.fill with
  | some v => field v (8 * (j % 4)) 8
  | none => peek 0 h.got j

/-- The bytes of a run as debug mode notes them. -/
def moveSpan (s : State) (m : Master) (p : Place) (a n : Nat) : Span :=
  let place : DebugPlace × Nat := match p with
    | .scratch => (.cell m.id, a)
    | .virt => virtPlace s m.part a
    | .cluster t => (.cell t, a)
    | .window pkg wid => windowPlace s pkg wid a
  ⟨place.1, place.2, n⟩

/-- A read joins the deferred reads of a cell's bank, unless it waits there already (R105, R328). -/
def copyDefer (s : State) (id t a : Nat) : Option State :=
  match look s.cells t with
  | none => none
  | some c => if waitsFor c (.copy id) a then none else some (setCell s t (deferEngine s.now (.copy id) a 1 c))

def modChannel (s : State) (id : Nat) (ch : BitVec 2) (f : Channel → Channel) : State :=
  modCell s id fun c => setChannel c ch (f (getChannel c ch))

/-- Make one move of a record's bytes; none where it has to wait. -/
def makeMove (s : State) (id : Nat) (e : Entry) (ch : BitVec 2) (x : Run) (h : Channel) : ByteMove → Option State
  | .read u =>
    let a := srcAt x u.1
    if a < 0 then some (copyFault s id (staticLevel e) { code := .access, unit := 5 })
    else
      match readPlace s { x.m with rc := field x.r[7] 0 2 } x.src a.toNat u.2 with
      | .blocked => none
      | .asked s' => some s'
      | .deferred t w s' => copyDefer s' id t w
      | .miss e' s' => some (copyMiss s' id (staticLevel e) e')
      | .bytes bs s' =>
        let got := (openBytes h u).foldl (fun g j => put g j (bs.getD (j - u.1) 0)) h.got
        some (noteEngine (modChannel s' id ch fun h => { h with got := got }) id 2 e [moveSpan s x.m x.src a.toNat u.2])
  | .deliver u =>
    let js := openRun h u
    let j := js.headD u.1
    let a := dstAt x j
    if a < 0 then some (copyFault s id (staticLevel e) { code := .access, unit := 5 })
    else
      match writePlace s { x.m with rc := field x.r[7] 2 2 } x.dst a.toNat (js.map (byteOf x h)) with
      | .blocked => none
      | .asked s' => some s'
      | .miss e' s' => some (copyMiss s' id (staticLevel e) e')
      | .done s' => some (noteEngine (modChannel s' id ch (markUnit u)) id 2 e [moveSpan s x.m x.dst a.toNat js.length])
  | .leave =>
    let owe (u : Nat × Nat) : OwedWrite :=
      let js := openRun h u
      { seq := e.seq, place := x.dst, addr := (dstAt x (js.headD u.1)).toNat, bytes := js.map (byteOf x h), rc := field x.r[7] 2 2
        ch := ch, js := js }
    let ws := (lastUnits x h).map owe
    let s1 := modCell s id fun c =>
      setChannel { c with owed := c.owed ++ ws } ch { h with left := true, got := [] }
    some (noteEngine s1 id 2 e (ws.map fun w => moveSpan s x.m w.place w.addr w.bytes.length))

/-- A list from place `n` on, then its beginning. -/
def turned {α : Type} (n : Nat) (xs : List α) : List α := xs.drop (n % xs.length) ++ xs.take (n % xs.length)

/-- One of the moves that a record has before it, any of those that need not wait (R328, R331). -/
def moveOnce (s : State) (id : Nat) (e : Entry) (ch : BitVec 2) (x : Run) (h : Channel) : Option State :=
  let (v, s1) := freeValue s
  let moves := byteMoves x h ++ if mayLeaveRecord s e x h then [.leave] else []
  (turned v.toNat moves).findSome? (makeMove s1 id e ch x h)

/-! ### Performing a record (R323) -/

/-- A record's own bytes lie in scratch, or in virtual memory (R318). -/
def recordPlace (a : Nat) : Place := if a < Config.scratchBytes then .scratch else .virt

/-- The record at hand of a running entry: the captured one, or the one at HEAD. -/
def fetchRecord (s : State) (m : Master) (e : Entry) (h : Channel) : Got :=
  if isInline e.launch then
    .bytes ((List.range 8).flatMap fun n => bytesOf (cfgField 2 e.cfg n).toNat 8) s
  else
    let a := h.head.toNat
    if a < Config.scratchBytes then readSpan s m .scratch 2 a 64
    else readSpan s m .virt 8 a 64

def recOf (bs : List Byte) : Rec := Vector.ofFn fun i : Fin 8 => wordOf ((bs.drop (8 * i.val)).take 8)

/-- The end marker enters the landing buffer of its member, or waits for room (R324). -/
def sendMarker (s : State) (t : Nat) (part : BitVec 4) : State :=
  modCell s t fun c => admitMarkers { c with markers := c.markers ++ [⟨0, part, true⟩] }

/-- Step 5: the end marker, once (R323, R326). -/
def endMarker (s : State) (id : Nat) (c : Cell) (ch : BitVec 2) (r : Rec) : State :=
  match recEos r && !(getChannel c ch).eosSent, clusterTarget s c (nibble r[1] 24) (nibble r[1] 28) with
  | true, some t => modChannel (sendMarker s t c.part) id ch fun h => { h with eosSent := true }
  | _, _ => s

/-- Step 6: doubleword 0 is written back with OWN = 0. Where the record lies outside scratch the write may stay in the
entry's bag (R323, R331). -/
def writeBack (s : State) (m : Master) (e : Entry) (h : Channel) (r : Rec) : Wrote :=
  if isInline e.launch then .done s
  else
    let bs := bytesOf (r[0] &&& 0x7FFFFFFFFFFFFFFF).toNat 8
    let a := h.head.toNat
    if a < Config.scratchBytes then writePlace s m .scratch a bs
    else
      let s1 := { s with free := s.free + 1 }
      if Config.choice s.free then .done (modCell s1 m.id fun c => { c with owed := c.owed ++ [⟨e.seq, .virt, a, bs, 0, (channelOfLaunch e.launch).getD 0, [], false⟩] })
      else writePlace s1 m .virt a bs

/-- Steps 7 to 9: the decrement, the phase, the channel's next record (R323, R325, R327). -/
def endRecord (s : State) (id : Nat) (c : Cell) (e : Entry) (ch : BitVec 2) (r : Rec) : State :=
  let s2 := if recSig r then { s with decs := s.decs ++ [⟨id, c.part, field r[1] 32 16, field r[1] 48 16⟩] } else s
  let s3 := match e.counted with
    | some ph => countPhase s2 ph false
    | none => s2
  modCell s3 id fun c =>
    let h := { getChannel c ch with cur := 0, map := 0, atHand := none, got := [], eosSent := false, left := false }
    let c := modHead { c with owed := c.owed.map fun w => if w.seq = e.seq then { w with js := [] } else w } 2 fun e =>
      { e with counted := none }
    if isInline e.launch then finishHead (setChannel c ch { h with state := h.prior }) 2
    else
      let h := { h with head := recNext r }
      if recNext r = 0 then finishHead (setChannel c ch { h with state := .idle }) 2 else setChannel c ch h

/-- Steps 4 to 9 of a record whose bytes are performed. -/
def finishRecord (s : State) (id : Nat) (c : Cell) (e : Entry) (ch : BitVec 2) (r : Rec) : Option State :=
  let h := getChannel c ch
  let s1 := endMarker s id c ch r
  match writeBack s1 { id := id, part := c.part, ch := some ch } e h r with
  | .asked s2 => some s2
  | .blocked => if recEos r && !h.eosSent then some s1 else none
  | .miss e' s2 => some (copyMiss s2 id (staticLevel e) e')
  | .done s2 =>
    let own := if isInline e.launch then [] else [moveSpan s { id := id, part := c.part } (recordPlace h.head.toNat) h.head.toNat 8]
    some (endRecord (noteEngine s2 id 2 e own) id c e ch r)

/-- The next move of a record that has been read, checked and counted (R323). -/
def performRecord (s : State) (id : Nat) (c : Cell) (e : Entry) (ch : BitVec 2) (r : Rec) : Option State :=
  let fill := match e.launch with
    | .fill v _ => some v
    | _ => none
  let src := if fill.isSome then some (.scratch, 0) else epPlace s c r[2]
  match src, epPlace s c r[4] with
  | some (sp, sb), some (dp, db) =>
    let h := getChannel c ch
    if h.left || decide (recBytes r ≤ h.cur) then finishRecord s id c e ch r
    else moveOnce s id e ch { m := { id := id, part := c.part, ch := some ch }, r := r, fill := fill, src := sp, srcBase := sb, dst := dp, dstBase := db } h
  | _, _ => some (copyFault s id (staticLevel e) { code := .access, unit := 5 })

/-- Steps 1 and 2: the record is read, checked and counted (R323, R325, R327). -/
def takeRecord (s : State) (id : Nat) (c : Cell) (e : Entry) (ch : BitVec 2) : Option State :=
  let h := getChannel c ch
  let fill := match e.launch with
    | .fill _ _ => true
    | _ => false
  match fetchRecord s { id := id, part := c.part, ch := some ch } e h with
  | .blocked => none
  | .asked s' => some s'
  | .deferred t a s' => copyDefer s' id t a
  | .miss m s' => some (copyMiss s' id (staticLevel e) m)
  | .bytes bs s1 =>
    let r := recOf bs
    let read := if isInline e.launch then [] else [moveSpan s { id := id, part := c.part } (recordPlace h.head.toNat) h.head.toNat 64]
    let s1 := noteEngine s1 id 2 e read
    if !isInline e.launch && !recOwn r then
      some (modCell s1 id fun c => finishHead (setChannel c ch { h with state := .parked }) 2)
    else
      match recReason fill r with
      | some n => some (copyFault s1 id none (recordIllegal (if isInline e.launch then 0 else h.head) ch n))
      | none =>
        let ph := phaseItem s1 id c (recLevel r)
        if !recAccess s1 c fill r then
          some (copyFault s1 id (if recPh r then some (recLevel r) else staticLevel e) { code := .access, unit := 5 })
        else if recPh r && phaseFull s1 ph then none
        else
          let s2 := if recPh r then modCell (countPhase s1 ph true) id fun c => modHead c 2 fun e => { e with counted := some ph } else s1
          some (modChannel s2 id ch fun h => { h with atHand := some r })

/-- The next move of the walking channel of the running q2 entry: it reads and checks its next record, or makes one move of
the record at hand. An entry that had finished when a write of its bag was refused has nothing to do again (R235, R326). -/
def walkChannel (s : State) (id : Nat) : Option State :=
  match look s.cells id with
  | none => none
  | some c =>
    match runningHead c 2 with
    | none => none
    | some e =>
      match channelOfLaunch e.launch with
      | none => none
      | some ch =>
        let h := getChannel c ch
        if e.ended then some (setCell s id (finishHead (setChannel c ch { h with state := h.prior }) 2))
        else
          match h.atHand with
          | some r => performRecord s id c e ch r
          | none => takeRecord s id c e ch

/-- No write of the same entry that comes earlier in the bag writes one of its bytes (R331). -/
def mayPerform (ws : List OwedWrite) (i : Nat) (w : OwedWrite) : Bool :=
  (ws.take i).all fun x => !(x.seq == w.seq && x.place == w.place && overlaps x.addr x.bytes.length w.addr w.bytes.length)

/-- The entry of a bag's write has not completed yet; it stands at the head of q2. -/
def owingEntry (c : Cell) (w : OwedWrite) : Option Entry := (headEntry c 2).filter fun e => e.seq == w.seq

/-- A refused write of a bag: its entry takes the fault, as one of the record at hand would, and the write is made again with
it; where the entry is over, the write is dropped with what its entry still owed, and the trap stands alone (R235, R326,
R347; assumption 63). -/
def refuseOwed (s : State) (id i : Nat) (c : Cell) (w : OwedWrite) (t : Trap) : State :=
  match owingEntry c w with
  | some e =>
    let h := getChannel c w.ch
    let c1 := { c with owed := setAt c.owed i { w with refused := true } }
    let c2 :=
      if e.status = .finished then modHead (setChannel c1 w.ch { h with prior := h.state }) 2 fun e => { e with ended := true } else c1
    copyFault (setCell s id c2) id (staticLevel e) t
  | none =>
    let h := getChannel c w.ch
    raise (setCell s id { c with owed := c.owed.eraseIdx i, ends := c.ends.filter fun x => x.seq != w.seq }) id
      { t with d6 := h.head, d7 := (0 : BitVec 14) ++ w.ch ++ BitVec.ofNat 48 h.cur }

/-- A refused write waits for its entry to be tried again (R326, R344). -/
def heldRefused (c : Cell) (w : OwedWrite) : Bool :=
  w.refused && match owingEntry c w with
    | some e => (match e.status with
      | .faulted _ _ => true
      | _ => false)
    | none => false

/-- A write of a bag has been performed; while its record is at hand its bytes are marked (R328). -/
def settleOwed (i : Nat) (w : OwedWrite) (c : Cell) : Cell :=
  let c1 := { c with owed := c.owed.eraseIdx i }
  if w.js.isEmpty then c1 else setChannel c1 w.ch (markBytes w.js (getChannel c1 w.ch))

/-- Perform write `i` of the bags, or refuse it; one to a page that is not resident waits (R331). -/
def performOwed (s : State) (id i : Nat) : Option State :=
  match look s.cells id with
  | none => none
  | some c =>
    match c.owed[i]? with
    | none => none
    | some w =>
      if !mayPerform c.owed i w || heldRefused c w then none
      else
        match writePlace s { id := id, part := c.part, rc := w.rc, ch := some w.ch } w.place w.addr w.bytes with
        | .blocked => none
        | .asked s' => some s'
        | .done s' => some (modCell s' id (settleOwed i w))
        | .miss (.page va) s' => reportPage s' c.part va
        | .miss (.trap code a) s' =>
          (look s'.cells id).map fun c' => refuseOwed s' id i c' w { code := code, unit := 5, addr := BitVec.ofNat 64 a }

/-- One of the writes in the bags is performed, any that need not wait (R331). -/
def deliverOwed (s : State) (id : Nat) : Option State :=
  match look s.cells id with
  | none => none
  | some c =>
    let (v, s1) := freeValue s
    (turned v.toNat (List.range c.owed.length)).findSome? (performOwed s1 id)

/-- COPY_RECORD: one move of q2's engine, any that is enabled: of its bags or of the record at hand (R323, R325, R327, R328,
R331). -/
def copyRecord (id : Nat) (s : State) : Option State :=
  match look s.cells id with
  | none => none
  | some c =>
    if c.owed.isEmpty then walkChannel s id
    else
      let s1 := { s with free := s.free + 1 }
      if Config.choice s.free then (deliverOwed s1 id).or (walkChannel s1 id) else (walkChannel s1 id).or (deliverOwed s1 id)

def execCopyRecord (id : Nat) (s : State) : Host.Outcome State Fault Refusal := settle s (copyRecord id s)

/-! ### Deferred reads that time out (R105, R348) -/

/-- The reader of a timed-out read faults. -/
def timeOut (s : State) (id : Nat) (c : Cell) (d : Deferred) : State :=
  match d.reader with
  | .stream acc _ =>
    let s' := setCell s id (modCore c fun k => giveBack d.ldqBack.toList d.eaqBack.toList (setPlace k acc d.pc))
    raise s' id { code := .deferto, unit := streamUnit acc, word := codeWord c.mem d.pc.toNat }
  | .ldq n =>
    let s' := setCell s id (modCore c fun k => { k with refusedLoads := k.refusedLoads ++ [n] })
    raise s' id { code := .deferto, unit := 1, late := true, addr := BitVec.ofNat 64 d.addr, d6 := d.pc }
  | .msg n =>
    match look s.resps n with
    | some r => refuseMsg s n r.msg .deferto
    | none => s
  | .port j =>
    let c := { c with collar := stickWave j c.collar }
    let p := stripAt c.collar (BitVec.ofNat 4 j)
    stripFault (setCell s id c) id c (BitVec.ofNat 4 j) (portTrap .deferto (d.addr / 4 * 4 : Nat) p)
  | .copy n =>
    match (look s.cells n).bind fun x => runningHead x 2 with
    | some e => copyFault s n (staticLevel e) { code := .deferto, unit := 5, addr := BitVec.ofNat 64 d.addr }
    | none => s
  | .matrix => matrixTimeOut s id c d.addr

/-- DEFERTO: a read deferred for more than DEFER cycles of its bank's cell is removed, and its reader faults. Time does
not count while the cell is frozen (R348). -/
def deferTimeout (id i : Nat) (s : State) : Option State :=
  match look s.cells id with
  | none => none
  | some c =>
    match c.mem.deferred[i]? with
    | none => none
    | some d =>
      if c.frozen.isSome || s.now - d.since ≤ c.core.sr.defer.toNat then none
      else
        let c' := modMem c fun m => { m with deferred := m.deferred.eraseIdx i }
        some (timeOut (setCell s id c') id c' d)

def execDeferto (id i : Nat) (s : State) : Host.Outcome State Fault Refusal := settle s (deferTimeout id i s)

end Sys2Proof.Machine
end

