-- ==== Sys2Proof/Machine/Blender.lean ====
section
/-! DEFINITION. The Blender: admission, records and their checks, the plan, chunks, progress and faults (R378-R391). -/

namespace Sys2Proof.Machine

/-! ### Records (R380, R381, R386) -/

/-- One dimension of a layout: extent, axis (15 replicated), block, local stride. -/
structure Dim where
  ext : Nat
  map : Nat
  blk : Nat
  lstr : Nat

/-- A torus offset. -/
structure Torus where
  x : Int
  y : Int
  z : Int

/-- A layout record by its fields (R381). -/
structure Layout where
  ndim : Nat
  nax : Nat
  esz : Nat
  p : List Nat
  org : Torus
  str : List Torus
  wid : BitVec 16
  base : Nat
  dims : List Dim

/-- A doubleword of a record. -/
def rw (ws : List Word) (i : Nat) : Word := ws.getD i 0

def nat (w : Word) (lo len : Nat) : Nat := (field w lo len).toNat

def layoutOf (ws : List Word) : Layout :=
  let w2 := rw ws 2
  { ndim := nat (rw ws 0) 61 3, nax := nat (rw ws 0) 59 2, esz := 2 ^ nat (rw ws 0) 57 2
    p := (List.range 4).map fun a => nat (rw ws 1) (16 * a) 16
    org := ⟨nibble w2 48, nibble w2 52, nibble w2 56⟩
    str := (List.range 4).map fun a => ⟨nibble w2 (12 * a), nibble w2 (12 * a + 4), nibble w2 (12 * a + 8)⟩
    wid := field (rw ws 3) 48 16, base := nat (rw ws 3) 0 40
    dims := (List.range 6).map fun d =>
      { ext := nat (rw ws (4 + d)) 32 32, map := nat (rw ws (4 + d)) 28 4, blk := nat (rw ws (4 + d)) 0 24
        lstr := nat (rw ws (10 + d)) 0 40 } }

/-- Dimensions in use. -/
def Layout.used (l : Layout) : List Dim := l.dims.take l.ndim

/-- Zero fields, the unused axes and dimensions, MAP 4-14 (R383 reason 1). -/
def layoutReason1 (ws : List Word) : Bool :=
  let l := layoutOf ws
  field (rw ws 0) 0 57 != 0#57 || nat (rw ws 2) 60 4 != 0 || nat (rw ws 3) 40 8 != 0 ||
  (List.range 6).any (fun d => nat (rw ws (4 + d)) 24 4 != 0 || nat (rw ws (10 + d)) 40 24 != 0) ||
  (List.range 4).any (fun a => decide (l.nax < a) && l.p.getD a 0 != 0) ||
  (l.dims.drop l.ndim).any (fun d => d.ext != 0 || d.map != 0 || d.blk != 0 || d.lstr != 0) ||
  l.used.any fun d => (4 ≤ d.map && d.map ≤ 14) || (d.map == 15 && d.blk != 0)

/-- Reason 2 of R383. -/
def layoutReason2 (l : Layout) : Bool :=
  let maps := (l.used.filter fun d => d.map != 15).map (·.map)
  l.ndim == 0 || l.ndim == 7 || maps.any (fun m => decide (l.nax < m)) || maps.eraseDups.length != maps.length ||
  l.used.any fun d => d.ext == 0 || (d.map != 15 && d.blk == 0)

/-- Reason 3 of R383. -/
def layoutReason3 (l : Layout) : Bool :=
  let ps := l.p.take (l.nax + 1)
  ps.any (fun p => p == 0 || decide (512 < p)) || decide (512 < ps.foldl (· * ·) 1)

/-- Reason 4 of R383. -/
def layoutReason4 (a b : Layout) : Bool :=
  a.ndim != b.ndim || a.esz != b.esz || a.used.map (·.ext) != b.used.map (·.ext)

/-- Coordinates of a mesh, axis 0 fastest. -/
def coordsOf (l : Layout) : List (List Nat) :=
  let ps := l.p.take (l.nax + 1)
  (List.range (ps.foldl (· * ·) 1)).map fun n =>
    (ps.foldl (fun (acc : List Nat × Nat) p => (acc.1 ++ [acc.2 % p], acc.2 / p)) ([], n)).1

/-- The package at a mesh coordinate, from the running device (R382). -/
def packageAt (s : State) (l : Layout) (c : List Nat) : BitVec 9 :=
  let sum (f : Torus → Int) : Int := f l.org + ((c.zip l.str).map fun (k, t) => (k : Int) * f t).foldl (· + ·) 0
  torusTarget s (sum (·.x)) (sum (·.y)) (sum (·.z))

/-- Coordinates that wrap to the running device. -/
def ownCoords (s : State) (l : Layout) : List (List Nat) := (coordsOf l).filter fun c => packageAt s l c == s.fw.pkg

/-! ### The plan (R382, R384) -/

/-- A piece of one dimension: its length, its source coordinate, its local indices on both sides. -/
structure Piece where
  len : Nat
  scoord : Nat
  slocal : Nat
  dlocal : Nat

/-- Coordinate and local index of a global index (R382). -/
def coordOf (l : Layout) (d : Dim) (g : Nat) : Nat := if d.map = 15 then 0 else g / d.blk % l.p.getD d.map 1
def localOf (l : Layout) (d : Dim) (g : Nat) : Nat :=
  if d.map = 15 then g else g / (d.blk * l.p.getD d.map 1) * d.blk + g % d.blk

/-- Destination intervals of a dimension at an own coordinate. -/
def intervals (l : Layout) (d : Dim) (x : Nat) : List (Nat × Nat) :=
  if d.map = 15 then [(0, d.ext)]
  else
    let step := d.blk * l.p.getD d.map 1
    let lo := x * d.blk
    (List.range (ceilDiv (d.ext - lo) step)).map fun k => (k * step + lo, min (k * step + lo + d.blk) d.ext)

/-- An interval cut at the multiples of the source block. -/
def cuts (d : Dim) (g0 g1 : Nat) : List (Nat × Nat) :=
  if d.map = 15 then [(g0, g1)]
  else (range (g0 / d.blk) (ceilDiv g1 d.blk - g0 / d.blk)).map fun k => (max g0 (k * d.blk), min g1 ((k + 1) * d.blk))

def piecesOf (s d : Layout) (sd dd : Dim) (own : List Nat) : List Piece :=
  (intervals d dd (own.getD dd.map 0)).flatMap fun (g0, g1) => (cuts sd g0 g1).map fun (a, b) =>
    ⟨b - a, coordOf s sd a, localOf s sd a, localOf d dd a⟩

/-- Pieces of the six dimensions; an unused dimension has one trivial piece. -/
def planOf (s d : Layout) (own : List Nat) : List (List Piece) :=
  ((s.used.zip d.used).map fun (a, b) => piecesOf s d a b own) ++ List.replicate (6 - s.ndim) [⟨1, 0, 0, 0⟩]

def counts (plan : List (List Piece)) : List Nat := plan.map (·.length)

/-- Combinations before a cursor, both given from the highest dimension down. -/
def ordinalFrom : List Nat → List Nat → Nat
  | [], _ => 0
  | n :: ns, cs =>
    let below := ns.foldl (· * ·) 1
    if n ≤ cs.headD 0 then n * below else cs.headD 0 * below + ordinalFrom ns (cs.drop 1)

/-- Combinations before a cursor, dimension 5 most significant. -/
def ordinalOf (ns cs : List Nat) : Nat := ordinalFrom ns.reverse ((List.range ns.length).map fun d => cs.getD d 0).reverse

/-- Piece numbers of a combination, dimension 0 first. -/
def indicesOf : List Nat → Nat → List Nat
  | [], _ => []
  | n :: ns, k => k % n :: indicesOf ns (k / n)

/-- The first combination from `n` on that belongs to the part. -/
def firstOwn (parts part n : Nat) : Nat := n + (part + parts - n % parts) % parts

/-- One run: its pieces. -/
def runOf (plan : List (List Piece)) (n : Nat) : List Piece :=
  (plan.zip (indicesOf (counts plan) n)).map fun (ps, i) => ps.getD i ⟨0, 0, 0, 0⟩

/-- The source package of a run (R384). -/
def sourcePackage (st : State) (s d : Layout) (own : List Nat) (run : List Piece) : BitVec 9 :=
  let h := (own.zip d.p).foldr (fun (c, p) r => c + p * r) 0
  let k (a : Nat) : Nat :=
    match ((s.used.zip run).find? fun (x, _) => x.map == a) with
    | some (_, p) => p.scoord
    | none => h % s.p.getD a 1
  packageAt st s ((List.range (s.nax + 1)).map k)

/-! ### Chunks (R385) -/

/-- Extents of a run. -/
def extents (run : List Piece) : List Nat := run.map (·.len)

/-- Bytes of a dimension-0 row, rows of the run. -/
def runRow (esz : Nat) (run : List Piece) : Nat := (extents run).headD 0 * esz
def runRows (run : List Piece) : Nat := ((extents run).drop 1).foldl (· * ·) 1

/-- Chunks of a run. -/
def chunkCount (esz : Nat) (run : List Piece) : Nat :=
  let r := runRow esz run
  if r ≤ 65536 then ceilDiv (runRows run) (65536 / r) else runRows run * ceilDiv r 65536

/-- The element spans of a chunk: row number, first element, elements. -/
def chunkSpans (esz : Nat) (run : List Piece) (q : Nat) : List (Nat × Nat × Nat) :=
  let r := runRow esz run
  let n0 := (extents run).headD 0
  if r ≤ 65536 then
    let per := 65536 / r
    (range (q * per) (min per (runRows run - q * per))).map fun row => (row, 0, n0)
  else
    let upr := ceilDiv r 65536
    let per := 65536 / esz
    let first := q % upr * per
    [(q / upr, first, min per (n0 - first))]

/-- Byte offset of element `e` of row `row` of a run within its window (R382, R384). -/
def elementAt (l : Layout) (loc : Piece → Nat) (run : List Piece) (row e : Nat) : Nat :=
  let idx := e :: indicesOf ((extents run).drop 1) row
  l.base + (((run.zip idx).zip l.dims).map fun ((p, i), d) => (loc p + i) * d.lstr).foldl (· + ·) 0

/-- Accesses for `n` elements of one row that start at window offset `off`: aligned pieces of up to 128 bytes where elements
are contiguous, else one for each element. Pieces as offset and length (R385). -/
def rowPieces (l : Layout) (off n : Nat) : List (Nat × Nat) :=
  let step := (l.dims.headD ⟨0, 0, 0, 0⟩).lstr
  if step = l.esz then
    let last := off + n * l.esz
    (range (off / 128) (ceilDiv last 128 - off / 128)).map fun k =>
      (max off (128 * k), min last (128 * (k + 1)) - max off (128 * k))
  else (List.range n).map fun i => (off + i * step, l.esz)

/-- The pieces of a chunk at one side, in order. -/
def chunkPieces (l : Layout) (loc : Piece → Nat) (run : List Piece) (q : Nat) : List (Nat × Nat) :=
  (chunkSpans l.esz run q).flatMap fun (row, e, n) => rowPieces l (elementAt l loc run row e) n

/-- An access of a chunk: first every piece of the source is read, then every piece of the destination written (R385). -/
inductive ChunkAccess where
  | read (a n : Nat)
  | write (a n : Nat)
deriving DecidableEq, Repr

def chunkAccesses (sl dl : Layout) (run : List Piece) (q : Nat) : List ChunkAccess :=
  (chunkPieces sl (·.slocal) run q).map (fun p => .read p.1 p.2) ++ (chunkPieces dl (·.dlocal) run q).map fun p => .write p.1 p.2

/-! ### Progress (R386, R387) -/

/-- The progress record as a job commits it. -/
def progressBytes (j : Job) (state : BitVec 2) : List Byte :=
  let i (d : Nat) : BitVec 32 := BitVec.ofNat 32 (j.cursor.getD d 0)
  ([state ++ (0 : BitVec 5) ++ (field j.addr 7 50 : BitVec 50) ++ (0 : BitVec 7), zx j.cdone, i 1 ++ i 0, i 3 ++ i 2, i 5 ++ i 4,
    zx (BitVec.ofNat 32 j.ck), zx j.err, 0] : List Word).flatMap fun w => bytesOf w.toNat 8

/-- The master of a job's requests. The Blender, of which a die has one, has no site of its own in the manual: a `two` request
of a job steps the LFSR of the router of the cell that issued it (R176, R372; DESIGN CHOICE, assumption 46). -/
def masterOf (j : Job) : Master := { id := j.cell, part := j.part }

/-- A job's access of a record in virtual memory, as debug mode notes it (R410). -/
def noteRecord (s : State) (j : Job) (a n : Nat) : State := noteHead s j.cell 3 [moveSpan s (masterOf j) .virt a n]

/-- A progress record is written in one step; it must lie in HBM or a slice (R379, R387). -/
def writeProgress (s : State) (j : Job) (bs : List Byte) : Wrote :=
  match placeOfVa s (masterOf j) j.prog.toNat true with
  | (.error e, s') => .miss e s'
  | (.ok pa, s') =>
    match regionOf pa with
    | some 0 | some 1 =>
      (match writePhysical s' (masterOf j) pa (pageOffset j.prog.toNat) bs with
       | .done t => .done (noteRecord t j j.prog.toNat bs.length)
       | r => r)
    | _ => .miss (.trap .access (pageOffset j.prog.toNat)) s'

/-- A commit of a job (R387). -/
def commit (s : State) (j : Job) (state : BitVec 2) : Wrote := writeProgress s j (progressBytes j state)

/-! ### Ends and faults of a job (R388-R390) -/

def dropJob (s : State) (j : Job) : State := { s with jobs := s.jobs.filter fun x => !(x.cell == j.cell) }

/-- The job's entry has finished. -/
def finishJob (s : State) (j : Job) : State := modCell (dropJob s j) j.cell fun c => finishHead c 3

/-- Replace a job in place. -/
def putJob (s : State) (j : Job) : State := { s with jobs := s.jobs.map fun x => if x.cell = j.cell then j else x }

/-- A job waits for a page until firmware reports it resident; firmware is told once (R379). -/
def jobWaits (s : State) (j : Job) (va : Nat) : State :=
  let s1 := putJob s { j with waits := some (BitVec.ofNat 57 va) }
  (reportPage s1 j.part va).getD s1

/-! ### The start of a job (R379, R383, R384) -/

def wordsOfBytes (bs : List Byte) : List Word := (List.range (bs.length / 8)).map fun i => wordOf ((bs.drop (8 * i)).take 8)

/-- Read a record in virtual memory. -/
def readRecord (s : State) (j : Job) (a : Word) (n : Nat) : Got :=
  match readSpan s (masterOf j) .virt 4 a.toNat n with
  | .bytes bs t => .bytes bs (noteRecord t j a.toNat n)
  | r => r

/-- Reason 1 of a job record. -/
def jobReason1 (ws : List Word) : Bool :=
  let o := rw ws 3
  (List.range 3).any (fun i => nat (rw ws i) 57 7 != 0) || nat o 14 50 != 0 || nat o 10 2 != 0 || nat o 3 5 != 0 ||
  (range 4 12).any (fun i => rw ws i != 0) || nat o 8 2 == 3 || nat o 0 2 == 3 || decide (2 ^ nat o 8 2 ≤ nat o 12 2) ||
  nat (rw ws 0) 0 7 != 0 || nat (rw ws 1) 0 7 != 0 || nat (rw ws 2) 0 6 != 0

/-- The entry of a job ends in a fault and its cell traps (R390 steps 2 and 3). -/
def endInFault (s : State) (j : Job) (f : JobFault) : State :=
  engineFault (dropJob s j) j.cell 3
    { code := f.code, unit := 6, sub := if f.code = .illegal then 2 else 0, addr := BitVec.ofNat 64 f.addr, d6 := j.addr
      d7 := BitVec.ofNat 64 (j.ck % 2 ^ 32) } false

/-- A progress record at a fault of a job that has not started: STATE and ERR are set; a NEW record becomes this job's
(R390). -/
def faultedRecord (j : Job) (code : TrapCode) (ws : List Word) : List Byte :=
  let d0 := rw ws 0
  let owner : BitVec 62 := if nat d0 62 2 = 0 then (0 : BitVec 5) ++ (field j.addr 7 50 : BitVec 50) ++ (0 : BitVec 7) else field d0 0 62
  let d6 : Word := (field (rw ws 6) 8 56 : BitVec 56) ++ BitVec.ofNat 8 code.num
  ([(3 : BitVec 2) ++ owner, rw ws 1, rw ws 2, rw ws 3, rw ws 4, rw ws 5, d6, rw ws 7] : List Word).flatMap fun w => bytesOf w.toNat 8

/-- The job's last commit before it ends in its fault: FAULTED, where it commits at all. It waits for a page of the record and
for the record's controller; where the record cannot be reached nothing is committed (R379, R390 step 1). -/
def faultCommit (s : State) (j : Job) (f : JobFault) : Option State :=
  let end_ (j : Job) : Wrote → Option State
    | .done t => some (endInFault t j f)
    | .blocked | .asked _ => none
    | .miss (.page va) t => some (jobWaits t j va)
    | .miss (.trap _ _) t => some (endInFault t j f)
  match f.commits with
  | 0 => some (endInFault s j f)
  | 1 => end_ j (commit s { j with err := BitVec.ofNat 8 f.code.num } 3)
  | _ =>
    match readRecord s j j.prog 64 with
    | .bytes b s1 =>
      let ws := wordsOfBytes b
      end_ { j with ck := nat (rw ws 5) 0 32 } (writeProgress s1 j (faultedRecord j f.code ws))
    | .miss e s1 => end_ j (.miss e s1)
    | _ => none

/-- A job stops at a fault, and ends in it as soon as its commit is made (R390). -/
def jobFaults (s : State) (j : Job) (f : JobFault) : State :=
  let j' := { j with fault := some f }
  let s1 := putJob s j'
  (faultCommit s1 j' f).getD s1

/-- A fault of a job that has committed RUNNING, or that commits nothing. -/
def jobFault (s : State) (j : Job) (code : TrapCode) (a : Nat) (commits : Bool) : State :=
  jobFaults s j ⟨code, a, if commits then 1 else 0⟩

/-- What a miss does to a running job. -/
def jobMiss (s : State) (j : Job) (commits : Bool) : Miss → State
  | .trap code a => jobFault s j code a commits
  | .page va => jobWaits s j va

/-- A fault before the job has committed RUNNING, at its checks or at a record: FAULTED is committed where PROG is aligned
and can be reached (R390). -/
def beginFault (s : State) (j : Job) (prog : Word) (code : TrapCode) (a : Nat) : State :=
  jobFaults s { j with prog := prog } ⟨code, a, if nat prog 57 7 != 0 || nat prog 0 6 != 0 then 0 else 2⟩

/-- What a miss does to a job whose records are being read. -/
def beginMiss (s : State) (j : Job) (prog : Word) : Miss → State
  | .trap code a => beginFault s j prog code a
  | .page va => jobWaits s j va

/-- The progress record lies in HBM or a slice (R379). -/
def progPlace (s : State) (j : Job) (prog : Word) : Except Miss Unit × State :=
  match placeOfVa s (masterOf j) prog.toNat false with
  | (.error e, s') => (.error e, s')
  | (.ok pa, s') =>
    match regionOf pa with
    | some 0 | some 1 => (.ok (), s')
    | _ => (.error (.trap .access (pageOffset prog.toNat)), s')

/-- Zero fields of a progress record. -/
def progReason1 (ws : List Word) : Bool :=
  nat (rw ws 0) 57 5 != 0 || nat (rw ws 0) 0 7 != 0 || nat (rw ws 1) 48 16 != 0 || nat (rw ws 5) 32 32 != 0 ||
  nat (rw ws 6) 8 56 != 0 || rw ws 7 != 0

/-- The checks that the two layouts decide (R383 reasons 1 to 5). -/
def layoutReason (s : State) (src dst : List Word) : Option Nat :=
  let a := layoutOf src
  let b := layoutOf dst
  if layoutReason1 src || layoutReason1 dst then some 1
  else if layoutReason2 a || layoutReason2 b then some 2
  else if layoutReason3 a || layoutReason3 b then some 3
  else if layoutReason4 a b then some 4
  else if 2 ≤ (ownCoords s b).length then some 5
  else none

/-- The cursor of a progress record. -/
def cursorOf (ws : List Word) : List Nat :=
  (List.range 6).map fun d => nat (rw ws (2 + d / 2)) (32 * (d % 2)) 32

/-- A job whose records are read: the checks, then RUNNING is committed and the job runs, or it ends at once (R383,
R384). -/
def checkJob (s : State) (j : Job) (job src dst prog : List Word) : Option State :=
  let state := nat (rw prog 0) 62 2
  let mine := state == 0 || field (rw prog 0) 7 50 == (field j.addr 7 50 : BitVec 50)
  let j := { j with
    prog := rw job 2, opts := rw job 3, src := src, dst := dst, checked := true
    cursor := if state = 0 then List.replicate 6 0 else cursorOf prog, ck := if state = 0 then 0 else nat (rw prog 5) 0 32
    cdone := field (rw prog 1) 0 48, err := field (rw prog 6) 0 8 }
  let held := s.jobs.any fun x => x.die == j.die && x.cell != j.cell && x.checked && x.part == j.part && x.prog == j.prog
  let reason :=
    if progReason1 prog then some 1
    else (layoutReason s src dst).or (if !mine then some 6 else if held then some 7 else none)
  match reason with
  | some n => some (if n ≤ 5 then beginFault s j j.prog .illegal n else jobFault s j .illegal n false)
  | none =>
    if state = 2 then some (finishJob s j)
    else
      match commit s j 1 with
      | .blocked | .asked _ => none
      | .miss e s' => some (jobMiss s' j false e)
      | .done s1 =>
        if (ownCoords s1 (layoutOf dst)).isEmpty then
          match commit s1 j 2 with
          | .done s2 => some (finishJob s2 j)
          | _ => some (putJob s1 j)
        else some (putJob s1 j)

/-- Read the four records of an admitted job and check them (R379, R383). -/
def startJob (s : State) (j : Job) : Option State :=
  match readRecord s j j.addr 128 with
  | .miss e s' => some (jobMiss s' j false e)
  | .bytes b0 s0 =>
    let job := wordsOfBytes b0
    if jobReason1 job then some (beginFault s0 j (rw job 2) .illegal 1)
    else
      match readRecord s0 j (rw job 0) 128 with
      | .miss e s' => some (beginMiss s' j (rw job 2) e)
      | .bytes b1 s1 =>
        (match readRecord s1 j (rw job 1) 128 with
         | .miss e s' => some (beginMiss s' j (rw job 2) e)
         | .bytes b2 s2 =>
           (match progPlace s2 j (rw job 2) with
            | (.error e, s') => some (beginMiss s' j (rw job 2) e)
            | (.ok _, s') =>
              (match readRecord s' j (rw job 2) 64 with
               | .miss e s' => some (beginMiss s' j (rw job 2) e)
               | .bytes b3 s3 => checkJob s3 j job (wordsOfBytes b1) (wordsOfBytes b2) (wordsOfBytes b3)
               | _ => none))
         | _ => none)
      | _ => none
  | _ => none

/-! ### Admission (R378) -/

/-- Cells of a die whose q3 head may start, in ascending order. -/
def waitingBlends (s : State) (die : Nat) : List Nat :=
  (s.cells.filter fun (id, c) =>
    dieOfCell id == die && match headEntry c 3 with
      | some e => startable s id c 3 e
      | none => false).map (·.1)

/-- The cell whose job is admitted next: the first after the one admitted last, wrapping. -/
def nextBlend (s : State) (die : Nat) : Option Nat :=
  let ws := waitingBlends s die
  match look s.admitted die with
  | none => ws.head?
  | some l => (ws.find? fun w => decide (l < w)).or ws.head?

/-- Admit the job of a cell, check its records and plan its runs. -/
def admitJob (s : State) (id : Nat) (c : Cell) (e : Entry) : State :=
  match e.launch with
  | .blend addr =>
    let die := dieOfCell id
    if 8 ≤ (s.jobs.filter fun j => j.die.toNat == die).length || nextBlend s die ≠ some id then s
    else
      let j : Job := { die := BitVec.ofNat 2 die, cell := id, part := c.part, addr := addr, no := s.jobNo + 1 }
      let s1 := { setCell s id (begin_ c 3) with jobs := s.jobs ++ [j], admitted := put s.admitted die id, jobNo := s.jobNo + 1 }
      (startJob s1 j).getD s1
  | _ => s

/-- `blend` (R378, R383, R384). -/
def execBlend (s : State) : Host.Outcome State Fault Refusal :=
  startEntry 3 (fun l => match l with | .blend _ => true | _ => false) admitJob s

/-! ### Chunks of running jobs (R384, R385) -/

/-- The next chunk of a job: its run's ordinal and its number, past runs that have no chunk left; none at the end. -/
def nextChunk (esz : Nat) (plan : List (List Piece)) (parts part : Nat) (cursor : List Nat) (ck : Nat) : Option (Nat × Nat) :=
  let total := (counts plan).foldl (· * ·) 1
  let n := firstOwn parts part (ordinalOf (counts plan) cursor)
  if total ≤ n then none
  else if ck < chunkCount esz (runOf plan n) then some (n, ck)
  else if n + parts < total then some (n + parts, 0)
  else none

/-- The cursor past a chunk: the next chunk of its run, else the next run of the part, else past the last piece. -/
def cursorPast (esz : Nat) (plan : List (List Piece)) (parts n q : Nat) : List Nat × Nat :=
  let cs := counts plan
  let total := cs.foldl (· * ·) 1
  if q + 1 < chunkCount esz (runOf plan n) then (indicesOf cs n, q + 1)
  else if n + parts < total then (indicesOf cs (n + parts), 0)
  else (cs.headD 0 :: (indicesOf cs (total - 1)).drop 1, 0)

/-- A job has been served: the rotation goes on behind it. -/
def servedJob (s : State) (j : Job) : State := { s with jobServed := put s.jobServed j.die.toNat j.no }

/-- The next step of a chunk: its next piece is read or written, or, when all are and the writes performed, the cursor goes
past it and is committed (R385, R387). -/
def chunkStep (s : State) (j : Job) (sl dl : Layout) (plan : List (List Piece)) (own : List Nat) (parts n q : Nat) :
    Option State :=
  let run := runOf plan n
  let rc : BitVec 2 := if bit j.opts 2 then field j.opts 0 2 else 2
  let from_ := sourcePackage s sl dl own run
  let j := { j with cursor := indicesOf (counts plan) n, ck := q }
  let m := masterOf j
  match (chunkAccesses sl dl run q)[j.moved]? with
  | some (.read a n) =>
    (match readPlace s { m with rc := rc } (.window from_ sl.wid) a n with
     | .bytes bs s' =>
       some (noteHead (putJob s' { j with moved := j.moved + 1, data := j.data ++ bs }) j.cell 3
         [moveSpan s m (.window from_ sl.wid) a n])
     | .asked s' => some s'
     | .miss e s' => some (jobMiss s' j true e)
     | _ => none)
  | some (.write a n) =>
    (match writePlace s m (.window s.fw.pkg dl.wid) a (j.data.take n) with
     | .done s' =>
       some (noteHead (putJob s' { j with moved := j.moved + 1, data := j.data.drop n }) j.cell 3
         [moveSpan s m (.window s.fw.pkg dl.wid) a n])
     | .asked s' => some s'
     | .blocked => none
     | .miss e s' => some (jobMiss s' j true e))
  | none =>
    let (cur, ck) := cursorPast sl.esz plan parts n q
    let j' := { j with cursor := cur, ck := ck, cdone := j.cdone + 1, moved := 0, data := [] }
    match commit s j' 1 with
    | .done s' => some (servedJob (putJob s' j') j)
    | .blocked | .asked _ => none
    | .miss e s' => some (jobMiss s' j true e)

/-- Serve one job: its fault, its start, its next chunk with the commit behind it, or DONE. -/
def serveJob (s : State) (j : Job) : Option State :=
  match j.fault with
  | some f => faultCommit s j f
  | none =>
  if !j.checked then startJob s j
  else
    let sl := layoutOf j.src
    let dl := layoutOf j.dst
    let own := (ownCoords s dl).headD []
    let plan := planOf sl dl own
    let parts := 2 ^ nat j.opts 8 2
    match (if (ownCoords s dl).isEmpty then none else nextChunk sl.esz plan parts (nat j.opts 12 2) j.cursor j.ck) with
    | none =>
      (match commit s j 2 with
       | .done s' => some (finishJob s' j)
       | .blocked | .asked _ => none
       | .miss e s' => some (jobMiss s' j true e))
    | some (n, q) => chunkStep s j sl dl plan own parts n q

/-- The job may be served: its cell is neither frozen (R348) nor being halted (R389), and it waits for no page (R379). -/
def jobRuns (s : State) (j : Job) : Bool :=
  j.waits.isNone && match look s.cells j.cell with
    | none => false
    | some c => enginesRun c && !halting s c

/-- Serve the first job of a list that makes progress. -/
def serveFirst (s : State) : List Job → Option State
  | [] => none
  | j :: js => if jobRuns s j then (serveJob s j).or (serveFirst s js) else serveFirst s js

/-- The jobs of a die in the order in which they are to be served: that of their admission, from the one behind the job served
last (R378). -/
def serviceOrder (s : State) (die : BitVec 2) : List Job :=
  let js := s.jobs.filter fun j => j.die == die
  let last := peek 0 s.jobServed die.toNat
  js.filter (fun j => last < j.no) ++ js.filter fun j => j.no ≤ last

/-- BLENDER_CHUNK: the die's running jobs are served one chunk each, in rotation, piece by piece (R378, R385). -/
def blenderChunk (die : BitVec 2) (s : State) : Option State := serveFirst s (serviceOrder s die)

def execBlenderChunk (die : BitVec 2) (s : State) : Host.Outcome State Fault Refusal := settle s (blenderChunk die s)

end Sys2Proof.Machine
end

