-- ==== Sys2Proof/Machine/Complete.lean ====
section
/-! DEFINITION. Completion of queue entries (R234-R237, R263, R277, R325, R330). -/

namespace Sys2Proof.Machine

/-- Inputs that belong to the activated part of a `fire` or `recfg` (R277). -/
def ownInput (k : Collar) (entry exit : Bool) (key : Nat) : Bool :=
  if 64 ≤ key then entry
  else
    match halfOfStrip k (key / 4) with
    | none => false
    | some h => if exitSide h (key / 4) then exit else entry

/-- LD ports of the activated part (R266, R277). -/
def ownLoads (k : Collar) (entry exit : Bool) : List Nat :=
  [0, 1, 2].filter fun j =>
    match halfOfStrip k j with
    | none => false
    | some h => if exitSide h j then exit else entry

/-- Every stream of an LD port of the activated part has ended, and its tokens are consumed (R277). -/
def streamsEnded (k : Collar) (entry exit : Bool) : Bool :=
  let lds := ownLoads k entry exit
  lds.all (fun j => (stripAt k (BitVec.ofNat 4 j)).done && (stripAt k (BitVec.ofNat 4 j)).outQ.isEmpty) &&
  pathDrained k lds (ownInput k entry exit)

/-- Every write of an entry of q2 is performed at a scope: none in its bag lies inside it (R194, R331). -/
def bagSettled (s : State) (id : Nat) (c : Cell) (seq : BitVec 16) (scope : Nat) : Bool :=
  c.owed.all fun w => w.seq != seq || !placeInside s { id := id, part := c.part, ch := some w.ch } w.place w.addr scope

/-- The operation of the head entry of queue `q` has finished and its writes are performed (R235). -/
def operationOver (c : Cell) (q : BitVec 2) (e : Entry) : Bool :=
  match e.launch with
  | .fire => e.status == .running && e.swapped && streamsEnded c.collar true true
  | .recfgE _ => e.status == .running && e.swapped && streamsEnded c.collar true false
  | .recfgX _ => e.status == .running && e.swapped && streamsEnded c.collar false true
  | _ =>
    e.status == .finished && (q != 0 || (c.exitBank.isEmpty && pathDrained c.collar [16] fun _ => true))

/-- What an entry of q2 that has completed owes and may give now: each `sig` word's decrement once its writes are performed at
package scope, the phase item once they are at that item's level (R236, R330). -/
def payEnd (s : State) (id : Nat) (c : Cell) (x : OwedEnd) : State × OwedEnd :=
  let signals := bagSettled s id c x.seq 3
  let s1 := if signals then { s with decs := s.decs ++ x.sigs.map fun w => ⟨id, c.part, field w 0 16, field w 16 16⟩ } else s
  let y := if signals then { x with sigs := [] } else x
  match x.phase with
  | some ph => if bagSettled s id c x.seq ph.level.toNat then (countPhase s1 ph false, { y with phase := none }) else (s1, y)
  | none => (s1, y)

/-- Nothing is left of what an entry owed. -/
def OwedEnd.paid (x : OwedEnd) : Bool := x.sigs.isEmpty && x.phase.isNone

/-- What completion does: the production is done, DSEQ counts, each `sig` word sends a decrement and the phase item is
uncounted, as soon as the writes of the entry have gone far enough (R234-R237, R330). -/
def completeHead (s : State) (id : Nat) (c : Cell) (q : BitVec 2) (e : Entry) : State :=
  let (s1, x) := payEnd s id (if q = 2 then c else { c with owed := [] }) ⟨e.seq, e.sigs, e.phase⟩
  let c1 := if x.paid then c else { c with ends := c.ends ++ [x] }
  setCell s1 id (setQueue (modCore c1 (productionDone e.tok)) q
    { getQueue c q with dseq := (getQueue c q).dseq + 1, entries := (getQueue c q).entries.drop 1 })

/-- ENTRY_COMPLETE (R235). -/
def entryComplete (id : Nat) (q : BitVec 2) (s : State) : Option State :=
  match look s.cells id with
  | none => none
  | some c =>
    match headEntry c q with
    | none => none
    | some e =>
      if enginesRun c && operationOver c q e && (q != 2 || bagSettled s id c e.seq e.scope.toNat) then some (completeHead s id c q e)
      else none

/-- The entry of q2 that completed first of those that owe something gives what it may (R236, R330). -/
def entryEnds (id : Nat) (s : State) : Option State :=
  match look s.cells id with
  | none => none
  | some c =>
    match c.ends.findSome? fun x => let (t, y) := payEnd s id c x; if y = x then none else some (t, x, y) with
    | none => none
    | some (t, x, y) => some (modCell t id fun c => { c with ends := (c.ends.map fun z => if z = x then y else z).filter fun z => !z.paid })

def execEntryComplete (id : Nat) (q : BitVec 2) (s : State) : Host.Outcome State Fault Refusal :=
  settle s (entryComplete id q s)

end Sys2Proof.Machine
end

