-- ==== Sys2Proof/Machine/HostQueues.lean ====
section
/-! DEFINITION. What the host and firmware do to work queues, and how commands are read (R114, R393-R398). -/

namespace Sys2Proof.Machine

/-! ### The register page (R394, R395, R398) -/

/-- A write through the page of another partition's VF has no effect (R394); `none` is PF0. In recovery the device serves
only PF0 (R404). -/
def pageAdmits (recovery : Bool) (v : Queue) (port : Option (BitVec 4)) : Bool :=
  match port with
  | none => true
  | some p => p == v.part && !recovery

/-- The queue takes a TAIL, or stops with OVERRUN (R395). -/
def takeTail (s : State) (q : BitVec 12) (t : BitVec 32) : State :=
  let v := queueAt s q
  if 2 ^ v.lsize.toNat < (t - v.head).toNat then stopQueue s q 3 errOverrun
  else setQueueAt s q { v with tail := t }

/-- TAIL: the shadow takes every write; a queue that is not switched out takes it too (R394, R395, R398). -/
def writeTail (q : BitVec 12) (port : Option (BitVec 4)) (w : Word) (s : State) : Option State :=
  let v := queueAt s q
  if !pageAdmits s.fw.recovery v port then none
  else
    let t : BitVec 32 := field w 0 32
    let s1 := setQueueAt s q { v with shTail := t }
    some (if v.switched then s1 else takeTail s1 q t)

def execTail (q : BitVec 12) (port : Option (BitVec 4)) (w : Word) (s : State) : Host.Outcome State Fault Refusal :=
  settleQueues s (writeTail q port w s)

/-- NOTIFY sets the wake latch; the fetch at HEAD that it starts is enabled from then on, as it is from the TAIL write on
(R128, R394, R395). -/
def takeNotify (s : State) (q : BitVec 12) : State :=
  let v := queueAt s q
  let s1 := setQueueAt s q { v with shNotify := false }
  match v.task with
  | some t => wakeTask s1 t
  | none => s1

def writeNotify (q : BitVec 12) (port : Option (BitVec 4)) (s : State) : Option State :=
  let v := queueAt s q
  if !pageAdmits s.fw.recovery v port then none
  else if v.switched then some (setQueueAt s q { v with shNotify := true })
  else some (takeNotify s q)

def execNotify (q : BitVec 12) (port : Option (BitVec 4)) (s : State) : Host.Outcome State Fault Refusal :=
  settleQueues s (writeNotify q port s)

/-- QUEUE_SWITCH_IN: a queue of a partition that is resident again takes TAIL and NOTIFY from its shadow (R398). -/
def switchIn (q : BitVec 12) (s : State) : Option State :=
  let v := queueAt s q
  if !v.switched || !(partOf s v.part).resident then none
  else
    let s1 := takeTail (setQueueAt s q { v with switched := false }) q v.shTail
    some (if v.shNotify then takeNotify s1 q else s1)

def execQueueSwitchIn (q : BitVec 12) (s : State) : Host.Outcome State Fault Refusal := settleQueues s (switchIn q s)

/-- PROGRESS: the last committed HEAD, and SWITCHED (R394, R398). -/
def progressWord (v : Queue) : Word := BitVec.ofBool v.switched ++ (0 : BitVec 31) ++ v.head

/-- QERR: HELD, CLASS and CODE (R394). -/
def qerrWord (v : Queue) : Word :=
  match v.err with
  | some (cls, code) => (1 : BitVec 1) ++ (0 : BitVec 47) ++ cls ++ code
  | none => 0

/-- What the host reads at a doubleword of BAR0, through PF0 (`none`) or the VF of a partition: the configuration generation
(R133), PROGRESS and QERR of the queues mapped there, zeros in the rest of a page (R394). A read changes nothing. The
manual states no value elsewhere. -/
def barRead (s : State) (port : Option (BitVec 4)) (off : Nat) : Option Word :=
  if off = 0x100 then some (zx s.fw.cgen)
  else if 0x100000 ≤ off ∧ off < 0x140000 then
    let v := queueAt s (BitVec.ofNat 12 ((off - 0x100000) / 0x40))
    if !pageAdmits s.fw.recovery v port then none
    else
      match (off - 0x100000) % 0x40 with
      | 0x10 => some (progressWord v)
      | 0x18 => some (qerrWord v)
      | 0x20 | 0x28 | 0x30 | 0x38 => some 0
      | _ => none
  else none

/-- The scheduler saves a queue's descriptor: the queue is switched out until QUEUE_SWITCH_IN (R398). -/
def queueOut (s : State) (q : BitVec 12) : State := modQueueAt s q fun v => { v with switched := true }

/-! ### Reading commands (R116, R393, R396, R397) -/

/-- Address of the command at HEAD: BASE + 64 × (n mod 2^LSIZE) (R393). -/
def commandAddr (v : Queue) : Nat := v.base.toNat * 4096 + 64 * (v.head.toNat % 2 ^ v.lsize.toNat)

/-- The 64-byte read of the command at HEAD (R393, R397). -/
def readCommand (s : State) (v : Queue) : Got :=
  if v.loc then readSpan s (schedMaster v.part) .virt 2 (commandAddr v) 64
  else .bytes (readBytes s.mem (hostPa (commandAddr v)) 64) s

def commandOf (bs : List Byte) : Command := ⟨Vector.ofFn fun i : Fin 8 => wordOf ((bs.drop (8 * i.val)).take 8)⟩

/-- STAMP that command n carries (R396). -/
def stampOf (n : BitVec 32) : Nat := n.toNat % 65535 + 1

def stampFits (v : Queue) (c : Command) : Bool := (field c.dw[7] 0 16 : BitVec 16).toNat == stampOf v.head

/-- A reserved KIND, a nonzero zero field or a misaligned address (R396). -/
def badCommand (c : Command) : Bool :=
  let k := cmdKind c
  2 < k || field c.dw[0] 1 59 != 0 || field c.dw[2] 57 7 != 0 || field c.dw[3] 13 51 != 0 || field c.dw[4] 32 31 != 0 ||
  field c.dw[5] 57 7 != 0 || c.dw[6] != 0 || field c.dw[7] 16 48 != 0 ||
  (k == 0 && (field c.dw[2] 0 3 != 0 || field c.dw[5] 0 6 != 0)) ||
  (k == 1 && field c.dw[1] 32 32 != 0) || (k == 2 && field c.dw[1] 16 48 != 0)

/-- A launch that waits on a counter of another partition (R116). -/
def foreignWait (s : State) (v : Queue) (c : Command) : Bool :=
  cmdKind c == 0 && cmdWaits c && (counterAt s (cmdWaitCtr c)).part != v.part

/-- A command whose stamp fits is accepted, or stops the queue with BADCMD (R116, R396). A head that was charged before an
error stopped the queue, and is read again, stays charged (R117). -/
def acceptCommand (s : State) (q : BitVec 12) (c : Command) : State :=
  let v := { queueAt s q with rereads := 0 }
  if badCommand c || foreignWait s v c then stopQueue (setQueueAt s q v) q 3 errBadCmd
  else setQueueAt s q { v with cmd := some c, task := none }

/-- One read of the head command: accepted, mismatched for the n-th time, or missed. The ninth mismatch stops the queue
(R397). -/
def readHead (s : State) (q : BitVec 12) : Option State :=
  let v := queueAt s q
  match readCommand s v with
  | .bytes bs s' =>
    let c := commandOf bs
    if stampFits v c then some (acceptCommand s' q c)
    else if 8 ≤ v.rereads then some (stopQueue (setQueueAt s' q { v with rereads := 0 }) q 3 errStale)
    else some (setQueueAt s' q { v with rereads := v.rereads + 1 })
  | .miss (.trap code _) s' => some (stopQueue s' q 2 (BitVec.ofNat 8 code.num))
  | .miss (.page va) s' => reportPage s' v.part va
  | .blocked | .asked _ | .deferred _ _ _ => none

/-- The queue takes commands and its head is still to be read (R115, R395). -/
def wantsHead (v : Queue) : Bool :=
  v.en && v.err.isNone && !v.switched && !v.restore && v.cmd.isNone && v.head != v.tail

/-- COMMAND_FETCH: the first read (R397). -/
def commandFetch (q : BitVec 12) (s : State) : Option State :=
  let v := queueAt s q
  if wantsHead v && v.rereads == 0 then readHead s q else none

def execCommandFetch (q : BitVec 12) (s : State) : Host.Outcome State Fault Refusal := settleQueues s (commandFetch q s)

/-- COMMAND_REFETCH: a further read after a mismatch (R397). -/
def commandRefetch (q : BitVec 12) (s : State) : Option State :=
  let v := queueAt s q
  if wantsHead v && v.rereads != 0 then readHead s q else none

def execCommandRefetch (q : BitVec 12) (s : State) : Host.Outcome State Fault Refusal := settleQueues s (commandRefetch q s)

/-! ### Descriptor writes (R113, R114, R393) -/

/-- Doubleword 0 of a descriptor is written: EN that rises zeroes HEAD and TAIL (R113, R114, R393). A launch that has its task
stays the queue's one task until that ends, and its end counts no command of the new ring (R115; that HEAD stays then is a
DESIGN CHOICE, assumption 25). -/
def writeDw0 (v : Queue) (w : Word) : Option Queue :=
  let part : BitVec 4 := field w 56 4
  let prio : BitVec 6 := field w 48 6
  let tickets : BitVec 13 := field w 32 13
  if field w 54 2 ≠ 0 ∨ field w 45 3 ≠ 0 ∨ field w 21 11 ≠ 0 ∨ 47 < prio.toNat ∨ tickets = 0 ∨ 4096 < tickets.toNat ∨
      (v.en ∧ part ≠ v.part) then none
  else
    let v1 := { v with en := bit w 63, part := part, prio := prio, tickets := tickets }
    if bit w 63 && !v.en then
      let v2 := { v1 with head := 0, tail := 0, rereads := 0, shTail := 0, shNotify := false }
      some (if v.task.isSome then { v2 with earlier := true } else { v2 with cmd := none, charged := false })
    else some v1

/-- Doubleword 2: BASE, LSIZE of 4-15, LOC (R393). -/
def writeDw2 (v : Queue) (w : Word) : Option Queue :=
  if field w 1 7 ≠ 0 ∨ (field w 8 4 : BitVec 4).toNat < 4 then none
  else some { v with base := field w 12 52, lsize := field w 8 4, loc := bit w 0 }

/-- QUEUE_DESCRIPTOR_WRITE: doublewords 1 and 3 hold read-only fields, and zero fields in doubleword 1 (R113, R114,
R393). A queue given to a partition that is swapped out is switched out (R398). -/
def descriptorWrite (q : BitVec 12) (dw : BitVec 2) (w : Word) (s : State) : State :=
  let v := queueAt s q
  let done (r : Option Queue) : State :=
    match r with
    | some v' => setQueueAt s q v'
    | none => refuseWrite s v.part
  match dw.toNat with
  | 0 => done ((writeDw0 v w).map fun v' => { v' with switched := v'.switched || (partOf s v'.part).away })
  | 1 => done (if field w 40 24 ≠ 0 then none else some v)
  | 2 => done (writeDw2 v w)
  | _ => s

def execQueueDescriptorWrite (q : BitVec 12) (dw : BitVec 2) (w : Word) (s : State) : Host.Outcome State Fault Refusal :=
  settleQueues s (ofFirmware s (some (descriptorWrite q dw w s)))

/-- QERR_CLEAR: the queue leaves STOPPED; a head that no task has taken is read again (R115, R394). -/
def qerrClear (q : BitVec 12) (s : State) : State :=
  let v := queueAt s q
  setQueueAt s q { v with err := none, rereads := 0, cmd := if v.task.isSome then v.cmd else none }

def execQerrClear (q : BitVec 12) (s : State) : Host.Outcome State Fault Refusal :=
  settleQueues s (ofFirmware s (some (qerrClear q s)))

end Sys2Proof.Machine
end

