-- ==== Sys2Proof/Machine/Sched.lean ====
section
/-! DEFINITION. The scheduler's counters, ARM and FREE commands and the choice of what runs (R116-R123, R130). -/

namespace Sys2Proof.Machine

/-! ### Counters (R102, R122, R128) -/

/-- STALE-SIGNAL is logged to the sender's partition (R122, R400). -/
def staleSignal (s : State) (d : Dec) : State := postEvent s d.part 4 0 d.ctr 0 0

/-- The execute stream of a cell waits at a `waitc` on counter `n`, generation `g` (R102). -/
def waitsOnCounter (c : Cell) (n g : BitVec 16) : Bool :=
  let p := nextPlace c false
  let operand : Word := (0 : BitVec 32) ++ g ++ n
  fetchOk c.mem p &&
    match decodeCore (codeWord c.mem p.toNat) with
    | .ok (.waitc a) =>
      if a = 30 then
        (match c.core.ldq with
         | e :: _ => e.filled && e.vals.head? == some operand
         | [] => false)
      else getReg c.core false a == operand
    | _ => false

/-- A counter that fires is noted in a context that waits on it and is away, or is being halted: the event is delivered
there at restore (R359). -/
def noteFired (n g : BitVec 16) (c : Cell) : Cell :=
  if waitsOnCounter c n g then modCore c fun k => { k with fired := some (g ++ n) } else c

/-- A counter that has fired wakes the tasks with a member that waits on it (R128). -/
def wakeWaiters (s : State) (n g : BitVec 16) : State :=
  let waits (k : Nat) (t : Task) : Bool := (contextsNamed s k t).any fun c => waitsOnCounter c n g
  { s with
    cells := s.cells.map fun (k, c) => (k, if halting s c then noteFired n g c else c)
    shadow := s.shadow.map fun (k, cs) => (k, cs.map fun (i, c) => (i, noteFired n g c))
    tasks := s.tasks.map fun (k, t) =>
      (k, { t with frames := t.frames.map (noteFired n g), wake := t.wake || waits k t }) }

/-- `m` matching decrements reach a counter in one cycle (R122). -/
def applyDecrements (s : State) (n : BitVec 16) (good : List Dec) : State :=
  let k := counterAt s n
  let m := good.length
  if m = 0 then s
  else
    match k.state with
    | .free => good.foldl staleSignal s
    | .faulted => s
    | _ =>
      if m < k.value.toNat then setCounter s n { k with value := k.value - BitVec.ofNat 16 m }
      else if m = k.value.toNat then wakeWaiters (setCounter s n { k with state := .fired, value := 0 }) n k.gen
      else stopQueue (setCounter s n { k with state := .faulted, value := 0 }) k.queue 2 (BitVec.ofNat 8 TrapCode.ctrUnderflow.num)

/-- COUNTER_DECREMENT: the decrements on their way that `picks` names arrive at a counter in one cycle (R122); those of
one sender arrive in the order in which they were sent (R101). -/
def counterDecrement (n : BitVec 16) (picks : List Nat) (s : State) : Option State :=
  let here (p : Dec × Nat) : Bool := picks.contains p.2 && p.1.ctr == n
  let arrive := (s.decs.zipIdx.filter here).map (·.1)
  let rest := (s.decs.zipIdx.filter fun p => !here p).map (·.1)
  let overtaken (p q : Dec × Nat) : Bool := !here q && q.2 < p.2 && q.1.ctr == n && q.1.sender == p.1.sender
  if arrive.isEmpty || s.decs.zipIdx.any (fun p => here p && s.decs.zipIdx.any (overtaken p)) then none
  else
    let g := (counterAt s n).gen
    let s1 := (arrive.filter fun d => d.gen != g).foldl staleSignal { s with decs := rest }
    some (applyDecrements s1 n (arrive.filter fun d => d.gen == g))

def execCounterDecrement (n : BitVec 16) (picks : List Nat) (s : State) : Host.Outcome State Fault Refusal :=
  settleQueues s (counterDecrement n picks s)

/-- A counter is freed: generation plus 1 (R122). -/
def freeCounter (s : State) (n : BitVec 16) : State :=
  let k := counterAt s n
  setCounter s n { k with state := .free, value := 0, gen := k.gen + 1 }

/-! ### The choice (R117, R118, R120) -/

/-- A launch of the queue waits at stage 3 for cells or slot blocks (R120, R174). -/
def waitsForCells (s : State) (v : Queue) : Bool :=
  match v.task.bind (look s.tasks) with
  | some t => t.stage == .allocate
  | none => false

/-- The level at which a partition's dispatcher is held: by the queue it has chosen, or by a launch that waits for cells.
Only a higher level is chosen meanwhile (R118, R120). -/
def heldLevel (s : State) (p : BitVec 4) : Option Nat :=
  let held := s.queues.filter fun x =>
    x.2.part == p && isReady s x.2 &&
    ((partOf s p).chosen == some (BitVec.ofNat 12 x.1) || waitsForCells s x.2)
  (held.map fun x => x.2.prio.toNat).foldl (fun m n => some (max n (m.getD n))) none

/-- READY queues of a partition, in number order: a launch in the pipeline keeps its queue READY until stage 7 (R115). -/
def candidates (s : State) (p : BitVec 4) : List (Nat × Queue) :=
  s.queues.filter fun x => x.2.part == p && !x.2.switched && isReady s x.2

/-- The choice may be acted on: its head is not in the pipeline already, and its level is above the one at which the
dispatcher is held (R117, R118, R120). -/
def startsNow (s : State) (p : BitVec 4) (v : Queue) : Bool :=
  (v.restore || v.task.isNone) && match heldLevel s p with
    | none => true
    | some l => decide (l < v.prio.toNat)

/-- The highest level with a READY queue. -/
def topLevel (s : State) (p : BitVec 4) : Nat := ((candidates s p).map fun x => x.2.prio.toNat).foldl max 0

/-- The queue with the least PASS, the first of equals. -/
def leastQueue : List (Nat × Queue) → Option (Nat × Queue)
  | [] => none
  | x :: xs =>
    match leastQueue xs with
    | none => some x
    | some y => some (if passBefore y.2.pass x.2.pass then y else x)

/-- The queue that R117 names: at the highest level, a restore before all, else the least PASS. -/
def namedQueue (s : State) (p : BitVec 4) : Option (Nat × Queue) :=
  let level := (candidates s p).filter fun x => x.2.prio.toNat == topLevel s p
  match level.find? (·.2.restore) with
  | some x => some x
  | none => leastQueue level

/-- The choice of R117, where there is something to start. -/
def chooseQueue (s : State) (p : BitVec 4) : Option (Nat × Queue) :=
  (namedQueue s p).filter fun x => startsNow s p x.2

/-- The head is a LAUNCH. -/
def headIsLaunch (v : Queue) : Bool :=
  match v.cmd with
  | some c => cmdKind c == 0
  | none => false

/-- A LAUNCH is charged when it is first chosen (R117). -/
def charge (v : Queue) : Queue :=
  if !v.restore && headIsLaunch v && !v.charged then { v with pass := v.pass + strideOfQueue v, charged := true } else v

/-- DISPATCH: the dispatcher of a resident partition chooses; the chosen head is started next (R117). -/
def dispatchPart (p : BitVec 4) (s : State) : Option State :=
  if !(partOf s p).resident then none
  else
    match chooseQueue s p with
    | none => none
    | some (n, v) =>
      some (modPart { s with queues := put s.queues n (charge v) } p fun x => { x with chosen := some (BitVec.ofNat 12 n) })

def execDispatch (p : BitVec 4) (s : State) : Host.Outcome State Fault Refusal := settleQueues s (dispatchPart p s)

/-- The dispatcher is free again. -/
def clearChosen (s : State) (p : BitVec 4) : State := modPart s p fun x => { x with chosen := none }

/-- The queue is the choice of its partition, which is resident, and still READY. -/
def isChosen (s : State) (q : BitVec 12) : Bool :=
  let v := queueAt s q
  (partOf s v.part).resident && (partOf s v.part).chosen == some q && isReady s v

/-- The head command is done: HEAD advances (R393). -/
def finishCommand (s : State) (q : BitVec 12) : State :=
  modQueueAt s q fun v => { v with
    head := if v.earlier then v.head else v.head + 1, cmd := none, charged := false, task := none, restore := false
    earlier := false }

/-! ### ARM and FREE (R116, R122) -/

/-- ARM at the head of the chosen queue. -/
def armHead (q : BitVec 12) (s : State) : Option State :=
  let v := queueAt s q
  match v.cmd with
  | none => none
  | some c =>
    if !isChosen s q || v.restore || cmdKind c ≠ 1 then none
    else
      let k := counterAt s (cmdCounter c)
      let s1 := clearChosen s v.part
      if k.part ≠ v.part ∨ k.state = .armed ∨ k.state = .faulted then some (stopQueue s1 q 3 errArm)
      else
        let n := cmdCount c
        some (finishCommand
          (setCounter s1 (cmdCounter c) { k with state := if n = 0 then .fired else .armed, value := n, queue := q }) q)

def execArm (q : BitVec 12) (s : State) : Host.Outcome State Fault Refusal := settleQueues s (armHead q s)

/-- FREE at the head of the chosen queue. -/
def freeHead (q : BitVec 12) (s : State) : Option State :=
  let v := queueAt s q
  match v.cmd with
  | none => none
  | some c =>
    if !isChosen s q || v.restore || cmdKind c ≠ 2 then none
    else
      let s1 := clearChosen s v.part
      if (counterAt s (cmdCounter c)).part ≠ v.part then some (stopQueue s1 q 3 errBadCmd)
      else some (finishCommand (freeCounter s1 (cmdCounter c)) q)

def execFree (q : BitVec 12) (s : State) : Host.Outcome State Fault Refusal := settleQueues s (freeHead q s)

end Sys2Proof.Machine
end

