-- ==== Sys2Proof/Machine/Image.lean ====
section
/-! DEFINITION. Images: header, sections, data blocks and graphs, and the checks of stage 1 (R124, R132, R133). -/

namespace Sys2Proof.Machine

def imageDw (m : Image) (n : Nat) : Word := readWord m.bytes (8 * n) 8

def imgGrowth (m : Image) : Nat := (field (imageDw m 1) 60 4 : BitVec 4).toNat
def imgCodeLen (m : Image) : Nat := (field (imageDw m 1) 39 21 : BitVec 21).toNat
def imgConstLen (m : Image) : Nat := (field (imageDw m 1) 18 21 : BitVec 21).toNat
/-- Doublewords of the uniform block. -/
def imgULen (m : Image) : Nat := (field (imageDw m 1) 8 10 : BitVec 10).toNat
def imgCgen (m : Image) : BitVec 16 := field (imageDw m 2) 48 16
def imgW (m : Image) : Nat := (field (imageDw m 2) 45 3 : BitVec 3).toNat + 1
def imgH (m : Image) : Nat := (field (imageDw m 2) 42 3 : BitVec 3).toNat + 1
def imgBlocks (m : Image) : Nat := (field (imageDw m 2) 37 5 : BitVec 5).toNat
def imgDataCount (m : Image) : Nat := (field (imageDw m 2) 21 16 : BitVec 16).toNat
def imgGraphCount (m : Image) : Nat := (field (imageDw m 2) 16 5 : BitVec 5).toNat
def imgDataOff (m : Image) : Nat := (field (imageDw m 3) 32 32 : BitVec 32).toNat
def imgGraphOff (m : Image) : Nat := (field (imageDw m 3) 0 32 : BitVec 32).toNat

/-- Byte offset of the code section in an image (R133). -/
abbrev codeStart : Nat := 64

/-- Round up to a multiple of 8. -/
def round8 (n : Nat) : Nat := (n + 7) / 8 * 8

/-- Blocks of the data section from byte `at_` on: descriptor word and byte offset of the contents; with them the end of
the section (R133). -/
def dataFrom (m : Mem) : Nat → Nat → List (Word × Nat) × Nat
  | 0, at_ => ([], at_)
  | n + 1, at_ =>
    let d := readWord m at_ 8
    let (ds, e) := dataFrom m n (at_ + 8 + round8 (field d 32 20 : BitVec 20).toNat)
    ((d, at_ + 8) :: ds, e)

def blockLength (d : Word) : Nat := (field d 32 20 : BitVec 20).toNat
def blockAddr (d : Word) : Nat := (field d 0 20 : BitVec 20).toNat

/-- Data blocks of an image: scratch address and bytes (R133, R203). -/
def dataBlocks (m : Image) : List (Nat × List Byte) :=
  (dataFrom m.bytes (imgDataCount m) (imgDataOff m)).1.map fun (d, a) => (blockAddr d, readBytes m.bytes a (blockLength d))

/-- Bytes of a graph entry (R133). -/
abbrev graphBytes : Nat := 8256

/-- Context number and abstract context of graph `n` (R133). -/
def graphCtx (m : Image) (n : Nat) : BitVec 4 := field (readWord m.bytes (imgGraphOff m + graphBytes * n) 8) 0 4

def graphContext (m : Image) (n : Nat) : Mem :=
  let a := imgGraphOff m + graphBytes * n + 64
  (m.bytes.filter fun (k, _) => a ≤ k && k < a + 0x2000).map fun (k, v) => (k - a, v)

/-- Two sections, each a start and an end, share no byte; an empty one shares none. -/
def apart (a b : Nat × Nat) : Bool := a.2 ≤ a.1 || b.2 ≤ b.1 || a.2 ≤ b.1 || b.2 ≤ a.1

/-- A descriptor of the data section is in range (R133). -/
def blockFits (d : Word) : Bool :=
  field d 52 12 == 0 && field d 20 12 == 0 && 1 ≤ blockLength d && blockLength d ≤ Config.scratchBytes &&
  blockAddr d + blockLength d ≤ Config.scratchBytes

/-- A graph descriptor holds nothing but its context number (R133). -/
def graphFits (m : Image) (n : Nat) : Bool :=
  let a := imgGraphOff m + graphBytes * n
  field (readWord m.bytes a 8) 4 60 == 0 && (List.range 7).all fun i => readWord m.bytes (a + 8 + 8 * i) 8 == 0

/-- The header keeps the ranges of R132 and R133. -/
def headerFits (m : Image) : Bool :=
  let code := (codeStart, codeStart + imgCodeLen m + imgConstLen m)
  let (blocks, dataEnd) := dataFrom m.bytes (imgDataCount m) (imgDataOff m)
  let data := (imgDataOff m, dataEnd)
  let graph := (imgGraphOff m, imgGraphOff m + graphBytes * imgGraphCount m)
  let hdr := (0, codeStart)
  let inside (x : Nat × Nat) : Bool := x.2 ≤ x.1 || x.2 ≤ m.len
  decide (64 ≤ m.len) && imgCodeLen m % 4 == 0 && imgConstLen m % 4 == 0 && decide (imgCodeLen m + imgConstLen m ≤ 1048576) &&
  decide (1 ≤ imgULen m) && decide (imgULen m ≤ 512) && field (imageDw m 1) 0 8 == 0 &&
  decide (imgBlocks m ≤ 16) && decide (imgGraphCount m ≤ 16) && field (imageDw m 2) 0 16 == 0 &&
  imgDataOff m % 8 == 0 && imgGraphOff m % 64 == 0 && ([4, 5, 6, 7].all fun n => imageDw m n == 0) &&
  inside code && inside data && inside graph && apart hdr data && apart hdr graph && apart code data && apart code graph &&
  apart data graph && blocks.all (fun b => blockFits b.1) && (List.range (imgGraphCount m)).all (graphFits m)

/-- The word of an image's code and constant sections at a code offset. -/
def imageWord (m : Image) (off : Nat) : BitVec 32 := field (readWord m.bytes (codeStart + off) 4) 0 32

/-- The code section as words. -/
def imageCode (m : Image) : List (BitVec 32) := (List.range (imgCodeLen m / 4)).map fun i => imageWord m (4 * i)

end Sys2Proof.Machine
end

