-- ==== Sys2Proof/Machine/BindingTime.lean ====
section
/-! DEFINITION. Binding-time rules: the registers an instruction names, dynamic regions, static registers and the check of
an image (R135-R138). -/

namespace Sys2Proof.Machine

/-! ### Registers that an instruction names -/

/-- The file, the sources and the destination of an instruction. -/
structure Names where
  y : Bool
  srcs : List (BitVec 5) := []
  dst : Option (BitVec 5) := none
deriving DecidableEq, Repr

/-- What a core instruction reads and writes. -/
def namesOf : Instr → Names
  | .add y _ d a b | .sub y _ d a b | .and y _ d a b | .or y _ d a b | .xor y _ d a b | .andn y _ d a b
  | .orn y _ d a b | .sll y _ d a b | .srl y _ d a b | .sra y _ d a b | .rol y _ d a b | .ror y _ d a b
  | .slt y _ d a b | .sltn y _ d a b | .min y _ d a b | .max y _ d a b | .minn y _ d a b | .maxn y _ d a b
  | .mul y _ d a b | .mulh y _ d a b | .mulhn y _ d a b | .div y _ d a b | .divn y _ d a b | .rem y _ d a b
  | .remn y _ d a b | .bfx y _ d a b => ⟨y, [a, b], some d⟩
  | .bfi y _ d a b => ⟨y, [a, b, d], some d⟩
  | .sel y _ d a b c => ⟨y, [a, b, c], some d⟩
  | .clz y _ d a | .ctz y _ d a | .popc y _ d a | .sxb y _ d a | .sxh y _ d a | .sxw y _ d a | .zxb y _ d a
  | .zxh y _ d a | .zxw y _ d a => ⟨y, [a], some d⟩
  | .addi y _ d a _ | .andi y _ d a _ | .ori y _ d a _ | .xori y _ d a _ | .slti y _ d a _ | .sltni y _ d a _
  | .muli y _ d a _ | .jalr y d a _ => ⟨y, [a], some d⟩
  | .shiSll y _ d a _ | .shiSrl y _ d a _ | .shiSra y _ d a _ | .shiRol y _ d a _ | .shiRor y _ d a _ => ⟨y, [a], some d⟩
  | .lui y _ d _ => ⟨y, [], some d⟩
  | .aui y _ d _ | .lic y _ d _ => ⟨y, [d], some d⟩
  | .beq y _ a b _ | .bne y _ a b _ | .blt y _ a b _ | .bge y _ a b _ | .bltn y _ a b _ | .bgen y _ a b _
  | .chkb y a b => ⟨y, [a, b], none⟩
  | .bbs y _ a _ _ | .bbc y _ a _ _ => ⟨y, [a], none⟩
  | .jal y _ => ⟨y, [], some 1⟩
  | .loop y _ a _ => ⟨y, [a], some a⟩
  | .ldb y d b _ _ | .ldh y d b _ _ | .ldw y d b _ _ | .ldd y d b _ _ | .ldbn y d b _ _ | .ldhn y d b _ _
  | .ldwn y d b _ _ => ⟨y, [b], some d⟩
  | .ldu y _ d b _ => ⟨y, [b], some d⟩
  | .stb y s b _ _ | .sth y s b _ _ | .stw y s b _ _ | .std y s b _ _ => ⟨y, [s, b], none⟩
  | .hld d _ _ _ x _ | .hldn d _ _ _ x _ => ⟨true, [x], some d⟩
  | .hst s _ _ _ x _ | .hstnt s _ _ _ x _ => ⟨true, [s, x], none⟩
  | .xlatR _ a | .xlatRw _ a | .swadv _ a => ⟨true, [a], none⟩
  | .amo d _ _ x k _ => ⟨true, [x, d] ++ (if k = 2 then [d + 1] else []), some d⟩
  | .rld d p o _ _ _ => ⟨true, [p, o], some d⟩
  | .rldLine p o _ _ => ⟨true, [p, o], some 30⟩
  | .rst s p o _ _ _ => ⟨true, [s, p, o], none⟩
  | .ramo d p o _ _ k _ => ⟨true, [p, o, d] ++ (if k = 2 then [d + 1] else []), some d⟩
  | .barr d a _ _ => ⟨false, [a], some d⟩
  | .sig a | .waitc a | .mts a _ => ⟨false, [a], none⟩
  | .clrp a b | .setp a b => ⟨false, [a, b], none⟩
  | .enq _ f c => ⟨false, (range 0 (c.toNat + 1)).map fun j => f + BitVec.ofNat 5 j, none⟩
  | .tokq d _ => ⟨false, [], some d⟩
  | .kset _ x _ | .krange _ x => ⟨false, [x], none⟩
  | .kpop _ x => ⟨false, [], some x⟩
  | .swopen _ a b => ⟨true, [a, b], none⟩
  | .mfs y d _ => ⟨y, [], some d⟩
  | .hrel _ | .swclose _ => ⟨true, [], none⟩
  | .fence y _ _ _ | .drain y _ | .nop y | .trap y _ | .brk y _ | .j y _ _ => ⟨y, [], none⟩
  | _ => ⟨false, [], none⟩

/-- Bit of a register in a set of both files. -/
def regBit (y : Bool) (r : BitVec 5) : Nat := (if y then 32 else 0) + r.toNat

/-! ### Words of a code section -/

/-- The decoded word `i` of a code section; none for a malformed one. -/
def insAt (code : List (BitVec 32)) (i : Nat) : Option Instr :=
  match decodeCore (code.getD i 0) with
  | .ok x => some x
  | .reject _ => none

def markS (w : BitVec 32) : Bool := bit w 30
def majorOf (w : BitVec 32) : Nat := (field w 24 6 : BitVec 6).toNat

/-- The classes that may carry S = 1 (R21). -/
def mayMark (w : BitVec 32) : Bool :=
  let m := majorOf w
  (1 ≤ m && m ≤ 0x0E) || (0x10 ≤ m && m ≤ 0x18) || m == 0x1B || m == 0x27

/-- The word offset of a transfer of majors 0x10-0x19 and 0x1B (R27). -/
def transferOffset : Instr → Option Int
  | .beq _ _ _ _ o | .bne _ _ _ _ o | .blt _ _ _ _ o | .bge _ _ _ _ o | .bltn _ _ _ _ o | .bgen _ _ _ _ o
  | .loop _ _ _ o => some o.toInt
  | .bbs _ _ _ _ o | .bbc _ _ _ _ o => some o.toInt
  | .j _ _ o | .jal _ o => some o.toInt
  | _ => none

def isJal : Instr → Bool
  | .jal _ _ => true
  | _ => false

/-- A branch or `j`, as region closure and violation 5 mean it (R136, R138). -/
def branchTarget (code : List (BitVec 32)) (i : Nat) : Option Int :=
  (insAt code i).bind fun x => if isJal x then none else (transferOffset x).map fun o => i + o

/-- A dynamic branch: majors 0x10-0x17 or 0x1B with S = 0 (R136). -/
def isDynamicBranch (w : BitVec 32) : Bool :=
  !markS w && ((0x10 ≤ majorOf w && majorOf w ≤ 0x17) || majorOf w == 0x1B)

/-- A target below 0 counts as 0, one at or beyond the end as the end (R136). -/
def clampTarget (n : Nat) (t : Int) : Nat := min t.toNat n

/-! ### Dynamic regions (R136) -/

/-- A dynamic region by its first and last word; `callee` when it holds the callee area. -/
structure Region where
  lo : Nat
  hi : Nat
  callee : Bool := false
deriving DecidableEq, Repr

/-- The region that a dynamic branch opens. -/
def openedBy (code : List (BitVec 32)) (i : Nat) : Option Region :=
  if isDynamicBranch (code.getD i 0) then
    (branchTarget code i).map fun t =>
      let t := clampTarget code.length t
      if i < t then ⟨i, t - 1, false⟩ else ⟨t, i, false⟩
  else none

/-- Targets of `jal` within the code section. -/
def jalTargets (code : List (BitVec 32)) : List Nat :=
  (List.range code.length).filterMap fun i =>
    match insAt code i with
    | some (.jal _ o) =>
      let t : Int := i + o.toInt
      if 0 ≤ t ∧ t < code.length then some t.toNat else none
    | _ => none

/-- The callee area: from the lowest `jal` target to the end of the code section. -/
def calleeArea (code : List (BitVec 32)) : List Region :=
  match jalTargets code with
  | [] => []
  | t :: ts => [⟨ts.foldl min t, code.length - 1, true⟩]

/-- Insert a region by its first word. -/
def insertRegion (r : Region) : List Region → List Region
  | [] => [r]
  | q :: qs => if r.lo ≤ q.lo then r :: q :: qs else q :: insertRegion r qs

/-- A region takes in those behind it that it overlaps, as far as it reaches with them. -/
def absorb (r : Region) : List Region → List Region
  | [] => [r]
  | q :: qs => if q.lo ≤ r.hi then absorb ⟨r.lo, max r.hi q.hi, r.callee || q.callee⟩ qs else r :: q :: qs

/-- Overlapping regions of a sorted list merge (R136). -/
def mergeRegions : List Region → List Region
  | [] => []
  | r :: rs => absorb r (mergeRegions rs)

/-- A region grows to cover the targets of its branches (R136). -/
def growRegion (code : List (BitVec 32)) (r : Region) : Region :=
  (range r.lo (r.hi + 1 - r.lo)).foldl (fun r i =>
    match branchTarget code i with
    | none => r
    | some t =>
      let t := clampTarget code.length t
      if t < r.lo then { r with lo := t }
      else if r.hi + 1 < t then { r with hi := min t (code.length - 1) }
      else r) r

/-- Growth repeats until nothing changes. -/
def closeRegions (code : List (BitVec 32)) : Nat → List Region → List Region
  | 0, rs => rs
  | n + 1, rs =>
    let merged := mergeRegions (rs.foldr insertRegion [])
    let grown := merged.map (growRegion code)
    if grown = merged then merged else closeRegions code n grown

/-- The dynamic regions of a code section, rising. -/
def regionsOf (code : List (BitVec 32)) : List Region :=
  closeRegions code (2 * code.length + 2) ((List.range code.length).filterMap (openedBy code) ++ calleeArea code)

def regionAt (rs : List Region) (i : Nat) : Option Region := rs.find? fun r => r.lo ≤ i && i ≤ r.hi

/-! ### Static registers (R137) -/

/-- A set of registers of both files: the execute file in bits 0-31, the access file in bits 32-63. -/
abbrev RegSet := BitVec 64

/-- Every register but the ports. -/
def allStatic : RegSet := ~~~(0xC0000000C0000000#64)

/-- x0 of both files. -/
def zeroRegs : RegSet := 0x0000000100000001#64

def withReg (m : RegSet) (y : Bool) (r : BitVec 5) (v : Bool) : RegSet :=
  if r = 0 ∨ r = 30 ∨ r = 31 then m
  else if v then m ||| (1#64 <<< regBit y r) else m &&& ~~~(1#64 <<< regBit y r)

def staticHere (m : RegSet) (y : Bool) (r : BitVec 5) : Bool := bit m (regBit y r)

/-- The static registers after word `i`, and the words that control may reach from it (R137). A malformed word falls through
and writes nothing: R137 speaks of instructions (DESIGN CHOICE, assumption 27). -/
def flowFrom (code : List (BitVec 32)) (rs : List Region) (i : Nat) (m : RegSet) : RegSet × List Nat :=
  let here (t : Option Int) : List Nat :=
    match t with
    | some t => if 0 ≤ t ∧ t < code.length then [t.toNat] else []
    | none => []
  match insAt code i with
  | none => (m, [i + 1])
  | some x =>
    let n := namesOf x
    let m' := match n.dst with
      | some d => withReg m n.y d (markS (code.getD i 0) && (regionAt rs i).isNone)
      | none => m
    match x with
    | .j _ _ _ => (m', here (branchTarget code i))
    | .jal _ _ => (zeroRegs, [i + 1])
    | .jalr _ _ _ _ | .halt | .tret => (m', [])
    | _ => (m', [i + 1] ++ here (branchTarget code i))

/-- One round over all words: what reaches a word is what every edge into it brings. -/
def flowRound (code : List (BitVec 32)) (rs : List Region) (ms : List (Option RegSet)) : List (Option RegSet) :=
  (List.range code.length).foldl (fun ms i =>
    match ms.getD i none with
    | none => ms
    | some m =>
      let (m', next) := flowFrom code rs i m
      next.foldl (fun ms j => setAt ms j (some (match ms.getD j none with
        | none => m'
        | some o => o &&& m'))) ms) ms

def flowFix (code : List (BitVec 32)) (rs : List Region) : Nat → List (Option RegSet) → List (Option RegSet)
  | 0, ms => ms
  | n + 1, ms =>
    let ms' := flowRound code rs ms
    if ms' = ms then ms else flowFix code rs n ms'

/-- The static registers at every word. An edge leads out of every word, also of one that none leads to: a write there is a
write that reaches what follows it (R137). -/
def staticAt (code : List (BitVec 32)) (rs : List Region) : List (Option RegSet) :=
  flowFix code rs (64 * code.length + 1) (List.replicate code.length (some allStatic))

/-! ### The check (R138) -/

/-- The violations of word `i`, lowest kind first. -/
def violationsAt (code : List (BitVec 32)) (rs : List Region) (ms : List (Option RegSet)) (i : Nat) : List Nat :=
  let w := code.getD i 0
  let outside := (regionAt rs i).isNone
  let into : List Nat :=
    match branchTarget code i with
    | some t =>
      if outside && decide (0 ≤ t) then
        (match regionAt rs t.toNat with
         | some r => if t.toNat < code.length ∧ t.toNat ≠ r.lo then [5] else []
         | none => [])
      else []
    | none => []
  if markS w then
    match (if mayMark w then insAt code i else none) with
    | none => 1 :: into
    | some x =>
      let n := namesOf x
      let named := n.srcs ++ n.dst.toList
      let m := (ms.getD i none).getD allStatic
      (if outside then [] else [2]) ++ (if n.srcs.all (staticHere m n.y) then [] else [3]) ++
        (if named.contains 30 || named.contains 31 then [4] else []) ++ into
  else into

/-- Uniform slot descriptor `n` of an abstract context (R142, R272). -/
def uniformSlot (ctx : Mem) (n : Nat) : BitVec 32 := field (readWord ctx (0x80 + 4 * n) 4) 0 32

def slotOn (d : BitVec 32) : Bool := bit d 24
def slotOffset (d : BitVec 32) : Nat := 4 * (field d 0 10 : BitVec 10).toNat

/-- The first uniform slot outside the uniform block: 16 × graph index + slot (R138 kind 6). Only enabled slots count
(DESIGN CHOICE, assumption 27: R138 does not say whether a slot with EN = 0 is checked). -/
def slotOutside (m : Image) : Option Nat :=
  (List.range (16 * imgGraphCount m)).find? fun k =>
    let d := uniformSlot (graphContext m (k / 16)) (k % 16)
    slotOn d && decide (8 * imgULen m < slotOffset d + 4)

/-- The status detail of an offset or slot and a kind (R138, R399). -/
def bindingDetail (off kind : Nat) : BitVec 32 := BitVec.ofNat 32 (off % 2 ^ 20 * 256 + kind)

/-- The lowest offset with a violation, and its lowest kind. -/
def firstViolation (code : List (BitVec 32)) (rs : List Region) (ms : List (Option RegSet)) : List Nat → Option (Nat × Nat)
  | [] => none
  | i :: is =>
    match violationsAt code rs ms i with
    | k :: _ => some (4 * i, k)
    | [] => firstViolation code rs ms is

/-- The binding-time check of an image: its status detail, none when it passes (R135, R138). -/
def bindingCheck (m : Image) : Option (BitVec 32) :=
  let code := imageCode m
  let rs := regionsOf code
  match firstViolation code rs (staticAt code rs) (List.range code.length) with
  | some (off, k) => some (bindingDetail off k)
  | none => (slotOutside m).map fun n => bindingDetail n 6

end Sys2Proof.Machine
end

