-- ==== Sys2Proof/Machine/Scalar.lean ====
section
/-! DEFINITION. Scalar arithmetic, logic, constants, control transfer, local memory and the uniform block
(R47-R65). -/

namespace Sys2Proof.Machine

/-! ### Pure operations -/

/-- The truth value of a comparison as a register value. -/
def truth (b : Bool) : Word := if b then 1 else 0

/-- Shift amount: b[5:0] (R50). -/
def amount (b : Word) : Nat := (field b 0 6).toNat

/-- Rotate left (R50). -/
def rotl (a : Word) (n : Nat) : Word := if n = 0 then a else (a <<< n) ||| (a >>> (64 - n))

/-- Rotate right (R50). -/
def rotr (a : Word) (n : Nat) : Word := if n = 0 then a else (a >>> n) ||| (a <<< (64 - n))

/-- High half of the exact product (R53). -/
def mulHigh (a b : Int) : Word := field (BitVec.ofInt 128 (a * b)) 64 64

/-- Signed division with its edges (R53). -/
def divSigned (a b : Word) : Word :=
  if b = 0 then BitVec.allOnes 64
  else if a = BitVec.intMin 64 ∧ b = BitVec.allOnes 64 then BitVec.intMin 64
  else BitVec.ofInt 64 (a.toInt.tdiv b.toInt)

/-- Unsigned division (R53). -/
def divUnsigned (a b : Word) : Word := if b = 0 then BitVec.allOnes 64 else BitVec.ofNat 64 (a.toNat / b.toNat)

/-- Signed remainder, with the sign of the dividend (R53). -/
def remSigned (a b : Word) : Word :=
  if b = 0 then a
  else if a = BitVec.intMin 64 ∧ b = BitVec.allOnes 64 then 0
  else BitVec.ofInt 64 (a.toInt.tmod b.toInt)

/-- Unsigned remainder (R53). -/
def remUnsigned (a b : Word) : Word := if b = 0 then a else BitVec.ofNat 64 (a.toNat % b.toNat)

/-- Zero bits above the highest set bit (R54). -/
def leadingZeros (a : Word) : Word := if a = 0 then 64 else BitVec.ofNat 64 (63 - Nat.log2 a.toNat)

/-- Zero bits below bit `n` upwards, `k` bits at most. -/
def zerosFrom (a : Word) : Nat → Nat → Nat
  | _, 0 => 0
  | n, k + 1 => if bit a n then 0 else zerosFrom a (n + 1) k + 1

/-- Zero bits below the lowest set bit (R54). -/
def trailingZeros (a : Word) : Word := BitVec.ofNat 64 (zerosFrom a 0 64)

/-- Set bits of a vector. -/
def countBits {n : Nat} (v : BitVec n) : Nat := (List.range n).countP (fun i => bit v i)

/-- Width of a described field: b[13:8], 0 for 64 (R55). -/
def fieldWidth (b : Word) : Nat := if field b 8 6 == 0#6 then 64 else (field b 8 6).toNat

/-- `2^w - 1`. -/
def lowOnes (w : Nat) : Word := BitVec.ofNat 64 (2 ^ w - 1)

/-- `bfx` (R55). -/
def extractField (a b : Word) : Word := (a >>> amount b) &&& lowOnes (fieldWidth b)

/-- `bfi` (R55). -/
def insertField (old a b : Word) : Word :=
  let mask := lowOnes (fieldWidth b) <<< amount b
  (old &&& ~~~mask) ||| ((a <<< amount b) &&& mask)

/-! ### Register arithmetic, logic, multiplication and division (R50, R53) -/

/-- `add` (R50). -/
def execAdd (y s : Bool) (d a b : BitVec 5) (st : State) : Host.Outcome State Fault Refusal :=
  regForm2 (.add y s d a b) y d a b (fun a b => a + b) st

/-- `sub` (R50). -/
def execSub (y s : Bool) (d a b : BitVec 5) (st : State) : Host.Outcome State Fault Refusal :=
  regForm2 (.sub y s d a b) y d a b (fun a b => a - b) st

/-- `and` (R50). -/
def execAnd (y s : Bool) (d a b : BitVec 5) (st : State) : Host.Outcome State Fault Refusal :=
  regForm2 (.and y s d a b) y d a b (fun a b => a &&& b) st

/-- `or` (R50). -/
def execOr (y s : Bool) (d a b : BitVec 5) (st : State) : Host.Outcome State Fault Refusal :=
  regForm2 (.or y s d a b) y d a b (fun a b => a ||| b) st

/-- `xor` (R50). -/
def execXor (y s : Bool) (d a b : BitVec 5) (st : State) : Host.Outcome State Fault Refusal :=
  regForm2 (.xor y s d a b) y d a b (fun a b => a ^^^ b) st

/-- `andn` (R50). -/
def execAndn (y s : Bool) (d a b : BitVec 5) (st : State) : Host.Outcome State Fault Refusal :=
  regForm2 (.andn y s d a b) y d a b (fun a b => a &&& ~~~b) st

/-- `orn` (R50). -/
def execOrn (y s : Bool) (d a b : BitVec 5) (st : State) : Host.Outcome State Fault Refusal :=
  regForm2 (.orn y s d a b) y d a b (fun a b => a ||| ~~~b) st

/-- `sll` (R50). -/
def execSll (y s : Bool) (d a b : BitVec 5) (st : State) : Host.Outcome State Fault Refusal :=
  regForm2 (.sll y s d a b) y d a b (fun a b => a <<< amount b) st

/-- `srl` (R50). -/
def execSrl (y s : Bool) (d a b : BitVec 5) (st : State) : Host.Outcome State Fault Refusal :=
  regForm2 (.srl y s d a b) y d a b (fun a b => a >>> amount b) st

/-- `sra` (R50). -/
def execSra (y s : Bool) (d a b : BitVec 5) (st : State) : Host.Outcome State Fault Refusal :=
  regForm2 (.sra y s d a b) y d a b (fun a b => a.sshiftRight (amount b)) st

/-- `rol` (R50). -/
def execRol (y s : Bool) (d a b : BitVec 5) (st : State) : Host.Outcome State Fault Refusal :=
  regForm2 (.rol y s d a b) y d a b (fun a b => rotl a (amount b)) st

/-- `ror` (R50). -/
def execRor (y s : Bool) (d a b : BitVec 5) (st : State) : Host.Outcome State Fault Refusal :=
  regForm2 (.ror y s d a b) y d a b (fun a b => rotr a (amount b)) st

/-- `slt` (R50). -/
def execSlt (y s : Bool) (d a b : BitVec 5) (st : State) : Host.Outcome State Fault Refusal :=
  regForm2 (.slt y s d a b) y d a b (fun a b => truth (a.slt b)) st

/-- `sltn` (R50). -/
def execSltn (y s : Bool) (d a b : BitVec 5) (st : State) : Host.Outcome State Fault Refusal :=
  regForm2 (.sltn y s d a b) y d a b (fun a b => truth (a.ult b)) st

/-- `min` (R50). -/
def execMin (y s : Bool) (d a b : BitVec 5) (st : State) : Host.Outcome State Fault Refusal :=
  regForm2 (.min y s d a b) y d a b (fun a b => if a.slt b then a else b) st

/-- `max` (R50). -/
def execMax (y s : Bool) (d a b : BitVec 5) (st : State) : Host.Outcome State Fault Refusal :=
  regForm2 (.max y s d a b) y d a b (fun a b => if a.slt b then b else a) st

/-- `minn` (R50). -/
def execMinn (y s : Bool) (d a b : BitVec 5) (st : State) : Host.Outcome State Fault Refusal :=
  regForm2 (.minn y s d a b) y d a b (fun a b => if a.ult b then a else b) st

/-- `maxn` (R50). -/
def execMaxn (y s : Bool) (d a b : BitVec 5) (st : State) : Host.Outcome State Fault Refusal :=
  regForm2 (.maxn y s d a b) y d a b (fun a b => if a.ult b then b else a) st

/-- `mul` (R53). -/
def execMul (y s : Bool) (d a b : BitVec 5) (st : State) : Host.Outcome State Fault Refusal :=
  regForm2 (.mul y s d a b) y d a b (fun a b => a * b) st

/-- `mulh` (R53). -/
def execMulh (y s : Bool) (d a b : BitVec 5) (st : State) : Host.Outcome State Fault Refusal :=
  regForm2 (.mulh y s d a b) y d a b (fun a b => mulHigh a.toInt b.toInt) st

/-- `mulhn` (R53). -/
def execMulhn (y s : Bool) (d a b : BitVec 5) (st : State) : Host.Outcome State Fault Refusal :=
  regForm2 (.mulhn y s d a b) y d a b (fun a b => mulHigh a.toNat b.toNat) st

/-- `div` (R53). -/
def execDiv (y s : Bool) (d a b : BitVec 5) (st : State) : Host.Outcome State Fault Refusal :=
  regForm2 (.div y s d a b) y d a b (fun a b => divSigned a b) st

/-- `divn` (R53). -/
def execDivn (y s : Bool) (d a b : BitVec 5) (st : State) : Host.Outcome State Fault Refusal :=
  regForm2 (.divn y s d a b) y d a b (fun a b => divUnsigned a b) st

/-- `rem` (R53). -/
def execRem (y s : Bool) (d a b : BitVec 5) (st : State) : Host.Outcome State Fault Refusal :=
  regForm2 (.rem y s d a b) y d a b (fun a b => remSigned a b) st

/-- `remn` (R53). -/
def execRemn (y s : Bool) (d a b : BitVec 5) (st : State) : Host.Outcome State Fault Refusal :=
  regForm2 (.remn y s d a b) y d a b (fun a b => remUnsigned a b) st

/-! ### Bits and selection (R54-R56) -/

/-- `clz` (R54). -/
def execClz (y s : Bool) (d a : BitVec 5) (st : State) : Host.Outcome State Fault Refusal :=
  regForm1 (.clz y s d a) y d a (fun a => leadingZeros a) st

/-- `ctz` (R54). -/
def execCtz (y s : Bool) (d a : BitVec 5) (st : State) : Host.Outcome State Fault Refusal :=
  regForm1 (.ctz y s d a) y d a (fun a => trailingZeros a) st

/-- `popc` (R54). -/
def execPopc (y s : Bool) (d a : BitVec 5) (st : State) : Host.Outcome State Fault Refusal :=
  regForm1 (.popc y s d a) y d a (fun a => BitVec.ofNat 64 (countBits a)) st

/-- `sxb` (R54). -/
def execSxb (y s : Bool) (d a : BitVec 5) (st : State) : Host.Outcome State Fault Refusal :=
  regForm1 (.sxb y s d a) y d a (fun a => extend true 1 a) st

/-- `sxh` (R54). -/
def execSxh (y s : Bool) (d a : BitVec 5) (st : State) : Host.Outcome State Fault Refusal :=
  regForm1 (.sxh y s d a) y d a (fun a => extend true 2 a) st

/-- `sxw` (R54). -/
def execSxw (y s : Bool) (d a : BitVec 5) (st : State) : Host.Outcome State Fault Refusal :=
  regForm1 (.sxw y s d a) y d a (fun a => extend true 4 a) st

/-- `zxb` (R54). -/
def execZxb (y s : Bool) (d a : BitVec 5) (st : State) : Host.Outcome State Fault Refusal :=
  regForm1 (.zxb y s d a) y d a (fun a => extend false 1 a) st

/-- `zxh` (R54). -/
def execZxh (y s : Bool) (d a : BitVec 5) (st : State) : Host.Outcome State Fault Refusal :=
  regForm1 (.zxh y s d a) y d a (fun a => extend false 2 a) st

/-- `zxw` (R54). -/
def execZxw (y s : Bool) (d a : BitVec 5) (st : State) : Host.Outcome State Fault Refusal :=
  regForm1 (.zxw y s d a) y d a (fun a => extend false 4 a) st

/-- `bfx` (R55). -/
def execBfx (y s : Bool) (d a b : BitVec 5) (st : State) : Host.Outcome State Fault Refusal :=
  regForm2 (.bfx y s d a b) y d a b (fun a b => extractField a b) st

/-- `bfi` reads a, b and then its old destination, which names no port (R48, R55). -/
def execBfi (y s : Bool) (d a b : BitVec 5) (st : State) : Host.Outcome State Fault Refusal :=
  runCore (.bfi y s d a b) y (fun s id c =>
    if rmwOk d then
      readReg y a c fun va c => readReg y b c fun vb c => readReg y d c fun vd c =>
      writeReg y d (insertField vd va vb) c fun c => finish s id (advance y c)
    else .trap illegalTrap) st

/-- `sel` reads a, b and c (R56). -/
def execSel (y s : Bool) (d a b k : BitVec 5) (st : State) : Host.Outcome State Fault Refusal :=
  runCore (.sel y s d a b k) y (fun s id c =>
    readReg y a c fun va c => readReg y b c fun vb c => readReg y k c fun vk c =>
    writeReg y d (if vk = 0 then vb else va) c fun c => finish s id (advance y c)) st

/-! ### Immediates and constants (R51, R52) -/

/-- `addi` (R51). -/
def execAddi (y s : Bool) (d a : BitVec 5) (i : BitVec 14) (st : State) : Host.Outcome State Fault Refusal :=
  regForm1 (.addi y s d a i) y d a (fun a => a + sx i) st

/-- `andi` (R51). -/
def execAndi (y s : Bool) (d a : BitVec 5) (i : BitVec 14) (st : State) : Host.Outcome State Fault Refusal :=
  regForm1 (.andi y s d a i) y d a (fun a => a &&& zx i) st

/-- `ori` (R51). -/
def execOri (y s : Bool) (d a : BitVec 5) (i : BitVec 14) (st : State) : Host.Outcome State Fault Refusal :=
  regForm1 (.ori y s d a i) y d a (fun a => a ||| zx i) st

/-- `xori` (R51). -/
def execXori (y s : Bool) (d a : BitVec 5) (i : BitVec 14) (st : State) : Host.Outcome State Fault Refusal :=
  regForm1 (.xori y s d a i) y d a (fun a => a ^^^ zx i) st

/-- `slti` (R51). -/
def execSlti (y s : Bool) (d a : BitVec 5) (i : BitVec 14) (st : State) : Host.Outcome State Fault Refusal :=
  regForm1 (.slti y s d a i) y d a (fun a => truth (a.slt (sx i))) st

/-- `sltni` (R51). -/
def execSltni (y s : Bool) (d a : BitVec 5) (i : BitVec 14) (st : State) : Host.Outcome State Fault Refusal :=
  regForm1 (.sltni y s d a i) y d a (fun a => truth (a.ult (sx i))) st

/-- `muli` (R51). -/
def execMuli (y s : Bool) (d a : BitVec 5) (i : BitVec 14) (st : State) : Host.Outcome State Fault Refusal :=
  regForm1 (.muli y s d a i) y d a (fun a => a * sx i) st

/-- `shiSll` (R31, R51). -/
def execShiSll (y s : Bool) (d a : BitVec 5) (h : BitVec 6) (st : State) : Host.Outcome State Fault Refusal :=
  regForm1 (.shiSll y s d a h) y d a (fun a => a <<< h.toNat) st

/-- `shiSrl` (R31, R51). -/
def execShiSrl (y s : Bool) (d a : BitVec 5) (h : BitVec 6) (st : State) : Host.Outcome State Fault Refusal :=
  regForm1 (.shiSrl y s d a h) y d a (fun a => a >>> h.toNat) st

/-- `shiSra` (R31, R51). -/
def execShiSra (y s : Bool) (d a : BitVec 5) (h : BitVec 6) (st : State) : Host.Outcome State Fault Refusal :=
  regForm1 (.shiSra y s d a h) y d a (fun a => a.sshiftRight h.toNat) st

/-- `shiRol` (R31, R51). -/
def execShiRol (y s : Bool) (d a : BitVec 5) (h : BitVec 6) (st : State) : Host.Outcome State Fault Refusal :=
  regForm1 (.shiRol y s d a h) y d a (fun a => rotl a h.toNat) st

/-- `shiRor` (R31, R51). -/
def execShiRor (y s : Bool) (d a : BitVec 5) (h : BitVec 6) (st : State) : Host.Outcome State Fault Refusal :=
  regForm1 (.shiRor y s d a h) y d a (fun a => rotr a h.toNat) st

/-- `lui` (R52). -/
def execLui (y s : Bool) (d : BitVec 5) (i : BitVec 19) (st : State) : Host.Outcome State Fault Refusal :=
  constForm (.lui y s d i) y d (sx i) st

/-- `aui` (R52). -/
def execAui (y s : Bool) (d : BitVec 5) (i : BitVec 19) (st : State) : Host.Outcome State Fault Refusal :=
  updateForm (.aui y s d i) y d (fun v => v + (sx i <<< 14)) st

/-- `lic` (R52). -/
def execLic (y s : Bool) (d : BitVec 5) (i : BitVec 19) (st : State) : Host.Outcome State Fault Refusal :=
  updateForm (.lic y s d i) y d (fun v => (v <<< 19) ||| zx i) st

/-! ### Branches, jumps and calls (R57-R61, R77) -/

/-- `beq` (R57). -/
def execBeq (y s : Bool) (a b : BitVec 5) (o : BitVec 14) (st : State) : Host.Outcome State Fault Refusal :=
  branchForm (.beq y s a b o) y a b o (fun a b => a == b) st

/-- `bne` (R57). -/
def execBne (y s : Bool) (a b : BitVec 5) (o : BitVec 14) (st : State) : Host.Outcome State Fault Refusal :=
  branchForm (.bne y s a b o) y a b o (fun a b => a != b) st

/-- `blt` (R57). -/
def execBlt (y s : Bool) (a b : BitVec 5) (o : BitVec 14) (st : State) : Host.Outcome State Fault Refusal :=
  branchForm (.blt y s a b o) y a b o (fun a b => a.slt b) st

/-- `bge` (R57). -/
def execBge (y s : Bool) (a b : BitVec 5) (o : BitVec 14) (st : State) : Host.Outcome State Fault Refusal :=
  branchForm (.bge y s a b o) y a b o (fun a b => !a.slt b) st

/-- `bltn` (R57). -/
def execBltn (y s : Bool) (a b : BitVec 5) (o : BitVec 14) (st : State) : Host.Outcome State Fault Refusal :=
  branchForm (.bltn y s a b o) y a b o (fun a b => a.ult b) st

/-- `bgen` (R57). -/
def execBgen (y s : Bool) (a b : BitVec 5) (o : BitVec 14) (st : State) : Host.Outcome State Fault Refusal :=
  branchForm (.bgen y s a b o) y a b o (fun a b => !a.ult b) st

/-- `bbs` (R58). -/
def execBbs (y s : Bool) (a : BitVec 5) (n : BitVec 6) (o : BitVec 13) (st : State) : Host.Outcome State Fault Refusal :=
  bitBranchForm (.bbs y s a n o) y a o (fun v => bit v n.toNat) st

/-- `bbc` (R58). -/
def execBbc (y s : Bool) (a : BitVec 5) (n : BitVec 6) (o : BitVec 13) (st : State) : Host.Outcome State Fault Refusal :=
  bitBranchForm (.bbc y s a n o) y a o (fun v => !bit v n.toNat) st

/-- `j` (R59). -/
def execJ (y s : Bool) (o : BitVec 24) (st : State) : Host.Outcome State Fault Refusal :=
  runCore (.j y s o) y (fun s id c => decide_ y true (wordTarget c y o) c fun c => finish s id c) st

/-- `jal` links into x1 of its own file (R59). -/
def execJal (y : Bool) (o : BitVec 24) (st : State) : Host.Outcome State Fault Refusal :=
  runCore (.jal y o) y (fun s id c =>
    writeReg y 1 (getPlace c.core y + 4) c fun c' =>
    decide_ y true (wordTarget c y o) c' fun c => finish s id c) st

/-- `jalr` reads a before it writes the link; a misaligned target traps and writes nothing (R28, R60). -/
def execJalr (y : Bool) (d a : BitVec 5) (i : BitVec 14) (st : State) : Host.Outcome State Fault Refusal :=
  runCore (.jalr y d a i) y (fun s id c =>
    readReg y a c fun va c =>
    let t := va + (sx i <<< 2)
    if field t 0 2 ≠ 0 then .trap (coreTrap .align 0)
    else
      writeReg y d (getPlace c.core y + 4) c fun c => decide_ y true t c fun c => finish s id c) st

/-- `loop` decrements its counter and branches while the result is nonzero (R61). -/
def execLoop (y s : Bool) (a : BitVec 5) (o : BitVec 14) (st : State) : Host.Outcome State Fault Refusal :=
  runCore (.loop y s a o) y (fun s id c =>
    if rmwOk a then
      readReg y a c fun v c =>
      writeReg y a (v - 1) c fun c => decide_ y (v - 1 != 0) (wordTarget c y o) c fun c => finish s id c
    else .trap illegalTrap) st

/-! ### Local loads and stores, uniform loads (R62, R65) -/

/-- `ldb` (R62). -/
def execLdb (y : Bool) (d b : BitVec 5) (c : BitVec 2) (o : BitVec 12) (st : State) : Host.Outcome State Fault Refusal :=
  localLoad (.ldb y d b c o) y d b c o 1 true st

/-- `ldh` (R62). -/
def execLdh (y : Bool) (d b : BitVec 5) (c : BitVec 2) (o : BitVec 12) (st : State) : Host.Outcome State Fault Refusal :=
  localLoad (.ldh y d b c o) y d b c o 2 true st

/-- `ldw` (R62). -/
def execLdw (y : Bool) (d b : BitVec 5) (c : BitVec 2) (o : BitVec 12) (st : State) : Host.Outcome State Fault Refusal :=
  localLoad (.ldw y d b c o) y d b c o 4 true st

/-- `ldd` (R62). -/
def execLdd (y : Bool) (d b : BitVec 5) (c : BitVec 2) (o : BitVec 12) (st : State) : Host.Outcome State Fault Refusal :=
  localLoad (.ldd y d b c o) y d b c o 8 false st

/-- `ldbn` (R62). -/
def execLdbn (y : Bool) (d b : BitVec 5) (c : BitVec 2) (o : BitVec 12) (st : State) : Host.Outcome State Fault Refusal :=
  localLoad (.ldbn y d b c o) y d b c o 1 false st

/-- `ldhn` (R62). -/
def execLdhn (y : Bool) (d b : BitVec 5) (c : BitVec 2) (o : BitVec 12) (st : State) : Host.Outcome State Fault Refusal :=
  localLoad (.ldhn y d b c o) y d b c o 2 false st

/-- `ldwn` (R62). -/
def execLdwn (y : Bool) (d b : BitVec 5) (c : BitVec 2) (o : BitVec 12) (st : State) : Host.Outcome State Fault Refusal :=
  localLoad (.ldwn y d b c o) y d b c o 4 false st

/-- `stb` (R62). -/
def execStb (y : Bool) (s b : BitVec 5) (c : BitVec 2) (o : BitVec 12) (st : State) : Host.Outcome State Fault Refusal :=
  localStore (.stb y s b c o) y s b c o 1 st

/-- `sth` (R62). -/
def execSth (y : Bool) (s b : BitVec 5) (c : BitVec 2) (o : BitVec 12) (st : State) : Host.Outcome State Fault Refusal :=
  localStore (.sth y s b c o) y s b c o 2 st

/-- `stw` (R62). -/
def execStw (y : Bool) (s b : BitVec 5) (c : BitVec 2) (o : BitVec 12) (st : State) : Host.Outcome State Fault Refusal :=
  localStore (.stw y s b c o) y s b c o 4 st

/-- `std` (R62). -/
def execStd (y : Bool) (s b : BitVec 5) (c : BitVec 2) (o : BitVec 12) (st : State) : Host.Outcome State Fault Refusal :=
  localStore (.std y s b c o) y s b c o 8 st

/-- `ldu` reads a doubleword of the uniform block (R14, R65). -/
def execLdu (y s : Bool) (d b : BitVec 5) (o : BitVec 12) (st : State) : Host.Outcome State Fault Refusal :=
  runCore (.ldu y s d b o) y (fun s id c =>
    readReg y b c fun vb c =>
    let ua := localAddr vb o 8
    if c.mem.ulen < ua.toNat + 8 then .trap (coreTrap .access 0)
    else if ua.toNat % 8 ≠ 0 then .trap (coreTrap .align 0)
    else
      writeReg y d (readWord c.mem.uniform ua.toNat 8) c fun c => finish s id (advance y c)) st

end Sys2Proof.Machine
end

