-- ==== Sys2Proof/Machine/Steep.lean ====
section
/-! DEFINITION. Steep: evaluation of the launch-static words of an image and the residual it leaves (R139-R144, R148).
The value of a static instruction is what the machine itself computes in a scratch cell, so that the residual and the
original agree by construction (R145). -/

namespace Sys2Proof.Machine

/-! ### Evaluating one static word -/

/-- Run an instruction that may carry S = 1 (R21). -/
def runStatic (i : Instr) (s : State) : Option (Host.Outcome State Fault Refusal) :=
  match i with
  | .add v0 v1 v2 v3 v4 => some (execAdd v0 v1 v2 v3 v4 s)
  | .sub v0 v1 v2 v3 v4 => some (execSub v0 v1 v2 v3 v4 s)
  | .and v0 v1 v2 v3 v4 => some (execAnd v0 v1 v2 v3 v4 s)
  | .or v0 v1 v2 v3 v4 => some (execOr v0 v1 v2 v3 v4 s)
  | .xor v0 v1 v2 v3 v4 => some (execXor v0 v1 v2 v3 v4 s)
  | .andn v0 v1 v2 v3 v4 => some (execAndn v0 v1 v2 v3 v4 s)
  | .orn v0 v1 v2 v3 v4 => some (execOrn v0 v1 v2 v3 v4 s)
  | .sll v0 v1 v2 v3 v4 => some (execSll v0 v1 v2 v3 v4 s)
  | .srl v0 v1 v2 v3 v4 => some (execSrl v0 v1 v2 v3 v4 s)
  | .sra v0 v1 v2 v3 v4 => some (execSra v0 v1 v2 v3 v4 s)
  | .rol v0 v1 v2 v3 v4 => some (execRol v0 v1 v2 v3 v4 s)
  | .ror v0 v1 v2 v3 v4 => some (execRor v0 v1 v2 v3 v4 s)
  | .slt v0 v1 v2 v3 v4 => some (execSlt v0 v1 v2 v3 v4 s)
  | .sltn v0 v1 v2 v3 v4 => some (execSltn v0 v1 v2 v3 v4 s)
  | .min v0 v1 v2 v3 v4 => some (execMin v0 v1 v2 v3 v4 s)
  | .max v0 v1 v2 v3 v4 => some (execMax v0 v1 v2 v3 v4 s)
  | .minn v0 v1 v2 v3 v4 => some (execMinn v0 v1 v2 v3 v4 s)
  | .maxn v0 v1 v2 v3 v4 => some (execMaxn v0 v1 v2 v3 v4 s)
  | .mul v0 v1 v2 v3 v4 => some (execMul v0 v1 v2 v3 v4 s)
  | .mulh v0 v1 v2 v3 v4 => some (execMulh v0 v1 v2 v3 v4 s)
  | .mulhn v0 v1 v2 v3 v4 => some (execMulhn v0 v1 v2 v3 v4 s)
  | .div v0 v1 v2 v3 v4 => some (execDiv v0 v1 v2 v3 v4 s)
  | .divn v0 v1 v2 v3 v4 => some (execDivn v0 v1 v2 v3 v4 s)
  | .rem v0 v1 v2 v3 v4 => some (execRem v0 v1 v2 v3 v4 s)
  | .remn v0 v1 v2 v3 v4 => some (execRemn v0 v1 v2 v3 v4 s)
  | .clz v0 v1 v2 v3 => some (execClz v0 v1 v2 v3 s)
  | .ctz v0 v1 v2 v3 => some (execCtz v0 v1 v2 v3 s)
  | .popc v0 v1 v2 v3 => some (execPopc v0 v1 v2 v3 s)
  | .sxb v0 v1 v2 v3 => some (execSxb v0 v1 v2 v3 s)
  | .sxh v0 v1 v2 v3 => some (execSxh v0 v1 v2 v3 s)
  | .sxw v0 v1 v2 v3 => some (execSxw v0 v1 v2 v3 s)
  | .zxb v0 v1 v2 v3 => some (execZxb v0 v1 v2 v3 s)
  | .zxh v0 v1 v2 v3 => some (execZxh v0 v1 v2 v3 s)
  | .zxw v0 v1 v2 v3 => some (execZxw v0 v1 v2 v3 s)
  | .bfx v0 v1 v2 v3 v4 => some (execBfx v0 v1 v2 v3 v4 s)
  | .bfi v0 v1 v2 v3 v4 => some (execBfi v0 v1 v2 v3 v4 s)
  | .sel v0 v1 v2 v3 v4 v5 => some (execSel v0 v1 v2 v3 v4 v5 s)
  | .addi v0 v1 v2 v3 v4 => some (execAddi v0 v1 v2 v3 v4 s)
  | .andi v0 v1 v2 v3 v4 => some (execAndi v0 v1 v2 v3 v4 s)
  | .ori v0 v1 v2 v3 v4 => some (execOri v0 v1 v2 v3 v4 s)
  | .xori v0 v1 v2 v3 v4 => some (execXori v0 v1 v2 v3 v4 s)
  | .slti v0 v1 v2 v3 v4 => some (execSlti v0 v1 v2 v3 v4 s)
  | .sltni v0 v1 v2 v3 v4 => some (execSltni v0 v1 v2 v3 v4 s)
  | .shiSll v0 v1 v2 v3 v4 => some (execShiSll v0 v1 v2 v3 v4 s)
  | .shiSrl v0 v1 v2 v3 v4 => some (execShiSrl v0 v1 v2 v3 v4 s)
  | .shiSra v0 v1 v2 v3 v4 => some (execShiSra v0 v1 v2 v3 v4 s)
  | .shiRol v0 v1 v2 v3 v4 => some (execShiRol v0 v1 v2 v3 v4 s)
  | .shiRor v0 v1 v2 v3 v4 => some (execShiRor v0 v1 v2 v3 v4 s)
  | .muli v0 v1 v2 v3 v4 => some (execMuli v0 v1 v2 v3 v4 s)
  | .lui v0 v1 v2 v3 => some (execLui v0 v1 v2 v3 s)
  | .aui v0 v1 v2 v3 => some (execAui v0 v1 v2 v3 s)
  | .lic v0 v1 v2 v3 => some (execLic v0 v1 v2 v3 s)
  | .beq v0 v1 v2 v3 v4 => some (execBeq v0 v1 v2 v3 v4 s)
  | .bne v0 v1 v2 v3 v4 => some (execBne v0 v1 v2 v3 v4 s)
  | .blt v0 v1 v2 v3 v4 => some (execBlt v0 v1 v2 v3 v4 s)
  | .bge v0 v1 v2 v3 v4 => some (execBge v0 v1 v2 v3 v4 s)
  | .bltn v0 v1 v2 v3 v4 => some (execBltn v0 v1 v2 v3 v4 s)
  | .bgen v0 v1 v2 v3 v4 => some (execBgen v0 v1 v2 v3 v4 s)
  | .bbs v0 v1 v2 v3 v4 => some (execBbs v0 v1 v2 v3 v4 s)
  | .bbc v0 v1 v2 v3 v4 => some (execBbc v0 v1 v2 v3 v4 s)
  | .j v0 v1 v2 => some (execJ v0 v1 v2 s)
  | .loop v0 v1 v2 v3 => some (execLoop v0 v1 v2 v3 s)
  | .ldu v0 v1 v2 v3 v4 => some (execLdu v0 v1 v2 v3 v4 s)
  | _ => none

/-- The scratch machine of a static word: one cell with the static values and the copy of the uniform block. -/
def staticState (k : Core) (y : Bool) (pc : Word) (uni : List Byte) : State :=
  { cells := [(0, { core := { k with pcE := pc, pcA := pc }
                    mem := { uniform := memOf uni, ulen := uni.length } })]
    focus := ⟨0, if y then .access else .execute⟩ }

/-- The core after a static word; none when it traps or does not complete. -/
def staticResult (k : Core) (i : Instr) (pc : Word) (uni : List Byte) : Option Core :=
  match runStatic i (staticState k (namesOf i).y pc uni) with
  | some (.next t) =>
    (match look t.cells 0 with
     | some c => if c.core.trap.isSome then none else some c.core
     | none => none)
  | _ => none

/-! ### What Steep emits -/

/-- What is still open in an emitted word until the residual is laid out (R140, R141). -/
inductive Fix where
  | plain
  /-- a `jal` to a word of the original -/
  | call (y : Bool) (t : Int)
  /-- a `j` into the callee copy -/
  | enter (t : Nat)
  /-- an `enqi`: its packet, none when the original lies outside the image; whether the packet lies inline; the words of its
  copied block between it and the place for its pool -/
  | packet (q : BitVec 3) (l : BitVec 5) (ws : Option (List (BitVec 16))) (inl : Bool) (rest : Nat)
  /-- an `enqi` whose inline packet no offset reaches -/
  | lost
  /-- a branch to a word outside the code section of the original: it traps at its target (R28, R136, R145) -/
  | outside (i : Instr) (t : Int)
deriving DecidableEq, Repr

/-- An emitted word with what the residual map says of it (R148). -/
structure Item where
  word : BitVec 32
  ooff : Nat
  kind : BitVec 2
  idx : List Nat := []
  deep : Bool := false
  fix : Fix := .plain
deriving DecidableEq, Repr

/-- A static loop: first and last word, iterations made. -/
structure StaticLoop where
  lo : Nat
  hi : Nat
  count : Nat := 0
deriving DecidableEq, Repr

/-- Packets of the pool, each with the original offset of the word that first needed it. -/
abbrev Pool := List (List (BitVec 16) × Nat)

/-- The state of an evaluation (R139): static values in the registers of `core`. -/
structure SteepRun where
  core : Core := {}
  st : RegSet := allStatic
  rv : Vector (Option Word) 64 := Vector.replicate 64 (some 0)
  /-- words of the main code, newest first -/
  out : List Item := []
  words : Nat := 0
  segs : Nat := 0
  /-- words in the map range under way -/
  segLen : Nat := 0
  pool : Pool := []
  cyc : Nat := 0
  iters : Nat := 0
  active : List StaticLoop := []
deriving DecidableEq, Repr

/-- Image words that a packet takes (R141). -/
def packetWordsLen (ws : List (BitVec 16)) : Nat := (ws.length + 1) / 2

def poolLen (p : Pool) : Nat := (p.map fun x => packetWordsLen x.1).sum

/-- An item goes on in the map range of the item before it. -/
def continues (prev it : Item) : Bool :=
  prev.kind == it.kind && prev.idx == it.idx && prev.deep == it.deep &&
  it.ooff == (if it.kind = 0 then prev.ooff + 4 else prev.ooff)

/-- Packets with equal words share one pool entry (R141). -/
def addPacket (f : Fix) (ooff : Nat) (p : Pool) : Pool :=
  match f with
  | .packet _ _ (some ws) false _ => if p.any (·.1 == ws) then p else p ++ [(ws, ooff)]
  | _ => p

/-- Emit one word: one cycle (R143). Words laid out after the evaluation, the pools and the `j` over an inline one, cost no
cycle (DESIGN CHOICE, assumption 27: R143 does not say whether they do). -/
def emitItem (it : Item) (r : SteepRun) : SteepRun :=
  let joins := match r.out with
    | [] => false
    | p :: _ => continues p it && r.segLen < 4095
  { r with
    out := it :: r.out, words := r.words + 1, cyc := r.cyc + 1
    segs := if joins then r.segs else r.segs + 1
    segLen := if joins then r.segLen + 1 else 1
    pool := addPacket it.fix it.ooff r.pool }

/-- The shortest words that load a constant (R139, R52). -/
def constantWords (y : Bool) (d : BitVec 5) (v : Word) : List (BitVec 32) :=
  let n := v.toInt
  let top (k : Nat) : Int := n / 2 ^ (19 * k)
  let lic (k : Nat) : BitVec 32 := coreWord (.lic y false d (field v (19 * k) 19))
  let lui (x : Int) : BitVec 32 := coreWord (.lui y false d (BitVec.ofInt 19 x))
  let fits (x : Int) : Bool := decide (-262144 ≤ x) && decide (x ≤ 262143)
  if -8192 ≤ n ∧ n ≤ 8191 then [coreWord (.addi y false d 0 (BitVec.ofInt 14 n))]
  else if fits n then [lui n]
  else if fits (top 1) then [lui (top 1), lic 0]
  else if fits (top 2) then [lui (top 2), lic 1, lic 0]
  else [lui (top 3), lic 2, lic 1, lic 0]

/-- `materialise(x)`: when the register is static and the residual register is not known to hold its value (R139). -/
def materialise (ooff : Nat) (idx : List Nat) (deep : Bool) (r : SteepRun) (x : Nat) : SteepRun :=
  let y := decide (32 ≤ x)
  let d : BitVec 5 := BitVec.ofNat 5 x
  let v := getReg r.core y d
  if d = 0 ∨ d = 30 ∨ d = 31 then r
  else if bit r.st x && r.rv.toList.getD x none != some v then
    let r' := (constantWords y d v).foldl (fun r w => emitItem ⟨w, ooff, 1, idx, deep, .plain⟩ r) r
    { r' with rv := r'.rv.setIfInBounds x (some v) }
  else r

/-- A register is no longer static, and what the residual register holds is unknown. -/
def forget (r : SteepRun) (x : Nat) : SteepRun :=
  { r with st := withReg r.st (decide (32 ≤ x)) (BitVec.ofNat 5 x) false, rv := if x % 32 = 0 then r.rv else r.rv.setIfInBounds x none }

/-- Registers of both files, in the order in which the model materialises them where R139 names a set of them: the execute
file from x1 up, then the access file (DESIGN CHOICE, assumption 58: the rule gives no order). -/
def everyReg : List Nat := List.range 64

/-! ### Copying words (R140, R141) -/

/-- The packet of an `enqi` at word `i` (R42). -/
def packetOf (m : Image) (i : Nat) (l : BitVec 5) (o : BitVec 16) : Option (List (BitVec 16)) :=
  let a : Int := 4 * (i + o.toInt)
  let n := l.toNat + 1
  if a < 0 ∨ a + 2 * n > ((imgCodeLen m + imgConstLen m : Nat) : Int) then none
  else some ((List.range n).map fun k => BitVec.ofNat 16 (ofBytes (readBytes m.bytes (codeStart + a.toNat + 2 * k) 2)))

/-- The target of the branch or `j` at word `i`, where it lies outside the code section (R28). -/
def strayTarget (code : List (BitVec 32)) (i : Nat) : Option Int :=
  (branchTarget code i).filter fun t => decide (t < 0) || decide ((code.length : Int) ≤ t)

/-- A branch of a copied block, words `lo` to `hi`, leads over the place behind word `i`, so that words put there would
move its target (R140). One to the word behind that place may lead to the first of them. -/
def leadsOver (code : List (BitVec 32)) (lo hi i : Nat) : Bool :=
  (range lo (hi + 1 - lo)).any fun b =>
    (strayTarget code b).isNone && match branchTarget code b with
    | some t => if b ≤ i then decide ((i : Int) + 1 < t) else decide (t ≤ (i : Int))
    | none => false

/-- The words of a copied block that follow word `i` up to the first place where a pool may stand: no branch leads over it,
or the block ends there (R140, R141). -/
def wordsToPool (code : List (BitVec 32)) (block : Option (Nat × Nat)) (i : Nat) : Nat :=
  match block with
  | none => 0
  | some (lo, hi) =>
    match (range i (hi - i)).find? fun j => !leadsOver code lo hi j with
    | some j => j - i
    | none => hi - i

/-- Word `i` of the original as the residual copies it, alone or in a block. -/
def copyItem (m : Image) (code : List (BitVec 32)) (idx : List Nat) (deep : Bool) (block : Option (Nat × Nat)) (i : Nat) : Item :=
  let fix : Fix := match insAt code i with
    | some (.jal y o) => .call y (i + o.toInt)
    | some (.enqi q l o) => .packet q l (packetOf m i l o) false (wordsToPool code block i)
    | some x => (match strayTarget code i with
        | some t => .outside x t
        | none => .plain)
    | none => .plain
  ⟨code.getD i 0, 4 * i, 0, idx, deep, fix⟩

/-! ### Static loops (R148) -/

/-- Backward static transfers outside the regions. -/
def staticLoops (code : List (BitVec 32)) (rs : List Region) : List StaticLoop :=
  (List.range code.length).filterMap fun i =>
    let w := code.getD i 0
    match branchTarget code i with
    | some t =>
      if (regionAt rs i).isNone && (markS w || majorOf w == 0x18) && decide (0 ≤ t) && decide (t ≤ i) then some ⟨t.toNat, i, 0⟩
      else none
    | none => none

/-- Insert a loop, the longest first. -/
def insertLoop (l : StaticLoop) : List StaticLoop → List StaticLoop
  | [] => [l]
  | k :: ks => if k.hi - k.lo < l.hi - l.lo then l :: k :: ks else k :: insertLoop l ks

/-- The loops that enclose a word, outermost first; one just entered counts from 0. -/
def loopsAround (loops active : List StaticLoop) (i : Nat) : List StaticLoop :=
  let here := active.filter fun l => l.lo ≤ i && i ≤ l.hi
  let fresh := loops.filter fun l => l.lo ≤ i && i ≤ l.hi && !here.any (fun a => a.lo == l.lo && a.hi == l.hi)
  fresh.foldl (fun ls l => insertLoop l ls) here

/-- Indices of the four innermost loops, innermost first, and DEEP. -/
def loopIndices (active : List StaticLoop) : List Nat × Bool :=
  let ns := active.reverse.map fun l => l.count % 65536
  (ns.take 4, decide (4 < ns.length))

/-- Control moves from word `i` to `t`: a taken backward transfer is counted (R139, R143). -/
def transfer (i : Nat) (t : Word) (r : SteepRun) : SteepRun :=
  if t.toNat ≤ 4 * i then
    { r with
      iters := r.iters + 1
      active := r.active.map fun l => if 4 * l.lo = t.toNat ∧ l.hi = i then { l with count := l.count + 1 } else l }
  else r

/-! ### The evaluation (R139) -/

/-- What one turn of the evaluation comes to. -/
inductive Turn where
  | go (pc : Word) (r : SteepRun)
  | stop (r : SteepRun)
  | fall (outcome : BitVec 4)

/-- What the evaluation reads. -/
structure SteepIn where
  img : Image
  code : List (BitVec 32)
  regions : List Region
  loops : List StaticLoop
  uni : List Byte
  /-- words of the callee copy -/
  calleeLen : Nat

/-- Registers that a region writes; a call in it may write any (R137, R139). -/
def regionWrites (code : List (BitVec 32)) (r : Region) : List Nat :=
  (range r.lo (r.hi + 1 - r.lo)).flatMap fun i =>
    match insAt code i with
    | some (.jal _ _) => everyReg
    | some x => (match (namesOf x).dst with
        | some d => [regBit (namesOf x).y d]
        | none => [])
    | none => []

/-- A word with S = 1: it is evaluated and emits nothing. -/
def staticTurn (n : SteepIn) (i : Nat) (pc : Word) (x : Instr) (r : SteepRun) : Turn :=
  match staticResult r.core x pc n.uni with
  | none => .fall 7
  | some k =>
    let y := (namesOf x).y
    let next := getPlace k y
    let st := match (namesOf x).dst with
      | some d => withReg r.st y d true
      | none => r.st
    let r1 := { r with core := { r.core with regsE := k.regsE, regsA := k.regsA }, st := st, cyc := r.cyc + 1 }
    .go next (transfer i next r1)

/-- An `enq` whose registers are all static becomes an `enqi` (R141). -/
def foldedPacket (q : BitVec 3) (n : BitVec 3) (f : BitVec 5) (k : Core) : Fix :=
  let halves (v : Word) : List (BitVec 16) := [field v 0 16, field v 16 16, field v 32 16, field v 48 16]
  let ws := (range 0 (n.toNat + 1)).flatMap fun j => halves (getReg k false (f + BitVec.ofNat 5 j))
  .packet q (BitVec.ofNat 5 (ws.length - 1)) (some ws) false 0

/-- A word with S = 0 outside every region. -/
def dynamicTurn (n : SteepIn) (i : Nat) (pc : Word) (idx : List Nat) (deep : Bool) (r : SteepRun) : Turn :=
  let mat := materialise (4 * i) idx deep
  let copy := emitItem (copyItem n.img n.code idx deep none i)
  let next := pc + 4
  let r := { r with cyc := r.cyc + 1 }
  match insAt n.code i with
  | none => .go next (copy r)
  | some x =>
    let names := namesOf x
    let srcs := names.srcs.map (regBit names.y)
    let plain : Turn :=
      let r1 := copy (srcs.foldl mat r)
      .go next (match names.dst with
        | some d => forget r1 (regBit names.y d)
        | none => r1)
    match x with
    | .j _ _ o => .go (pc + (sx o <<< 2)) (transfer i (pc + (sx o <<< 2)) r)
    | .jalr _ _ _ _ => .fall 6
    | .halt | .tret => .stop (copy (everyReg.foldl mat r))
    | .jal _ _ => .go next (everyReg.foldl forget (copy (everyReg.foldl mat r)))
    | .enq q f c =>
      if srcs.all (bit r.st) then .go next (emitItem ⟨0, 4 * i, 2, idx, deep, foldedPacket q c f r.core⟩ r) else plain
    | _ => plain

/-- One turn (R139). -/
def steepTurn (n : SteepIn) (pc : Word) (r : SteepRun) : Turn :=
  let i := pc.toNat / 4
  if n.code.length ≤ i then .fall 7
  else
    let around := loopsAround n.loops r.active i
    let r := { r with active := around }
    let (idx, deep) := loopIndices around
    let mat := materialise (4 * i) idx deep
    match regionAt n.regions i with
    | some g =>
      if g.callee then .stop (emitItem ⟨0, 4 * i, 1, idx, deep, .enter i⟩ (everyReg.foldl mat r))
      else if g.lo = i then
        let words := range g.lo (g.hi + 1 - g.lo)
        let r1 := words.foldl (fun r j => emitItem (copyItem n.img n.code idx deep (some (g.lo, g.hi)) j) { r with cyc := r.cyc + 1 })
          (everyReg.foldl mat r)
        .go (BitVec.ofNat 64 (4 * (g.hi + 1))) ((regionWrites n.code g).foldl forget r1)
      else if markS (n.code.getD i 0) then
        (match insAt n.code i with
         | some x => staticTurn n i pc x r
         | none => .fall 7)
      else dynamicTurn n i pc idx deep r
    | none =>
      if markS (n.code.getD i 0) then
        (match insAt n.code i with
         | some x => staticTurn n i pc x r
         | none => .fall 7)
      else dynamicTurn n i pc idx deep r

/-- Bytes that a residual may take (R143). -/
def sizeLimit (m : Image) : Nat := min (imgGrowth m * (imgCodeLen m + imgConstLen m)) 1048576

/-- The limit that a run passes (R143, R144). One turn may pass several: the model then reports the growth limit before the
backward transfers, those before the time and that before the map (DESIGN CHOICE, assumption 58: R143 ranks them not). -/
def limitPassed (n : SteepIn) (r : SteepRun) : Option (BitVec 4) :=
  if sizeLimit n.img < 4 * (r.words + poolLen r.pool) then some 2
  else if 65536 < r.iters then some 3
  else if 5400000 < r.cyc then some 4
  else if 65536 < r.segs + r.pool.length then some 5
  else none

/-- The evaluation from `pc` on. -/
def steepRun (n : SteepIn) : Nat → Word → SteepRun → Except (BitVec 4) SteepRun
  | 0, _, _ => .error 4
  | k + 1, pc, r =>
    match steepTurn n pc r with
    | .fall c => .error c
    | .stop r' => (match limitPassed n r' with
        | some c => .error c
        | none => .ok r')
    | .go pc' r' => (match limitPassed n r' with
        | some c => .error c
        | none => steepRun n k pc' r')

/-! ### Laying out the residual (R140, R141, R148) -/

/-- Image words of a packet, two halves each, the lower first. -/
def packetImage : List (BitVec 16) → List (BitVec 32)
  | [] => []
  | [a] => [(0 : BitVec 16) ++ a]
  | a :: b :: ws => (b ++ a) :: packetImage ws

/-- The pool of a list of items. -/
def poolOf (its : List Item) : Pool := its.foldl (fun p it => addPacket it.fix it.ooff p) []

/-- Word position of a packet in a pool. -/
def packetPlace (ws : List (BitVec 16)) : Pool → Nat → Nat
  | [], at_ => at_
  | (x, _) :: p, at_ => if x == ws then at_ else packetPlace ws p (at_ + packetWordsLen x)

/-- Where the parts of a residual lie, in words. -/
structure Layout_ where
  main : Nat
  callee : Nat
  /-- first word of the callee area in the original, words of the original -/
  area : Nat
  orig : Nat
  pool : Pool
  /-- for each word of an inline pool in the callee copy the word of the original that it stands behind -/
  ins : List Nat

def Layout_.poolAt (l : Layout_) : Nat := l.main + l.callee
def Layout_.end_ (l : Layout_) : Nat := l.poolAt + poolLen l.pool

/-- The farthest distance of an `enqi`: 131,068 bytes (R141). -/
def inReach (d : Int) : Bool := decide (-32767 ≤ d) && decide (d ≤ 32767)

/-- The distance of an `enqi` at word `k` to its packet; a packet outside the image keeps lying outside. -/
def packetDistance (l : Layout_) (k : Nat) (ws : Option (List (BitVec 16))) : Int :=
  match ws with
  | some ws => packetPlace ws l.pool l.poolAt - k
  | none => if inReach (l.end_ - k) then l.end_ - k else -(k + 1)

/-- Where the callee copy holds word `t` of the original. -/
def calleePlace (l : Layout_) (t : Nat) : Int := (l.main : Int) + t - l.area + (l.ins.filter (· < t)).length

/-- An offset as a field of `n` bits. -/
def fitOffset (n : Nat) (d : Int) : Option (BitVec n) :=
  if -(2 ^ n : Int) ≤ 2 * d ∧ 2 * d < 2 ^ n then some (BitVec.ofInt n d) else none

/-- A branch with another offset, where the offset fits. -/
def retarget (i : Instr) (d : Int) : Option Instr :=
  match i with
  | .beq y s a b _ => (fitOffset 14 d).map (.beq y s a b)
  | .bne y s a b _ => (fitOffset 14 d).map (.bne y s a b)
  | .blt y s a b _ => (fitOffset 14 d).map (.blt y s a b)
  | .bge y s a b _ => (fitOffset 14 d).map (.bge y s a b)
  | .bltn y s a b _ => (fitOffset 14 d).map (.bltn y s a b)
  | .bgen y s a b _ => (fitOffset 14 d).map (.bgen y s a b)
  | .bbs y s a n _ => (fitOffset 13 d).map (.bbs y s a n)
  | .bbc y s a n _ => (fitOffset 13 d).map (.bbc y s a n)
  | .j y s _ => (fitOffset 24 d).map (.j y s)
  | .loop y s a _ => (fitOffset 14 d).map (.loop y s a)
  | _ => none

/-- The word of a copied branch to `t`, outside the original's code, at word `k` of the residual: it leads outside the
residual's code too, to the same place where it can. R140 keeps its offset; but that may lead into the residual, and the branch
has to trap still (R136, R145; assumption 27). -/
def strayWord (l : Layout_) (k : Nat) (w : BitVec 32) (i : Instr) (t : Int) : Option (BitVec 32) :=
  let outside (x : Int) : Bool := decide (x < 0) || decide ((l.poolAt : Int) ≤ x)
  let kept : Int := k + ((transferOffset i).getD 0)
  if outside kept && !outside t then some w
  else (([t, -1, (l.poolAt : Int)].filter outside).findSome? fun x => retarget i (x - k)).map coreWord

/-- The word of an item at word `k` of the residual. The `j` that Steep emits, to the callee copy here and over an inline
pool, has A = 0 (DESIGN CHOICE, assumption 58: R139 and R141 name no stream). -/
def resolve (l : Layout_) (k : Nat) (it : Item) : BitVec 32 :=
  match it.fix with
  | .plain | .lost => it.word
  | .outside i t => (strayWord l k it.word i t).getD it.word
  | .call y t =>
    let d : Int := if t < 0 then t else if l.orig ≤ t.toNat then l.poolAt + (t - l.orig) else calleePlace l t.toNat
    coreWord (.jal y (BitVec.ofInt 24 (d - k)))
  | .enter t => coreWord (.j false false (BitVec.ofInt 24 (calleePlace l t - k)))
  | .packet q n ws _ _ => coreWord (.enqi q n (BitVec.ofInt 16 (packetDistance l k ws)))

/-- Items with their word positions. -/
def placed (its : List Item) (at_ : Nat) : List (Nat × Item) := its.zipIdx.map fun (it, i) => (at_ + i, it)

/-- The packets of an inline pool and of an `enqi` whose packet is to lie in it. -/
def addInline (it : Item) (p : Pool) : Pool :=
  match it.fix with
  | .packet _ _ (some ws) true _ => if p.any (·.1 == ws) then p else p ++ [(ws, it.ooff)]
  | _ => p

/-- Words of an inline pool with the `j` over it (R141). -/
def inlineLen (p : Pool) : Nat := if p.isEmpty then 0 else 1 + poolLen p

/-- An inline pool behind an item, with the `j` over it. The map gives the `j` KIND 1 and the place of the word that first
needed a packet, each packet KIND 3 and the place of the word that first needed it, and both the indices of the item
(DESIGN CHOICE, assumption 27: R148 names no KIND, OOFF or indices for them). -/
def inlineWords (it : Item) (p : Pool) : List Item :=
  match p with
  | [] => []
  | (_, o) :: _ =>
    { it with word := coreWord (.j false false (BitVec.ofNat 24 (poolLen p + 1))), ooff := o, kind := 1, fix := .plain } ::
      p.flatMap fun x => (packetImage x.1).map fun w => { it with word := w, ooff := x.2, kind := 3, fix := .plain }

/-- The words of its copied block between an item and the place for its pool. -/
def restOf (it : Item) : Nat :=
  match it.fix with
  | .packet _ _ _ _ r => r
  | _ => 0

/-- Main code with its inline pools. The pool of an `enqi` stands right after it, or, inside a copied region, at the first
place behind it that no branch of the region leads over, for their offsets do not change (R140, R141); `left` words are still
to come before its pool `p`. -/
def withInline : List Item → Nat → Pool → List Item
  | [], _, _ => []
  | it :: its, left, p =>
    let p' := addInline it p
    let left' := max (left - 1) (if (addInline it []).isEmpty then 0 else restOf it)
    let it' : Item := match it.fix with
      | .packet q n (some ws) true r =>
        let d := packetPlace ws p' (r + 2)
        { it with word := coreWord (.enqi q n (BitVec.ofNat 16 d)), fix := if inReach d then .plain else .lost }
      | _ => it
    if left' = 0 then it' :: inlineWords it p' ++ withInline its 0 [] else it' :: withInline its left' p'

/-- The packets that lie too far from their `enqi` are to lie inline. -/
def markFar (l : Layout_) : List Item → Nat → Nat → Pool → List Item
  | [], _, _, _ => []
  | it :: its, k, left, p =>
    let it' : Item := match it.fix with
      | .packet q n (some ws) false r => if inReach (packetDistance l k (some ws)) then it else { it with fix := .packet q n (some ws) true r }
      | _ => it
    let p' := addInline it p
    let left' := max (left - 1) (if (addInline it []).isEmpty then 0 else restOf it)
    if left' = 0 then it' :: markFar l its (k + 1 + inlineLen p') 0 [] else it' :: markFar l its (k + 1) left' p'

/-- An `enqi` whose packet no offset reaches, or a branch that no offset leads out of the code. -/
def farItem (l : Layout_) (k : Nat) (it : Item) : Bool :=
  match it.fix with
  | .packet _ _ ws _ _ => !inReach (packetDistance l k ws)
  | .lost => true
  | .outside i t => (strayWord l k it.word i t).isNone
  | _ => false

/-- For each word of an inline pool in the callee copy the word of the original that it stands behind. -/
def inlineAfter (callee : List Item) : List Nat :=
  (callee.foldl (fun (x : Nat × List Nat) it => if it.kind = 0 then (it.ooff / 4, x.2) else (x.1, x.1 :: x.2)) (0, [])).2

/-- Inline pools until every `enqi` reaches its packet. The pool's first packets are those of the callee area, right after
its copy; none when branches lead over every place that an `enqi` of a copied block reaches: R140 keeps their offsets, and R141
wants the packet nearer (assumption 27). -/
def layOut (orig area : Nat) : Nat → List Item → List Item → Option (List Item × List Item × Layout_)
  | 0, _, _ => none
  | n + 1, main, callee =>
    let all := withInline main 0 []
    let sub := withInline callee 0 []
    let l : Layout_ := ⟨all.length, sub.length, area, orig, poolOf (sub ++ all), inlineAfter sub⟩
    let main' := markFar l main 0 0 []
    let callee' := markFar l callee all.length 0 []
    if main' ≠ main ∨ callee' ≠ callee then layOut orig area n main' callee'
    else if (placed (all ++ sub) 0).any fun p => farItem l p.1 p.2 then none
    else some (all, sub, l)

/-- Indices as the map holds them (R148). -/
def indexWord (idx : List Nat) : BitVec 64 :=
  BitVec.ofNat 64 (idx.zipIdx.foldl (fun n (v, i) => n + v * 65536 ^ i) 0)

/-- Ranges of a list of placed items, rising (R148). -/
def mapOf : List (Nat × Item) → List MapEntry
  | [] => []
  | (k, it) :: rest =>
    let e : MapEntry := ⟨4 * k, 1, it.ooff, it.kind, it.idx.length, it.deep, indexWord it.idx⟩
    match rest, mapOf rest with
    | (_, it') :: _, f :: es =>
      if continues it it' && f.len < 4095 then { e with len := f.len + 1 } :: es else e :: f :: es
    | _, es => e :: es

/-- Map entries of the pool at the end: the place of the word that first needed the packet, and no indices (DESIGN CHOICE,
assumption 27: R148 names none). -/
def poolMap : Pool → Nat → List MapEntry
  | [], _ => []
  | (ws, o) :: p, at_ => ⟨4 * at_, packetWordsLen ws, o, 3, 0, false, 0⟩ :: poolMap p (at_ + packetWordsLen ws)

/-- Specialise an image to a uniform block: the outcome of R144 and the residual. -/
def specialise (m : Image) (uni : List Byte) : BitVec 4 × Option Residual :=
  let code := imageCode m
  let rs := regionsOf code
  let area := ((rs.find? (·.callee)).map (·.lo)).getD code.length
  let callee := (range area (code.length - area)).map fun i => copyItem m code [] false (some (area, code.length - 1)) i
  let start : SteepRun := callee.foldl (fun r it => emitItem it { r with cyc := r.cyc + 1 }) {}
  let n : SteepIn := ⟨m, code, rs, staticLoops code rs, uni, callee.length⟩
  match steepRun n 5400002 0 { start with out := [], segLen := 0 } with
  | .error c => (c, none)
  | .ok r =>
    match layOut code.length area (r.out.length + callee.length + 1) r.out.reverse callee with
    | none => (2, none)
    | some (main, callee, l) =>
      let all := placed (main ++ callee) 0
      let map := mapOf (placed main 0) ++ mapOf (placed callee main.length) ++ poolMap l.pool l.poolAt
      let res : Residual := ⟨all.map fun p => resolve l p.1 p.2, l.pool.flatMap fun x => packetImage x.1, map⟩
      if sizeLimit m < 4 * (res.code.length + res.pool.length) then (2, none)
      else if 65536 < map.length then (5, none)
      else (1, some res)

end Sys2Proof.Machine
end

