-- ==== Sys2Proof/Machine/Launch.lean ====
section
/-! DEFINITION. The launch pipeline up to stage 5: rectangles and slot blocks, completion records, the Caddy, Steep runs,
place-and-route (R124, R125, R134, R144-R149, R174, R281, R282, R399). -/

namespace Sys2Proof.Machine

/-! ### Completion records (R399) -/

/-- The header of a completion record (R399). -/
structure CompletionHead where
  status : BitVec 4 := 0
  steep : BitVec 4 := 0
  malf : Bool := false
  hhalt : Bool := false
  fatal : Bool := false
  nmem : BitVec 7 := 0
  detail : BitVec 32 := 0
deriving DecidableEq, Repr

def completionWord (h : CompletionHead) : Word :=
  h.status ++ h.steep ++ BitVec.ofBool h.malf ++ BitVec.ofBool h.hhalt ++ BitVec.ofBool h.fatal ++ (0 : BitVec 14) ++
    h.nmem ++ h.detail

/-- The 192 bytes of a member: its trap record, then its 16 strip status words (R293, R399). -/
def memberBytes (trec : Vector Word 8) (status : List Word) : List Byte :=
  (trec.toList ++ status).flatMap fun w => bytesOf w.toNat 8

def completionBytes (h : CompletionHead) (task : Nat) (members : List Byte) : List Byte :=
  bytesOf (completionWord h).toNat 8 ++ bytesOf task 8 ++ List.replicate 48 0 ++ members

/-- What a scheduler access to a partition's memory comes to. -/
inductive Reached where
  | ok (s : State)
  /-- it waits, with what the waiting itself does -/
  | waits (r : Option State)

/-- Write a completion record at CREC; none at address 0. A write that is refused is reported to firmware, and the
record is then not written. -/
def writeCompletion (s : State) (part : BitVec 4) (crec : Word) (bs : List Byte) : Reached :=
  if crec = 0 then .ok s
  else
    match writeSpan (schedMaster part) .virt (bs.length / 32 + 2) s crec.toNat bs with
    | .done s' => .ok s'
    | .blocked | .asked _ => .waits none
    | .miss (.page va) _ => .waits (reportPage s part va)
    | .miss (.trap code _) s' =>
      .ok { s' with fw := { s'.fw with reports := s'.fw.reports ++ [.trap part code] } }

/-- The LAUNCH at the head of a queue ends: HEAD advances, then the completion event is posted (R399, R400). -/
def endLaunch (s : State) (q : BitVec 12) (ev : Bool) (crec : Word) : State :=
  let s1 := finishCommand s q
  let v := queueAt s1 q
  if ev then postEvent s1 v.part 2 q 0 crec (progressWord v) else s1

/-! ### Rectangles (R88, R125) -/

/-- The cell columns of a die (R2, R153). -/
def cellColumns : List Nat := (List.range 16).filter fun c => !Config.isSliceSite c

/-- Cells of a W × H rectangle whose north-west corner stands in row `r` at the i-th cell column, row-major. -/
def rectangleAt (die r i w h : Nat) : List Nat :=
  (List.range h).flatMap fun y => (List.range w).map fun x => die * 128 + (r + y) * 16 + cellColumns.getD (i + x) 0

/-- All rectangles of a shape, in the order of R125. -/
def rectangles (w h : Nat) : List (List Nat) :=
  (List.range 4).flatMap fun die => (List.range (9 - h)).flatMap fun r => (List.range (15 - w)).map fun i => rectangleAt die r i w h

/-- A cell that the partition may ever use. -/
def usable (s : State) (part : BitVec 4) (id : Nat) : Bool :=
  (partOf s part).cells.contains id && !s.fw.disabled.contains id

/-- Cells that tasks hold; a partition whose contexts lie in shadow storage holds none meanwhile (R125, R358). -/
def heldCells (s : State) : List Nat := s.tasks.flatMap fun x => if (partOf s x.2.part).away then [] else x.2.cells

/-- Slot blocks of a die that running tasks of a partition hold (R174). -/
def heldBlocks (s : State) (die : BitVec 2) (part : BitVec 4) : List Nat :=
  (s.tasks.filter fun x => x.2.part == part && x.2.die == die && !x.2.cells.isEmpty).flatMap fun x => x.2.blocks

def dieOfRect (cells : List Nat) : BitVec 2 := BitVec.ofNat 2 (dieOfCell (cells.headD 0))

/-- What stage 3 comes to. -/
inductive Alloc where
  | never | wait | got (cells blocks : List Nat)

/-- Stage 3 (R125, R174): the first rectangle of free cells on a die whose blocks suffice; `n` blocks in increasing
order. -/
def allocate (s : State) (part : BitVec 4) (w h n : Nat) : Alloc :=
  let enough (cells : List Nat) : Bool := decide (n ≤ (ownedBlocks s (dieOfRect cells) part).length)
  let fits := (rectangles w h).filter fun cells => cells.all (usable s part) && enough cells
  if fits.isEmpty then .never
  else
    let held := heldCells s
    match fits.find? fun cells => cells.all fun id => !held.contains id with
    | none => .wait
    | some cells =>
      let die := dieOfRect cells
      let taken := heldBlocks s die part
      let free := (ownedBlocks s die part).filter fun b => !taken.contains b
      if free.length < n then .wait else .got cells (free.take n)

/-- A shape could be placed on cells among which are some of `extra`, once those are free (R130). -/
def couldPlace (s : State) (part : BitVec 4) (w h : Nat) (extra : List Nat) : Bool :=
  let held := heldCells s
  (rectangles w h).any fun cells =>
    cells.any extra.contains && cells.all fun id => usable s part id && (!held.contains id || extra.contains id)

/-! ### Failing a launch (R124, R399) -/

def taskAt (s : State) (t : Nat) : Option Task := look s.tasks t

/-- The head launch of a queue holds its cells already: it is at stages 4 to 6 (R115, R124). -/
def launchPlaced (s : State) (v : Queue) : Bool :=
  match v.task.bind (taskAt s) with
  | some t => t.stage != .allocate
  | none => false

def dropTask (s : State) (t : Nat) : State := { s with tasks := del s.tasks t }

/-- A LAUNCH fails at a stage: the record, HEAD, the event, the sticky error; the cells return (R124, R399). `s0` is the
machine before the step, which a page that is not resident leaves as it was. -/
def failLaunch (s0 s : State) (q : BitVec 12) (t : Nat) (c : Command) (status steep : BitVec 4) (detail : BitVec 32) : Option State :=
  let part := (queueAt s q).part
  let crec := zx (cmdRecord c)
  let head : CompletionHead := { status := status, steep := steep, detail := detail }
  match writeCompletion (dropTask s t) part crec (completionBytes head t []) with
  | .waits (some s') => if s'.fw.reports = s0.fw.reports then none else some { s0 with fw := { s0.fw with reports := s'.fw.reports } }
  | .waits none => none
  | .ok s1 => some (stopQueue (endLaunch s1 q (cmdEvent c) crec) q 1 (BitVec.ofNat 8 status.toNat))

/-! ### The Caddy (R146, R147) -/

/-- H: the first 64 bits of the digest of the uniform copy (R146). -/
def hashOf (uni : List Byte) : Word := field (Config.sm3 uni) 192 64

/-- A launch's key (R146). -/
def sameKey (t : Task) (cgen : BitVec 16) (e : CaddyEntry) : Bool :=
  e.imgid == t.image.imgid && e.hash == hashOf t.uniform && e.part == t.part && e.w == BitVec.ofNat 3 (t.w - 1) &&
  e.h == BitVec.ofNat 3 (t.h - 1) && e.cgen == cgen && e.uniform == t.uniform

def caddySet (e : CaddyEntry) : BitVec 9 := field e.hash 0 9

/-- Entries that may be evicted: neither pinned nor BUSY. -/
def evictable (e : CaddyEntry) : Bool := e.pin == 0 && e.state != .busy

/-- The evictable entry with the oldest stamp. -/
def oldest (es : List CaddyEntry) : Option CaddyEntry :=
  es.foldl (fun m e =>
    if evictable e then
      match m with
      | none => some e
      | some o => if e.lru < o.lru then some e else some o
    else m) none

/-- The same image: another one may have been loaded under its IMGID since the launch read it. -/
def sameImage (m x : Image) : Bool := x.imgid == m.imgid && x.len == m.len && x.bytes == m.bytes

/-- The device still holds a launch's image. One whose IMGID has been given to another image since finds no entry and leaves
none under that IMGID (R147). -/
def imageStands (s : State) (t : Task) : Bool := s.images.any (sameImage t.image)

/-- A BUSY entry for the run of launch `n`: a free way of the set, else the evictable way with the oldest stamp, else none (R147). -/
def insertBusy (s : State) (n : Nat) (t : Task) : State :=
  let e : CaddyEntry :=
    { imgid := t.image.imgid, hash := hashOf t.uniform, state := .busy, part := t.part
      w := BitVec.ofNat 3 (t.w - 1), h := BitVec.ofNat 3 (t.h - 1), cgen := s.fw.cgen, unit := 0, nunit := 0
      lru := s.caddyClock, run := n, uniform := t.uniform }
  let set := s.caddy.filter fun x => caddySet x == caddySet e
  if set.length < 8 then { s with caddy := s.caddy ++ [e], caddyClock := s.caddyClock + 1 }
  else
    match oldest set with
    | some o => { s with caddy := s.caddy.erase o ++ [e], caddyClock := s.caddyClock + 1 }
    | none => s

/-- Units of 4 KiB that a blob takes: the uniform copy, residual code and pool, the map (R146). -/
def blobUnits (r : Option Residual) : Nat :=
  match r with
  | none => 1
  | some r => 1 + ceilDiv (4 * (r.code.length + r.pool.length)) 4096 + ceilDiv (16 * r.map.length) 4096

/-- Units of the Caddy (R146). -/
abbrev caddyUnits : Nat := 16384

/-- A run of `n` units from `u` on is free. -/
def unitsFree (es : List CaddyEntry) (u n : Nat) : Bool :=
  decide (u + n ≤ caddyUnits) && es.all fun e => e.nunit == 0 || e.unit + e.nunit ≤ u || u + n ≤ e.unit

/-- First fit (R147). -/
def firstUnits (es : List CaddyEntry) (n : Nat) : Option Nat :=
  ((0 :: es.map fun e => e.unit + e.nunit).filter fun u => unitsFree es u n).min?

/-- Room for a blob, after evictions in stamp order where no run of units is free (R147). -/
def makeRoom : Nat → List CaddyEntry → Nat → List CaddyEntry × Option Nat
  | 0, es, n => (es, firstUnits es n)
  | k + 1, es, n =>
    match firstUnits es n with
    | some u => (es, some u)
    | none =>
      match oldest es with
      | none => (es, none)
      | some o => makeRoom k (es.erase o) n

/-- A run has ended: its own BUSY entry, if that still stands, takes the result, or goes when no room can be made. A
change of the generation or of the image has flushed the entry: such a run inserts nothing (R147), nor does any while no HBM is
handed out (R168). Where no eviction makes
room, the entries evicted on the way stand again (DESIGN CHOICE, assumption 26: R147 does not say whether they are lost). -/
def finishBusy (s : State) (n : Nat) (r : Option Residual) : State :=
  match s.caddy.find? fun e => e.state == .busy && e.run == n with
  | none => s
  | some b =>
    let k := blobUnits r
    match (if s.fw.retActive.isNone then (s.caddy, none) else makeRoom s.caddy.length s.caddy k) with
    | (es, some u) =>
      let e := { b with
        state := if r.isSome then .residual else .fallback, unit := u, nunit := k, residual := r, lru := s.caddyClock }
      { s with caddy := es.map fun x => if x == b then e else x, caddyClock := s.caddyClock + 1 }
    | (_, none) => { s with caddy := s.caddy.erase b }

/-- A hit pins the entry and stamps it (R146, R147). -/
def pinEntry (s : State) (b : CaddyEntry) : State :=
  { s with
    caddy := s.caddy.map fun x => if x == b then { x with pin := x.pin + 1, lru := s.caddyClock } else x
    caddyClock := s.caddyClock + 1 }

/-- The pin of a launch that hit is released; the entry may have been flushed since (R147). -/
def unpin (s : State) (t : Task) : State :=
  match t.pinOf with
  | none => s
  | some n => { s with caddy := s.caddy.map fun x => if x.run == n then { x with pin := x.pin - 1 } else x }

/-- A launch that goes away in the pipeline leaves no pin and no BUSY entry behind (R147). -/
def leaveCaddy (s : State) (n : Nat) (t : Task) : State :=
  let s1 := unpin s t
  { s1 with caddy := s1.caddy.filter fun e => !(e.state == .busy && e.run == n) }

/-- Look the launch up: a hit, a wait for a BUSY entry, or a miss, which starts a Steep run (R144, R146, R147). A launch whose
image no longer stands runs Steep for itself. The key holds the generation that stands at the look-up, also where it has changed
since stage 1 compared CGEN (DESIGN CHOICE, assumption 26). -/
def lookCaddy (s : State) (n : Nat) (t : Task) : State :=
  let store (s : State) (t : Task) : State := { s with tasks := put s.tasks n t }
  if imgGrowth t.image = 0 then store s { t with stage := .place, steep := 8 }
  else if !imageStands s t then store s { t with stage := .steep }
  else
    match s.caddy.find? (sameKey t s.fw.cgen) with
    | some e =>
      if e.state = .busy then store s { t with stage := .caddyWait }
      else store (pinEntry s e) { t with stage := .place, steep := 0, residual := e.residual, pinOf := some e.run }
    | none => store (insertBusy s n t) { t with stage := .steep }

/-- CADDY_BUSY_HIT: the entry a launch waits on has left BUSY: it hits, or, where the entry is gone, runs Steep itself
(R147). -/
def caddyBusyHit (n : Nat) (s : State) : Option State :=
  match taskAt s n with
  | none => none
  | some t =>
    if t.stage ≠ .caddyWait || (imageStands s t && s.caddy.any fun e => e.state == .busy && sameKey t s.fw.cgen e) then none
    else some (lookCaddy s n t)

def execCaddyBusyHit (n : Nat) (s : State) : Host.Outcome State Fault Refusal := settleQueues s (caddyBusyHit n s)

/-- STEEP_SPECIALISE: a Steep run ends with a residual or a fall-back, which the Caddy takes (R139, R144, R147). A run that
has specialised reports 1 though the Caddy may have had no place for its residual (DESIGN CHOICE, assumption 58: R144 names no
outcome for that). -/
def steepSpecialise (n : Nat) (s : State) : Option State :=
  match taskAt s n with
  | none => none
  | some t =>
    if t.stage ≠ .steep then none
    else
      let (o, r) := specialise t.image t.uniform
      let s1 := finishBusy s n r
      some { s1 with tasks := put s1.tasks n { t with stage := .place, steep := o, residual := r } }

def execSteepSpecialise (n : Nat) (s : State) : Host.Outcome State Fault Refusal := settleQueues s (steepSpecialise n s)

/-! ### Stages 1 to 4 (R124, R134, R135) -/

/-- Stage 1: the image, or the detail of a CFGGEN (R124, R399). -/
def readImage (s : State) (c : Command) : Except (BitVec 32) Image :=
  match s.images.find? fun m => m.imgid == c.dw[1] with
  | none => .error 2
  | some m =>
    if !headerFits m || cmdUniformLen c != 8 * imgULen m then .error 1
    else if imgCgen m != s.fw.cgen then .error 0
    else .ok m

/-- The binding-time result of an image, kept beside it once it has been found (R135). -/
def checkImage (s : State) (m : Image) : State × Option (BitVec 32) :=
  match (s.images.find? (sameImage m)).bind (·.checked) with
  | some r => (s, r)
  | none =>
    let r := bindingCheck m
    ({ s with images := s.images.map fun x => if sameImage m x then { x with checked := some r } else x }, r)

/-- Stage 4 begins with cells in hand: the copy of the uniform block, the binding-time check, the Caddy (R124, R134, R135,
R146). A uniform block that cannot be read stops the queue with the trap's code. -/
def beginStage4 (s0 s : State) (q : BitVec 12) (n : Nat) (c : Command) (t : Task) : Option State :=
  match readSpan s (schedMaster t.part) .virt 130 (cmdUniform c).toNat (cmdUniformLen c) with
  | .blocked | .asked _ | .deferred _ _ _ => none
  | .miss (.page va) _ => reportPage s0 t.part va
  | .miss (.trap code _) s1 =>
    some (stopQueue (modQueueAt (dropTask s1 n) q fun v => { v with task := none }) q 2 (BitVec.ofNat 8 code.num))
  | .bytes bs s1 =>
    let t1 := { t with uniform := bs }
    match checkImage s1 t.image with
    | (s2, some detail) => failLaunch s0 s2 q n c 1 0 detail
    | (s2, none) => some (lookCaddy (modQueueAt s2 q fun v => { v with task := some n }) n t1)

/-- LAUNCH: the chosen queue's head launch goes through stages 1 to 3 and, with cells, into stage 4 (R124). It keeps the
image that it read at stage 1, also when another one is loaded under that IMGID later (DESIGN CHOICE, assumption 26: R147
does not say which image such a launch goes on with). -/
def launchHead (q : BitVec 12) (s : State) : Option State :=
  let v := queueAt s q
  match v.cmd with
  | none => none
  | some c =>
    if !isChosen s q || v.restore || cmdKind c ≠ 0 || v.task.isSome then none
    else
      let n := s.nextTask
      let s1 := { clearChosen s v.part with nextTask := n + 1 }
      match readImage s c with
      | .error d => failLaunch s s1 q n c 3 0 d
      | .ok m =>
        let t : Task := { q := q, part := v.part, image := m, w := imgW m, h := imgH m, crec := zx (cmdRecord c), ev := cmdEvent c }
        match allocate s v.part t.w t.h (imgBlocks m) with
        | .never => failLaunch s s1 q n c 4 0 0
        | .wait => some { modQueueAt s1 q (fun v => { v with task := some n }) with tasks := put s1.tasks n t }
        | .got cells blocks => beginStage4 s s1 q n c { t with cells := cells, blocks := blocks, die := dieOfRect cells }

def execLaunch (q : BitVec 12) (s : State) : Host.Outcome State Fault Refusal := settleQueues s (launchHead q s)

/-- LAUNCH_ALLOCATE: a launch that waits at stage 3 gets its rectangle, unless a READY queue of a higher level goes first
or its shape can no longer be placed (R118, R120, R124). -/
def launchAllocate (q : BitVec 12) (s : State) : Option State :=
  let v := queueAt s q
  match v.cmd, v.task with
  | some c, some n =>
    (match taskAt s n with
     | none => none
     | some t =>
       if t.stage ≠ .allocate || !isReady s v || !(partOf s v.part).resident ||
           decide (v.prio.toNat < topLevel s v.part) || (chooseQueue s v.part).isSome then none
       else
         match allocate s v.part t.w t.h (imgBlocks t.image) with
         | .never => failLaunch s s q n c 4 0 0
         | .wait => none
         | .got cells blocks => beginStage4 s s q n c { t with cells := cells, blocks := blocks, die := dieOfRect cells })
  | _, _ => none

def execLaunchAllocate (q : BitVec 12) (s : State) : Host.Outcome State Fault Refusal := settleQueues s (launchAllocate q s)

/-! ### Stage 5: place-and-route (R281, R282) -/

/-- The physical strip of each visible one: its own place when healthy, else a healthy spare not yet taken, which no VR0
takes (R267, R281). None when a cell lacks one. -/
def bindStrips (healthy : BitVec 18) : List Nat → List Nat → Option (List (Nat × Nat))
  | [], _ => some []
  | j :: js, spares =>
    if bit healthy j then (bindStrips healthy js spares).map fun m => (j, j) :: m
    else
      match spares with
      | p :: ps => if j = 15 then none else (bindStrips healthy js ps).map fun m => (j, p) :: m
      | [] => none

/-- A graph description that no context can come from: it holds no configuration, breaks a field, a length or a route that
a context must keep, holds a malformed word, or fills a field that the abstract context keeps zero (R133, R279, R282 reason 6,
R288). -/
def graphMalformed (h : Half) : Bool :=
  !bit (header h 0) 63 || !fieldsFit h || (malformedWord h).isSome ||
  !zeroBytes h.bytes 0xC0 16 || (List.range 66).any fun key => field (routeWord h key) 0 18 != 0

/-- The words of strip j in a context. -/
def stripProgram (h : Half) (j : Nat) : List Instr :=
  (List.range (programLength h j)).filterMap fun n =>
    match decodeStrip (programWord h j n) with
    | .ok i => some i
    | _ => none

/-- The strip that drives an input, if one does. -/
def driverOf (h : Half) (key : Nat) : List Nat :=
  let w := routeWord h key
  if routeOn w && decide (routeFrom w < 16) then [routeFrom w] else []

/-- The strips from which tokens reach an input, over at most `n` further strips. -/
def upstream (h : Half) : Nat → List Nat → List Nat
  | 0, js => js
  | n + 1, js => upstream h n (js ++ js.flatMap fun j => (List.range 4).flatMap fun i => driverOf h (4 * j + i)).eraseDups

def feeders (h : Half) (key : Nat) : List Nat := upstream h 16 (driverOf h key)

/-- RD0 reduces blocks in a context (R284, R303). -/
def reducesBlocks (h : Half) : Bool :=
  (stripProgram h 11).any fun i => match i with
    | .rsum _ _ _ _ m | .rmax _ _ _ _ m | .rmin _ _ _ _ m => m == 2
    | _ => false

/-- The depths of DL0's words (R312). -/
def delayDepths (h : Half) : List Nat :=
  (stripProgram h 14).filterMap fun i => match i with
    | .dly _ _ d => some (d.toNat + 1)
    | _ => none

/-- Each quantising branch of a graph is one burst deep: where a `quant` of strip j takes its maxima from RD0's blocks, DL0
delays its data and not its maxima, by the burst length B of the strip's constants (R284, R298; assumption 24). -/
def delaysFit (h : Half) : Bool :=
  [12, 13].all fun j => (stripProgram h j).all fun i => match i with
    | .quant a b _ _ _ _ =>
      let b_ := (field (contextConst h j 4) 0 9 : BitVec 9).toNat
      let maxima := decide (b.toNat < 4) && (feeders h (4 * j + b.toNat)).contains 11 && reducesBlocks h
      !maxima || (decide (a.toNat < 4) && (feeders h (4 * j + a.toNat)).contains 14 &&
        !(feeders h (4 * j + b.toNat)).contains 14 && !(delayDepths h).isEmpty && (delayDepths h).all (· == b_))
    | _ => true

/-- The context of one cell from an abstract one, or the reason of R282. -/
def routeGraph (s : State) (cell graph : Nat) (bytes : Mem) : Except (BitVec 8) Mem :=
  let h : Half := { ctx := 0, bytes := bytes }
  let healthy := healthyStrips s cell
  if graphMalformed h then .error 6
  else
    match bindStrips healthy (usedStrips h) ([16, 17].filter (bit healthy)) with
    | none => .error 1
    | some m =>
      if !delaysFit h then .error 3
      else match Config.placeAndRouteFails cell graph bytes with
      | some r => .error (if r = 0 then 2 else 5)
      | none =>
        let b1 := m.foldl (fun b (j, p) => writeByte b (0xC0 + j) (BitVec.ofNat 8 p)) bytes
        .ok ((List.range 66).foldl (fun b key =>
          let w := routeWord h key
          if routeOn w then
            writeBytes b (0x300 + 4 * key) (bytesOf (w ||| (Config.routeChoice cell graph (key / 4) (key % 4)).setWidth 32).toNat 4)
          else b) b1)

/-- The contexts of one cell, in graph order, or the index and the reason of the first failure. -/
def routeCell (s : State) (m : Image) (cell : Nat) : Nat → Except (Nat × BitVec 8) (List (BitVec 4 × Mem))
  | 0 => .ok []
  | k + 1 =>
    match routeCell s m cell k with
    | .error e => .error e
    | .ok cs =>
      match routeGraph s cell k (graphContext m k) with
      | .error r => .error (k, r)
      | .ok b => .ok (cs ++ [(graphCtx m k, b)])

/-- The contexts of every member, in LCELL order. -/
def routeCells (s : State) (m : Image) : List Nat → Except (Nat × BitVec 8) (List (List (BitVec 4 × Mem)))
  | [] => .ok []
  | c :: cs =>
    match routeCell s m c (imgGraphCount m) with
    | .error e => .error e
    | .ok x =>
      match routeCells s m cs with
      | .error e => .error e
      | .ok xs => .ok (x :: xs)

/-- The packets of one member, in ascending KIND order (R126, R133, R174, R203). -/
def memberPackets (t : Task) (lcell : Nat) (ctxs : List (BitVec 4 × Mem)) : List Packet :=
  let target : BitVec 6 := BitVec.ofNat 6 lcell
  let m := t.image
  let words (ws : List (BitVec 32)) : List Byte := ws.flatMap fun w => bytesOf w.toNat 4
  let code : List Byte := match t.residual with
    | some r => words (r.code ++ r.pool)
    | none => readBytes m.bytes codeStart (imgCodeLen m + imgConstLen m)
  [⟨0, target, 0, code⟩] ++
  ctxs.map (fun (n, b) => ⟨1, target, n.toNat * 0x2000, readBytes b 0 0x2000⟩) ++
  (if imgBlocks m = 0 then [] else
    [⟨2, target, 0, (List.range (16 * imgBlocks m)).flatMap fun j => bytesOf (Config.slotEntry m.imgid lcell j).toNat 8⟩]) ++
  (dataBlocks m).map (fun (a, bs) => ⟨3, target, a, bs⟩) ++
  [⟨4, target, 0, t.uniform⟩]

/-- The packets of each row, each row ended by a KIND 5 packet (R126). -/
def packetRows (t : Task) (ctxs : List (List (BitVec 4 × Mem))) : List (List Packet) :=
  (List.range t.h).map fun y =>
    ((List.range t.w).flatMap fun x => memberPackets t (y * t.w + x) (ctxs.getD (y * t.w + x) [])) ++
      [⟨5, BitVec.ofNat 6 (y * t.w), 0, []⟩]

/-- A cell before its task starts: nothing runs until stage 7 (R8, R13, R124). -/
def placedCell (n : Nat) (t : Task) : Cell :=
  { Cell.fresh with core := { Cell.fresh.core with stopIssue := true }, task := n, part := t.part }

/-- PLACE_AND_ROUTE: the contexts are made and the packets of stage 6 are ready, or the launch ends with PNRFAIL
(R124, R281, R282). -/
def placeAndRoute (n : Nat) (s : State) : Option State :=
  match taskAt s n with
  | none => none
  | some t =>
    if t.stage ≠ .place || !(partOf s t.part).resident then none
    else
      match routeCells s t.image t.cells with
      | .error (g, r) =>
        (match (queueAt s t.q).cmd with
         | none => none
         | some c => failLaunch s (unpin s t) t.q n c 2 t.steep (BitVec.ofNat 32 (g * 256 + r.toNat)))
      | .ok ctxs =>
        let s1 := { s with tasks := put s.tasks n { t with stage := .config, rows := packetRows t ctxs } }
        some { s1 with cells := t.cells.foldl (fun m id => put m id (placedCell n t)) s1.cells }

def execPlaceAndRoute (n : Nat) (s : State) : Host.Outcome State Fault Refusal := settleQueues s (placeAndRoute n s)

end Sys2Proof.Machine
end

