-- ==== Sys2Proof/Machine/Tasks.lean ====
section
/-! DEFINITION. Stages 6 and 7 of a launch (R124, R126, R142, R174), and the end of a task: by itself, by a fatal trap and
by the watchdog (R91, R110, R131, R345, R346, R361, R399). -/

namespace Sys2Proof.Machine

/-! ### Stage 6: configuration packets (R126) -/

/-- The packet at the head of a row of a task at stage 6, when it is of a kind. -/
def packetAt (s : State) (n row kind : Nat) : Option (Task × Packet) :=
  match taskAt s n with
  | none => none
  | some t =>
    match t.stage, t.rows.getD row [] with
    | .config, p :: _ => if p.kind.toNat = kind ∧ (partOf s t.part).resident then some (t, p) else none
    | _, _ => none

def dropPacket (row : Nat) (t : Task) : Task := { t with rows := setAt t.rows row ((t.rows.getD row []).drop 1) }

/-- The cell that a packet names consumes it. -/
def consume (kind : Nat) (f : Task → Packet → Cell → Cell) (n row : Nat) (s : State) : Option State :=
  (packetAt s n row kind).map fun (t, p) =>
    modCell { s with tasks := put s.tasks n (dropPacket row t) } (t.cells.getD p.target.toNat 0) (f t p)

/-- Lengths of the code and constant sections that a task runs: of its residual, else of its image (R139, R141). -/
def sectionLengths (t : Task) : Nat × Nat :=
  match t.residual with
  | some r => (4 * r.code.length, 4 * r.pool.length)
  | none => (imgCodeLen t.image, imgConstLen t.image)

def loadCode (t : Task) (p : Packet) (c : Cell) : Cell :=
  modMem c fun m => { m with code := memOf p.bytes, codeLen := (sectionLengths t).1, constLen := (sectionLengths t).2 }

/-- CONFIG_CODE. -/
def execConfigCode (n row : Nat) (s : State) : Host.Outcome State Fault Refusal := settle s (consume 0 loadCode n row s)

/-- Each enabled uniform slot of a context puts its 32 bits into its constant register (R142). -/
def fillSlots (uni : List Byte) (ctx : Mem) : Mem :=
  (List.range 16).foldl (fun m n =>
    let d := uniformSlot ctx n
    let strip := (field d 28 4 : BitVec 4).toNat
    let reg := (field d 25 3 : BitVec 3).toNat
    if slotOn d then writeBytes m (0x100 + 32 * strip + 4 * reg) ((uni.drop (slotOffset d)).take 4) else m) ctx

def storeContext (t : Task) (p : Packet) (c : Cell) : Cell :=
  { c with collar := { c.collar with store := pasteMem c.collar.store p.off 0x2000 (fillSlots t.uniform (memOf p.bytes)) } }

/-- CONFIG_CONTEXT. -/
def execConfigContext (n row : Nat) (s : State) : Host.Outcome State Fault Refusal :=
  settle s (consume 1 storeContext n row s)

/-- Physical slot of a task's logical slot (R174). -/
def physicalSlot (blocks : List Nat) (j : Nat) : Nat := 16 * blocks.getD (j / 16) 0 + j % 16

/-- OFF of a slot table packet is 8 × logical slot (R174). Bits [63:52] of an entry read zero (R171). -/
def loadSlots (t : Task) (p : Packet) (c : Cell) : Cell :=
  let entry (i : Nat) : Word := zx (field (wordOf ((p.bytes.drop (8 * i)).take 8)) 0 52)
  let load (m : SMap Word) (i : Nat) : SMap Word := poke 0 m (physicalSlot t.blocks (p.off / 8 + i)) (entry i)
  { c with slotTable := (List.range (p.bytes.length / 8)).foldl load c.slotTable }

/-- CONFIG_SLOT_TABLE. -/
def execConfigSlotTable (n row : Nat) (s : State) : Host.Outcome State Fault Refusal := settle s (consume 2 loadSlots n row s)

def loadData (_ : Task) (p : Packet) (c : Cell) : Cell :=
  modMem c fun m => { m with scratch := writeBytes m.scratch p.off p.bytes }

/-- CONFIG_DATA_BLOCK (R13). -/
def execConfigDataBlock (n row : Nat) (s : State) : Host.Outcome State Fault Refusal := settle s (consume 3 loadData n row s)

def loadUniform (_ : Task) (p : Packet) (c : Cell) : Cell :=
  modMem c fun m => { m with uniform := memOf p.bytes, ulen := p.bytes.length }

/-- CONFIG_UNIFORM (R14). -/
def execConfigUniform (n row : Nat) (s : State) : Host.Outcome State Fault Refusal := settle s (consume 4 loadUniform n row s)

/-- CONFIG_END: a row has ended; once all have, stage 7 may begin and a hit's pin is released (R126, R147). -/
def configEnd (n row : Nat) (s : State) : Option State :=
  (packetAt s n row 5).map fun (t, _) =>
    let t' := dropPacket row { t with ended := t.ended ++ [row] }
    if t'.ended.length < t.h then { s with tasks := put s.tasks n t' }
    else unpin { s with tasks := put s.tasks n { t' with stage := .start } } t'

def execConfigEnd (n row : Nat) (s : State) : Host.Outcome State Fault Refusal := settle s (configEnd n row s)

/-! ### Cells that a task gives back -/

/-- Cells lose their task: nothing of it stays in them, and a revocation waits for them no more (R131, R159, R174). -/
def releaseCells (s : State) (ids : List Nat) : State :=
  { s with
    cells := ids.foldl del s.cells
    asks := s.asks.filter fun x => !ids.contains x.2.msg.cell
    revocations := s.revocations.map fun r => { r with waiting := r.waiting.filter fun id => !ids.contains id } }

/-- Each listed cell with its contents, in order. -/
def cellsAt (s : State) (ids : List Nat) : List (Nat × Cell) :=
  ids.filterMap fun id => (look s.cells id).map fun c => (id, c)

/-- The contexts of a task's members wherever they are, in LCELL order: on their cells, in shadow storage, or saved. -/
def contextsOf (s : State) (t : Task) : List (Nat × Cell) :=
  let out := peek [] s.shadow t.part.toNat
  (t.cells.filterMap fun id => ((look s.cells id).or (look out id)).map fun c => (id, c)) ++
    t.frames.map fun c => (c.core.sr.cellid.toNat, c)

def enterDomains (s : State) (ms : List (Nat × Cell)) : State :=
  ms.foldl (fun s (id, c) => levels.foldl (fun s l => enterDomain s id c l) s) s

def leaveDomains (s : State) (ms : List (Nat × Cell)) : State :=
  ms.foldl (fun s (id, c) => levels.foldl (fun s l => leaveDomain s id c l) s) s

/-- A task is over: expectations fall, windows close, the cells and blocks return (R93, R131, R164, R174). -/
def returnCells (s : State) (n : Nat) (t : Task) : State :=
  let s1 := releaseCells (leaveDomains s (contextsOf s t)) t.cells
  { dropTask s1 n with
    published := s1.published.filter fun x => x.1 / 1024 != n
    shadow := upd s1.shadow t.part.toNat fun cs => cs.filter fun x => !t.cells.contains x.1 }

/-- CONFIG_PACKET_CORRUPTION: a reserved KIND stops the launch: the cells return and firmware learns of it (R126). The
queue stops, as at any failed stage (R115). HEAD does not advance and no completion record is written (DESIGN CHOICE,
assumption 49: R149 has no status for such an end, and R126 and R399 do not say). -/
def packetCorruption (n row : Nat) (kind : BitVec 4) (s : State) : Option State :=
  match taskAt s n with
  | none => none
  | some t =>
    if t.stage ≠ .config || (t.rows.getD row []).isEmpty || kind.toNat < 6 then none
    else
      let s1 := unpin { dropTask (releaseCells s t.cells) n with
        fw := { s.fw with reports := s.fw.reports ++ [.trap t.part .ecc] } } t
      some (stopQueue (modQueueAt s1 t.q fun v => { v with task := none }) t.q 2 (BitVec.ofNat 8 TrapCode.ecc.num))

def execConfigPacketCorruption (n row : Nat) (kind : BitVec 4) (s : State) : Host.Outcome State Fault Refusal :=
  settleQueues s (packetCorruption n row kind s)

/-! ### Stage 7 (R15, R84, R86, R124) -/

/-- Tasks that carry a CLU: those that hold cells and have been placed. -/
def carriesClu (t : Task) : Bool :=
  match t.stage with
  | .running => true
  | .saving _ => true
  | _ => false

/-- The lowest CLU that no other task of the partition carries, 255 when all are held (R84). -/
def freeClu (s : State) (n : Nat) (part : BitVec 4) : BitVec 8 :=
  let used := s.tasks.filterMap fun (k, t) => if k != n && t.part == part && carriesClu t then some t.clu.toNat else none
  BitVec.ofNat 8 (((List.range 256).find? fun x => !used.contains x).getD 255)

/-- DOMAIN (R84). -/
def domainWord (s : State) (part : BitVec 4) (clu : BitVec 8) (id : Nat) : Word :=
  (0 : BitVec 23) ++ s.fw.pkg ++ (0 : BitVec 10) ++ part ++ BitVec.ofNat 2 (dieOfCell id) ++ clu ++ (0 : BitVec 3) ++
    ((partOf s part).memb ||| 3)

/-- The place registers of a member (R15, R84). -/
def placeMember (s : State) (n : Nat) (part : BitVec 4) (clu : BitVec 8) (lcell id : Nat) (c : Cell) : Cell :=
  modCore c fun k => { k with sr := { k.sr with
    cellid := BitVec.ofNat 9 id, lcell := BitVec.ofNat 6 lcell, taskid := BitVec.ofNat 32 n, maxk := s.fw.maxk
    domain := domainWord s part clu id } }

/-- Every member gets its place. -/
def placeMembers (s : State) (n : Nat) (t : Task) (clu : BitVec 8) : State :=
  let place (m : SMap Cell) (x : Nat × Nat) : SMap Cell := upd m x.1 (placeMember s n t.part clu x.2 x.1)
  { s with cells := t.cells.zipIdx.foldl place s.cells }

/-- A member begins: PC and CYC are 0 (R124). -/
def startMember (now : Nat) (c : Cell) : Cell :=
  modCore c fun k => { k with pcE := 0, pcA := 0, stopIssue := false, sr := { k.sr with cycBase := now } }

/-- TASK_START: every member starts in one cycle (R124). -/
def taskStart (n : Nat) (s : State) : Option State :=
  match taskAt s n with
  | none => none
  | some t =>
    if t.stage ≠ .start || !(partOf s t.part).resident then none
    else
      let clu := freeClu s n t.part
      let s1 := placeMembers s n t clu
      let s2 := forCells s1 t.cells (startMember s.now)
      let s3 := { s2 with tasks := put s2.tasks n { t with stage := .running, clu := clu } }
      some (enterDomains s3 (cellsAt s3 t.cells))

def execTaskStart (n : Nat) (s : State) : Host.Outcome State Fault Refusal := settleQueues s (taskStart n s)

/-! ### The end of a task (R110, R131, R399) -/

/-- The member has halted, its queues are empty and its engines' writes performed (R110, R331). -/
def memberEnded (s : State) (id : Nat) : Bool :=
  match look s.cells id with
  | none => false
  | some c => c.core.halted && c.core.trap.isNone && c.owed.isEmpty && c.ends.isEmpty && c.queues.toList.all fun q => q.entries.isEmpty

/-- Status words of a member's strips (R293, R399). -/
def stripStatus (c : Cell) : List Word := c.collar.strips.toList.map statusWord

/-- The record of a member at a normal end; beside a member that halted in its handler the others carry code 0 (R361). -/
def endRecordOf (t : Task) (c : Cell) : Vector Word 8 :=
  if t.hhalt.isEmpty || t.hhalt.contains c.core.sr.lcell.toNat then c.core.sr.trec else Vector.replicate 8 0

/-- The header of a completion record of a task that has run (R399). -/
def endHead (s : State) (t : Task) (fatal : Bool) : CompletionHead :=
  { steep := t.steep
    malf := (contextsOf s t).any fun x => x.2.malformed
    hhalt := !t.hhalt.isEmpty
    fatal := fatal
    nmem := BitVec.ofNat 7 (contextsOf s t).length }

/-- Write the record, return the cells and advance HEAD (R131, R399). `s1` is the machine the record is taken from, `s2`
the one that goes on. -/
def endTask (s1 s2 : State) (n : Nat) (t : Task) (fatal : Bool) (members : List Byte) : Reached :=
  match writeCompletion s2 t.part t.crec (completionBytes (endHead s1 t fatal) n members) with
  | .waits r => .waits r
  | .ok s => .ok (endLaunch (returnCells s n t) t.q t.ev t.crec)

/-- TASK_END (R110, R131, R361). -/
def taskEnd (n : Nat) (s : State) : Option State :=
  match taskAt s n with
  | none => none
  | some t =>
    if t.stage ≠ .running || t.fatal.isSome || !t.cells.all (memberEnded s) then none
    else
      let members := (cellsAt s t.cells).flatMap fun x => memberBytes (endRecordOf t x.2) (stripStatus x.2)
      match endTask s s n t false members with
      | .ok s' => some s'
      | .waits r => r

def execTaskEnd (n : Nat) (s : State) : Host.Outcome State Fault Refusal := settleQueues s (taskEnd n s)

/-! ### Fatal traps and the watchdog (R91, R345, R346) -/

/-- The record of a member of a task that ends by R345. -/
def fatalRecord (t : Task) (c : Cell) : Vector Word 8 :=
  match t.fatal with
  | some f => if f.lcell = c.core.sr.lcell.toNat then trapRecord t.residual c f.trap f.nested else cutRecord t.residual c
  | none => cutRecord t.residual c

/-- A freeze that the task's cells caused is resolved by its end (R349). -/
def resolveFreezes (s : State) (t : Task) : State :=
  let end_ (f : Freeze) : Freeze :=
    if t.cells.contains f.faulty && f.resolved.isNone then { f with resolved := some s.now } else f
  modPart s t.part fun p => { p with freezes := p.freezes.map end_ }

/-- A task ends by R345: records, discarded entries, the sticky error `code`, the cells back. -/
def endFatally (s : State) (n : Nat) (t : Task) (code : Nat) : Reached :=
  let members := (contextsOf s t).flatMap fun x => memberBytes (fatalRecord t x.2) (stripStatus x.2)
  let s1 := t.cells.foldl discardEntries (resolveFreezes s t)
  match endTask s s1 n t true members with
  | .ok s' => .ok (stopQueue s' t.q 2 (BitVec.ofNat 8 code))
  | .waits r => .waits r

/-- Nothing of a faulted collar can go on: no strip, no firing that is buffered, none of its ports, no read or beat that one
waits for (R332, R350). -/
def collarStill (s : State) (id : Nat) (c : Cell) : Bool :=
  let portWaits := c.mem.deferred.any fun d => match d.reader with
    | .port _ => true
    | _ => false
  c.collar.calm == BitVec.allOnes 16 && !portWaits && s.flying.all (fun g => g.beat.part != c.part) &&
  (drainWave s id).isNone && (exitBankEmit id s).isNone && (aeBeWrite id false s).isNone && (aeBeWrite id true s).isNone &&
  (List.range 16).all fun j => (List.range 4).all fun n => (cfgToken id (BitVec.ofNat 4 j) (BitVec.ofNat 2 n) s).isNone

/-- A member has come to rest for a fatal end: a faulted collar once nothing of it can go on (R332, R350); a frozen
member's engines stand still already (R345, R348). -/
def atRest (s : State) (id : Nat) : Bool :=
  match look s.cells id with
  | none => true
  | some c =>
    bagDone c && (c.frozen.isSome || accessesDone s id c && allAtStop c && (!collarFaulted c.collar || collarStill s id c))

/-- The watchdog period in cycles, of which 2,700,000 make a millisecond (R4, R91). -/
def watchdogCycles (p : Partition) : Nat := 2700000 * p.watchdogMs

/-- A partition that is to be swapped has cells that have not halted yet. -/
def stillHalting (s : State) (part : BitVec 4) : Bool :=
  !(partOf s part).away && s.cells.any fun x => x.2.part == part && !x.2.paused

/-- For the whole period no instruction has completed in a stream of the partition, and no engine entry (R91). The watchdog
does not count while the partition is out or halted for a swap (R346). -/
def watchdogOver (s : State) (part : BitVec 4) : Bool :=
  let p := partOf s part
  (p.resident || stillHalting s part) && decide (p.lastDone + watchdogCycles p ≤ s.now)

/-- FATAL_TRAP: a fatal trap ends the task once every member has come to rest, and the cells that a fault freezes have
frozen; HANG, whose members may hold what never comes to rest, at the latest when the watchdog's period has passed again
(R91, R345, R346, R348; assumption 56). -/
def fatalTrap (n : Nat) (s : State) : Option State :=
  match taskAt s n with
  | none => none
  | some t =>
    match t.fatal with
    | none => none
    | some f =>
      let hang := f.trap.code == .hang && watchdogOver s t.part
      let pending := t.cells.any fun id => freezePending s t.part id
      if !(hang || (t.stage == .running && (partOf s t.part).resident && !pending && t.cells.all (atRest s))) then none
      else
        match endFatally s n t f.trap.code.num with
        | .ok s' => some s'
        | .waits r => r

def execFatalTrap (n : Nat) (s : State) : Host.Outcome State Fault Refusal := settleQueues s (fatalTrap n s)

/-- The trap that the watchdog raises (R346). -/
def hangTrap : Trap := { code := .hang, unit := 7 }

/-- Tasks of a partition that are running (R346). -/
def runsIn (part : BitVec 4) (t : Task) : Bool := t.part == part && carriesClu t

/-- The task is fatal by HANG; a trap that is already fatal to it stands. NESTED tells whether the member ran a handler
(R339, R345). -/
def hangTask (s : State) (t : Task) : Task :=
  let nested := match t.cells.head?.bind (look s.cells) with
    | some c => c.core.hm
    | none => false
  if t.fatal.isSome then t else { t with fatal := some ⟨0, hangTrap, nested⟩ }

/-- HANG: the watchdog of a resident partition expires, which is fatal for each of its running tasks, and counts anew
(R91, R346). The record stands at member 0. -/
def hangPart (part : BitVec 4) (s : State) : Option State :=
  if !watchdogOver s part then none
  else
    let ids := s.tasks.flatMap fun x => if runsIn part x.2 then x.2.cells else []
    let s1 := modPart (forCells s ids stopCell) part fun p => { p with lastDone := s.now }
    some { s1 with tasks := s1.tasks.map fun (k, t) => (k, if runsIn part t then hangTask s t else t) }

def execHang (part : BitVec 4) (s : State) : Host.Outcome State Fault Refusal := settleQueues s (hangPart part s)

end Sys2Proof.Machine
end

