-- ==== Sys2Proof/Machine/Preempt.lean ====
section
/-! DEFINITION. Pre-emption: saving and restoring tasks (R127-R130, R160, R356, R359), `yield` (R71), partition swaps
(R358), and the freeze and thaw of a domain (R348, R349). -/

namespace Sys2Proof.Machine

/-! ### Asking for a save (R127, R130) -/

/-- Shape of what a queue's head would put on cells: its saved task, or the image of its launch, unless that launch holds
its cells already (R130). -/
def headShape (s : State) (v : Queue) : Option (Nat × Nat) :=
  if v.restore then (v.task.bind (taskAt s)).map fun t => (t.w, t.h)
  else
    match v.cmd with
    | none => none
    | some c =>
      if cmdKind c = 0 && !launchPlaced s v then (s.images.find? fun m => m.imgid == c.dw[1]).map fun m => (imgW m, imgH m) else none

/-- A READY queue of at least the task's level could use the cells (R130). -/
def yieldWanted (s : State) (t : Task) : Bool :=
  let own := queueAt s t.q
  s.queues.any fun (k, v) =>
    k != t.q.toNat && v.part == t.part && decide (own.prio.toNat ≤ v.prio.toNat) && isReady s v &&
    (match headShape s v with
     | some (w, h) => couldPlace s t.part w h t.cells
     | none => false)

/-- `yield`: the stream goes on at the next instruction; a taken one starts a save (R71, R130). -/
def execYield (st : State) : Host.Outcome State Fault Refusal :=
  runCore .yield false (fun s id c =>
    let s1 := setCell s id (advance false c)
    .done (match taskOf s c with
      | some t => if t.stage == .running && t.saveAsked.isNone && (partOf s t.part).resident && yieldWanted s t then askSave s1 c.task true else s1
      | none => s1)) st

/-- The execute stream waits at a `waitc`, a barrier or a `tokw` (R127). -/
def waitsAtWord (s : State) (c : Cell) (i : Instr) : Bool :=
  match i with
  | .waitc a =>
    let v := if a = 30 then (match c.core.ldq with
        | e :: _ => e.vals.headD 0
        | [] => 0) else getReg c.core false a
    let k := counterAt s (field v 0 16)
    k.state == .armed && k.gen == field v 16 16
  | .barw l => levelBit c.bar.pending l && !barrierDone s c l
  | .bar _ | .barr _ _ _ _ =>
    (match c.core.barPhase with
     | .arrived l => !barrierDone s c l
     | _ => false)
  | .tokw _ =>
    (match c.core.tokWait with
     | some w => !waitOver c.core w
     | none => false)
  | _ => false

/-- An LDQ entry of the cell belongs to a load that is deferred, at its own banks or at another cell's (R105). -/
def entryDeferred (s : State) (id : Nat) (c : Cell) (e : LdqEntry) : Bool :=
  !e.filled &&
  (c.mem.deferred.any (fun d => d.reader == .ldq e.id) ||
   s.resps.any fun p => p.2.msg.cell == id && !p.2.ready &&
     (match p.2.msg.kind with
      | .load _ (.ldq n) => n == e.id
      | .line n => n == e.id
      | _ => false))

/-- The access stream is held by a deferred read: one of its own, or one at another cell's bank whose register its
instruction names (R49, R105). -/
def accessHeld (s : State) (id : Nat) (c : Cell) : Bool :=
  let names : List (BitVec 5) := match decodeCore (codeWord c.mem (nextPlace c true).toNat) with
    | .ok i => (namesOf i).srcs ++ (namesOf i).dst.toList
    | .reject _ => []
  streamDeferred c true || s.resps.any fun p => p.2.msg.cell == id && !p.2.ready &&
    (match p.2.msg.kind with
     | .load _ (.reg d) | .amo _ _ _ d => names.contains d
     | _ => false)

/-- Where `n` values are to be taken from the LDQ, the entry whose value has not come, or nothing where the LDQ lacks one; none
where they stand there (R79). -/
def ldqLacks : Nat → List LdqEntry → Option (Option LdqEntry)
  | 0, _ => none
  | _ + 1, [] => some none
  | n + 1, e :: es => if !e.filled then some (some e) else if n + 1 ≤ e.vals.length then none else ldqLacks (n + 1 - e.vals.length) es

/-- The execute stream stands at an instruction that waits for the access stream: for a value of the LDQ or room in the EAQ, for
an outcome or room for one, or because the access stream has not come so far (R77, R79, R80, R95). -/
def waitsForAccess (c : Cell) (w : BitVec 32) : Bool :=
  if bit w 31 then isBranchWord w && c.core.boq.isEmpty
  else
    match decodeCore w with
    | .reject _ => false
    | .ok i =>
      ldqLacks ((namesOf i).srcs.count 30) c.core.ldq == some none || ((namesOf i).dst == some 31 && decide (16 ≤ c.core.eaq.length)) ||
      (isBranchWord w && c.core.path.any fun p => match p with | .outcome _ => true | .pass => false) ||
      (!accessReached c.core && match i with
        | .bar _ | .barr _ _ _ _ | .bara _ | .sig _ | .mts _ _ | .halt | .tret => true
        | _ => false)

/-- The execute stream waits for a deferred read: it takes a value from the LDQ that such a read has still to bring, or it waits
for the access stream, which one holds (R105, R127). -/
def waitsForRead (s : State) (id : Nat) (c : Cell) (w : BitVec 32) : Bool :=
  (waitsForAccess c w && accessHeld s id c) ||
  match decodeCore w with
  | .ok i => !bit w 31 && (match ldqLacks ((namesOf i).srcs.count 30) c.core.ldq with
      | some (some e) => entryDeferred s id c e
      | _ => false)
  | .reject _ => false

/-- A member waits, so that the scheduler may take its cells: its execute stream stands at a `waitc`, a barrier, a token or
a deferred read (R127). -/
def memberWaits (s : State) (id : Nat) : Bool :=
  match look s.cells id with
  | none => false
  | some c =>
    streamDeferred c false ||
    (let p := nextPlace c false
     let w := codeWord c.mem p.toNat
     fetchOk c.mem p && (waitsForRead s id c w || match decodeCore w with
       | .ok i => waitsAtWord s c i
       | .reject _ => false))

/-- The scheduler needs the cells of a task all of whose members wait (R127). -/
def saveForCells (n : Nat) (s : State) : State :=
  match taskAt s n with
  | none => s
  | some t =>
    if t.stage == .running && t.saveAsked.isNone && (partOf s t.part).resident && !t.cells.isEmpty && t.cells.all (memberWaits s) then
      modTask (askSave s n false) n fun t => { t with cellsAsked := true }
    else s

/-! ### Halting a cell (R356, R389) -/

/-- A running Blender job of the cell is given up; its entry is not started (R389). -/
def giveUpJob (s : State) (id : Nat) (c : Cell) : State × Cell :=
  ({ s with jobs := s.jobs.filter fun j => j.cell != id },
   modHead c 3 fun e => if e.status = .running then { e with status := .waiting } else e)

/-- A read of message `n` is deferred at a bank of a cell that is being halted too: it goes into that cell's frame (R357). -/
def deferredInFrame (s : State) (n : Nat) : Bool :=
  s.cells.any fun x => halting s x.2 && x.2.mem.deferred.any fun d => d.reader == .msg n

/-- Every issued access has completed or been refused, but for reads that are deferred at banks which the halt takes along:
the frames hold those (R356, R357). -/
def accessesSettled (s : State) (id : Nat) (c : Cell) : Bool :=
  c.mem.bufs.toList.all (·.isEmpty) && (requestsOf s id).isEmpty &&
  s.resps.all fun p => p.2.msg.cell != id || (!p.2.ready && deferredInFrame s p.1)

/-- The matrix engine may be saved: the exit bank, which no frame holds, is empty, and no retirement is under way (R249,
R264). -/
def matrixRests (c : Cell) : Bool :=
  c.exitBank.isEmpty && match headEntry c 0 with
    | some e => !(e.status == .running && e.retire)
    | none => true

/-- Issue has stopped, every issued access is over, and each queue stands at a stopping point (R356). -/
def haltable (s : State) (id : Nat) (c : Cell) : Bool :=
  c.core.stopIssue && matrixRests c && bagDone c && !haltWaits s c.part [id] && accessesSettled s id c && atStop c 0 && atStop c 1 && atStop c 2

/-- CELL_HALT: the cell counts as halted for the save or the swap (R356). -/
def cellHalt (id : Nat) (s : State) : Option State :=
  match look s.cells id with
  | none => none
  | some c =>
    if c.paused || !halting s c || !haltable s id c then none
    else
      let (s', c') := giveUpJob s id c
      some (setCell s' id { c' with paused := true })

def execCellHalt (id : Nat) (s : State) : Host.Outcome State Fault Refusal := settle s (cellHalt id s)

/-! ### Contexts that leave and come back (R157, R160, R174, R356-R359) -/

/-- Slot table entries by logical slot (R174). -/
def logicalSlots (blocks : List Nat) (m : SMap Word) : SMap Word :=
  m.filterMap fun (k, v) => (blocks.zipIdx.find? fun b => b.1 == k / 16).map fun b => (16 * b.2 + k % 16, v)

/-- Slot table entries on the blocks granted (R174). -/
def grantedSlots (blocks : List Nat) (m : SMap Word) : SMap Word :=
  m.foldl (fun t (k, v) => poke 0 t (physicalSlot blocks k) v) []

/-- A handle keeps V only when a fresh walk finds the leaf it was bound to (R160). -/
def checkHandle (s : State) (part : BitVec 4) (h : Handle) : Handle :=
  if h.v then
    match walk s part (h.vpage.toNat * 0x10000) false with
    | .leaf _ pte => if ptePfn pte = h.pfn ∧ (field pte 52 8 : BitVec 8) = h.gen then h else { h with v := false }
    | _ => { h with v := false }
  else h

/-- An entry that waited for a page runs again (R348). -/
def retryPage (e : Entry) : Entry :=
  match e.status with
  | .faulted t _ => if t = pageTrap then retryEntry e else e
  | _ => e

/-- A queue goes on, unless a trap of the cell stands or its head stands at a fault (R343, R359). -/
def goOn (trapped : Bool) (q : EQueue) : EQueue :=
  let es := q.entries.map retryPage
  let faulted := match es with
    | e :: _ => (match e.status with
        | .faulted _ _ => true
        | _ => false)
    | [] => false
  { q with entries := es, stopped := trapped || faulted }

/-- Cycle counts of a cell that stood still from cycle `f` to cycle `t` go on from where they were: CYC, the time that reads have
waited at its banks, which for one that came meanwhile begins at `t`, and the rest of an `idle` (R86, R105, R314). -/
def shiftTime (f t : Nat) (c : Cell) : Cell :=
  { c with
    core := { c.core with sr := { c.core.sr with cycBase := c.core.sr.cycBase + (t - f) } }
    mem := { c.mem with deferred := c.mem.deferred.map fun x => { x with since := if x.since ≤ f then x.since + (t - f) else t } }
    collar := { c.collar with strips := mapAll (fun p =>
      if f < p.holdUntil then { p with holdUntil := p.holdUntil + (t - f) } else p) c.collar.strips } }

/-- A completion that fell during the halt is delivered: CYC restarts (R99, R359). -/
def deliverRestart (now : Nat) (c : Cell) : Cell :=
  if c.bar.restart then
    { modCore c fun k => { k with sr := { k.sr with cycBase := now } } with bar := { c.bar with restart := false } }
  else c

/-- A context that has come back goes on: a trap that stands comes first (R359). -/
def resumeCell (s : State) (fatal : Bool) (from_ : Nat) (c : Cell) : Cell :=
  let trapped := c.core.trap.isSome
  let c1 := shiftTime from_ s.now (modCore c fun k => { k with
    handles := mapAll (checkHandle s c.part) k.handles
    stopIssue := trapped || fatal })
  let check (h : Channel) : Channel :=
    { h with readsBy := checkHandle s c.part h.readsBy, writesBy := checkHandle s c.part h.writesBy }
  deliverRestart s.now { modQueues c1 (goOn trapped) with
    paused := false, collar := resumeCollar c1.collar, channels := mapAll check c1.channels }

/-- Traps held during a halt are raised where none stands (R359). -/
def deliverHeld (s : State) (ids : List Nat) : State :=
  ids.foldl (fun s id =>
    match look s.cells id with
    | some c => if c.core.trap.isNone && !c.core.hm then raiseHeld s id else s
    | none => s) s

/-! ### Saving and restoring a task (R127-R129) -/

def isPaused (s : State) (id : Nat) : Bool :=
  match look s.cells id with
  | some c => c.paused
  | none => false

/-- The queue of a saved task: the head is to be restored; a taken yield is charged (R128, R130). -/
def saveQueue (yield_ : Bool) (v : Queue) : Queue :=
  { v with restore := true, pass := if yield_ then v.pass + strideOfQueue v else v.pass }

/-- Bytes of a frame (R357). -/
abbrev frameSize : Nat := 0x11A000

/-- The parts of a context that the frame's layout places: scratch, accumulator, context store, vector registers. The state
block's own layout is not given (R357; assumption 29). -/
def frameBytesOf (c : Cell) : Mem :=
  let rows (m : SMap Row) (a : Nat) : Mem := m.flatMap fun (k, v) =>
    (sliceMem (writeBytes [] 0 (bytesOf v.toNat 768)) 0 768).map fun (i, b) => (a + 768 * k + i, b)
  pasteMem (pasteMem (pasteMem (pasteMem [] 0 0xC0000 c.mem.scratch) 0xC0000 0x24000 ((rows c.acc 0))) 0xE4000 0x20000
    c.collar.store) 0x104000 0xC000 (rows c.collar.vreg 0)

/-- Rows of 192 lanes from a range of a frame. -/
def rowsOf (m : Mem) (n : Nat) : SMap Row :=
  (List.range n).foldl (fun r k => poke 0 r k (BitVec.ofNat 6144 (ofBytes (readBytes m (768 * k) 768)))) []

/-- A context with what its frame holds in memory (R127, R357). -/
def withFrame (m : Mem) (c : Cell) : Cell :=
  { modMem c (fun x => { x with scratch := sliceMem m 0 0xC0000 }) with
    acc := rowsOf (sliceMem m 0xC0000 0x24000) 192
    collar := { c.collar with
      store := sliceMem m 0xE4000 0x20000
      vreg := rowsOf (sliceMem m 0x104000 0xC000) 64 } }

/-- A frame of HBM may hold a context: it is populated, and no byte of it is offlined or uncorrectable (R166, R168). -/
def frameUsable (s : State) (a : Nat) : Bool := populated s.fw a frameSize && mayHandOut s a frameSize && !poisoned s a frameSize

/-- Numbers of usable frames that no saved task of the partition uses, the lowest first. -/
def freeFrames (s : State) (part : BitVec 4) (base n : Nat) : List Nat :=
  let used := s.tasks.flatMap fun x => if x.2.part == part then x.2.frameNos else []
  let bad := 18 * s.fw.offlined.length + s.poison.length
  ((List.range (used.length + bad + n)).filter fun k => !used.contains k && frameUsable s (base + frameSize * k)).take n

/-- Write the contexts of a saved task into the frames that firmware assigned (R127, R357). -/
def storeFrames (s : State) (base : Nat) (nos : List Nat) (cs : List Cell) : State :=
  { s with mem := (nos.zip cs).foldl (fun m x => pasteMem m (base + frameSize * x.1) 0x110000 (frameBytesOf x.2)) s.mem }

/-- Read a context back from its frame. Uncorrectable bytes of it are an ECC trap of the member, raised when it goes on
(R166, R357, R359; what traps there: DESIGN CHOICE, assumption 62). -/
def readFrame (s : State) (a : Nat) (c : Cell) : Cell :=
  let c := withFrame (sliceMem s.mem a 0x110000) c
  if poisoned s a 0x110000 then modCore c fun k => { k with held := k.held ++ [{ code := .ecc, unit := 0 }] } else c

/-- Read the contexts of a saved task back from its frames (R127, R357). -/
def loadFrames (s : State) (t : Task) : List Cell :=
  match (partOf s t.part).frameBase with
  | some b =>
    if t.frameNos.length = t.frames.length then
      (t.frameNos.zip t.frames).map fun x => readFrame s (b.toNat + frameSize * x.1) x.2
    else t.frames
  | none => t.frames

/-- SAVE_TASK: the members' contexts are kept and the cells released; the wake latch decides whether the queue is READY,
and a yield wakes at once (R127, R128, R130). -/
def saveTask (n : Nat) (s : State) : Option State :=
  match taskAt s n with
  | none => none
  | some t =>
    match t.stage with
    | .saving y =>
      if !t.cells.all (isPaused s) then none
      else
        let frame (c : Cell) : Cell := { c with slotTable := logicalSlots t.blocks c.slotTable, paused := false }
        let frames := (cellsAt s t.cells).map fun x => frame x.2
        let nos := match (partOf s t.part).frameBase with
          | some b => freeFrames s t.part b.toNat frames.length
          | none => []
        let s1 := storeFrames (releaseCells s t.cells) (((partOf s t.part).frameBase.map (·.toNat)).getD 0) nos frames
        let t' := { t with
          stage := .saved, cells := [], frames := frames, frameNos := nos, savedAt := s.now, wake := t.wake || y }
        some (modQueueAt { s1 with tasks := put s1.tasks n t' } t.q (saveQueue y))
    | _ => none

def execSaveTask (n : Nat) (s : State) : Host.Outcome State Fault Refusal := settleQueues s (saveTask n s)

/-- A member's level-2 domain is that of the die it now stands on (R84, R85). -/
def moveDomain (s : State) (old id : Nat) : State :=
  match look s.cells id with
  | none => s
  | some c => if dieOfCell old = dieOfCell id then s else enterDomain (leaveDomain s old c 2) id c 2

/-- A restored task's deferred remote reads: the requests in flight name the cells that the members now stand on (R357). -/
def moveResp (n : Nat) (moves : List (Nat × Nat)) (r : Resp) : Resp :=
  let to_ (id : Nat) : Nat := ((moves.find? fun x => x.1 == id).map (·.2)).getD id
  if r.msg.task = n then
    { r with msg := { r.msg with
        cell := to_ r.msg.cell
        target := match r.msg.target with
          | .cell t => .cell (to_ t)
          | x => x } }
  else r

/-- RESTORE_TASK: the chosen queue's saved task takes a free rectangle of its shape and goes on (R84, R129, R160). One that
waits for cells keeps its turn though a queue of a higher level becomes READY: R120 lets only a LAUNCH give way (DESIGN
CHOICE, assumption 25). -/
def restoreTask (n : Nat) (s : State) : Option State :=
  match taskAt s n with
  | none => none
  | some t =>
    let v := queueAt s t.q
    if t.stage ≠ .saved || !v.restore || v.task ≠ some n || !isChosen s t.q || !(partOf s t.part).resident then none
    else
      match allocate s t.part t.w t.h t.blocks.length with
      | .never | .wait => none
      | .got cells blocks =>
        let clu := freeClu s n t.part
        let t' := { t with
          stage := .running, cells := cells, blocks := blocks, die := dieOfRect cells, clu := clu
          frames := [], frameNos := [], wake := false, cellsAsked := false }
        let back (c : Cell) : Cell :=
          { resumeCell s t.fatal.isSome t.savedAt c with slotTable := grantedSlots blocks c.slotTable }
        let live := cells.zip ((loadFrames s t).map back)
        let s1 := modQueueAt (clearChosen s t.part) t.q fun v => { v with restore := false }
        let s2 := { s1 with
          tasks := put s1.tasks n t'
          cells := live.foldl (fun m x => put m x.1 x.2) s1.cells }
        let s3 := placeMembers s2 n t' clu
        let olds := t.frames.map fun c => c.core.sr.cellid.toNat
        let s4 := (olds.zip cells).foldl (fun s x => moveDomain s x.1 x.2) s3
        let s5 := { s4 with resps := s4.resps.map fun (k, r) => (k, moveResp n (olds.zip cells) r) }
        some (deliverHeld s5 cells)

def execRestoreTask (n : Nat) (s : State) : Host.Outcome State Fault Refusal := settleQueues s (restoreTask n s)

/-- Two virtual addresses lie in one page as the table now maps it. -/
def samePage (s : State) (part : BitVec 4) (a b : Nat) : Bool :=
  let n := match walk s part a false with
    | .leaf size _ => pageBytes size
    | _ => 0x10000
  a / n == b / n

/-- PAGE_RESIDENT: tasks that wait for the page wake, freezes that wait for it are resolved, Blender jobs that wait for it go on
(R128, R348, R349, R379). -/
def pageResident (part : BitVec 4) (va : BitVec 57) (s : State) : Option State :=
  let same (x : BitVec 57) : Bool := samePage s part va.toNat x.toNat
  let waits (t : Task) : Bool := t.part == part && t.waitsPage.any same
  let left (t : Task) : List (BitVec 57) := t.waitsPage.filter fun x => !same x
  let resolve (f : Freeze) : Freeze :=
    match f.page with
    | some x => if same x && f.resolved.isNone then { f with resolved := some s.now } else f
    | none => f
  let keep (r : Report) : Bool := match r with
    | .page p x => !(p == part && same x)
    | _ => true
  let jobWaits (j : Job) : Bool := j.part == part && match j.waits with
    | some x => same x
    | none => false
  let s1 := { s with
    jobs := s.jobs.map fun j => if jobWaits j then { j with waits := none } else j
    tasks := s.tasks.map fun (k, t) => (k, if waits t then { t with
        wake := true, waitsPage := left t
        saveAsked := if (left t).isEmpty then none else t.saveAsked, saveBroken := t.saveBroken && !(left t).isEmpty } else t)
    fw := { s.fw with reports := s.fw.reports.filter keep } }
  some (if (partOf s part).freezes.isEmpty then s1 else modPart s1 part fun p => { p with freezes := p.freezes.map resolve })

def execPageResident (part : BitVec 4) (va : BitVec 57) (s : State) : Host.Outcome State Fault Refusal :=
  settleQueues s (ofFirmware s (pageResident part va s))

/-! ### Swapping partitions (R358, R398) -/

/-- Cells of a partition. -/
def cellsOfPart (s : State) (part : BitVec 4) : List Nat := (s.cells.filter fun x => x.2.part == part).map (·.1)

/-- A partition is halted for a swap: its cells stop (R356, R358). -/
def haltPartition (part : BitVec 4) (s : State) : State :=
  modPart (forCells s (cellsOfPart s part) stopCell) part fun p => { p with resident := false, swapAsked := false, swappedAt := s.now }

/-- Firmware asks for a partition to be halted for a swap; while a cell is frozen that waits for the thaw (R356, R359). -/
def askSwap (part : BitVec 4) (s : State) : State :=
  if !(partOf s part).resident then s
  else if haltWaits s part (cellsOfPart s part) then modPart s part fun p => { p with swapAsked := true }
  else haltPartition part s

/-- A cell of a launch that has not started comes back: its engines are free to run once it starts (R124, R358). -/
def backBeforeStart (from_ now : Nat) (c : Cell) : Cell :=
  { modQueues (shiftTime from_ now c) (fun q => { q with stopped := false }) with paused := false }

/-- A task's cells go on when they come back, once it has started. -/
def comesBack (s : State) (from_ : Nat) (c : Cell) : Cell :=
  match taskOf s c with
  | some t =>
    (match t.stage with
     | .saving _ => { shiftTime from_ s.now c with paused := false }
     | _ => if carriesClu t then resumeCell s t.fatal.isSome from_ c else backBeforeStart from_ s.now c)
  | none => c

/-- The watchdog counts on from where it stood when the partition was halted (R346). -/
def swapIn (now : Nat) (p : Partition) : Partition :=
  { p with resident := true, away := false, shadowAt := [], lastDone := p.lastDone + (now - p.swappedAt) }

/-- Where frame `k` of a die's shadow storage lies: the sixteen slices hold as many whole frames each. The manual gives a
frame no place there (R153, R357; DESIGN CHOICE, assumption 29). -/
def shadowFrame (fw : Firmware) (die k : Nat) : Nat :=
  0x8000000000 + (16 * die + k % 16) * 0x2000000 + 0x1800000 - fw.shadowMib * 0x10000 + frameSize * (k / 16)

/-- Frames that a die's reserved bytes hold (R153). -/
def shadowCount (fw : Firmware) : Nat := 16 * (fw.shadowMib * 0x10000 / frameSize)

/-- A frame of shadow storage for each cell that leaves, the lowest one that is free; none where there is no room. -/
def assignShadow (s : State) (ids : List Nat) : SMap Nat :=
  let taken := s.parts.flatMap fun x => x.2.shadowAt.map (·.2)
  ids.foldl (fun m id =>
    let frames := (List.range (shadowCount s.fw)).map (shadowFrame s.fw (dieOfCell id))
    match frames.find? fun a => (taken ++ m.map (·.2)).all fun b => !overlaps a frameSize b frameSize with
    | some a => put m id a
    | none => m) []

/-- The contexts of cells go to their frames of shadow storage, in the layout of a frame (R357, R358). -/
def storeShadow (mem : Mem) (places : SMap Nat) (cs : List (Nat × Cell)) : Mem :=
  cs.foldl (fun m x =>
    match look places x.1 with
    | some a => pasteMem m a 0x110000 (frameBytesOf x.2)
    | none => m) mem

/-- A context comes back from its frame of shadow storage; one that had no room there has been kept beside it. -/
def loadShadow (s : State) (places : SMap Nat) (x : Nat × Cell) : Cell :=
  match look places x.1 with
  | some a => readFrame s a x.2
  | none => x.2

/-- PARTITION_SWAP: with every cell of `out` halted, its frames go to shadow storage, and those of `inn` come back to the
cells they held; the queues of `out` are switched out (R358, R398). -/
def partitionSwap (out inn : BitVec 4) (s : State) : Option State :=
  let mine := s.cells.filter fun x => x.2.part == out
  if out = inn || (partOf s out).resident || (partOf s inn).resident || !mine.all (fun x => x.2.paused) then none
  else
    let theirs := peek [] s.shadow inn.toNat
    if theirs.any fun x => s.cells.any fun y => y.1 == x.1 && y.2.part != out then none
    else
      let back := theirs.map fun x => (x.1, comesBack s (partOf s inn).swappedAt (loadShadow s (partOf s inn).shadowAt x))
      let places := assignShadow s (mine.map (·.1))
      let left := s.cells.filter fun x => x.2.part != out
      let s1 := { s with
        cells := back.foldl (fun m x => put m x.1 x.2) left
        mem := storeShadow s.mem places mine
        shadow := poke [] (poke [] s.shadow out.toNat mine) inn.toNat []
        queues := s.queues.map fun (k, v) => (k, if v.part == out then { v with switched := true } else v)
        revocations := s.revocations.map fun r => { r with waiting := r.waiting.filter fun id => !mine.any fun x => x.1 == id } }
      let s2 := modPart (modPart s1 out fun p => { p with away := true, shadowAt := places }) inn (swapIn s.now)
      some (deliverHeld s2 (theirs.map (·.1)))

def execPartitionSwap (out inn : BitVec 4) (s : State) : Host.Outcome State Fault Refusal :=
  settleQueues s (partitionSwap out inn s)

/-! ### Freeze and thaw (R348, R349) -/

/-- A cell of this package shares a level's domain with the faulting cell (R85, R348). -/
def freezesWith (faulty : Nat) (f : Cell) (l : BitVec 3) (id : Nat) (c : Cell) : Bool :=
  takesPart c l && cellBarrier id c l.toNat == cellBarrier faulty f l.toNat

/-- Replace the freezes of a partition. -/
def setFreezes (s : State) (part : BitVec 4) (fs : List Freeze) : State := modPart s part fun p => { p with freezes := fs }

/-- A halted or halting cell goes on where it stood: the save or swap waits for the thaw (R356, R359). -/
def goOnCell (s : State) (c : Cell) : Cell :=
  match taskOf s c with
  | some t =>
    if carriesClu t then
      let trapped := c.core.trap.isSome || t.fatal.isSome
      deliverRestart (c.frozen.getD s.now)
        { modQueues (modCore c fun k => { k with stopIssue := trapped }) (goOn trapped) with
          paused := false, collar := resumeCollar c.collar }
    else backBeforeStart s.now s.now c
  | none => c

/-- A freeze meets cells that are being halted: what halts them is asked for again after the thaw (R349, R356, R359). -/
def unhalt (s : State) (part : BitVec 4) (ids : List Nat) : State :=
  let mine := ids.filterMap fun id => (look s.cells id).map (·.task)
  let stopping (x : Nat × Task) : Bool := mine.contains x.1 && match x.2.stage with
    | .saving _ => true
    | _ => false
  let back (t : Task) : Task := match t.stage with
    | .saving y => { t with stage := .running, saveAsked := some y, saveBroken := true }
    | _ => t
  let saves := s.tasks.filter stopping
  let s1 := { forCells s (saves.flatMap fun x => x.2.cells) (goOnCell s) with
    tasks := s.tasks.map fun x => if stopping x then (x.1, back x.2) else x }
  if (partOf s part).resident then s1
  else
    modPart (forCells s1 (cellsOfPart s1 part) (goOnCell s1)) part fun p =>
      { p with resident := true, swapAsked := true, lastDone := p.lastDone + (s.now - p.swappedAt) }

/-- A save that waited for the thaw begins; one for the cells alone is given up where a member does not wait any more (R127,
R356). -/
def saveAfterThaw (s : State) (n : Nat) (t : Task) : State :=
  if t.cellsAsked && !t.cells.all (memberWaits s) then
    modTask s n fun t => { t with saveAsked := none, cellsAsked := false, saveBroken := false }
  else beginSave s n (t.saveAsked.getD false)

/-- What waited for the thaw is halted, once no cell of it is frozen (R356, R359). -/
def afterThaw (s : State) (part : BitVec 4) : State :=
  let saves := s.tasks.filter fun x =>
    x.2.part == part && x.2.saveAsked.isSome && x.2.stage == .running && !haltWaits s part x.2.cells
  let s1 := saves.foldl (fun s x => saveAfterThaw s x.1 x.2) s
  if (partOf s1 part).swapAsked then askSwap part s1 else s1

/-- FREEZE: forty cycles after its fault the domain stands still; the faulting cell's handler starts, but for a page fault,
which no handler takes (R348). -/
def freezeDomain (part : BitVec 4) (s : State) : Option State :=
  let fs := (partOf s part).freezes
  match fs.find? fun f => !f.done with
  | none => none
  | some f =>
    let rest := fs.erase f
    match look s.cells f.faulty with
    | none => some (setFreezes s part rest)
    | some x =>
      let now := max s.now f.at_
      let ids := (s.cells.filter fun p => freezesWith f.faulty x f.level p.1 p.2).map (·.1)
      let still (c : Cell) : Cell := if c.frozen.isSome then c else { c with frozen := some now }
      let s1 := unhalt { s with now := now } part ids
      let s2 := modCell (forCells s1 ids still) f.faulty fun c => { c with frozenFault := c.frozenFault || f.page.isNone }
      some (setFreezes s2 part (rest ++ [{ f with at_ := now, done := true, cells := ids }]))

def execFreeze (part : BitVec 4) (s : State) : Host.Outcome State Fault Refusal := settle s (freezeDomain part s)

/-- The thaw cycle: the first from `from_` on that lies a multiple of 256 cycles after F (R349). -/
def thawCycle (f from_ : Nat) : Nat := f + ceilDiv (from_ - f) 256 * 256

/-- A frozen cell goes on with the CYC it held (R349). -/
def thawCell (now : Nat) (c : Cell) : Cell :=
  match c.frozen with
  | none => c
  | some f => { shiftTime f now c with frozen := none, frozenFault := false }

/-- A faulting entry that waited for a page is retried (R348, R349). -/
def retryCell (c : Cell) : Cell :=
  { c with queues := mapAll (fun q =>
      if q.entries.any (fun e => match e.status with | .faulted t _ => t == pageTrap | _ => false) then goOn c.core.trap.isSome q
      else q) c.queues }

/-- THAW: cells of a resolved freeze that no other freeze holds resume together (R349); then what waited for the thaw
halts them (R356). -/
def thawDomain (part : BitVec 4) (s : State) : Option State :=
  let fs := (partOf s part).freezes
  match fs.find? fun f => f.done && f.resolved.isSome with
  | none => none
  | some f =>
    let rest := fs.erase f
    let now := thawCycle f.at_ (max s.now (f.resolved.getD 0 + 40))
    let ids := f.cells.filter fun id => !rest.any fun g => g.done && g.cells.contains id
    let s1 := forCells { s with now := now } ids (thawCell now)
    some (afterThaw (setFreezes (if f.page.isSome then modCell s1 f.faulty retryCell else s1) part rest) part)

def execThaw (part : BitVec 4) (s : State) : Host.Outcome State Fault Refusal := settle s (thawDomain part s)

end Sys2Proof.Machine
end

