-- ==== Sys2Proof/Machine/Firmware.lean ====
section
/-! DEFINITION. What firmware and the boot ROM do: configuration-port writes (R152, R402), the configuration generation and
images (R133, R147), event ring summaries (R401), power (R409), boot, ownership and attestation (R404-R406), partition
reset (R408), loss of power (R167). -/

namespace Sys2Proof.Machine

/-! ### The configuration generation and images (R133, R147) -/

/-- The configuration generation rises by 1 and the Caddy is flushed (R133, R147). -/
def raiseGeneration (s : State) : State := { s with fw := { s.fw with cgen := s.fw.cgen + 1 }, caddy := [] }

def execConfigGenerationChange (s : State) : Host.Outcome State Fault Refusal :=
  settle s (ofFirmware s (some (raiseGeneration s)))

/-- IMAGE_LOAD: the image takes the place of one under its IMGID; a different one flushes that IMGID's Caddy entries first
and is checked anew (R135, R147). -/
def loadImage (bs : List Byte) (s : State) : State :=
  let bytes := memOf bs
  let id := readWord bytes 0 8
  let new : Image := { imgid := id, bytes := bytes, len := bs.length }
  match s.images.find? fun m => m.imgid == id with
  | none => { s with images := s.images ++ [new] }
  | some old =>
    if old.bytes = bytes ∧ old.len = bs.length then s
    else { s with
      images := s.images.map fun m => if m.imgid = id then new else m
      caddy := s.caddy.filter fun e => e.imgid != id }

/-- Firmware loads images once the device has booted (R404). -/
def execImageLoad (bs : List Byte) (s : State) : Host.Outcome State Fault Refusal :=
  settle s (ofFirmware s (some (loadImage bs s)))

/-! ### Configuration-port writes (R152) -/

def setFw (s : State) (f : Firmware → Firmware) : State := { s with fw := f s.fw }

/-- An address of the range in which the configuration port lies (R152). -/
def portAddress (pa : Nat) : Bool := decide (0x050000000000 ≤ pa ∧ pa < 0x8000000000000)

/-- A write request of firmware to the unit that serves an address, the configuration port among them: master kind 4 and
partition 0 (R407; the partition is a DESIGN CHOICE, assumption 61). Host memory has no table. -/
def firmwareAdmitted (s : State) (pa n : Nat) : Bool :=
  match if portAddress pa then some (unitKey .config) else tableOf s.fw pa with
  | none => true
  | some u => admits s u 4 0 0 61 pa (pa + n - 1)

/-- A memory write, frame by frame in rising order; none while a migration keeps one of its parts waiting (R162). -/
def writeAll (s : State) (pa : Nat) (bs : List Byte) : Option State :=
  (range (pa / 0x10000) ((pa + bs.length - 1) / 0x10000 + 1 - pa / 0x10000)).foldlM (fun s f =>
    let lo := max pa (f * 0x10000)
    let part := (bs.drop (lo - pa)).take ((f + 1) * 0x10000 - lo)
    if migrationBlocks s lo part.length true then none else some (storePhysical s lo part)) s

/-- A window's range lies in the slice, HBM or CXL region that holds its base (R187). -/
def windowFits (e : WinEntry) : Bool :=
  let a := windowAddr e 0
  bit e.d0 63 = false ||
    ((regionOf a).isSome && regionOf a != some 3 && regionOf (a + (field e.d1 0 24).toNat * 65536 - 1) == regionOf a)

/-- A memory write of firmware; one that is refused is reported (R407). One that a migration keeps waiting changes nothing
and is made again; none is counted in a frame's heat, of which R161 does not speak (DESIGN CHOICES, assumption 54). -/
def firmwareWrite (s : State) (pa : Nat) (bs : List Byte) : State :=
  if firmwareAdmitted s pa bs.length then (writeAll s pa bs).getD s else refuseWrite s 0

/-- Firmware writes a window table entry: of this package into its table's memory, of another into that one's (R187). -/
def writeWindow (s : State) (pkg : BitVec 9) (wid : BitVec 16) (e : WinEntry) : State :=
  let e := maskWindow e
  if !windowFits e then s
  else if pkg = s.fw.pkg then firmwareWrite s (s.fw.windowBase + 16 * wid.toNat) (bytesOf e.d0.toNat 8 ++ bytesOf e.d1.toNat 8)
  else { s with windows := put s.windows (pkg.toNat * 65536 + wid.toNat) e }

/-- A host function reaches HBM: VF p + 1 for partition p, within one line of 64 bytes, where the access table of the
controller admits it; of the expansion tier and the slices the host reaches nothing (R392, R407; the line's size:
assumption 57). In recovery the device serves no VF (R404). -/
def hostReaches (s : State) (vf : BitVec 5) (perm pa n : Nat) : Bool :=
  !s.fw.recovery && 1 ≤ vf.toNat && vf.toNat ≤ 16 && 1 ≤ n && pa / 64 == (pa + n - 1) / 64 && regionOf pa == some 1 &&
  admitsPhysical s 2 (BitVec.ofNat 4 (vf.toNat - 1)) 0 perm pa n && !poisoned s pa n

/-- What a host read of HBM returns; none where it is refused or waits (R392). -/
def hostValue (s : State) (vf : BitVec 5) (pa n : Nat) : Option (List Byte) :=
  if hostReaches s vf 62 pa n && !migrationBlocks s pa n false then some (servedBytes s pa n) else none

/-- A host write of HBM, counted as an access of its frame (R161, R392). -/
def hostStore (s : State) (vf : BitVec 5) (pa : Nat) (bs : List Byte) : State :=
  if hostReaches s vf 61 pa bs.length && !migrationBlocks s pa bs.length true then storePhysical (sampleHeat s pa) pa bs else s

/-- Every byte lies at a populated address (R152). -/
def allPopulated (fw : Firmware) (pa n : Nat) : Bool := n == 0 || populated fw pa n

/-- A new event ring is empty; its header reads zero (R400). -/
def setRing (s : State) (part : BitVec 4) (base : BitVec 52) (k : Nat) : State :=
  if base.toNat % 4096 ≠ 0 ∨ k < 6 ∨ 16 < k then s
  else
    let s1 := writeHost s base.toNat (List.replicate 64 0)
    modPart s1 part fun p => { p with ringBase := base, ringK := k, prod := 0, cons := 0, overflow := false }

/-- A cell's healthy strips may serve: VR0 is healthy, and healthy spares make up for the defective ones among P0-P15. A
cell of which this fails is never enabled (R267). -/
def stripsSuffice (healthy : BitVec 18) : Bool :=
  bit healthy 15 &&
    decide (((List.range 16).countP fun j => !bit healthy j) ≤ ([16, 17].countP fun j => bit healthy j))

/-- An access table entry with its read-only zero bits zero (R407). -/
def maskAccess (e : Word × Word) : Word × Word := (e.1 &&& 0xFFFFF00FFFFFFFFF, e.2 &&& 0xFFFFFFFFF)

/-- One configuration write of firmware; a value outside its range changes nothing. -/
def configure (w : ConfigWrite) (s : State) : State :=
  match w with
  | .pageRoot p r =>
    if r.toNat % 256 ≠ 0 ∨ regionOf r.toNat ≠ some 1 ∨ !populated s.fw r.toNat 256 ∨ !mayHandOut s r.toNat 256 then s else modPart s p fun x => { x with root := r.toNat }
  | .cells p ids => modPart s p fun x => { x with cells := ids.map (·.toNat) }
  | .membership p m => modPart s p fun x => { x with memb := m ||| 3 }
  | .watchdog p ms => if ms < 1 ∨ 10000 < ms then s else modPart s p fun x => { x with watchdogMs := ms }
  | .counterPart n p =>
    let k := counterAt s n
    if k.state = .free then setCounter s n { k with part := p } else s
  | .window pkg wid e => writeWindow s pkg wid e
  | .windowBase a =>
    if a.toNat % 16 ≠ 0 ∨ regionOf a.toNat ≠ some 1 ∨ !populated s.fw a.toNat 0x100000 ∨ !mayHandOut s a.toNat 0x100000 then s
    else setFw s fun f => { f with windowBase := a.toNat }
  | .hostWrite vf pa bs => hostStore s vf pa.toNat bs
  | .hostRead vf pa n => if (hostValue s vf pa.toNat n).isSome then sampleHeat s pa.toNat else s
  | .access u i d0 d1 => { s with access := put s.access (unitKey u * 256 + i.toNat) (maskAccess (d0, d1)) }
  | .maxk v => if v = 0 then s else setFw s fun f => { f with maxk := v }
  | .disableCell c =>
    if s.fw.disabled.contains c.toNat || Config.isSliceSite c.toNat then s
    else raiseGeneration (setFw s fun f => { f with disabled := insertNum f.disabled c.toNat })
  | .strips c m =>
    if look s.fw.strips c.toNat = some m then s
    else raiseGeneration (setFw s fun f => { f with
      strips := put f.strips c.toNat m
      disabled := if stripsSuffice m then f.disabled else insertNum f.disabled c.toNat })
  | .shadow n => if 240 < n then s else raiseGeneration (setFw s fun f => { f with shadowMib := n })
  | .cxlCapacity p n => setFw s fun f => if p = 0 then { f with cxl0 := n } else { f with cxl1 := n }
  | .decay ms => if ms < 1 ∨ 1000 < ms then s else setFw s fun f => { f with decayMs := ms }
  | .freePages p n => modPart s p fun x => { x with freePages := n }
  | .evictThreshold p n => modPart s p fun x => { x with evictPages := n }
  | .strict frame die v =>
    let key := ownerKey frame die
    { s with owners := put s.owners key { ownerMap s key with strict := v } }
  | .lfsr site seed => setFw s fun f => { f with lfsr := put f.lfsr site.toNat seed }
  | .torus x y z p => if [x, y, z].any (fun n => n = 0 || decide (8 < n.toNat)) then s else setFw s fun f => { f with torus := (x, y, z), pkg := p }
  | .eventRing p b k => setRing s p b k
  | .eventCons p n =>
    modPart (writeHost s ((partOf s p).ringBase.toNat + 8) (bytesOf n.toNat 8)) p fun x => { x with cons := n }
  | .powerLimit n => setFw s fun f => { f with powerLimit := min n 2000 }
  | .debug p v => modPart s p fun x => { x with debug := v }
  | .revoke p f => startRevocation s p f
  | .memory pa bs => firmwareWrite s pa.toNat bs
  | .swapOut p => askSwap p s
  | .save n => saveForCells n s
  | .frames p a => if a.toNat % 0x1000 ≠ 0 ∨ regionOf a.toNat ≠ some 1 ∨ !mayHandOut s a.toNat frameSize then s else modPart s p fun x => { x with frameBase := some a }
  | .queueOut q => queueOut s q
  | .kettleRead => kettleRead s

/-- CONFIGURATION_WRITE, by firmware that runs once the device has booted (R404). A memory write at an unpopulated address
faults, one that the configuration port refuses is reported; every other write is as `configure`. -/
def execConfigurationWrite (w : ConfigWrite) (s : State) : Host.Outcome State Fault Refusal :=
  if !s.fw.booted then .next s
  else
    match w with
    | .memory pa bs =>
      if allPopulated s.fw pa.toNat bs.length || (portAddress pa.toNat && !firmwareAdmitted s pa.toNat bs.length) then .next (noteReady (configure w s)) else .fault (.unpopulated pa.toNat)
    | _ => .next (noteReady (configure w s))

/-! ### Events (R401, R409) -/

/-- Free records of a ring. -/
def ringFree (p : Partition) : Nat := ringSize p - (p.prod - p.cons).toNat

/-- The map of the queues that hold an error, as 512 bytes (R401). -/
def errorMap (s : State) : List Byte :=
  let holds (q : Nat) : Bool := match look s.queues q with
    | some v => v.err.isSome
    | none => false
  (List.range 512).map fun i => BitVec.ofNat 8 (((List.range 8).map fun k => if holds (8 * i + k) then 2 ^ k else 0).sum)

/-- EVENT_RING_SUMMARY: with 17 records free after an overflow, the summary and its map are posted and OVERFLOW is cleared
(R401). -/
def ringSummary (part : BitVec 4) (s : State) : Option State :=
  let p := partOf s part
  if !p.overflow || ringFree p < 17 then none
  else
    let s1 := postEvent s part 3 0 16 0 0
    let m := errorMap s
    let s2 := (List.range 16).foldl (fun s i => putRecord s part ((m.drop (32 * i)).take 32)) s1
    some (setOverflow s2 part false)

def execEventRingSummary (part : BitVec 4) (s : State) : Host.Outcome State Fault Refusal := settle s (ofFirmware s (ringSummary part s))

/-- POWER_EVENT (R409). -/
def execPowerEvent (part : BitVec 4) (s : State) : Host.Outcome State Fault Refusal := .next (postEvent s part 5 0 0 0 0)

/-! ### Boot, ownership, attestation (R168, R404-R406) -/

def digestBytes (d : BitVec 256) : List Byte := bytesOf d.toNat 32

/-- Extend a measurement register: M := SM3(M ‖ digest) (R404). -/
def extend_ (m d : BitVec 256) : BitVec 256 := Config.sm3 (digestBytes m ++ digestBytes d)

/-- Both signatures over an image's digest are valid (R404). -/
def signedBy (fw : Firmware) (digest : BitVec 256) (maker owner : BitVec 512) : Bool :=
  fw.owned && Config.sm2Verify Config.makerKey digest maker && Config.sm2Verify fw.ownerKey digest owner

/-- The verified slot with the higher sequence number (R168). -/
def bestSlot (a b : Option RetSlot) : Option RetSlot := if slotSeq a < slotSeq b then goodSlot b else goodSlot a

/-- An entry of the retirement list holds a CAUSE of the manual (R167, R168). -/
def causeFits (e : Word) : Bool := decide ((field e 24 8 : BitVec 8).toNat ≤ 3)

/-- Sequence number and entries of the list that power-up applies; none when no slot verifies and the owner has not
accepted an empty list (R168). -/
def retirementList (fw : Firmware) : Option (Word × List Word) :=
  match bestSlot fw.ret[0] fw.ret[1] with
  | some r => some (r.seq, r.entries)
  | none => if fw.retAccepted then some (0, []) else none

/-- The row that an entry names (R167). -/
def rowOfEntry (e : Word) : RowId :=
  ⟨field e 61 3, field e 56 5, field e 55 1, field e 49 6, field e 32 17, field e 24 8⟩

/-- An entry is applied to the controllers: its row is spared or, with OFFL, its frames are offlined (R167, R168). -/
def applyEntry (fw : Firmware) (e : Word) : Firmware :=
  let r := rowOfEntry e
  if bit e 0 then { fw with offlined := fw.offlined ++ framesOf r }
  else { fw with spares := put fw.spares (bankKey r) (peek 0 fw.spares (bankKey r) + 1) }

/-- A list is applied: an entry with a reserved CAUSE is skipped and reported (R168). -/
def applyList (fw : Firmware) (es : List Word) : Firmware :=
  let good := es.filter causeFits
  let f := good.foldl applyEntry { fw with spares := [], offlined := [] }
  { f with
    retActive := some good
    reports := f.reports ++ (es.filter fun e => !causeFits e).map .retirement }

/-- The write sets up a partition, a window table or an access table (R404). -/
def ofConfiguration (w : ConfigWrite) : Bool :=
  match w with
  | .pageRoot _ _ | .cells _ _ | .membership _ _ | .watchdog _ _ | .window _ _ _ | .windowBase _ | .access _ _ _ _
  | .eventRing _ _ _ | .evictThreshold _ _ | .debug _ _ | .frames _ _ => true
  | _ => false

/-- The partitions, window tables and access tables that stand, as bytes. The manual gives no text for them (DESIGN CHOICE,
assumption 47). -/
def configText (s : State) : List Byte :=
  let word (n : Nat) : List Byte := bytesOf n 8
  (s.parts.flatMap fun (k, p) => word k ++ word p.root ++ word p.memb.toNat ++ word p.watchdogMs ++ word p.cells.length ++
    p.cells.flatMap word) ++
  ((s.mem.filter fun x => s.fw.windowBase ≤ x.1 && x.1 < s.fw.windowBase + 0x100000).flatMap fun x => word x.1 ++ [x.2]) ++
  (s.windows.flatMap fun (k, e) => word k ++ word e.d0.toNat ++ word e.d1.toNat) ++
  (s.access.flatMap fun (k, e) => word k ++ word e.1.toNat ++ word e.2.toNat)

/-- The third stage of boot: the configuration is set up and extended into M3 (R404). -/
def bootConfiguration (ws : List ConfigWrite) (s : State) : State :=
  let t := (ws.filter ofConfiguration).foldl (fun s w => configure w s) s
  { t with fw := { t.fw with m := t.fw.m.set 3 (extend_ t.fw.m[3] (Config.sm3 (configText t))) } }

/-- BOOT: ROM, Kettle firmware, configuration, each after the check before it; a failure leaves the device in recovery
(R404). -/
def bootDevice (b : BootImages) (s : State) : Option State :=
  let fw := s.fw
  if fw.booted then none
  else
    let stop (f : Firmware) : Option State := some { s with fw := { f with recovery := true } }
    let d0 := Config.sm3 b.kettle
    if !signedBy fw d0 b.makerSig b.ownerSig then stop fw
    else
      let f0 := { fw with m := fw.m.set 0 (extend_ fw.m[0] d0) }
      let d1 := Config.sm3 b.packetCores
      if !signedBy fw d1 b.pcMakerSig b.pcOwnerSig then stop f0
      else
        let f1 := { f0 with m := f0.m.set 1 (extend_ f0.m[1] d1) }
        match retirementList f1 with
        | none => stop f1
        | some (seq, es) =>
          let f2 := applyList { f1 with m := f1.m.set 2 (extend_ f1.m[2] (Config.sm3 (slotBytes seq es))) } es
          some (bootConfiguration b.config { s with fw := { f2 with booted := true, recovery := false } })

def execBoot (b : BootImages) (s : State) : Host.Outcome State Fault Refusal := settle s (bootDevice b s)

def epochBytes (fw : Firmware) : List Byte := bytesOf fw.epoch.toNat 4

/-- OWNER_ENROLMENT: in UNOWNED, a maker-signed image writes the owner key that it holds, sets OWNED and raises the epoch
(R405). -/
def enrol (key : BitVec 512) (image : List Byte) (sig : BitVec 512) (s : State) : Option State :=
  if s.fw.owned || key != Config.enrolledKey image || !Config.sm2Verify Config.makerKey (Config.sm3 image) sig then none
  else some (setFw s fun f => { f with ownerKey := key, owned := true, epoch := f.epoch + 1 })

def execOwnerEnrolment (key : BitVec 512) (image : List Byte) (sig : BitVec 512) (s : State) :
    Host.Outcome State Fault Refusal := settle s (enrol key image sig s)

/-- A command of the owner: signed over SM3(device id ‖ epoch ‖ text) (R405). -/
def ownerSigned (fw : Firmware) (text : List Byte) (sig : BitVec 512) : Bool :=
  fw.owned && Config.sm2Verify fw.ownerKey (Config.sm3 (Config.deviceId ++ epochBytes fw ++ text)) sig

/-- Every counter as the destruction of its owning partition leaves it (R122). -/
def destroyCounters (s : State) : SMap Counter :=
  (List.range 65536).map fun n =>
    let k := counterAt s (BitVec.ofNat 16 n)
    (n, { k with state := .free, value := 0, gen := k.gen + 1 })

/-- OWNERSHIP_TRANSFER: owner key, partition configuration and window tables are erased; the retirement list is kept
(R405). With its partition destroyed a counter is FREE in its next generation (R122). -/
def transferOwner (sig : BitVec 512) (s : State) : Option State :=
  if !ownerSigned s.fw [] sig then none
  else some { s with
    fw := { s.fw with ownerKey := 0, owned := false }, parts := [], windows := [], counters := destroyCounters s
    mem := s.mem.filter fun x => !(s.fw.windowBase ≤ x.1 && x.1 < s.fw.windowBase + 0x100000) }

def execOwnershipTransfer (sig : BitVec 512) (s : State) : Host.Outcome State Fault Refusal := settle s (transferOwner sig s)

/-- The bytes of "accept-empty". -/
def acceptText : List Byte := [97, 99, 99, 101, 112, 116, 45, 101, 109, 112, 116, 121]

/-- ACCEPT_EMPTY: the owner accepts an empty retirement list (R168, R405). -/
def acceptEmpty (sig : BitVec 512) (s : State) : Option State :=
  if !ownerSigned s.fw acceptText sig then none else some (setFw s fun f => { f with retAccepted := true })

def execAcceptEmpty (sig : BitVec 512) (s : State) : Host.Outcome State Fault Refusal := settle s (acceptEmpty sig s)

/-- ATTESTATION_QUOTE: the device signs SM3(nonce ‖ M0 ‖ … ‖ M7 ‖ epoch) (R406). -/
def execAttestationQuote (nonce : BitVec 256) (s : State) : Host.Outcome State Fault Refusal :=
  let text := digestBytes nonce ++ s.fw.m.toList.flatMap digestBytes ++ epochBytes s.fw
  .next (setFw s fun f => { f with quote := some (Config.sm2Sign (Config.sm3 text)) })

/-! ### Partition reset (R122, R408) -/

/-- A task of a partition under reset: one that runs, or is saved, ends by R345 with code 0; one still in the launch
pipeline is dropped, its pin and its BUSY entry with it (R147). -/
def resetTask (s : State) (n : Nat) : Reached :=
  match taskAt s n with
  | none => .ok s
  | some t =>
    match t.stage with
    | .running | .saving _ | .saved => endFatally s n { t with fatal := none } 0
    | _ => .ok (leaveCaddy (dropTask (releaseCells s t.cells) n) n t)

def resetTasks (s : State) : List Nat → Reached
  | [] => .ok s
  | n :: ns =>
    match resetTask s n with
    | .ok s' => resetTasks s' ns
    | .waits r => .waits r

/-- Counters of a partition; one that nothing has touched belongs to partition 0 (R121). -/
def countersOf (s : State) (part : BitVec 4) : List Nat :=
  (if part = 0 then List.range 65536 else keys s.counters).filter fun n => (counterAt s (BitVec.ofNat 16 n)).part == part

/-- A partition's slots leave an owner map (R178, R408). -/
def dropOwner (part : BitVec 4) (m : OwnerMap) : OwnerMap :=
  let mine (w : Word) : Bool := bit w 7 && field w 0 4 == part
  { m with dw := m.dw.filter fun x => !mine x.2, pending := m.pending.filter fun x => !mine x.2 }

/-- The rest of a partition reset, once its tasks have ended (R408). -/
def resetRest (part : BitVec 4) (s : State) : State :=
  let s1 := (countersOf s part).foldl (fun s n => freeCounter s (BitVec.ofNat 16 n)) s
  { s1 with
    queues := s1.queues.map fun (k, v) =>
      (k, if v.part == part then { v with en := false, cmd := none, task := none, restore := false, charged := false } else v)
    owners := s1.owners.map fun (k, m) => (k, dropOwner part m)
    access := s1.access.filter fun x => field x.2.1 53 4 != part }

/-- Cells on which tasks of a partition run that have to come to rest before it is reset (R345, R408). -/
def restingCells (s : State) (part : BitVec 4) : List Nat :=
  (s.tasks.filter fun x => x.2.part == part && carriesClu x.2).flatMap fun x => x.2.cells

/-- PARTITION_RESET: the members of its tasks stop issue and come to rest first (R345 step 1, R408). -/
def partitionReset (part : BitVec 4) (s : State) : Option State :=
  let ids := restingCells s part
  if !(ids.all fun id => atRest s id) then
    some (modPart (forCells s ids stopCell) part fun p => { p with resetAsked := true })
  else
    match resetTasks s ((s.tasks.filter fun x => x.2.part == part).map (·.1)) with
    | .waits r => r.map fun t => modPart t part fun p => { p with resetAsked := true }
    | .ok s1 => some (resetRest part (modPart s1 part fun p => { p with chosen := none, resetAsked := false }))

/-- A reset that has been asked for goes on once the members are at rest. -/
def resetGoesOn (part : BitVec 4) (s : State) : Option State :=
  if (partOf s part).resetAsked && (restingCells s part).all fun id => atRest s id then partitionReset part s else none

def execPartitionReset (part : BitVec 4) (s : State) : Host.Outcome State Fault Refusal := 
  settleQueues s (ofFirmware s (partitionReset part s))

/-! ### Power (R167) -/

/-- An update of the retirement list was torn: the slot it was writing no longer verifies, the other is intact (R167). -/
def tornSlots (torn : Option (BitVec 1)) (ret : Vector (Option RetSlot) 2) : Vector (Option RetSlot) 2 :=
  let spoil (r : Option RetSlot) : Option RetSlot := r.map fun r => { r with torn := true }
  match torn with
  | none => ret
  | some i =>
    if slotSeq ret[0] ≤ slotSeq ret[1] then (if i = 0 then ret.set 0 (spoil ret[0]) else ret)
    else if i = 1 then ret.set 1 (spoil ret[1])
    else ret

/-- POWER_LOSS: the board flash keeps the owner slot and the retirement list; host memory and other packages are not on
the board; all else is as after power-up (R167, R404, R405). So the map of cells that firmware disabled later goes back to
that of manufacturing test, and the configuration generation to 0 (DESIGN CHOICE, assumption 47: R133, R267 and R419 give
neither a place that outlasts a loss of power). -/
def losePower (torn : Option (BitVec 1)) (s : State) : State :=
  { State.reset with
    free := s.free
    agenda := s.agenda
    mem := s.mem.filter fun x => regionOf x.1 == some 3
    remote := s.remote
    fw := { State.reset.fw with
      ret := tornSlots torn s.fw.ret, owned := s.fw.owned, ownerKey := s.fw.ownerKey, epoch := s.fw.epoch } }

def execPowerLoss (torn : Option (BitVec 1)) (s : State) : Host.Outcome State Fault Refusal := .next (losePower torn s)

end Sys2Proof.Machine
end

