-- ==== Sys2Proof/Machine/StripAlu.lean ====
section
/-! DEFINITION. Strip arithmetic: floating point, compare, select, integers, special functions (R294-R296, R302). -/

namespace Sys2Proof.Machine

/-! ### Floating point (R294, R295) -/

/-- An FP word over two operands: the exact result, rounded once (R294). -/
def fpWord2 (i : Instr) (u : BitVec 2) (t : BitVec 4) (r : BitVec 3) (f : RMode → FV → FV → FV × Bool) :
    State → Host.Outcome State Fault Refusal :=
  lanesWord i u fun v _ ls =>
    let fm := fmtOf t
    let z := flushes v
    elementwise t ls fun es =>
      let (x, inv) := f (exactMode r) (readFp fm z (es.getD 0 0)) (readFp fm z (es.getD 1 0))
      let (w, ev) := roundTo fm .ieee (exactMode r) z x
      (w, ev.or { inv := inv })

def execFadd (a b : BitVec 3) (u : BitVec 2) (t : BitVec 4) (r : BitVec 3) (s : State) : Host.Outcome State Fault Refusal :=
  fpWord2 (.fadd a b u t r) u t r addFV s

def execFsub (a b : BitVec 3) (u : BitVec 2) (t : BitVec 4) (r : BitVec 3) (s : State) : Host.Outcome State Fault Refusal :=
  fpWord2 (.fsub a b u t r) u t r (fun m x y => addFV m x (negFV y)) s

def execFmul (a b : BitVec 3) (u : BitVec 2) (t : BitVec 4) (r : BitVec 3) (s : State) : Host.Outcome State Fault Refusal :=
  fpWord2 (.fmul a b u t r) u t r (fun _ x y => mulFV x y) s

/-- `ffma`: a × b + c with one rounding; a NaN operand signals nothing (R219, R294). -/
def fmaFV (m : RMode) (x y z : FV) : FV × Bool :=
  let (p, i1) := mulFV x y
  let (q, i2) := addFV m p z
  (q, (i1 && !isNan z) || i2)

def execFfma (a b c : BitVec 3) (u : BitVec 2) (t : BitVec 4) (r : BitVec 3) (s : State) : Host.Outcome State Fault Refusal :=
  lanesWord (.ffma a b c u t r) u (fun v _ ls =>
    let fm := fmtOf t
    let z := flushes v
    elementwise t ls fun es =>
      let (x, inv) := fmaFV (exactMode r) (readFp fm z (es.getD 0 0)) (readFp fm z (es.getD 1 0)) (readFp fm z (es.getD 2 0))
      let (w, ev) := roundTo fm .ieee (exactMode r) z x
      (w, ev.or { inv := inv })) s

/-- An FP word that picks or changes bits without rounding; FTZ reads and writes subnormals as zeros (R208). -/
def fpPick (i : Instr) (u : BitVec 2) (t : BitVec 4) (f : List FV → FV) : State → Host.Outcome State Fault Refusal :=
  lanesWord i u fun v _ ls =>
    let fm := fmtOf t
    let z := flushes v
    elementwise t ls fun es => ((roundTo fm .ieee .rne z (f (es.map (readFp fm z)))).1, {})

/-- The smaller value, −0 below +0; NaN where an operand is NaN (R294). -/
def minFV (x y : FV) : FV := if isNan x || isNan y then .nan else if lessFV true y x then y else x
def maxFV (x y : FV) : FV := if isNan x || isNan y then .nan else if lessFV true x y then y else x

def execFmin (a b : BitVec 3) (u : BitVec 2) (t : BitVec 4) (s : State) : Host.Outcome State Fault Refusal :=
  fpPick (.fmin a b u t) u t (fun xs => minFV (xs.getD 0 .nan) (xs.getD 1 .nan)) s

def execFmax (a b : BitVec 3) (u : BitVec 2) (t : BitVec 4) (s : State) : Host.Outcome State Fault Refusal :=
  fpPick (.fmax a b u t) u t (fun xs => maxFV (xs.getD 0 .nan) (xs.getD 1 .nan)) s

/-- Magnitude of a value. -/
def absFV : FV → FV
  | .nan => .nan
  | .inf _ => .inf false
  | .fin _ m e => .fin false m e

def execFabs (a : BitVec 3) (u : BitVec 2) (t : BitVec 4) (s : State) : Host.Outcome State Fault Refusal :=
  fpPick (.fabs a u t) u t (fun xs => absFV (xs.getD 0 .nan)) s

def execFneg (a : BitVec 3) (u : BitVec 2) (t : BitVec 4) (s : State) : Host.Outcome State Fault Refusal :=
  fpPick (.fneg a u t) u t (fun xs => negFV (xs.getD 0 .nan)) s

/-- A comparison: all ones in an element where it holds; an ordered one signals invalid on NaN (R295). -/
def compareWord (i : Instr) (u : BitVec 2) (t : BitVec 4) (ordered : Bool) (f : FV → FV → Bool) :
    State → Host.Outcome State Fault Refusal :=
  lanesWord i u fun v _ ls =>
    let fm := fmtOf t
    let z := flushes v
    elementwise t ls fun es =>
      let x := readFp fm z (es.getD 0 0)
      let y := readFp fm z (es.getD 1 0)
      (if f x y then 2 ^ elemBits t - 1 else 0, { inv := ordered && (isNan x || isNan y) })

def execFcmpEq (a b : BitVec 3) (u : BitVec 2) (t : BitVec 4) (s : State) : Host.Outcome State Fault Refusal :=
  compareWord (.fcmpEq a b u t) u t false sameFV s

def execFcmpLt (a b : BitVec 3) (u : BitVec 2) (t : BitVec 4) (s : State) : Host.Outcome State Fault Refusal :=
  compareWord (.fcmpLt a b u t) u t true (lessFV false) s

def execFcmpLe (a b : BitVec 3) (u : BitVec 2) (t : BitVec 4) (s : State) : Host.Outcome State Fault Refusal :=
  compareWord (.fcmpLe a b u t) u t true (fun x y => lessFV false x y || sameFV x y) s

/-- An element is nonzero as its word reads it: of a floating-point format by its value, which is zero for both zeros and, under
FTZ, for a subnormal; else by its bits (R208, R295; assumption 64). -/
def nonzeroElem (t : BitVec 4) (z : Bool) (w : Nat) : Bool :=
  if 1 ≤ t.toNat && t.toNat ≤ 3 then
    match readFp (fmtOf t) z w with
    | .fin _ m _ => m != 0
    | _ => true
  else w != 0

/-- `fsel`: a where the element of c is nonzero, else b, bits unchanged (R295). -/
def execFsel (a b c : BitVec 3) (u : BitVec 2) (t : BitVec 4) (s : State) : Host.Outcome State Fault Refusal :=
  lanesWord (.fsel a b c u t) u (fun v _ ls =>
    elementwise t ls fun es => (if nonzeroElem t (flushes v) (es.getD 2 0) then es.getD 0 0 else es.getD 1 0, {})) s

/-! ### Integers (R296) -/

/-- An integer word over the bits of two elements of width w. -/
def bitsWord (i : Instr) (u : BitVec 2) (t : BitVec 4) (f : Nat → Nat → Nat) : State → Host.Outcome State Fault Refusal :=
  lanesWord i u fun _ _ ls => elementwise t ls fun es => (f (es.getD 0 0) (es.getD 1 0) % 2 ^ elemBits t, {})

/-- An integer word over two values: wraps, or clamps under rnd 1 (R296). -/
def intWord (i : Instr) (u : BitVec 2) (t : BitVec 4) (r : BitVec 3) (f : Int → Int → Int) :
    State → Host.Outcome State Fault Refusal :=
  lanesWord i u fun _ _ ls =>
    elementwise t ls fun es =>
      let x := f (intOf t (es.getD 0 0)) (intOf t (es.getD 1 0))
      let (lo, hi) := intRange t
      (intBits t (if r = 1 then max lo (min hi x) else x), {})

def execIadd (a b : BitVec 3) (u : BitVec 2) (t : BitVec 4) (r : BitVec 3) (s : State) : Host.Outcome State Fault Refusal :=
  intWord (.iadd a b u t r) u t r (· + ·) s

def execIsub (a b : BitVec 3) (u : BitVec 2) (t : BitVec 4) (r : BitVec 3) (s : State) : Host.Outcome State Fault Refusal :=
  intWord (.isub a b u t r) u t r (· - ·) s

def execIand (a b : BitVec 3) (u : BitVec 2) (t : BitVec 4) (s : State) : Host.Outcome State Fault Refusal :=
  bitsWord (.iand a b u t) u t (· &&& ·) s

def execIor (a b : BitVec 3) (u : BitVec 2) (t : BitVec 4) (s : State) : Host.Outcome State Fault Refusal :=
  bitsWord (.ior a b u t) u t (· ||| ·) s

def execIxor (a b : BitVec 3) (u : BitVec 2) (t : BitVec 4) (s : State) : Host.Outcome State Fault Refusal :=
  bitsWord (.ixor a b u t) u t (· ^^^ ·) s

def execIshl (a b : BitVec 3) (u : BitVec 2) (t : BitVec 4) (s : State) : Host.Outcome State Fault Refusal :=
  bitsWord (.ishl a b u t) u t (fun x y => x * 2 ^ (y % elemBits t)) s

def execIshr (a b : BitVec 3) (u : BitVec 2) (t : BitVec 4) (s : State) : Host.Outcome State Fault Refusal :=
  bitsWord (.ishr a b u t) u t (fun x y => x / 2 ^ (y % elemBits t)) s

/-- `isar` copies the sign bit of the element, the top bit also of an unsigned one (R296). -/
def execIsar (a b : BitVec 3) (u : BitVec 2) (t : BitVec 4) (s : State) : Host.Outcome State Fault Refusal :=
  bitsWord (.isar a b u t) u t (fun x y =>
    let n := elemBits t
    let v : Int := if 2 ^ (n - 1) ≤ x then (x : Int) - 2 ^ n else x
    ((v / (2 ^ (y % n) : Nat)) % (2 ^ n : Nat)).toNat) s

def execImin (a b : BitVec 3) (u : BitVec 2) (t : BitVec 4) (s : State) : Host.Outcome State Fault Refusal :=
  intWord (.imin a b u t) u t 0 min s

def execImax (a b : BitVec 3) (u : BitVec 2) (t : BitVec 4) (s : State) : Host.Outcome State Fault Refusal :=
  intWord (.imax a b u t) u t 0 max s

/-! ### Special functions (R302) -/

/-- A special function of each element. -/
def specialWord (i : Instr) (u : BitVec 2) (t : BitVec 4) (r : BitVec 3) (f : Fmt → RMode → Bool → List FV → Nat → Special) :
    State → Host.Outcome State Fault Refusal :=
  lanesWord i u fun v _ ls =>
    let fm := fmtOf t
    let z := flushes v
    elementwise t ls fun es => f fm (exactMode r) z (es.map (readFp fm z)) (es.getD 0 0)

/-- The value 1. -/
def oneFV : FV := .fin false 1 0

def execRcp (a : BitVec 3) (u : BitVec 2) (t : BitVec 4) (r : BitVec 3) (s : State) : Host.Outcome State Fault Refusal :=
  specialWord (.rcp a u t r) u t r (fun f m z xs _ => divSpecial f m z oneFV (xs.getD 0 .nan)) s

def execStripDiv (a b : BitVec 3) (u : BitVec 2) (t : BitVec 4) (r : BitVec 3) (s : State) : Host.Outcome State Fault Refusal :=
  specialWord (.stripDiv a b u t r) u t r (fun f m z xs _ => divSpecial f m z (xs.getD 0 .nan) (xs.getD 1 .nan)) s

def execSqrt (a : BitVec 3) (u : BitVec 2) (t : BitVec 4) (r : BitVec 3) (s : State) : Host.Outcome State Fault Refusal :=
  specialWord (.sqrt a u t r) u t r (fun f m z xs _ => sqrtSpecial f m z (xs.getD 0 .nan)) s

def execRsqrt (a : BitVec 3) (u : BitVec 2) (t : BitVec 4) (r : BitVec 3) (s : State) : Host.Outcome State Fault Refusal :=
  specialWord (.rsqrt a u t r) u t r (fun f m z xs _ => rsqrtSpecial f m z (xs.getD 0 .nan)) s

def execExp2 (a : BitVec 3) (u : BitVec 2) (t : BitVec 4) (r : BitVec 3) (s : State) : Host.Outcome State Fault Refusal :=
  specialWord (.exp2 a u t r) u t r (fun f m z xs w => exp2Special f m z (xs.getD 0 .nan) w r) s

def execLog2 (a : BitVec 3) (u : BitVec 2) (t : BitVec 4) (r : BitVec 3) (s : State) : Host.Outcome State Fault Refusal :=
  specialWord (.log2 a u t r) u t r (fun f m z xs w => log2Special f m z (xs.getD 0 .nan) w r) s

def execTanh (a : BitVec 3) (u : BitVec 2) (t : BitVec 4) (r : BitVec 3) (s : State) : Host.Outcome State Fault Refusal :=
  specialWord (.tanh a u t r) u t r (fun f m z xs w => tanhSpecial f m z (xs.getD 0 .nan) w r) s

end Sys2Proof.Machine
end

