-- ==== Sys2Proof/Machine/StripReduce.lean ====
section
/-! DEFINITION. Reductions, scans and permutes of RD0 (R222, R303-R305, R335). -/

namespace Sys2Proof.Machine

/-! ### Steps of a reduction -/

/-- The reduction of RD0's words. -/
inductive Reduce where
  | sum | max | min
deriving DecidableEq, Repr

/-- −0 in FP32. -/
def negZero : BitVec 32 := 0x80000000

/-- rne(a + b) in FP32 with its events (R222, R303). -/
def addFp32 (z : Bool) (a b : BitVec 32) : BitVec 32 × Ev :=
  let (x, inv) := addFV .rne (readFp fp32 z a.toNat) (readFp fp32 z b.toNat)
  let (w, ev) := roundTo fp32 .ieee .rne z x
  (BitVec.ofNat 32 w, ev.or { inv := inv })

/-- The value from which a reduction starts, and which one with no live input gives (R303). -/
def reduceStart (o : Reduce) (t : BitVec 4) : BitVec 32 :=
  match o with
  | .sum => if t = 8 then 0 else negZero
  | .max => if t = 8 then 0x80000000 else 0xFF800000
  | .min => if t = 8 then 0x7FFFFFFF else 0x7F800000

/-- Reduce one more value. -/
def reduceStep (o : Reduce) (t : BitVec 4) (z : Bool) (acc x : BitVec 32) : BitVec 32 × Ev :=
  if t = 8 then
    match o with
    | .sum => (acc + x, {})
    | .max => (if acc.slt x then x else acc, {})
    | .min => (if x.slt acc then x else acc, {})
  else
    let a := readFp fp32 z acc.toNat
    let b := readFp fp32 z x.toNat
    let pick (less : Bool) : BitVec 32 × Ev :=
      if isNan a || isNan b then (BitVec.ofNat 32 (nanBits fp32), {})
      else (BitVec.ofNat 32 (roundTo fp32 .ieee .rne z (if less then b else a)).1, {})
    match o with
    | .sum => addFp32 z acc x
    | .max => pick (lessFV true a b)
    | .min => pick (lessFV true b a)

/-- An input, or its magnitude when ABS is set (R303). The magnitude of −2^31 is 2^31, which a sum modulo 2^32 takes as it
is; for a greatest or least value R303 does not say what that input is (assumption 19). -/
def reduceInput (o : Reduce) (t : BitVec 4) (abs : Bool) (x : BitVec 32) : BitVec 32 :=
  if !abs then x
  else if t = 8 then (if x = 0x80000000 ∧ o ≠ .sum then Config.magnitudeOfLeast else if x.slt 0 then -x else x)
  else x &&& 0x7FFFFFFF

/-- One round of a pairwise tree (R222). -/
def treeRound (z : Bool) : List (BitVec 32 × Ev) → List (BitVec 32 × Ev)
  | a :: b :: r =>
    let (x, ev) := addFp32 z a.1 b.1
    (x, (ev.or a.2).or b.2) :: treeRound z r
  | r => r

/-- The pairwise tree over 64 lanes: six rounds (R222). -/
def treeSum (z : Bool) (xs : List (BitVec 32)) : BitVec 32 × Ev :=
  ((List.range 6).foldl (fun l _ => treeRound z l) (xs.map fun x => (x, {}))).headD (negZero, {})

/-- `rsum.f32` over 192 lanes: three groups, then (g0 + g1) + g2 (R222). -/
def laneSum (z : Bool) (xs : List (BitVec 32)) : BitVec 32 × Ev :=
  let g (i : Nat) := treeSum z ((xs.drop (64 * i)).take 64)
  let (a, e1) := addFp32 z (g 0).1 (g 1).1
  let (b, e2) := addFp32 z a (g 2).1
  (b, ((((g 0).2.or (g 1).2).or (g 2).2).or e1).or e2)

/-- Reduce a list of live values in order. -/
def reduceList (o : Reduce) (t : BitVec 4) (z : Bool) (xs : List (BitVec 32)) : BitVec 32 × Ev :=
  xs.foldl (fun (acc, ev) x =>
    let (y, e) := reduceStep o t z acc x
    (y, ev.or e)) (reduceStart o t, {})

/-! ### Mode 0: across lanes -/

/-- A token's lanes as reduction inputs; a dead lane is none. -/
def liveLane (o : Reduce) (t : BitVec 4) (abs : Bool) (x : Tok) (i : Nat) : Option (BitVec 32) :=
  if bit x.pred i then some (reduceInput o t abs (laneAt x.data i)) else none

/-- The reduction of a token's live lanes (R222, R303). -/
def reduceLanes (o : Reduce) (t : BitVec 4) (abs z : Bool) (x : Tok) : BitVec 32 × Ev :=
  let lanes := (List.range 192).map (liveLane o t abs x)
  if o = .sum ∧ t ≠ 8 then laneSum z (lanes.map (·.getD negZero)) else reduceList o t z (lanes.filterMap id)

def fireMode0 (o : Reduce) (t : BitVec 4) (abs : Bool) (u : BitVec 2) (v : Firing) (ins : List Nat) (ops : List Tok) : Fired :=
  let x := ops.headD {}
  let (r, ev) := reduceLanes o t abs (flushes v) x
  let evs := (List.range 192).map fun i => if bit x.pred i then ev else {}
  match eventTrap v.h evs with
  | some tr => .fault tr
  | none =>
    fire v ins (fun p => noteEvents evs (movePP v p)) u
      [dataTok x (rowBy fun i => if bit x.pred i then r else 0) x.pred]

/-! ### Mode 1: over a dimension -/

/-- Take one token into the group: the group is one token of partial results (R303). -/
def fireMode1 (o : Reduce) (t : BitVec 4) (abs : Bool) (v : Firing) (ins : List Nat) (x : Tok) : Fired :=
  let acc := v.p.group.headD { side := x.side, ord := x.ord }
  let out := (List.range 192).map fun i =>
    match liveLane o t abs x i with
    | none => (laneAt acc.data i, ({} : Ev))
    | some y => reduceStep o t (flushes v) (if bit acc.pred i then laneAt acc.data i else reduceStart o t) y
  let evs := out.map (·.2)
  match eventTrap v.h evs with
  | some tr => .fault tr
  | none =>
    let g : Tok := { acc with data := rowOf (out.map (·.1)), pred := acc.pred ||| x.pred }
    fire v ins (fun p => noteEvents evs { p with group := [g] }) 0 []

/-! ### Mode 2: per block, and the burst parameters that `quant` shares (R298) -/

/-- Parameters of a burst: tokens B, block length L, headroom h (R298). -/
structure Burst where
  n : Nat
  len : Nat
  h : Nat

/-- The parameters of w4, when they are in range (R298). -/
def burstOf (w4 : BitVec 32) : Option Burst :=
  let b : BitVec 9 := field w4 0 9
  let l : BitVec 2 := field w4 9 2
  let h : BitVec 3 := field w4 12 3
  let len := 32 * 2 ^ l.toNat
  if b.toNat = 0 ∨ 256 < b.toNat ∨ l = 3 ∨ h = 7 ∨ bit w4 11 ∨ field w4 15 17 ≠ 0#17 then none
  else if 192 * b.toNat % len ≠ 0 ∨ 192 < 192 * b.toNat / len then none
  else some ⟨b.toNat, len, h.toNat⟩

/-- Lane values of a burst of tokens, in element order; a dead lane is none. -/
def burstLanes (ts : List Tok) : List (Option (BitVec 32)) :=
  ts.flatMap fun t => (List.range 192).map fun i => if bit t.pred i then some (laneAt t.data i) else none

/-- Block i of a list of elements. -/
def blockOf {α : Type} (xs : List α) (len i : Nat) : List α := (xs.drop (len * i)).take len

/-- The result token of a block reduction; a block that received no element is dead, and the missing elements of a partly
filled one count as zero (R298, R303). -/
def blockResult (o : Reduce) (t : BitVec 4) (abs z : Bool) (b : Burst) (ts : List Tok) : Tok × List Ev :=
  let xs := (burstLanes ts).map fun x => x.map (reduceInput o t abs)
  let nb := 192 * b.n / b.len
  let out := (List.range 192).map fun i =>
    let blk := blockOf xs b.len i
    let blk := if blk.isEmpty then blk else blk ++ List.replicate (b.len - blk.length) (some 0)
    if i < nb ∧ !blk.isEmpty then some (reduceList o t z (blk.filterMap id)) else none
  let like := ts.headD {}
  ({ data := rowOf (out.map fun r => match r with | some (x, _) => x | none => 0)
     pred := lanesBy fun i => (out.getD i none).isSome, side := like.side, ord := like.ord },
   out.map fun r => match r with | some (_, e) => e | none => {})

/-- PP at the next `eos` word, where the program has one (R291). -/
def moveEos (v : Firing) (p : Strip) : Strip := { p with pp := (nextEos v).getD p.pp }

/-- Close a block group: emit its result, then `extra`; PP moves as `move` says. -/
def closeMode2 (o : Reduce) (t : BitVec 4) (abs : Bool) (u : BitVec 2) (v : Firing) (b : Burst) (move : Strip → Strip)
    (ins : List Nat) (ts extra : List Tok) : Fired :=
  let (r, evs) := blockResult o t abs (flushes v) b ts
  match eventTrap v.h evs with
  | some tr => .fault tr
  | none => fire v ins (fun p => noteEvents evs { move p with group := [] }) u (r :: extra)

/-- A `dat` token of a block group. -/
def fireMode2 (o : Reduce) (t : BitVec 4) (abs : Bool) (u : BitVec 2) (v : Firing) (ins : List Nat) (x : Tok) : Fired :=
  match burstOf v.p.w[4] with
  | none => .fault stripInvalid
  | some b =>
    let ts := v.p.group ++ [x]
    if ts.length < b.n then fire v ins (fun p => { p with group := ts }) 0 []
    else closeMode2 o t abs u v b (movePP v) ins ts []

/-! ### The words (R303, R335) -/

/-- A reduction word: it takes data by its mode; an `eod` or `eos` that meets an open group closes it first, and so does an
`hdr` within a block group. Behind the result an `eos` sends PP to the next `eos` word (R291, R303, R335). -/
def reduceWord (i : Instr) (o : Reduce) (u : BitVec 2) (t : BitVec 4) (abs : Bool) (m : BitVec 2) :
    State → Host.Outcome State Fault Refusal :=
  stripForm i fun v =>
    let (ins, heads) := inputHeads v i
    match operandToks v (stripOperands i) with
    | none => .wait
    | some ops =>
      let x := ops.headD {}
      let closes := readHeads heads == .marker && (x.tag != 1 || m == 2)
      match readHeads heads with
      | .control => .wait
      | .mix => .fault stripInvalid
      | .data =>
        if !outputsFree v.k v.j u then .wait
        else if m = 1 then fireMode1 o t abs v ins x
        else if m = 0 then fireMode0 o t abs u v ins ops
        else fireMode2 o t abs u v ins x
      | h =>
        if !outputsFree v.k v.j u then .wait
        else if v.p.group.isEmpty || !(closes || h == .eos) then
          if h == .eos then skipToEos v else fire v ins (fun p => p) u [x]
        else if m = 1 then
          if h == .eos then fire v [] (fun p => { moveEos v p with group := [] }) u v.p.group
          else fire v ins (fun p => { movePP v p with group := [] }) u (v.p.group ++ [x])
        else
          match burstOf v.p.w[4] with
          | none => .fault stripInvalid
          | some b =>
            if h == .eos then closeMode2 o t abs u v b (moveEos v) [] v.p.group []
            else closeMode2 o t abs u v b (movePP v) ins v.p.group [x]

def execRsum (a : BitVec 3) (u : BitVec 2) (t : BitVec 4) (x : BitVec 1) (m : BitVec 2) (s : State) :
    Host.Outcome State Fault Refusal :=
  reduceWord (.rsum a u t x m) .sum u t (x == 1) m s

def execRmax (a : BitVec 3) (u : BitVec 2) (t : BitVec 4) (x : BitVec 1) (m : BitVec 2) (s : State) :
    Host.Outcome State Fault Refusal :=
  reduceWord (.rmax a u t x m) .max u t (x == 1) m s

def execRmin (a : BitVec 3) (u : BitVec 2) (t : BitVec 4) (x : BitVec 1) (m : BitVec 2) (s : State) :
    Host.Outcome State Fault Refusal :=
  reduceWord (.rmin a u t x m) .min u t (x == 1) m s

/-! ### scan (R304) -/

/-- The running sums of a list, each with its events; the first is the first value, read and written as any other: its NaN is
the canonical one, and flush-to-zero applies to it (R207, R208). -/
def scanList (t : BitVec 4) (z : Bool) : Option (BitVec 32) → List (BitVec 32) → List (BitVec 32 × Ev)
  | _, [] => []
  | none, x :: xs =>
    let y := if t = 8 then x else BitVec.ofNat 32 (roundTo fp32 .ieee .rne z (readFp fp32 z x.toNat)).1
    (y, {}) :: scanList t z (some y) xs
  | some a, x :: xs =>
    let (y, e) := if t = 8 then (a + x, {}) else addFp32 z a x
    (y, e) :: scanList t z (some y) xs

/-- What a dead lane contributes. -/
def deadValue (t : BitVec 4) : BitVec 32 := if t = 8 then 0 else negZero

/-- `scan`: inclusive, or exclusive, where lane 0 receives −0 (R304). -/
def execScan (a : BitVec 3) (u : BitVec 2) (t : BitVec 4) (x : BitVec 1) (s : State) : Host.Outcome State Fault Refusal :=
  computeWord (.scan a u t x) u (fun v ins ops =>
    let i := ops.headD {}
    let xs := (List.range 192).map fun n => if bit i.pred n then laneAt i.data n else deadValue t
    let sums := scanList t (flushes v) none xs
    let out := if x = 1 then (deadValue t, {}) :: sums else sums
    let live (n : Nat) (r : BitVec 32 × Ev) : BitVec 32 × Ev := if bit i.pred n then r else (0, {})
    let out := (List.range 192).map fun n => live n (out.getD n (0, {}))
    let evs := out.map (·.2)
    match eventTrap v.h evs with
    | some tr => .fault tr
    | none => fire v ins (fun p => noteEvents evs (movePP v p)) u [dataTok i (rowOf (out.map (·.1))) i.pred]) s

/-! ### Permutes (R305) -/

/-- A word that moves lanes: lane i takes lane `src i` of a, when there is one. -/
def moveLanes (v : Firing) (ins : List Nat) (u : BitVec 2) (x : Tok) (src : Nat → Option Nat) : Fired :=
  let from_ (i : Nat) : Option Nat := (src i).filter fun p => bit x.pred p
  fire v ins (movePP v) u
    [dataTok x (rowBy fun i => match from_ i with | some p => laneAt x.data p | none => 0) (lanesBy fun i => (from_ i).isSome)]

def execPerm (a b : BitVec 3) (u : BitVec 2) (s : State) : Host.Outcome State Fault Refusal :=
  computeWord (.perm a b u) u (fun v ins ops =>
    let y := ops.getD 1 {}
    moveLanes v ins u (ops.headD {}) fun i =>
      let p := (field (laneAt y.data i) 0 8 : BitVec 8).toNat
      if bit y.pred i && p ≤ 191 then some p else none) s

def execRot (a : BitVec 3) (u : BitVec 2) (n : BitVec 8) (s : State) : Host.Outcome State Fault Refusal :=
  computeWord (.rot a u n) u (fun v ins ops =>
    moveLanes v ins u (ops.headD {}) fun i => some ((i + 192 - n.toNat) % 192)) s

def execBcast (a : BitVec 3) (u : BitVec 2) (n : BitVec 8) (s : State) : Host.Outcome State Fault Refusal :=
  computeWord (.bcast a u n) u (fun v ins ops => moveLanes v ins u (ops.headD {}) fun _ => some n.toNat) s

end Sys2Proof.Machine
end

