-- ==== Sys2Proof/Machine/StripConv.lean ====
section
/-! DEFINITION. Conversion and block scaling of CV0 and CV1 (R214-R217, R220, R297-R301, R337). -/

namespace Sys2Proof.Machine

/-! ### One element (R218, R219, R297) -/

/-- Tags 8-11 are integers (R213). -/
def isIntTag (t : BitVec 4) : Bool := 8 ≤ t.toNat && t.toNat ≤ 11

/-- Bits of magnitude of an integer tag. -/
def magBits (t : BitVec 4) : Nat := if t = 11 then 8 else elemBits t - 1

/-- The conversion from `st` to `dt` narrows (R218). -/
def narrows (st dt : BitVec 4) : Bool :=
  match isIntTag st, isIntTag dt with
  | false, false => decide ((fmtOf dt).fb < (fmtOf st).fb) || decide ((fmtOf dt).eb < (fmtOf st).eb)
  | false, true => true
  | true, true => decide (elemBits dt < elemBits st)
  | true, false => decide ((fmtOf dt).fb + 1 < magBits st)

/-- SR codes (R218). -/
def isStochastic (r : BitVec 3) : Bool := r == 4 || r == 6

/-- Convert one element (R219, R297). -/
def convertElem (st dt : BitVec 4) (r : BitVec 3) (ftz : Bool) (rnd : Nat) (e : Nat) : Nat × Ev :=
  let v := if isIntTag st then ofInt (intOf st e) else readFp (fmtOf st) ftz e
  let mode := if narrows st dt then modeOf r rnd else exactMode r
  if isIntTag dt then toInt dt mode v else roundTo (fmtOf dt) (narrowRule r) mode ftz v

/-! ### Tokens as element lists (R213) -/

/-- Elements of a token in element order, with the lane and place each stands at; an element of a dead lane is none. -/
def tokElems (tag : BitVec 4) (t : Tok) : List (Option Nat) :=
  (List.range 192).flatMap fun i => (List.range (perLane tag)).map fun k =>
    if bit t.pred i then some (elemOf tag (laneAt t.data i) k) else none

/-- A token of packed elements; a lane is live when any of its elements is. -/
def packToken (tag : BitVec 4) (like : Tok) (es : List (Option Nat)) : Tok :=
  let n := perLane tag
  dataTok like (rowBy fun i => laneOf tag (((es.drop (n * i)).take n).map (·.getD 0)))
    (lanesBy fun i => ((es.drop (n * i)).take n).any (·.isSome))

/-- Tokens that hold a list of elements: as many as `count`. -/
def packTokens (tag : BitVec 4) (like : Tok) (es : List (Option Nat)) (count : Nat) : List Tok :=
  (List.range count).map fun j => packToken tag like ((es.drop (192 * perLane tag * j)).take (192 * perLane tag))

/-- Events of one input token's elements gathered by lane. -/
def laneEvents (n : Nat) (evs : List Ev) : List Ev :=
  (List.range 192).map fun i => ((evs.drop (n * i)).take n).foldl Ev.or {}

/-- Convert the elements of one token: lane i, place k, value. -/
def mapElems (tag : BitVec 4) (t : Tok) (f : Nat → Nat → Nat → Nat × Ev) : List (Option Nat) × List Ev :=
  let n := perLane tag
  let out := ((tokElems tag t).zipIdx).map fun (e, j) =>
    match e with
    | none => ((none : Option Nat), ({} : Ev))
    | some x => let (y, ev) := f (j / n) (j % n) x; (some y, ev)
  (out.map (·.1), laneEvents n (out.map (·.2)))

/-! ### Packing and unpacking words (R297, R300, R337) -/

/-- The elements a group holds, in element order: each of its tokens carries `n` converted elements in a lane. -/
def groupElems (dt : BitVec 4) (n : Nat) (ts : List Tok) : List (Option Nat) :=
  ts.flatMap fun t => (List.range 192).flatMap fun i => (List.range n).map fun k =>
    if bit t.pred i then some (elemOf dt (laneAt t.data i) k) else none

/-- A converted token as the group keeps it: its elements in the low places of each lane. -/
def groupToken (dt : BitVec 4) (n : Nat) (like : Tok) (es : List (Option Nat)) : Tok :=
  dataTok like (rowBy fun i => laneOf dt (((es.drop (n * i)).take n).map (·.getD 0))) like.pred

/-- Close a group: the packed token. -/
def closeGroup (dt : BitVec 4) (n : Nat) (ts : List Tok) : Tok := packToken dt (ts.headD {}) (groupElems dt n ts)

/-- A converter word: each element of `st` becomes one of `dt`. It packs where `dt` has more elements in a lane than
`st`, and unpacks where it has fewer; `note` counts malformed quads, `sr` says that a taken token steps the LFSR; a constant is no token (R220). -/
def convertWord (i : Instr) (u : BitVec 2) (st dt : BitVec 4) (sr : Bool)
    (f : Firing → Tok → List (Option Nat) × List Ev × Bool) : State → Host.Outcome State Fault Refusal :=
  stripForm i fun v =>
    let (ins, heads) := inputHeads v i
    let n := perLane st
    let m := perLane dt
    match operandToks v (stripOperands i) with
    | none => .wait
    | some ops =>
      if !outputsFree v.k v.j u then .wait
      else
        let x := ops.headD {}
        match readHeads heads with
        | .control => .wait
        | .mix => .fault stripInvalid
        | .eos =>
          if v.p.group.isEmpty then skipToEos v
          else fire v [] (fun p => { moveEos v p with group := [] }) u [closeGroup dt n v.p.group]
        | .marker =>
          if v.p.group.isEmpty then fire v ins (fun p => p) u [x]
          else fire v ins (fun p => { movePP v p with group := [] }) u [closeGroup dt n v.p.group, x]
        | .data =>
          let (es, evs, malf) := f v x
          match eventTrap v.h evs with
          | some t => .fault t
          | none =>
            let note (p : Strip) : Strip :=
              noteEvents evs { p with malf := p.malf || malf, lfsr := if sr && !ins.isEmpty then stepLfsr p.lfsr else p.lfsr }
            if m ≤ n then fire v ins (fun p => note (movePP v p)) u (packTokens dt x es (n / m))
            else
              let ts := v.p.group ++ [groupToken dt n x es]
              if ts.length < m / n then fire v ins (fun p => note { p with group := ts }) 0 []
              else fire v ins (fun p => note { movePP v p with group := [] }) u [closeGroup dt n ts]

/-- `cvt` (R297, R337). Where its conversion does not narrow, an SR code acts as RNE, and the LFSR does not step, for nothing
has been rounded by it (DEDUCED, assumption 60). -/
def execCvt (a : BitVec 3) (u : BitVec 2) (t : BitVec 4) (r : BitVec 3) (st : BitVec 4) (s : State) :
    Host.Outcome State Fault Refusal :=
  convertWord (.cvt a u t r st) u st t (isStochastic r && narrows st t) (fun v x =>
    let (es, evs) := mapElems st x fun i k e => convertElem st t r (flushes v) (randomBits v.p.lfsr i k) e
    (es, evs, false)) s

/-- `pk4`: i32 elements clamped to −7 to +7, eight tokens to one (R300). -/
def execPk4 (a : BitVec 3) (u : BitVec 2) (s : State) : Host.Outcome State Fault Refusal :=
  convertWord (.pk4 a u) u 8 7 false (fun _ x =>
    let (es, evs) := mapElems 8 x fun _ _ e =>
      let y := intOf 8 e
      (((max (-7) (min 7 y)) % 16).toNat, { ovf := decide (y < -7) || decide (7 < y) })
    (es, evs, false)) s

/-- The eight values of an N4X lane before the scale, and whether a quad is malformed (R208, R215). -/
def laneQuads (z : Bool) (l : BitVec 32) : List FV × Bool :=
  let q (i : Nat) := decodeQuad z (l.toNat / 2 ^ (16 * i) % 65536)
  let zeros : List FV := List.replicate 4 (.fin false 0 0)
  ((q 0).getD zeros ++ (q 1).getD zeros, (q 0).isNone || (q 1).isNone)

/-- `upk4`: one N4X token to eight FP32 tokens with the scale 2^0 (R300). -/
def execUpk4 (a : BitVec 3) (u : BitVec 2) (s : State) : Host.Outcome State Fault Refusal :=
  convertWord (.upk4 a u) u 7 1 false (fun v x =>
    let (es, evs) := mapElems 7 x fun i k _ =>
      ((roundTo fp32 .ieee .rne (flushes v) ((laneQuads (flushes v) (laneAt x.data i)).1.getD k .nan)).1, {})
    (es, evs, (List.range 192).any fun i => bit x.pred i && (laneQuads (flushes v) (laneAt x.data i)).2)) s

/-! ### hdr (R301) -/

/-- `hdr` re-tags tokens between `dat` and `hdr`. -/
def execStripHdr (a : BitVec 3) (u : BitVec 2) (d : BitVec 1) (s : State) : Host.Outcome State Fault Refusal :=
  stripForm (.stripHdr a u d) (fun v =>
    let ins := (inputHeads v (.stripHdr a u d)).1
    match operandTok v a with
    | none => .wait
    | some x =>
      if !outputsFree v.k v.j u then .wait
      else if x.tag = 8 ∨ x.tag = 9 then .wait
      else if x.tag = 7 then skipToEos v
      else if x.tag = (if d = 0 then 0 else 1) then fire v ins (movePP v) u [{ x with tag := if d = 0 then 1 else 0 }]
      else if 2 ≤ x.tag.toNat ∧ x.tag.toNat ≤ 6 then fire v ins (fun p => p) u [x]
      else .fault stripInvalid) s

/-! ### quant (R216, R217, R298) -/

/-- One element of a burst: its value, the LFSR of its token and its lane. -/
structure Elem where
  v : FV
  rnd : Nat
  lane : Nat

/-- Elements of a burst of FP32 tokens; a dead lane counts as zero. The LFSR steps behind each token that an input brought
(R220). -/
def burstElems (z input : Bool) : BitVec 32 → List Tok → List Elem
  | _, [] => []
  | s, t :: ts =>
    (List.range 192).map (fun i =>
      ⟨if bit t.pred i then readFp fp32 z (laneAt t.data i).toNat else .fin false 0 0, randomBits s i 0, i⟩) ++
      burstElems z input (if input then stepLfsr s else s) ts

/-- NaN or infinite. -/
def isSpecial : FV → Bool
  | .fin _ _ _ => false
  | _ => true

/-- The scale of a block whose largest magnitude is `amax`: floor(log2 amax) − down + 127 (R216, R217). -/
def blockScale (z : Bool) (amax : BitVec 32) (down : Int) : Nat :=
  match readFp fp32 z amax.toNat with
  | .fin neg m e =>
    if m = 0 then 127
    else if neg then (Config.scaleOfMax amax).toNat
    else (max 0 (min 254 (e + Nat.log2 m - down + 127))).toNat
  | _ => (Config.scaleOfMax amax).toNat

/-- emax of an MX element format (R216). -/
def emaxOf (t : BitVec 4) : Int := if t = 4 then 8 else if t = 5 then 15 else 6

/-- What a block of elements comes to: its scale, its codes, the event of each element, the outliers displaced. -/
structure Block where
  scale : Nat
  codes : List Nat
  evs : List Ev
  displaced : Nat

/-- A block with a NaN or infinite element: its scale is the NaN of E8M0. Where no element is NaN, the infinite ones signal
invalid (R216, R217, R219). -/
def specialBlock (xs : List Elem) : Block :=
  let made := !(xs.any fun x => isNan x.v)
  ⟨255, xs.map fun _ => 0, xs.map fun x => { inv := made && isSpecial x.v }, 0⟩

/-- MXFP8 and MXINT8 (R216). -/
def quantiseMx (t : BitVec 4) (r : BitVec 3) (z : Bool) (amax : BitVec 32) (xs : List Elem) : Block :=
  if xs.any fun x => isSpecial x.v then specialBlock xs
  else
    let sc := blockScale z amax (emaxOf t)
    let out := xs.map fun x =>
      let v := scaleFV (127 - (sc : Int)) x.v
      if t = 6 then toInt 6 (modeOf r x.rnd) v else roundTo (fmtOf t) (narrowRule r) (modeOf r x.rnd) z v
    ⟨sc, out.map (·.1), out.map (·.2), 0⟩

/-- |x| < |y| for finite values. -/
def smaller (x y : FV) : Bool :=
  match x, y with
  | .fin _ m e, .fin _ n d => lessFV false (.fin false m e) (.fin false n d)
  | _, _ => false

/-- One quad: its 16 bits, the events of its slots, the outliers displaced (R217); a displaced one that is clamped to ±7
overflows (R219). -/
def quantiseQuad (r : BitVec 3) (z : Bool) (sc : Nat) (xs : List Elem) : Nat × List Ev × Nat :=
  let scaled_ (k : Nat) : FV := scaleFV (127 - (sc : Int)) ((xs.getD k ⟨.fin false 0 0, 0, 0⟩).v)
  let rnd (k : Nat) : Nat := (xs.getD k ⟨.nan, 0, 0⟩).rnd
  let y (k : Nat) : Int :=
    match scaled_ k with
    | .fin neg m e => let q : Int := roundInt (modeOf r (rnd k)) neg m e; if neg then -q else q
    | _ => 0
  let big (k : Nat) : Bool := decide (7 < (y k).natAbs)
  let os := (List.range 4).filter big
  let code (v : Int) : Nat := (v % 16).toNat
  match os with
  | [] => (code (y 0) + 16 * code (y 1) + 256 * code (y 2) + 4096 * code (y 3), [{}, {}, {}, {}], 0)
  | o0 :: rest =>
    let o := rest.foldl (fun b k => if smaller (scaled_ b) (scaled_ k) then k else b) o0
    let p := o ^^^ 1
    let yp : Int := if big p then (if y p < 0 then -7 else 7) else y p
    let (b, ev) := roundTo e4m3 .saturate (modeOf r (rnd o)) z (scaled_ o)
    let quad := 8 * 2 ^ (4 * o) + code yp * 2 ^ (4 * p) + (if o ≤ 1 then b * 256 else b)
    (quad, (List.range 4).map (fun k => if k = o then ev else { ovf := k == p && big p }), os.length - 1)

/-- N4X (R217): the codes are the four slots of each quad. -/
def quantiseN4x (h : Nat) (r : BitVec 3) (z : Bool) (amax : BitVec 32) (xs : List Elem) : Block :=
  if xs.any fun x => isSpecial x.v then specialBlock xs
  else
    let sc := blockScale z amax (2 + h)
    let out := (List.range (xs.length / 4)).map fun i => quantiseQuad r z sc ((xs.drop (4 * i)).take 4)
    ⟨sc, out.flatMap fun (q, _, _) => (List.range 4).map fun k => q / 2 ^ (4 * k) % 16,
      out.flatMap fun (_, e, _) => e, out.foldl (fun n (_, _, d) => n + d) 0⟩

/-- The header word of a block (R212). -/
def headerWord (last : Bool) (tag : BitVec 4) (blen scale : Nat) : BitVec 32 :=
  (0 : BitVec 11) ++ BitVec.ofBool last ++ tag ++ BitVec.ofNat 8 blen ++ BitVec.ofNat 8 scale

/-- Close a burst of `quant`: the header token, the packed tokens, then `extra`. The group holds the token of b, then those of
a, which an input brought or not; `ins` are the inputs consumed, `f` says how PP moves and what group stands after. -/
def closeBurst (u : BitVec 2) (t : BitVec 4) (r : BitVec 3) (last input : Bool) (v : Firing) (b : Burst) (f : Strip → Strip)
    (ins : List Nat) (g extra : List Tok) : Fired :=
  let z := flushes v
  let amaxes := g.headD {}
  let ts := g.drop 1
  let es := burstElems z input v.p.lfsr ts
  let nb := 192 * b.n / b.len
  let live := ceilDiv es.length b.len
  let blocks := (List.range live).map fun i =>
    let xs := blockOf es b.len i
    let xs := xs ++ List.replicate (b.len - xs.length) ⟨.fin false 0 0, 0, 0⟩
    let amax := if bit amaxes.pred i then laneAt amaxes.data i else 0
    if t = 7 then quantiseN4x b.h r z amax xs else quantiseMx t r z amax xs
  let evs := (List.range 192).map fun i =>
    ((blocks.flatMap (·.evs)).zipIdx).foldl (fun e (x, j) => if j % 192 = i then e.or x else e) {}
  match eventTrap v.h evs with
  | some tr => .fault tr
  | none =>
    let like := ts.headD amaxes
    let word (i : Nat) : BitVec 32 :=
      headerWord (last && i + 1 == nb) t b.len ((blocks.map (·.scale)).getD i 0)
    let hdr : Tok :=
      { data := rowBy fun i => if i < live then word i else 0
        pred := lanesBy fun i => i < live, tag := 1, side := like.side, ord := like.ord }
    let codes := (blocks.flatMap (·.codes)).map some
    let packed := packTokens t like codes (ceilDiv codes.length (192 * perLane t))
    let displaced := blocks.foldl (fun n x => n + x.displaced) 0
    let sr := isStochastic r && input
    fire v ins (fun p => addDisplaced displaced (noteEvents evs
      { f p with lfsr := if sr then ts.foldl (fun l _ => stepLfsr l) p.lfsr else p.lfsr })) u (hdr :: packed ++ extra)

/-- The port input an operand names, if it names one. -/
def inputOf (a : BitVec 3) : List Nat := if a.toNat < 4 then [a.toNat] else []

/-- `quant` (R298). A marker on a that ends a burst follows the packed tokens; the same marker on b, which RD0 has sent behind
its maxima (R303), is then taken with it (assumption 44): the group holds the marker until then. An `eos` ends a burst too, and
PP goes to the next `eos` word (R291). At the boundary of bursts markers are taken as R291 takes them. -/
def execQuant (a b : BitVec 3) (u : BitVec 2) (t : BitVec 4) (r : BitVec 3) (l : BitVec 1) (s : State) :
    Host.Outcome State Fault Refusal :=
  stripForm (.quant a b u t r l) (fun v =>
    if !outputsFree v.k v.j u then .wait
    else
      let owed := (v.p.group.headD {}).tag
      if v.p.group.isEmpty || owed != 0 then
        match operandTok v b with
        | none => .wait
        | some y =>
          if y.tag = 0 then
            (match burstOf v.p.w[4] with
             | none => .fault stripInvalid
             | some _ => fire v (inputOf b) (fun p => { p with group := [y] }) 0 [])
          else if y.tag = owed then fire v (inputOf b) (fun p => { p with group := [] }) 0 []
          else
            match operandTok v a with
            | none => .wait
            | some x =>
              match readHeads [x, y] with
              | .control => .wait
              | .eos => if (nextEos v).isNone then .wait else fire v [] (fun p => { moveEos v p with group := [] }) 0 []
              | .marker => fire v (inputOf a ++ inputOf b).eraseDups (fun p => { p with group := [] }) u [x]
              | _ => .fault stripInvalid
      else
        match operandTok v a, burstOf v.p.w[4] with
        | none, _ => .wait
        | some _, none => .fault stripInvalid
        | some x, some bp =>
          let close := closeBurst u t r (l == 1) (a.toNat < 4) v bp
          if x.tag = 8 ∨ x.tag = 9 then .wait
          else if 10 ≤ x.tag.toNat then .fault stripInvalid
          else if x.tag = 0 then
            let g := v.p.group ++ [x]
            if g.length < bp.n + 1 then fire v (inputOf a) (fun p => { p with group := g }) 0 []
            else close (fun p => { movePP v p with group := [] }) (inputOf a) g []
          else if x.tag = 7 then close (fun p => { moveEos v p with group := [] }) [] v.p.group []
          else close (fun p => { movePP v p with group := if b.toNat < 4 then [{ tag := x.tag }] else [] }) (inputOf a) v.p.group [x]) s

/-! ### dequant (R214, R299) -/

/-- A header token that its consumer accepts: the number of blocks and their length (R214). -/
def acceptHeader (tag : BitVec 4) (t : Tok) : Option (Nat × Nat) :=
  let n := ((List.range 192).filter fun i => bit t.pred i).length
  let prefix_ := (List.range 192).all fun i => bit t.pred i == decide (i < n)
  let w0 := laneAt t.data 0
  let blen : BitVec 8 := field w0 8 8
  let same := (List.range n).all fun i =>
    let w := laneAt t.data i
    field w 21 11 == 0#11 && field w 16 4 == tag && field w 8 8 == blen
  if n = 0 || !prefix_ || !same || !(blen == 32 || blen == 64 || blen == 128) then none
  else some (n, blen.toNat)

/-- Scale of block i of a header token. -/
def headerScale (t : Tok) (i : Nat) : Nat := (field (laneAt t.data i) 0 8 : BitVec 8).toNat

/-- The value of element k of a lane before its scale. -/
def blockElem (tag : BitVec 4) (z : Bool) (l : BitVec 32) (k : Nat) : FV :=
  match tag.toNat with
  | 6 => ofInt (intOf 6 (elemOf 6 l k))
  | 7 => (laneQuads z l).1.getD k .nan
  | _ => readFp (fmtOf tag) z (elemOf tag l k)

/-- What one token of a burst comes to: its FP32 elements, its events by lane, and whether a quad is malformed. -/
structure Decoded where
  toks : List Tok
  evs : List Ev
  malf : Bool

/-- Token number `j` of a burst of `total` elements, decoded and scaled (R210, R215, R299). -/
def decodeToken (t : BitVec 4) (r : BitVec 3) (z : Bool) (hdr : Tok) (blen total j : Nat) (x : Tok) : Decoded :=
  let n := perLane t
  let first := 192 * n * j
  let out := (List.range (192 * n)).map fun e =>
    if first + e < total then
      let (w, ev) := roundTo fp32 (narrowRule r) (exactMode r) z
        (applyScale (headerScale hdr ((first + e) / blen)) (blockElem t z (laneAt x.data (e / n)) (e % n)))
      (some w, ev)
    else (none, {})
  { toks := packTokens 1 x (out.map (·.1)) n
    evs := laneEvents n (out.map (·.2))
    malf := t == 7 && (List.range 192).any fun i => decide (first + n * i < total) && (laneQuads z (laneAt x.data i)).2 }

/-- The fault of a burst consumes no element of it: the tokens that have been gathered go back to the input (R214). -/
def spoilBurst (v : Firing) (n : BitVec 2) (hdr : Tok) (taken : List Tok) (t : Trap) : Fired :=
  .givesBack { v.c with collar := modStrip v.k v.j fun p =>
    { p with group := [hdr], skid := taken.map (fun x => (n, x)) ++ p.skid } } t

/-- One data token of a burst, behind those `taken`: with the last the burst fires, which no earlier token does for it might be
found short (R214, R299). -/
def dequantToken (u : BitVec 2) (t : BitVec 4) (r : BitVec 3) (v : Firing) (ins : List Nat) (hdr : Tok) (blen total : Nat)
    (taken : List Tok) (x : Tok) : Fired :=
  let n := perLane t
  let first := 192 * n * taken.length
  let back := spoilBurst v (BitVec.ofNat 2 (ins.headD 0)) hdr taken
  if (List.range 192).any fun i => decide (first + n * i < total) && !bit x.pred i then back stripFormat
  else if first + 192 * n < total then fire v ins (fun p => { p with group := p.group ++ [x] }) 0 []
  else
    let ds := (taken ++ [x]).zipIdx.map fun (y, j) => decodeToken t r (flushes v) hdr blen total j y
    let evs := (List.range 192).map fun i => ds.foldl (fun e d => e.or (d.evs.getD i {})) {}
    match eventTrap v.h evs with
    | some tr => back tr
    | none =>
      fire v ins (fun p => noteEvents evs { movePP v p with group := [], malf := p.malf || ds.any (·.malf) }) u
        (ds.flatMap (·.toks))

/-- `dequant` (R299): a header, then its burst; a marker or another header inside the burst faults FORMAT (R214). The
group holds the header token and the data tokens gathered so far. -/
def execDequant (a : BitVec 3) (u : BitVec 2) (t : BitVec 4) (r : BitVec 3) (s : State) : Host.Outcome State Fault Refusal :=
  stripForm (.dequant a u t r) (fun v =>
    let ins := inputOf a
    match operandTok v a with
    | none => .wait
    | some x =>
      if !outputsFree v.k v.j u then .wait
      else if x.tag = 8 ∨ x.tag = 9 then .wait
      else
        match v.p.group with
        | [] =>
          if 10 ≤ x.tag.toNat then .fault stripInvalid
          else if x.tag = 1 then
            match acceptHeader t x with
            | none => .fault stripFormat
            | some _ => fire v ins (fun p => { p with group := [x] }) 0 []
          else if x.tag = 7 then skipToEos v
          else if x.tag = 0 then .fault stripInvalid
          else fire v ins (fun p => p) u [x]
        | hdr :: taken =>
          if 10 ≤ x.tag.toNat then .fault stripInvalid
          else
            match acceptHeader t hdr with
            | none => .fault stripFormat
            | some (n, blen) =>
              if x.tag ≠ 0 then spoilBurst v (BitVec.ofNat 2 (ins.headD 0)) hdr taken stripFormat
              else dequantToken u t r v ins hdr blen (n * blen) taken x) s

end Sys2Proof.Machine
end

