-- ==== Sys2Proof/Machine/Dispatch.lean ====
section
/-! DEFINITION. One arm per instruction: the meaning it runs. -/

namespace Sys2Proof.Machine

def exec (i : Instr) (s : State) : Host.Outcome State Fault Refusal :=
  match i with
  | .add v0 v1 v2 v3 v4 => Sys2Proof.Machine.execAdd v0 v1 v2 v3 v4 s
  | .sub v0 v1 v2 v3 v4 => Sys2Proof.Machine.execSub v0 v1 v2 v3 v4 s
  | .and v0 v1 v2 v3 v4 => Sys2Proof.Machine.execAnd v0 v1 v2 v3 v4 s
  | .or v0 v1 v2 v3 v4 => Sys2Proof.Machine.execOr v0 v1 v2 v3 v4 s
  | .xor v0 v1 v2 v3 v4 => Sys2Proof.Machine.execXor v0 v1 v2 v3 v4 s
  | .andn v0 v1 v2 v3 v4 => Sys2Proof.Machine.execAndn v0 v1 v2 v3 v4 s
  | .orn v0 v1 v2 v3 v4 => Sys2Proof.Machine.execOrn v0 v1 v2 v3 v4 s
  | .sll v0 v1 v2 v3 v4 => Sys2Proof.Machine.execSll v0 v1 v2 v3 v4 s
  | .srl v0 v1 v2 v3 v4 => Sys2Proof.Machine.execSrl v0 v1 v2 v3 v4 s
  | .sra v0 v1 v2 v3 v4 => Sys2Proof.Machine.execSra v0 v1 v2 v3 v4 s
  | .rol v0 v1 v2 v3 v4 => Sys2Proof.Machine.execRol v0 v1 v2 v3 v4 s
  | .ror v0 v1 v2 v3 v4 => Sys2Proof.Machine.execRor v0 v1 v2 v3 v4 s
  | .slt v0 v1 v2 v3 v4 => Sys2Proof.Machine.execSlt v0 v1 v2 v3 v4 s
  | .sltn v0 v1 v2 v3 v4 => Sys2Proof.Machine.execSltn v0 v1 v2 v3 v4 s
  | .min v0 v1 v2 v3 v4 => Sys2Proof.Machine.execMin v0 v1 v2 v3 v4 s
  | .max v0 v1 v2 v3 v4 => Sys2Proof.Machine.execMax v0 v1 v2 v3 v4 s
  | .minn v0 v1 v2 v3 v4 => Sys2Proof.Machine.execMinn v0 v1 v2 v3 v4 s
  | .maxn v0 v1 v2 v3 v4 => Sys2Proof.Machine.execMaxn v0 v1 v2 v3 v4 s
  | .mul v0 v1 v2 v3 v4 => Sys2Proof.Machine.execMul v0 v1 v2 v3 v4 s
  | .mulh v0 v1 v2 v3 v4 => Sys2Proof.Machine.execMulh v0 v1 v2 v3 v4 s
  | .mulhn v0 v1 v2 v3 v4 => Sys2Proof.Machine.execMulhn v0 v1 v2 v3 v4 s
  | .div v0 v1 v2 v3 v4 => Sys2Proof.Machine.execDiv v0 v1 v2 v3 v4 s
  | .divn v0 v1 v2 v3 v4 => Sys2Proof.Machine.execDivn v0 v1 v2 v3 v4 s
  | .rem v0 v1 v2 v3 v4 => Sys2Proof.Machine.execRem v0 v1 v2 v3 v4 s
  | .remn v0 v1 v2 v3 v4 => Sys2Proof.Machine.execRemn v0 v1 v2 v3 v4 s
  | .clz v0 v1 v2 v3 => Sys2Proof.Machine.execClz v0 v1 v2 v3 s
  | .ctz v0 v1 v2 v3 => Sys2Proof.Machine.execCtz v0 v1 v2 v3 s
  | .popc v0 v1 v2 v3 => Sys2Proof.Machine.execPopc v0 v1 v2 v3 s
  | .sxb v0 v1 v2 v3 => Sys2Proof.Machine.execSxb v0 v1 v2 v3 s
  | .sxh v0 v1 v2 v3 => Sys2Proof.Machine.execSxh v0 v1 v2 v3 s
  | .sxw v0 v1 v2 v3 => Sys2Proof.Machine.execSxw v0 v1 v2 v3 s
  | .zxb v0 v1 v2 v3 => Sys2Proof.Machine.execZxb v0 v1 v2 v3 s
  | .zxh v0 v1 v2 v3 => Sys2Proof.Machine.execZxh v0 v1 v2 v3 s
  | .zxw v0 v1 v2 v3 => Sys2Proof.Machine.execZxw v0 v1 v2 v3 s
  | .bfx v0 v1 v2 v3 v4 => Sys2Proof.Machine.execBfx v0 v1 v2 v3 v4 s
  | .bfi v0 v1 v2 v3 v4 => Sys2Proof.Machine.execBfi v0 v1 v2 v3 v4 s
  | .sel v0 v1 v2 v3 v4 v5 => Sys2Proof.Machine.execSel v0 v1 v2 v3 v4 v5 s
  | .addi v0 v1 v2 v3 v4 => Sys2Proof.Machine.execAddi v0 v1 v2 v3 v4 s
  | .andi v0 v1 v2 v3 v4 => Sys2Proof.Machine.execAndi v0 v1 v2 v3 v4 s
  | .ori v0 v1 v2 v3 v4 => Sys2Proof.Machine.execOri v0 v1 v2 v3 v4 s
  | .xori v0 v1 v2 v3 v4 => Sys2Proof.Machine.execXori v0 v1 v2 v3 v4 s
  | .slti v0 v1 v2 v3 v4 => Sys2Proof.Machine.execSlti v0 v1 v2 v3 v4 s
  | .sltni v0 v1 v2 v3 v4 => Sys2Proof.Machine.execSltni v0 v1 v2 v3 v4 s
  | .shiSll v0 v1 v2 v3 v4 => Sys2Proof.Machine.execShiSll v0 v1 v2 v3 v4 s
  | .shiSrl v0 v1 v2 v3 v4 => Sys2Proof.Machine.execShiSrl v0 v1 v2 v3 v4 s
  | .shiSra v0 v1 v2 v3 v4 => Sys2Proof.Machine.execShiSra v0 v1 v2 v3 v4 s
  | .shiRol v0 v1 v2 v3 v4 => Sys2Proof.Machine.execShiRol v0 v1 v2 v3 v4 s
  | .shiRor v0 v1 v2 v3 v4 => Sys2Proof.Machine.execShiRor v0 v1 v2 v3 v4 s
  | .muli v0 v1 v2 v3 v4 => Sys2Proof.Machine.execMuli v0 v1 v2 v3 v4 s
  | .lui v0 v1 v2 v3 => Sys2Proof.Machine.execLui v0 v1 v2 v3 s
  | .aui v0 v1 v2 v3 => Sys2Proof.Machine.execAui v0 v1 v2 v3 s
  | .lic v0 v1 v2 v3 => Sys2Proof.Machine.execLic v0 v1 v2 v3 s
  | .beq v0 v1 v2 v3 v4 => Sys2Proof.Machine.execBeq v0 v1 v2 v3 v4 s
  | .bne v0 v1 v2 v3 v4 => Sys2Proof.Machine.execBne v0 v1 v2 v3 v4 s
  | .blt v0 v1 v2 v3 v4 => Sys2Proof.Machine.execBlt v0 v1 v2 v3 v4 s
  | .bge v0 v1 v2 v3 v4 => Sys2Proof.Machine.execBge v0 v1 v2 v3 v4 s
  | .bltn v0 v1 v2 v3 v4 => Sys2Proof.Machine.execBltn v0 v1 v2 v3 v4 s
  | .bgen v0 v1 v2 v3 v4 => Sys2Proof.Machine.execBgen v0 v1 v2 v3 v4 s
  | .bbs v0 v1 v2 v3 v4 => Sys2Proof.Machine.execBbs v0 v1 v2 v3 v4 s
  | .bbc v0 v1 v2 v3 v4 => Sys2Proof.Machine.execBbc v0 v1 v2 v3 v4 s
  | .j v0 v1 v2 => Sys2Proof.Machine.execJ v0 v1 v2 s
  | .jal v0 v1 => Sys2Proof.Machine.execJal v0 v1 s
  | .jalr v0 v1 v2 v3 => Sys2Proof.Machine.execJalr v0 v1 v2 v3 s
  | .loop v0 v1 v2 v3 => Sys2Proof.Machine.execLoop v0 v1 v2 v3 s
  | .ldb v0 v1 v2 v3 v4 => Sys2Proof.Machine.execLdb v0 v1 v2 v3 v4 s
  | .ldh v0 v1 v2 v3 v4 => Sys2Proof.Machine.execLdh v0 v1 v2 v3 v4 s
  | .ldw v0 v1 v2 v3 v4 => Sys2Proof.Machine.execLdw v0 v1 v2 v3 v4 s
  | .ldd v0 v1 v2 v3 v4 => Sys2Proof.Machine.execLdd v0 v1 v2 v3 v4 s
  | .ldbn v0 v1 v2 v3 v4 => Sys2Proof.Machine.execLdbn v0 v1 v2 v3 v4 s
  | .ldhn v0 v1 v2 v3 v4 => Sys2Proof.Machine.execLdhn v0 v1 v2 v3 v4 s
  | .ldwn v0 v1 v2 v3 v4 => Sys2Proof.Machine.execLdwn v0 v1 v2 v3 v4 s
  | .stb v0 v1 v2 v3 v4 => Sys2Proof.Machine.execStb v0 v1 v2 v3 v4 s
  | .sth v0 v1 v2 v3 v4 => Sys2Proof.Machine.execSth v0 v1 v2 v3 v4 s
  | .stw v0 v1 v2 v3 v4 => Sys2Proof.Machine.execStw v0 v1 v2 v3 v4 s
  | .std v0 v1 v2 v3 v4 => Sys2Proof.Machine.execStd v0 v1 v2 v3 v4 s
  | .ldu v0 v1 v2 v3 v4 => Sys2Proof.Machine.execLdu v0 v1 v2 v3 v4 s
  | .hld v0 v1 v2 v3 v4 v5 => Sys2Proof.Machine.execHld v0 v1 v2 v3 v4 v5 s
  | .hldn v0 v1 v2 v3 v4 v5 => Sys2Proof.Machine.execHldn v0 v1 v2 v3 v4 v5 s
  | .hst v0 v1 v2 v3 v4 v5 => Sys2Proof.Machine.execHst v0 v1 v2 v3 v4 v5 s
  | .hstnt v0 v1 v2 v3 v4 v5 => Sys2Proof.Machine.execHstnt v0 v1 v2 v3 v4 v5 s
  | .xlatR v0 v1 => Sys2Proof.Machine.execXlatR v0 v1 s
  | .xlatRw v0 v1 => Sys2Proof.Machine.execXlatRw v0 v1 s
  | .hrel v0 => Sys2Proof.Machine.execHrel v0 s
  | .amo v0 v1 v2 v3 v4 v5 => Sys2Proof.Machine.execAmo v0 v1 v2 v3 v4 v5 s
  | .rld v0 v1 v2 v3 v4 v5 => Sys2Proof.Machine.execRld v0 v1 v2 v3 v4 v5 s
  | .rldLine v0 v1 v2 v3 => Sys2Proof.Machine.execRldLine v0 v1 v2 v3 s
  | .rst v0 v1 v2 v3 v4 v5 => Sys2Proof.Machine.execRst v0 v1 v2 v3 v4 v5 s
  | .ramo v0 v1 v2 v3 v4 v5 v6 => Sys2Proof.Machine.execRamo v0 v1 v2 v3 v4 v5 v6 s
  | .fence v0 v1 v2 v3 => Sys2Proof.Machine.execFence v0 v1 v2 v3 s
  | .drain v0 v1 => Sys2Proof.Machine.execDrain v0 v1 s
  | .bar v0 => Sys2Proof.Machine.execBar v0 s
  | .barr v0 v1 v2 v3 => Sys2Proof.Machine.execBarr v0 v1 v2 v3 s
  | .bara v0 => Sys2Proof.Machine.execBara v0 s
  | .barw v0 => Sys2Proof.Machine.execBarw v0 s
  | .sig v0 => Sys2Proof.Machine.execSig v0 s
  | .waitc v0 => Sys2Proof.Machine.execWaitc v0 s
  | .clrp v0 v1 => Sys2Proof.Machine.execClrp v0 v1 s
  | .setp v0 v1 => Sys2Proof.Machine.execSetp v0 v1 s
  | .enq v0 v1 v2 => Sys2Proof.Machine.execEnq v0 v1 v2 s
  | .enqi v0 v1 v2 => Sys2Proof.Machine.execEnqi v0 v1 v2 s
  | .tokw v0 => Sys2Proof.Machine.execTokw v0 s
  | .tokq v0 v1 => Sys2Proof.Machine.execTokq v0 v1 s
  | .kset v0 v1 v2 => Sys2Proof.Machine.execKset v0 v1 v2 s
  | .krange v0 v1 => Sys2Proof.Machine.execKrange v0 v1 s
  | .kand v0 v1 v2 => Sys2Proof.Machine.execKand v0 v1 v2 s
  | .kor v0 v1 v2 => Sys2Proof.Machine.execKor v0 v1 v2 s
  | .knot v0 v1 => Sys2Proof.Machine.execKnot v0 v1 s
  | .kpop v0 v1 => Sys2Proof.Machine.execKpop v0 v1 s
  | .swopen v0 v1 v2 => Sys2Proof.Machine.execSwopen v0 v1 v2 s
  | .swadv v0 v1 => Sys2Proof.Machine.execSwadv v0 v1 s
  | .swclose v0 => Sys2Proof.Machine.execSwclose v0 s
  | .nop v0 => Sys2Proof.Machine.execNop v0 s
  | .halt => Sys2Proof.Machine.execHalt s
  | .trap v0 v1 => Sys2Proof.Machine.execTrap v0 v1 s
  | .tret => Sys2Proof.Machine.execTret s
  | .yield => Sys2Proof.Machine.execYield s
  | .brk v0 v1 => Sys2Proof.Machine.execBrk v0 v1 s
  | .mfs v0 v1 v2 => Sys2Proof.Machine.execMfs v0 v1 v2 s
  | .mts v0 v1 => Sys2Proof.Machine.execMts v0 v1 s
  | .chkb v0 v1 v2 => Sys2Proof.Machine.execChkb v0 v1 v2 s
  | .goMm => Sys2Proof.Machine.execGoMm s
  | .goMmacc => Sys2Proof.Machine.execGoMmacc s
  | .fire => Sys2Proof.Machine.execFire s
  | .collarArm => Sys2Proof.Machine.execCollarArm s
  | .recfgE => Sys2Proof.Machine.execRecfgE s
  | .recfgX => Sys2Proof.Machine.execRecfgX s
  | .xctx => Sys2Proof.Machine.execXctx s
  | .strain => Sys2Proof.Machine.execStrain s
  | .chain => Sys2Proof.Machine.execChain s
  | .kick => Sys2Proof.Machine.execKick s
  | .copy => Sys2Proof.Machine.execCopy s
  | .fill => Sys2Proof.Machine.execFill s
  | .blend => Sys2Proof.Machine.execBlend s
  | .stripPass v0 v1 => Sys2Proof.Machine.execStripPass v0 v1 s
  | .idle v0 v1 => Sys2Proof.Machine.execIdle v0 v1 s
  | .stripEos v0 v1 v2 => Sys2Proof.Machine.execStripEos v0 v1 v2 s
  | .fadd v0 v1 v2 v3 v4 => Sys2Proof.Machine.execFadd v0 v1 v2 v3 v4 s
  | .fsub v0 v1 v2 v3 v4 => Sys2Proof.Machine.execFsub v0 v1 v2 v3 v4 s
  | .fmul v0 v1 v2 v3 v4 => Sys2Proof.Machine.execFmul v0 v1 v2 v3 v4 s
  | .ffma v0 v1 v2 v3 v4 v5 => Sys2Proof.Machine.execFfma v0 v1 v2 v3 v4 v5 s
  | .fmin v0 v1 v2 v3 => Sys2Proof.Machine.execFmin v0 v1 v2 v3 s
  | .fmax v0 v1 v2 v3 => Sys2Proof.Machine.execFmax v0 v1 v2 v3 s
  | .fabs v0 v1 v2 => Sys2Proof.Machine.execFabs v0 v1 v2 s
  | .fneg v0 v1 v2 => Sys2Proof.Machine.execFneg v0 v1 v2 s
  | .fcmpEq v0 v1 v2 v3 => Sys2Proof.Machine.execFcmpEq v0 v1 v2 v3 s
  | .fcmpLt v0 v1 v2 v3 => Sys2Proof.Machine.execFcmpLt v0 v1 v2 v3 s
  | .fcmpLe v0 v1 v2 v3 => Sys2Proof.Machine.execFcmpLe v0 v1 v2 v3 s
  | .fsel v0 v1 v2 v3 v4 => Sys2Proof.Machine.execFsel v0 v1 v2 v3 v4 s
  | .iadd v0 v1 v2 v3 v4 => Sys2Proof.Machine.execIadd v0 v1 v2 v3 v4 s
  | .isub v0 v1 v2 v3 v4 => Sys2Proof.Machine.execIsub v0 v1 v2 v3 v4 s
  | .iand v0 v1 v2 v3 => Sys2Proof.Machine.execIand v0 v1 v2 v3 s
  | .ior v0 v1 v2 v3 => Sys2Proof.Machine.execIor v0 v1 v2 v3 s
  | .ixor v0 v1 v2 v3 => Sys2Proof.Machine.execIxor v0 v1 v2 v3 s
  | .ishl v0 v1 v2 v3 => Sys2Proof.Machine.execIshl v0 v1 v2 v3 s
  | .ishr v0 v1 v2 v3 => Sys2Proof.Machine.execIshr v0 v1 v2 v3 s
  | .isar v0 v1 v2 v3 => Sys2Proof.Machine.execIsar v0 v1 v2 v3 s
  | .imin v0 v1 v2 v3 => Sys2Proof.Machine.execImin v0 v1 v2 v3 s
  | .imax v0 v1 v2 v3 => Sys2Proof.Machine.execImax v0 v1 v2 v3 s
  | .cvt v0 v1 v2 v3 v4 => Sys2Proof.Machine.execCvt v0 v1 v2 v3 v4 s
  | .quant v0 v1 v2 v3 v4 v5 => Sys2Proof.Machine.execQuant v0 v1 v2 v3 v4 v5 s
  | .dequant v0 v1 v2 v3 => Sys2Proof.Machine.execDequant v0 v1 v2 v3 s
  | .pk4 v0 v1 => Sys2Proof.Machine.execPk4 v0 v1 s
  | .upk4 v0 v1 => Sys2Proof.Machine.execUpk4 v0 v1 s
  | .stripHdr v0 v1 v2 => Sys2Proof.Machine.execStripHdr v0 v1 v2 s
  | .rcp v0 v1 v2 v3 => Sys2Proof.Machine.execRcp v0 v1 v2 v3 s
  | .stripDiv v0 v1 v2 v3 v4 => Sys2Proof.Machine.execStripDiv v0 v1 v2 v3 v4 s
  | .sqrt v0 v1 v2 v3 => Sys2Proof.Machine.execSqrt v0 v1 v2 v3 s
  | .rsqrt v0 v1 v2 v3 => Sys2Proof.Machine.execRsqrt v0 v1 v2 v3 s
  | .exp2 v0 v1 v2 v3 => Sys2Proof.Machine.execExp2 v0 v1 v2 v3 s
  | .log2 v0 v1 v2 v3 => Sys2Proof.Machine.execLog2 v0 v1 v2 v3 s
  | .tanh v0 v1 v2 v3 => Sys2Proof.Machine.execTanh v0 v1 v2 v3 s
  | .rsum v0 v1 v2 v3 v4 => Sys2Proof.Machine.execRsum v0 v1 v2 v3 v4 s
  | .rmax v0 v1 v2 v3 v4 => Sys2Proof.Machine.execRmax v0 v1 v2 v3 v4 s
  | .rmin v0 v1 v2 v3 v4 => Sys2Proof.Machine.execRmin v0 v1 v2 v3 v4 s
  | .scan v0 v1 v2 v3 => Sys2Proof.Machine.execScan v0 v1 v2 v3 s
  | .perm v0 v1 v2 => Sys2Proof.Machine.execPerm v0 v1 v2 s
  | .rot v0 v1 v2 => Sys2Proof.Machine.execRot v0 v1 v2 s
  | .bcast v0 v1 v2 => Sys2Proof.Machine.execBcast v0 v1 v2 s
  | .lds v0 v1 => Sys2Proof.Machine.execLds v0 v1 s
  | .sts v0 v1 v2 => Sys2Proof.Machine.execSts v0 v1 v2 s
  | .gath v0 v1 => Sys2Proof.Machine.execGath v0 v1 s
  | .scat v0 v1 => Sys2Proof.Machine.execScat v0 v1 s
  | .dly v0 v1 v2 => Sys2Proof.Machine.execDly v0 v1 v2 s
  | .vrd v0 v1 v2 => Sys2Proof.Machine.execVrd v0 v1 v2 s
  | .vwr v0 v1 v2 => Sys2Proof.Machine.execVwr v0 v1 v2 s
  | .tail v0 v1 v2 => Sys2Proof.Machine.execTail v0 v1 v2 s
  | .notify v0 v1 => Sys2Proof.Machine.execNotify v0 v1 s
  | .commandFetch v0 => Sys2Proof.Machine.execCommandFetch v0 s
  | .commandRefetch v0 => Sys2Proof.Machine.execCommandRefetch v0 s
  | .queueDescriptorWrite v0 v1 v2 => Sys2Proof.Machine.execQueueDescriptorWrite v0 v1 v2 s
  | .qerrClear v0 => Sys2Proof.Machine.execQerrClear v0 s
  | .queueSwitchIn v0 => Sys2Proof.Machine.execQueueSwitchIn v0 s
  | .dispatch v0 => Sys2Proof.Machine.execDispatch v0 s
  | .arm v0 => Sys2Proof.Machine.execArm v0 s
  | .free v0 => Sys2Proof.Machine.execFree v0 s
  | .launch v0 => Sys2Proof.Machine.execLaunch v0 s
  | .launchAllocate v0 => Sys2Proof.Machine.execLaunchAllocate v0 s
  | .caddyBusyHit v0 => Sys2Proof.Machine.execCaddyBusyHit v0 s
  | .steepSpecialise v0 => Sys2Proof.Machine.execSteepSpecialise v0 s
  | .placeAndRoute v0 => Sys2Proof.Machine.execPlaceAndRoute v0 s
  | .configCode v0 v1 => Sys2Proof.Machine.execConfigCode v0 v1 s
  | .configContext v0 v1 => Sys2Proof.Machine.execConfigContext v0 v1 s
  | .configSlotTable v0 v1 => Sys2Proof.Machine.execConfigSlotTable v0 v1 s
  | .configDataBlock v0 v1 => Sys2Proof.Machine.execConfigDataBlock v0 v1 s
  | .configUniform v0 v1 => Sys2Proof.Machine.execConfigUniform v0 v1 s
  | .configEnd v0 v1 => Sys2Proof.Machine.execConfigEnd v0 v1 s
  | .taskStart v0 => Sys2Proof.Machine.execTaskStart v0 s
  | .taskEnd v0 => Sys2Proof.Machine.execTaskEnd v0 s
  | .saveTask v0 => Sys2Proof.Machine.execSaveTask v0 s
  | .restoreTask v0 => Sys2Proof.Machine.execRestoreTask v0 s
  | .pageResident v0 v1 => Sys2Proof.Machine.execPageResident v0 v1 s
  | .counterDecrement v0 v1 => Sys2Proof.Machine.execCounterDecrement v0 v1 s
  | .hang v0 => Sys2Proof.Machine.execHang v0 s
  | .barrierArrival v0 v1 => Sys2Proof.Machine.execBarrierArrival v0 v1 s
  | .barrierComplete v0 v1 v2 => Sys2Proof.Machine.execBarrierComplete v0 v1 v2 s
  | .deferto v0 v1 => Sys2Proof.Machine.execDeferto v0 v1 s
  | .storeRetire v0 v1 => Sys2Proof.Machine.execStoreRetire v0 v1 s
  | .leaveBag v0 v1 => Sys2Proof.Machine.execLeaveBag v0 v1 s
  | .deliver v0 => Sys2Proof.Machine.execDeliver v0 s
  | .responseArrival v0 => Sys2Proof.Machine.execResponseArrival v0 s
  | .writeAcknowledgement v0 => Sys2Proof.Machine.execWriteAcknowledgement v0 s
  | .refusal v0 => Sys2Proof.Machine.execRefusal v0 s
  | .translationWalk v0 v1 => Sys2Proof.Machine.execTranslationWalk v0 v1 s
  | .revocation v0 v1 => Sys2Proof.Machine.execRevocation v0 v1 s
  | .revocationComplete v0 => Sys2Proof.Machine.execRevocationComplete v0 s
  | .heatDecay => Sys2Proof.Machine.execHeatDecay s
  | .migrationArm v0 v1 v2 v3 => Sys2Proof.Machine.execMigrationArm v0 v1 v2 v3 s
  | .migrationCopy v0 => Sys2Proof.Machine.execMigrationCopy v0 s
  | .migrationRecopy v0 => Sys2Proof.Machine.execMigrationRecopy v0 s
  | .migrationHold v0 => Sys2Proof.Machine.execMigrationHold v0 s
  | .migrationSwitch v0 => Sys2Proof.Machine.execMigrationSwitch v0 s
  | .migrationForward v0 => Sys2Proof.Machine.execMigrationForward v0 s
  | .eviction v0 v1 v2 => Sys2Proof.Machine.execEviction v0 v1 v2 s
  | .windowPublish v0 v1 => Sys2Proof.Machine.execWindowPublish v0 v1 s
  | .rowRetirement v0 v1 => Sys2Proof.Machine.execRowRetirement v0 v1 s
  | .retirementListUpdate v0 => Sys2Proof.Machine.execRetirementListUpdate v0 s
  | .slotOwnerWrite v0 v1 v2 v3 => Sys2Proof.Machine.execSlotOwnerWrite v0 v1 v2 v3 s
  | .slotOwnerApply v0 v1 => Sys2Proof.Machine.execSlotOwnerApply v0 v1 s
  | .circuitBeat v0 => Sys2Proof.Machine.execCircuitBeat v0 s
  | .entryComplete v0 v1 => Sys2Proof.Machine.execEntryComplete v0 v1 s
  | .matrixStep v0 => Sys2Proof.Machine.execMatrixStep v0 s
  | .retirement v0 => Sys2Proof.Machine.execRetirement v0 s
  | .exitBankEmit v0 => Sys2Proof.Machine.execExitBankEmit v0 s
  | .aeBeWrite v0 v1 => Sys2Proof.Machine.execAeBeWrite v0 v1 s
  | .cfgToken v0 v1 v2 => Sys2Proof.Machine.execCfgToken v0 v1 v2 s
  | .snapshotRequest v0 => Sys2Proof.Machine.execSnapshotRequest v0 s
  | .snapMarker v0 v1 v2 => Sys2Proof.Machine.execSnapMarker v0 v1 v2 s
  | .snapshotComplete v0 => Sys2Proof.Machine.execSnapshotComplete v0 s
  | .strainerRelease v0 => Sys2Proof.Machine.execStrainerRelease v0 s
  | .copyRecord v0 => Sys2Proof.Machine.execCopyRecord v0 s
  | .trapEntry v0 => Sys2Proof.Machine.execTrapEntry v0 s
  | .fatalTrap v0 => Sys2Proof.Machine.execFatalTrap v0 s
  | .freeze v0 => Sys2Proof.Machine.execFreeze v0 s
  | .thaw v0 => Sys2Proof.Machine.execThaw v0 s
  | .cellHalt v0 => Sys2Proof.Machine.execCellHalt v0 s
  | .partitionSwap v0 v1 => Sys2Proof.Machine.execPartitionSwap v0 v1 s
  | .blenderChunk v0 => Sys2Proof.Machine.execBlenderChunk v0 s
  | .dataFlitSend v0 v1 v2 => Sys2Proof.Machine.execDataFlitSend v0 v1 v2 s
  | .dataFlit v0 v1 => Sys2Proof.Machine.execDataFlit v0 v1 s
  | .totalsFlit v0 v1 => Sys2Proof.Machine.execTotalsFlit v0 v1 s
  | .totalsSend v0 => Sys2Proof.Machine.execTotalsSend v0 s
  | .replayRequest v0 v1 => Sys2Proof.Machine.execReplayRequest v0 v1 s
  | .keyInstall v0 v1 v2 v3 => Sys2Proof.Machine.execKeyInstall v0 v1 v2 v3 s
  | .keySwitch v0 => Sys2Proof.Machine.execKeySwitch v0 s
  | .exhaustionTimeout v0 => Sys2Proof.Machine.execExhaustionTimeout v0 s
  | .linkRetrain v0 => Sys2Proof.Machine.execLinkRetrain v0 s
  | .eventRingSummary v0 => Sys2Proof.Machine.execEventRingSummary v0 s
  | .powerEvent v0 => Sys2Proof.Machine.execPowerEvent v0 s
  | .boot v0 => Sys2Proof.Machine.execBoot v0 s
  | .ownerEnrolment v0 v1 v2 => Sys2Proof.Machine.execOwnerEnrolment v0 v1 v2 s
  | .ownershipTransfer v0 => Sys2Proof.Machine.execOwnershipTransfer v0 s
  | .acceptEmpty v0 => Sys2Proof.Machine.execAcceptEmpty v0 s
  | .attestationQuote v0 => Sys2Proof.Machine.execAttestationQuote v0 s
  | .partitionReset v0 => Sys2Proof.Machine.execPartitionReset v0 s
  | .configGenerationChange => Sys2Proof.Machine.execConfigGenerationChange s
  | .imageLoad v0 => Sys2Proof.Machine.execImageLoad v0 s
  | .configurationWrite v0 => Sys2Proof.Machine.execConfigurationWrite v0 s
  | .memoryError v0 v1 v2 => Sys2Proof.Machine.execMemoryError v0 v1 v2 s
  | .powerLoss v0 => Sys2Proof.Machine.execPowerLoss v0 s
  | .configPacketCorruption v0 v1 v2 => Sys2Proof.Machine.execConfigPacketCorruption v0 v1 v2 s

end Sys2Proof.Machine
end

