-- ==== Sys2Proof/Machine/Turn.lean ====
section
/-! DEFINITION. Whose turn it is: how a stream fetches, follows and runs its next word (R10, R76, R77), how an engine queue
and a strip run theirs (R242, R289), which steps that no word names are due, and how the turn goes round. -/

namespace Sys2Proof.Machine

/-! ### A stream (R10, R44, R76, R77, R97) -/

/-- The word belongs to the stream that meets it (R20). -/
def ownWord (w : BitVec 32) (y : Bool) : Bool := bit w 31 == y

/-- A stream takes the outcome of a branch that the other one has decided (R77). -/
def followOutcome (s : State) (id : Nat) (c : Cell) (y : Bool) : State :=
  let next (o : BranchOutcome) : Word := if o.taken then o.target else getPlace c.core y + 4
  if y then
    match c.core.path with
    | .outcome o :: ps => setCell s id (follow true (next o) (modCore c fun k => { k with path := ps }))
    | _ => s
  else
    match c.core.boq with
    | o :: os => setCell s id (follow false (next o) (modCore c fun k => { k with boq := os }))
    | [] => s

/-- The access stream goes on past an instruction that the execute stream has completed (R97, R241). -/
def followPass (s : State) (id : Nat) (c : Cell) : State :=
  match c.core.path with
  | .pass :: ps => setCell s id (advance true (modCore c fun k => { k with path := ps }))
  | _ => s

/-- What a stream does at its place. -/
inductive Fetched where
  /-- nothing: it does not run, or waits for the other stream -/
  | idle
  /-- it runs its own instruction -/
  | run (i : Instr)
  /-- it follows a branch outcome, or its fetch traps -/
  | move (s : State)
  /-- it goes on past an instruction of the other stream -/
  | pass (s : State)

/-- The fetch of stream `y` of a cell that stands at its place `p` (R10, R44, R77). -/
def fetchAt (s : State) (id : Nat) (c : Cell) (y : Bool) : Fetched :=
  let p := getPlace c.core y
  if !fetchOk c.mem p then .move (raise s id { code := .illegal, unit := streamUnit y, sub := 1, addr := p })
  else
    let w := codeWord c.mem p.toNat
    if ownWord w y then
      match decodeCore w with
      | .ok i => .run i
      | .reject _ => .move (raise s id { illegalTrap with unit := streamUnit y, word := w })
    else if isBranchWord w then .move (followOutcome s id c y)
    else if y && holdsAccess w then .pass (followPass s id c)
    else .idle

/-- A stream passes over the other stream's words to its place (R76). -/
def toPlace (s : State) (id : Nat) (c : Cell) (y : Bool) : State × Cell :=
  let c' := modCore c fun k => setPlace k y (nextPlace c y)
  (setCell s id c', c')

/-- Loads of a stream that have not finished: reads of its own that wait at the cell's banks, and of the access stream the
registers and LDQ entries whose value has not come (R91, R105). -/
def loadsOpen (y : Bool) (c : Cell) : Nat :=
  (c.mem.deferred.countP fun d => match d.reader with
    | .stream acc _ => acc == y
    | _ => false) +
  if y then countBits c.core.busy + c.core.ldq.countP (fun e => !e.filled) else 0

/-- A stream has completed an instruction, or has followed a branch outcome, between two states of its cell: it stands
elsewhere, has halted, or has left a handler, if only for the next one. The entry of a handler is no completion, and a load
that still waits for its value completes when that comes (R91). -/
def streamMoved (y : Bool) (a b : Cell) : Bool :=
  let k := a.core
  let m := b.core
  (k.hm && k.run != m.run) ||
  k.run == m.run && decide (loadsOpen y b ≤ loadsOpen y a) &&
    (getPlace k y != getPlace m y || (if y then k.brA != m.brA else k.brE != m.brE) || k.halted != m.halted || k.hm != m.hm)

/-- Whether a turn of a stream was a completion is noted for the watchdog; passing over the other stream's words is none
(R91). -/
def noteStream (s : State) (id : Nat) (y : Bool) (t : State) : State :=
  match look s.cells id, look t.cells id with
  | some a, some b => if streamMoved y a b then noteDone t a.part else t
  | _, _ => t

/-- What follows a step that goes on. -/
def after (f : State → State) : Host.Outcome State Fault Refusal → Host.Outcome State Fault Refusal
  | .next s => .next (f s)
  | r => r

/-- One turn of a stream: it goes to its place, and runs what it fetches there. -/
def runStream (s : State) (id : Nat) (y : Bool) : Host.Outcome State Fault Refusal :=
  match look s.cells id with
  | none => .next s
  | some c =>
    if !streamRuns c y then .next s
    else
      let (s', c') := toPlace s id c y
      match fetchAt s' id c' y with
      | .idle => .next s'
      | .move t => .next (noteStream s' id y t)
      | .pass t => .next t
      | .run i => after (noteStream s' id y) (exec i s')

/-! ### Engine queues and strips (R238, R242, R289) -/

/-- The launch word of an entry. -/
def wordOfLaunch : Launch → Instr
  | .goMm => .goMm
  | .goMmacc => .goMmacc
  | .fire => .fire
  | .arm _ => .collarArm
  | .recfgE _ => .recfgE
  | .recfgX _ => .recfgX
  | .xctx _ _ _ => .xctx
  | .strain => .strain
  | .chain _ _ => .chain
  | .kick _ => .kick
  | .copy _ => .copy
  | .fill _ _ => .fill
  | .blend _ => .blend

/-- The word a queue runs next: a handler's `strain` behind a fault first (R355), else its head's. -/
def queueWord (s : State) (id : Nat) (c : Cell) (q : BitVec 2) : Option Instr :=
  if q = 1 ∧ (strainAhead s id c).isSome then some .strain
  else (headEntry c q).map fun e => wordOfLaunch e.launch

/-- One turn of a queue. -/
def runQueue (s : State) (id : Nat) (q : BitVec 2) : Host.Outcome State Fault Refusal :=
  match (look s.cells id).bind fun c => queueWord s id c q with
  | some i => exec i s
  | none => .next s

/-- A strip whose turn has changed nothing, and which neither an `idle` nor a busy LOC input holds, is calm until its collar
changes (R173, R332, R350). -/
def noteCalm (s : State) (id : Nat) (j : BitVec 4) (t : State) : State :=
  match look s.cells id, look t.cells id with
  | some a, some b =>
    if a.collar = b.collar ∧ (stripAt a.collar j).holdUntil ≤ s.now ∧ locFree s a then
      setCell t id { b with collar := { b.collar with calm := b.collar.calm ||| (1#16 <<< j.toNat) } }
    else t
  | _, _ => t

/-- One turn of a strip. -/
def runStrip (s : State) (id : Nat) (j : BitVec 4) : Host.Outcome State Fault Refusal :=
  match (look s.cells id).bind fun c => stripWord c.collar j with
  | some i => after (noteCalm s id j) (exec i s)
  | none => .next (noteCalm s id j s)

/-- A unit's turn. -/
def runUnit (s : State) (f : Focus) : Host.Outcome State Fault Refusal :=
  let s' := { s with focus := f }
  match f.unit with
  | .execute => runStream s' f.cell false
  | .access => runStream s' f.cell true
  | .queue q => runQueue s' f.cell q
  | .strip j => runStrip s' f.cell j

/-! ### Steps that are due -/

def allQueues : List (BitVec 2) := [0, 1, 2, 3]

def allStrips : List (BitVec 4) := (List.range 16).map (BitVec.ofNat 4)

/-- A step that may be due: where it is enabled it gives the next state. -/
abbrev Due := State → Option State

/-- Requests to other packages, responses to theirs and messages of the barrier network leave on links (R366, R373,
R376). The tree of the network is not given: a message takes any link that goes (assumption 46). -/
def linkMoves (s : State) : List Due :=
  (keys s.msgs ++ keys s.asks).flatMap (fun n =>
    match requestAt s n with
    | some m =>
      match leavesFor s n m with
      | some pkg =>
        ((waysOut s m pkg).map fun (l, vc) t =>
          if (carriedRequest t (l, vc)).isSome then dataFlitSend l vc (Config.flitPayload n) t else none) ++ [stallRequest n]
      | none => []
    | none => []) ++ (List.range 12).map exhaustionTimeout ++
  s.resps.flatMap fun (n, r) =>
    match r.msg.origin with
    | some (pkg, _) =>
      (wayBack s r.msg pkg).map fun (l, _) t =>
        if (carriedResponse t l).isSome then dataFlitSend l 5 (Config.flitPayload n) t else none
    | none => [] ++
  (if (reportDue s).isSome then
    (List.range 12).map fun l t =>
      if (carriedResponse t l).isNone && (reportDue t).isSome then dataFlitSend l 5 (Config.flitPayload l) t else none
  else [])

/-- Responses and messages: acknowledgements and values come back, requests are performed (R198). -/
def memoryMoves (s : State) : List Due :=
  (keys s.resps).flatMap (fun n => [responseArrival n, writeAck n, refusalArrival n]) ++ (keys s.msgs).map deliverMsg ++
  linkMoves s

/-- Barriers complete, decrements arrive (R95, R122). -/
def syncMoves (s : State) : List Due :=
  (keys s.barriers).map (fun k => barrierComplete (BitVec.ofNat 4 k) (BitVec.ofNat 3 (k / 16)) (k / 128)) ++
  s.decs.zipIdx.map fun d => counterDecrement d.1.ctr [d.2]

/-- Stores retire and leave the bag (R198). -/
def storeMoves (id : Nat) : List Due := allQueues.map (storeRetire id) ++ [leaveBag id 0]

/-- Steps of a cell's collar (R268, R276, R280, R283, R351-R354). -/
def collarMoves (id : Nat) : List Due :=
  [exitBankEmit id, aeBeWrite id false, aeBeWrite id true] ++
  allStrips.flatMap (fun j => allQueues.flatMap fun n => [cfgToken id j n, snapMarker id j n]) ++
  [(drainWave · id), snapshotRequest id, snapshotComplete id, strainerRelease id]

/-- Steps of a cell's engines (R235, R252, R261, R323). -/
def engineMoves (id : Nat) : List Due :=
  [matrixStep id, retirement id, copyRecord id, entryEnds id] ++ allQueues.map (entryComplete id)

/-- A cell at a trap or a halt, its reads that have waited too long, its revocations (R105, R159, R343, R356). -/
def cellMoves (s : State) (id : Nat) (c : Cell) : List Due :=
  [(settleTrap · id), cellHalt id] ++ (List.range c.mem.deferred.length).map (deferTimeout id) ++
  (List.range 16).map (fun h => translationWalk id (BitVec.ofNat 4 h)) ++
  (s.revocations.filter fun r => r.waiting.contains id).map fun r => revocation id r.pfn

/-- Steps of a task (R124-R131, R345). -/
def taskMoves (n : Nat) : List Due :=
  [fatalTrap n, taskEnd n, saveTask n, caddyBusyHit n, steepSpecialise n, placeAndRoute n] ++
  (List.range 8).flatMap (fun row =>
    [consume 0 loadCode n row, consume 1 storeContext n row, consume 2 loadSlots n row, consume 3 loadData n row,
     consume 4 loadUniform n row, configEnd n row]) ++
  [taskStart n]

/-- Steps of a work queue (R116, R117, R397, R398). -/
def queueMoves (s : State) (n : Nat) : List Due :=
  let q : BitVec 12 := BitVec.ofNat 12 n
  [switchIn q, commandFetch q, commandRefetch q, armHead q, freeHead q] ++
  (match (queueAt s q).task with
   | some t => [restoreTask t]
   | none => []) ++
  [launchHead q, launchAllocate q]

/-- Steps of a partition (R91, R117, R348, R349, R408). -/
def partMoves (n : Nat) : List Due :=
  let p : BitVec 4 := BitVec.ofNat 4 n
  [freezeDomain p, thawDomain p, hangPart p, resetGoesOn p, dispatchPart p]

/-- Steps of the memory system that go on by themselves (R159, R162, R180). -/
def backgroundMoves (s : State) : List Due :=
  s.revocations.map (fun r => revocationComplete r.pfn) ++
  allQueues.flatMap (fun d => [migrationCopy d, migrationRecopy d, migrationHold d, migrationSwitch d, migrationForward d]) ++
  allQueues.map blenderChunk ++
  (keys s.owners).map (fun k => slotOwnerApply (if k < 4 then none else some (k - 4)) (BitVec.ofNat 2 k)) ++
  (List.range s.flying.length).map circuitBeat

/-- Every step that may be due, whatever unit has its turn. -/
def dueMoves (s : State) : List Due :=
  memoryMoves s ++ syncMoves s ++
  s.cells.flatMap (fun x => storeMoves x.1 ++ collarMoves x.1 ++ engineMoves x.1 ++ cellMoves s x.1 x.2) ++
  (keys s.tasks).flatMap taskMoves ++ (keys s.queues).flatMap (queueMoves s) ++ (keys s.parts).flatMap partMoves ++
  backgroundMoves s

/-- The first of a list that is enabled, with its place. -/
def firstDue (s : State) : List (Due × Nat) → Option (State × Nat)
  | [] => none
  | (f, i) :: fs =>
    match f s with
    | some t => some (t, i)
    | none => firstDue s fs

/-- A step that is due. The search begins behind the step made last, so that no step that stays due holds the others back
(R90, assumption 4). The scheduler's standing follows every such step (R117). -/
def dueMove (s : State) : Option State :=
  let fs := (dueMoves s).zipIdx
  (firstDue s (fs.drop s.rotor ++ fs.take s.rotor)).map fun x => { noteReady x.1 with rotor := x.2 + 1 }

/-! ### The turn (assumption 4) -/

/-- The unit after a unit, within a cell; none after the last strip. -/
def nextUnit : FocusUnit → Option FocusUnit
  | .execute => some .access
  | .access => some (.queue 0)
  | .queue q => if q = 3 then some (.strip 0) else some (.queue (q + 1))
  | .strip j => if j = 15 then none else some (.strip (j + 1))

/-- The cell after a cell, round about. -/
def nextCell (s : State) (id : Nat) : Nat :=
  match (keys s.cells).find? fun k => decide (id < k) with
  | some k => k
  | none => (keys s.cells).headD 0

/-- The turn passes on. -/
def passTurn (s : State) : State :=
  match nextUnit s.focus.unit with
  | some u => { s with focus := { s.focus with unit := u } }
  | none => { s with focus := ⟨nextCell s s.focus.cell, .execute⟩ }

/-- Engine entries that have completed in a step count for the watchdogs of their partitions (R91, R226). -/
def noteEngines (s t : State) : State :=
  let done (x : Nat × Cell) : Bool :=
    match look t.cells x.1 with
    | some c => c.task == x.2.task && allQueues.any fun q => (getQueue c q).dseq != (getQueue x.2 q).dseq
    | none => false
  (s.cells.filter done).foldl (fun r x => noteDone r x.2.part) t

/-- A faulted collar has changed in a step, or what its ports wait for in scratch or in the landing buffer: its strips may go
on (R332). -/
def collarStirred (s : State) (x : Nat × Cell) : Bool :=
  collarFaulted x.2.collar && match look s.cells x.1 with
    | some a =>
      decide ({ a.collar with calm := 0 } ≠ { x.2.collar with calm := 0 } ∨ a.mem.served ≠ x.2.mem.served ∨
        a.mem.deferred ≠ x.2.mem.deferred ∨ a.mem.empty ≠ x.2.mem.empty ∨ a.landing ≠ x.2.landing)
    | none => true

/-- Strips whose faulted collar has changed in a step are calm no more. -/
def noteStir (s t : State) : State :=
  if t.cells.any (collarStirred s) then
    { t with cells := t.cells.map fun x =>
      (x.1, if collarStirred s x then { x.2 with collar := { x.2.collar with calm := 0 } } else x.2) }
  else t

/-- Time passes: any number of cycles (assumption 2). -/
def tick (s : State) : State := { s with now := s.now + Config.elapsed s.free, free := s.free + 1 }

/-- The end of a step. -/
def endStep (s t : State) : State := tick (noteEngines s (noteStir s t))

/-- A fixed move. -/
def perform (m : Move) (s : State) : Host.Outcome State Fault Refusal :=
  match m with
  | .run f => runUnit s f
  | .event i => exec i s

/-- The unit at `focus` has its turn, which then passes on. -/
def unitTurn (s : State) : Host.Outcome State Fault Refusal :=
  after (fun t => endStep s { passTurn t with unitNext := false }) (runUnit s s.focus)

/-- One step: the move that the outside world has fixed; else, by turns, a step that is due and the next unit's turn, so that
neither holds the other back (R90). -/
def turn (s : State) : Host.Outcome State Fault Refusal :=
  match s.agenda with
  | m :: ms => after (endStep s) (perform m { s with agenda := ms })
  | [] =>
    if s.unitNext then unitTurn s
    else
      match dueMove s with
      | some t => .next (endStep s { t with unitNext := true })
      | none => unitTurn s

/-! ### Putting a word where the next step runs it -/

/-- A cell that is ready to run a word at a place. -/
def readyCell (c : Cell) (task : Nat) : Cell :=
  { c with task := task, frozen := none, core := { c.core with halted := false, stopIssue := false } }

/-- Put a control-core word at the place of its stream, which waits for nothing. -/
def withCoreWord (w : BitVec 32) (c : Cell) : Cell :=
  let y := bit w 31
  let p := (getPlace c.core y).toNat
  { modMem c (fun m => { m with
      code := writeBytes m.code p (bytesOf w.toNat 4), codeLen := max m.codeLen (p + 4)
      bufs := mapAll (fun q => q.filter fun e => !(e.acc == y && presenceMode c e.addr)) m.bufs
      deferred := m.deferred.filter fun d => match d.reader with | .stream _ _ => false | _ => true }) with
    core := { c.core with path := [], boq := [] } }

/-- Put an entry with a launch word, its operands zero, at the head of its queue. -/
def withLaunch (q : BitVec 2) (l : Launch) (c : Cell) : Cell :=
  setQueue c q { getQueue c q with entries := [{ seq := 1, launch := l, tok := 0, scope := 0, hm := c.core.hm, run := c.core.run }], stopped := false }

/-- A context whose strip j runs the one word `w`. -/
def oneWordHalf (j : Nat) (w : BitVec 32) : Half :=
  let b0 : Mem := writeBytes [] 0 (bytesOf (2 ^ 63 + 2 ^ j) 8)
  { ctx := 0, bytes := writeBytes (writeByte b0 (16 + j) 1) (0x500 + 432 * j) (bytesOf w.toNat 4) }

/-- Put a strip word at the program pointer of strip j. -/
def withStripWord (j : BitVec 4) (w : BitVec 32) (c : Cell) : Cell :=
  { c with collar := { c.collar with
      actE := some (oneWordHalf j.toNat w), strainer := false
      strips := c.collar.strips.set j.toNat {} j.isLt } }

/-- The task that a placed word's cell belongs to: its own, else a new one-cell task of the cell's partition. -/
def withTask (s : State) (id : Nat) (c : Cell) : State × Nat :=
  match look s.tasks c.task with
  | some _ => (s, c.task)
  | none =>
    let m : Image := { imgid := 0, bytes := [], len := 0 }
    ({ s with tasks := put s.tasks c.task { q := 0, part := c.part, image := m, w := 1, h := 1, cells := [id], stage := .running } },
     c.task)

/-- Put a word where a unit of the cell at `focus` runs it, and give that unit the next turn. -/
def placeAt (s : State) (u : FocusUnit) (f : Cell → Cell) : State :=
  let id := s.focus.cell
  let c := peek Cell.fresh s.cells id
  let (s1, n) := withTask s id c
  { setCell s1 id (f (readyCell c n)) with focus := ⟨id, u⟩, agenda := [.run ⟨id, u⟩] }

/-- A 16-bit word is a launch word; a 32-bit word is a control-core word, or else a strip word (assumption 6). -/
def placeWord (s : State) (nbits w : Nat) : State :=
  if nbits = 16 then
    let op := w % 4096
    match launchQueue op, launchOf op 0 0 with
    | some (q, _), some l => placeAt s (.queue (BitVec.ofNat 2 q)) (withLaunch (BitVec.ofNat 2 q) l)
    | _, _ => s
  else
    let v := BitVec.ofNat 32 w
    let core : State := placeAt s (if bit v 31 then .access else .execute) (withCoreWord v)
    match decodeCore v, decodeStrip v with
    | .reject _, .ok i =>
      let j : BitVec 4 := BitVec.ofNat 4 ((stripFunction i).headD 0)
      placeAt s (.strip j) (withStripWord j v)
    | _, _ => core

end Sys2Proof.Machine
end

