-- ==== Sys2Proof/Laws/State.lean ====
section
/-! SUPPORT. What each named update of a state, a cell and a core leaves of every field: one lemma per field and update. -/

namespace Sys2Proof.Laws

open Sys2Proof.Machine

/-! ### `setCell` -/

@[simp] theorem setCell_now (s : State) (id : Nat) (c : Cell) : (setCell s id c).now = s.now := rfl
@[simp] theorem setCell_free (s : State) (id : Nat) (c : Cell) : (setCell s id c).free = s.free := rfl
@[simp] theorem setCell_agenda (s : State) (id : Nat) (c : Cell) : (setCell s id c).agenda = s.agenda := rfl
@[simp] theorem setCell_focus (s : State) (id : Nat) (c : Cell) : (setCell s id c).focus = s.focus := rfl
@[simp] theorem setCell_unitNext (s : State) (id : Nat) (c : Cell) : (setCell s id c).unitNext = s.unitNext := rfl
@[simp] theorem setCell_rotor (s : State) (id : Nat) (c : Cell) : (setCell s id c).rotor = s.rotor := rfl
@[simp] theorem setCell_tasks (s : State) (id : Nat) (c : Cell) : (setCell s id c).tasks = s.tasks := rfl
@[simp] theorem setCell_nextTask (s : State) (id : Nat) (c : Cell) : (setCell s id c).nextTask = s.nextTask := rfl
@[simp] theorem setCell_parts (s : State) (id : Nat) (c : Cell) : (setCell s id c).parts = s.parts := rfl
@[simp] theorem setCell_barriers (s : State) (id : Nat) (c : Cell) : (setCell s id c).barriers = s.barriers := rfl
@[simp] theorem setCell_counters (s : State) (id : Nat) (c : Cell) : (setCell s id c).counters = s.counters := rfl
@[simp] theorem setCell_queues (s : State) (id : Nat) (c : Cell) : (setCell s id c).queues = s.queues := rfl
@[simp] theorem setCell_images (s : State) (id : Nat) (c : Cell) : (setCell s id c).images = s.images := rfl
@[simp] theorem setCell_caddy (s : State) (id : Nat) (c : Cell) : (setCell s id c).caddy = s.caddy := rfl
@[simp] theorem setCell_caddyClock (s : State) (id : Nat) (c : Cell) : (setCell s id c).caddyClock = s.caddyClock := rfl
@[simp] theorem setCell_mem (s : State) (id : Nat) (c : Cell) : (setCell s id c).mem = s.mem := rfl
@[simp] theorem setCell_remote (s : State) (id : Nat) (c : Cell) : (setCell s id c).remote = s.remote := rfl
@[simp] theorem setCell_poison (s : State) (id : Nat) (c : Cell) : (setCell s id c).poison = s.poison := rfl
@[simp] theorem setCell_heat (s : State) (id : Nat) (c : Cell) : (setCell s id c).heat = s.heat := rfl
@[simp] theorem setCell_heatTick (s : State) (id : Nat) (c : Cell) : (setCell s id c).heatTick = s.heatTick := rfl
@[simp] theorem setCell_tlb (s : State) (id : Nat) (c : Cell) : (setCell s id c).tlb = s.tlb := rfl
@[simp] theorem setCell_msgs (s : State) (id : Nat) (c : Cell) : (setCell s id c).msgs = s.msgs := rfl
@[simp] theorem setCell_resps (s : State) (id : Nat) (c : Cell) : (setCell s id c).resps = s.resps := rfl
@[simp] theorem setCell_nextMsg (s : State) (id : Nat) (c : Cell) : (setCell s id c).nextMsg = s.nextMsg := rfl
@[simp] theorem setCell_asks (s : State) (id : Nat) (c : Cell) : (setCell s id c).asks = s.asks := rfl
@[simp] theorem setCell_nextPerf (s : State) (id : Nat) (c : Cell) : (setCell s id c).nextPerf = s.nextPerf := rfl
@[simp] theorem setCell_sends (s : State) (id : Nat) (c : Cell) : (setCell s id c).sends = s.sends := rfl
@[simp] theorem setCell_decs (s : State) (id : Nat) (c : Cell) : (setCell s id c).decs = s.decs := rfl
@[simp] theorem setCell_windows (s : State) (id : Nat) (c : Cell) : (setCell s id c).windows = s.windows := rfl
@[simp] theorem setCell_access (s : State) (id : Nat) (c : Cell) : (setCell s id c).access = s.access := rfl
@[simp] theorem setCell_revocations (s : State) (id : Nat) (c : Cell) : (setCell s id c).revocations = s.revocations := rfl
@[simp] theorem setCell_migrations (s : State) (id : Nat) (c : Cell) : (setCell s id c).migrations = s.migrations := rfl
@[simp] theorem setCell_published (s : State) (id : Nat) (c : Cell) : (setCell s id c).published = s.published := rfl
@[simp] theorem setCell_owners (s : State) (id : Nat) (c : Cell) : (setCell s id c).owners = s.owners := rfl
@[simp] theorem setCell_flying (s : State) (id : Nat) (c : Cell) : (setCell s id c).flying = s.flying := rfl
@[simp] theorem setCell_jobs (s : State) (id : Nat) (c : Cell) : (setCell s id c).jobs = s.jobs := rfl
@[simp] theorem setCell_admitted (s : State) (id : Nat) (c : Cell) : (setCell s id c).admitted = s.admitted := rfl
@[simp] theorem setCell_jobNo (s : State) (id : Nat) (c : Cell) : (setCell s id c).jobNo = s.jobNo := rfl
@[simp] theorem setCell_jobServed (s : State) (id : Nat) (c : Cell) : (setCell s id c).jobServed = s.jobServed := rfl
@[simp] theorem setCell_links (s : State) (id : Nat) (c : Cell) : (setCell s id c).links = s.links := rfl
@[simp] theorem setCell_fw (s : State) (id : Nat) (c : Cell) : (setCell s id c).fw = s.fw := rfl
@[simp] theorem setCell_shadow (s : State) (id : Nat) (c : Cell) : (setCell s id c).shadow = s.shadow := rfl
@[simp] theorem setCell_cells (s : State) (id : Nat) (c : Cell) : (setCell s id c).cells = put s.cells id c := rfl

/-! ### `modCell` -/

@[simp] theorem modCell_now (s : State) (id : Nat) (f : Cell → Cell) : (modCell s id f).now = s.now := rfl
@[simp] theorem modCell_free (s : State) (id : Nat) (f : Cell → Cell) : (modCell s id f).free = s.free := rfl
@[simp] theorem modCell_agenda (s : State) (id : Nat) (f : Cell → Cell) : (modCell s id f).agenda = s.agenda := rfl
@[simp] theorem modCell_focus (s : State) (id : Nat) (f : Cell → Cell) : (modCell s id f).focus = s.focus := rfl
@[simp] theorem modCell_unitNext (s : State) (id : Nat) (f : Cell → Cell) : (modCell s id f).unitNext = s.unitNext := rfl
@[simp] theorem modCell_rotor (s : State) (id : Nat) (f : Cell → Cell) : (modCell s id f).rotor = s.rotor := rfl
@[simp] theorem modCell_tasks (s : State) (id : Nat) (f : Cell → Cell) : (modCell s id f).tasks = s.tasks := rfl
@[simp] theorem modCell_nextTask (s : State) (id : Nat) (f : Cell → Cell) : (modCell s id f).nextTask = s.nextTask := rfl
@[simp] theorem modCell_parts (s : State) (id : Nat) (f : Cell → Cell) : (modCell s id f).parts = s.parts := rfl
@[simp] theorem modCell_barriers (s : State) (id : Nat) (f : Cell → Cell) : (modCell s id f).barriers = s.barriers := rfl
@[simp] theorem modCell_counters (s : State) (id : Nat) (f : Cell → Cell) : (modCell s id f).counters = s.counters := rfl
@[simp] theorem modCell_queues (s : State) (id : Nat) (f : Cell → Cell) : (modCell s id f).queues = s.queues := rfl
@[simp] theorem modCell_images (s : State) (id : Nat) (f : Cell → Cell) : (modCell s id f).images = s.images := rfl
@[simp] theorem modCell_caddy (s : State) (id : Nat) (f : Cell → Cell) : (modCell s id f).caddy = s.caddy := rfl
@[simp] theorem modCell_caddyClock (s : State) (id : Nat) (f : Cell → Cell) : (modCell s id f).caddyClock = s.caddyClock := rfl
@[simp] theorem modCell_mem (s : State) (id : Nat) (f : Cell → Cell) : (modCell s id f).mem = s.mem := rfl
@[simp] theorem modCell_remote (s : State) (id : Nat) (f : Cell → Cell) : (modCell s id f).remote = s.remote := rfl
@[simp] theorem modCell_poison (s : State) (id : Nat) (f : Cell → Cell) : (modCell s id f).poison = s.poison := rfl
@[simp] theorem modCell_heat (s : State) (id : Nat) (f : Cell → Cell) : (modCell s id f).heat = s.heat := rfl
@[simp] theorem modCell_heatTick (s : State) (id : Nat) (f : Cell → Cell) : (modCell s id f).heatTick = s.heatTick := rfl
@[simp] theorem modCell_tlb (s : State) (id : Nat) (f : Cell → Cell) : (modCell s id f).tlb = s.tlb := rfl
@[simp] theorem modCell_msgs (s : State) (id : Nat) (f : Cell → Cell) : (modCell s id f).msgs = s.msgs := rfl
@[simp] theorem modCell_resps (s : State) (id : Nat) (f : Cell → Cell) : (modCell s id f).resps = s.resps := rfl
@[simp] theorem modCell_nextMsg (s : State) (id : Nat) (f : Cell → Cell) : (modCell s id f).nextMsg = s.nextMsg := rfl
@[simp] theorem modCell_asks (s : State) (id : Nat) (f : Cell → Cell) : (modCell s id f).asks = s.asks := rfl
@[simp] theorem modCell_nextPerf (s : State) (id : Nat) (f : Cell → Cell) : (modCell s id f).nextPerf = s.nextPerf := rfl
@[simp] theorem modCell_sends (s : State) (id : Nat) (f : Cell → Cell) : (modCell s id f).sends = s.sends := rfl
@[simp] theorem modCell_decs (s : State) (id : Nat) (f : Cell → Cell) : (modCell s id f).decs = s.decs := rfl
@[simp] theorem modCell_windows (s : State) (id : Nat) (f : Cell → Cell) : (modCell s id f).windows = s.windows := rfl
@[simp] theorem modCell_access (s : State) (id : Nat) (f : Cell → Cell) : (modCell s id f).access = s.access := rfl
@[simp] theorem modCell_revocations (s : State) (id : Nat) (f : Cell → Cell) : (modCell s id f).revocations = s.revocations := rfl
@[simp] theorem modCell_migrations (s : State) (id : Nat) (f : Cell → Cell) : (modCell s id f).migrations = s.migrations := rfl
@[simp] theorem modCell_published (s : State) (id : Nat) (f : Cell → Cell) : (modCell s id f).published = s.published := rfl
@[simp] theorem modCell_owners (s : State) (id : Nat) (f : Cell → Cell) : (modCell s id f).owners = s.owners := rfl
@[simp] theorem modCell_flying (s : State) (id : Nat) (f : Cell → Cell) : (modCell s id f).flying = s.flying := rfl
@[simp] theorem modCell_jobs (s : State) (id : Nat) (f : Cell → Cell) : (modCell s id f).jobs = s.jobs := rfl
@[simp] theorem modCell_admitted (s : State) (id : Nat) (f : Cell → Cell) : (modCell s id f).admitted = s.admitted := rfl
@[simp] theorem modCell_jobNo (s : State) (id : Nat) (f : Cell → Cell) : (modCell s id f).jobNo = s.jobNo := rfl
@[simp] theorem modCell_jobServed (s : State) (id : Nat) (f : Cell → Cell) : (modCell s id f).jobServed = s.jobServed := rfl
@[simp] theorem modCell_links (s : State) (id : Nat) (f : Cell → Cell) : (modCell s id f).links = s.links := rfl
@[simp] theorem modCell_fw (s : State) (id : Nat) (f : Cell → Cell) : (modCell s id f).fw = s.fw := rfl
@[simp] theorem modCell_shadow (s : State) (id : Nat) (f : Cell → Cell) : (modCell s id f).shadow = s.shadow := rfl
@[simp] theorem modCell_cells (s : State) (id : Nat) (f : Cell → Cell) : (modCell s id f).cells = upd s.cells id f := rfl

/-! ### `forCells` -/

@[simp] theorem forCells_now (s : State) (ids : List Nat) (f : Cell → Cell) : (forCells s ids f).now = s.now := rfl
@[simp] theorem forCells_free (s : State) (ids : List Nat) (f : Cell → Cell) : (forCells s ids f).free = s.free := rfl
@[simp] theorem forCells_agenda (s : State) (ids : List Nat) (f : Cell → Cell) : (forCells s ids f).agenda = s.agenda := rfl
@[simp] theorem forCells_focus (s : State) (ids : List Nat) (f : Cell → Cell) : (forCells s ids f).focus = s.focus := rfl
@[simp] theorem forCells_unitNext (s : State) (ids : List Nat) (f : Cell → Cell) : (forCells s ids f).unitNext = s.unitNext := rfl
@[simp] theorem forCells_rotor (s : State) (ids : List Nat) (f : Cell → Cell) : (forCells s ids f).rotor = s.rotor := rfl
@[simp] theorem forCells_tasks (s : State) (ids : List Nat) (f : Cell → Cell) : (forCells s ids f).tasks = s.tasks := rfl
@[simp] theorem forCells_nextTask (s : State) (ids : List Nat) (f : Cell → Cell) : (forCells s ids f).nextTask = s.nextTask := rfl
@[simp] theorem forCells_parts (s : State) (ids : List Nat) (f : Cell → Cell) : (forCells s ids f).parts = s.parts := rfl
@[simp] theorem forCells_barriers (s : State) (ids : List Nat) (f : Cell → Cell) : (forCells s ids f).barriers = s.barriers := rfl
@[simp] theorem forCells_counters (s : State) (ids : List Nat) (f : Cell → Cell) : (forCells s ids f).counters = s.counters := rfl
@[simp] theorem forCells_queues (s : State) (ids : List Nat) (f : Cell → Cell) : (forCells s ids f).queues = s.queues := rfl
@[simp] theorem forCells_images (s : State) (ids : List Nat) (f : Cell → Cell) : (forCells s ids f).images = s.images := rfl
@[simp] theorem forCells_caddy (s : State) (ids : List Nat) (f : Cell → Cell) : (forCells s ids f).caddy = s.caddy := rfl
@[simp] theorem forCells_caddyClock (s : State) (ids : List Nat) (f : Cell → Cell) : (forCells s ids f).caddyClock = s.caddyClock := rfl
@[simp] theorem forCells_mem (s : State) (ids : List Nat) (f : Cell → Cell) : (forCells s ids f).mem = s.mem := rfl
@[simp] theorem forCells_remote (s : State) (ids : List Nat) (f : Cell → Cell) : (forCells s ids f).remote = s.remote := rfl
@[simp] theorem forCells_poison (s : State) (ids : List Nat) (f : Cell → Cell) : (forCells s ids f).poison = s.poison := rfl
@[simp] theorem forCells_heat (s : State) (ids : List Nat) (f : Cell → Cell) : (forCells s ids f).heat = s.heat := rfl
@[simp] theorem forCells_heatTick (s : State) (ids : List Nat) (f : Cell → Cell) : (forCells s ids f).heatTick = s.heatTick := rfl
@[simp] theorem forCells_tlb (s : State) (ids : List Nat) (f : Cell → Cell) : (forCells s ids f).tlb = s.tlb := rfl
@[simp] theorem forCells_msgs (s : State) (ids : List Nat) (f : Cell → Cell) : (forCells s ids f).msgs = s.msgs := rfl
@[simp] theorem forCells_resps (s : State) (ids : List Nat) (f : Cell → Cell) : (forCells s ids f).resps = s.resps := rfl
@[simp] theorem forCells_nextMsg (s : State) (ids : List Nat) (f : Cell → Cell) : (forCells s ids f).nextMsg = s.nextMsg := rfl
@[simp] theorem forCells_asks (s : State) (ids : List Nat) (f : Cell → Cell) : (forCells s ids f).asks = s.asks := rfl
@[simp] theorem forCells_nextPerf (s : State) (ids : List Nat) (f : Cell → Cell) : (forCells s ids f).nextPerf = s.nextPerf := rfl
@[simp] theorem forCells_sends (s : State) (ids : List Nat) (f : Cell → Cell) : (forCells s ids f).sends = s.sends := rfl
@[simp] theorem forCells_decs (s : State) (ids : List Nat) (f : Cell → Cell) : (forCells s ids f).decs = s.decs := rfl
@[simp] theorem forCells_windows (s : State) (ids : List Nat) (f : Cell → Cell) : (forCells s ids f).windows = s.windows := rfl
@[simp] theorem forCells_access (s : State) (ids : List Nat) (f : Cell → Cell) : (forCells s ids f).access = s.access := rfl
@[simp] theorem forCells_revocations (s : State) (ids : List Nat) (f : Cell → Cell) : (forCells s ids f).revocations = s.revocations := rfl
@[simp] theorem forCells_migrations (s : State) (ids : List Nat) (f : Cell → Cell) : (forCells s ids f).migrations = s.migrations := rfl
@[simp] theorem forCells_published (s : State) (ids : List Nat) (f : Cell → Cell) : (forCells s ids f).published = s.published := rfl
@[simp] theorem forCells_owners (s : State) (ids : List Nat) (f : Cell → Cell) : (forCells s ids f).owners = s.owners := rfl
@[simp] theorem forCells_flying (s : State) (ids : List Nat) (f : Cell → Cell) : (forCells s ids f).flying = s.flying := rfl
@[simp] theorem forCells_jobs (s : State) (ids : List Nat) (f : Cell → Cell) : (forCells s ids f).jobs = s.jobs := rfl
@[simp] theorem forCells_admitted (s : State) (ids : List Nat) (f : Cell → Cell) : (forCells s ids f).admitted = s.admitted := rfl
@[simp] theorem forCells_jobNo (s : State) (ids : List Nat) (f : Cell → Cell) : (forCells s ids f).jobNo = s.jobNo := rfl
@[simp] theorem forCells_jobServed (s : State) (ids : List Nat) (f : Cell → Cell) : (forCells s ids f).jobServed = s.jobServed := rfl
@[simp] theorem forCells_links (s : State) (ids : List Nat) (f : Cell → Cell) : (forCells s ids f).links = s.links := rfl
@[simp] theorem forCells_fw (s : State) (ids : List Nat) (f : Cell → Cell) : (forCells s ids f).fw = s.fw := rfl
@[simp] theorem forCells_shadow (s : State) (ids : List Nat) (f : Cell → Cell) : (forCells s ids f).shadow = s.shadow := rfl
@[simp] theorem forCells_cells (s : State) (ids : List Nat) (f : Cell → Cell) : (forCells s ids f).cells = ids.foldl (fun m id => upd m id f) s.cells := rfl

/-! ### `modTask` -/

@[simp] theorem modTask_now (s : State) (n : Nat) (f : Task → Task) : (modTask s n f).now = s.now := rfl
@[simp] theorem modTask_free (s : State) (n : Nat) (f : Task → Task) : (modTask s n f).free = s.free := rfl
@[simp] theorem modTask_agenda (s : State) (n : Nat) (f : Task → Task) : (modTask s n f).agenda = s.agenda := rfl
@[simp] theorem modTask_focus (s : State) (n : Nat) (f : Task → Task) : (modTask s n f).focus = s.focus := rfl
@[simp] theorem modTask_unitNext (s : State) (n : Nat) (f : Task → Task) : (modTask s n f).unitNext = s.unitNext := rfl
@[simp] theorem modTask_rotor (s : State) (n : Nat) (f : Task → Task) : (modTask s n f).rotor = s.rotor := rfl
@[simp] theorem modTask_cells (s : State) (n : Nat) (f : Task → Task) : (modTask s n f).cells = s.cells := rfl
@[simp] theorem modTask_nextTask (s : State) (n : Nat) (f : Task → Task) : (modTask s n f).nextTask = s.nextTask := rfl
@[simp] theorem modTask_parts (s : State) (n : Nat) (f : Task → Task) : (modTask s n f).parts = s.parts := rfl
@[simp] theorem modTask_barriers (s : State) (n : Nat) (f : Task → Task) : (modTask s n f).barriers = s.barriers := rfl
@[simp] theorem modTask_counters (s : State) (n : Nat) (f : Task → Task) : (modTask s n f).counters = s.counters := rfl
@[simp] theorem modTask_queues (s : State) (n : Nat) (f : Task → Task) : (modTask s n f).queues = s.queues := rfl
@[simp] theorem modTask_images (s : State) (n : Nat) (f : Task → Task) : (modTask s n f).images = s.images := rfl
@[simp] theorem modTask_caddy (s : State) (n : Nat) (f : Task → Task) : (modTask s n f).caddy = s.caddy := rfl
@[simp] theorem modTask_caddyClock (s : State) (n : Nat) (f : Task → Task) : (modTask s n f).caddyClock = s.caddyClock := rfl
@[simp] theorem modTask_mem (s : State) (n : Nat) (f : Task → Task) : (modTask s n f).mem = s.mem := rfl
@[simp] theorem modTask_remote (s : State) (n : Nat) (f : Task → Task) : (modTask s n f).remote = s.remote := rfl
@[simp] theorem modTask_poison (s : State) (n : Nat) (f : Task → Task) : (modTask s n f).poison = s.poison := rfl
@[simp] theorem modTask_heat (s : State) (n : Nat) (f : Task → Task) : (modTask s n f).heat = s.heat := rfl
@[simp] theorem modTask_heatTick (s : State) (n : Nat) (f : Task → Task) : (modTask s n f).heatTick = s.heatTick := rfl
@[simp] theorem modTask_tlb (s : State) (n : Nat) (f : Task → Task) : (modTask s n f).tlb = s.tlb := rfl
@[simp] theorem modTask_msgs (s : State) (n : Nat) (f : Task → Task) : (modTask s n f).msgs = s.msgs := rfl
@[simp] theorem modTask_resps (s : State) (n : Nat) (f : Task → Task) : (modTask s n f).resps = s.resps := rfl
@[simp] theorem modTask_nextMsg (s : State) (n : Nat) (f : Task → Task) : (modTask s n f).nextMsg = s.nextMsg := rfl
@[simp] theorem modTask_asks (s : State) (n : Nat) (f : Task → Task) : (modTask s n f).asks = s.asks := rfl
@[simp] theorem modTask_nextPerf (s : State) (n : Nat) (f : Task → Task) : (modTask s n f).nextPerf = s.nextPerf := rfl
@[simp] theorem modTask_sends (s : State) (n : Nat) (f : Task → Task) : (modTask s n f).sends = s.sends := rfl
@[simp] theorem modTask_decs (s : State) (n : Nat) (f : Task → Task) : (modTask s n f).decs = s.decs := rfl
@[simp] theorem modTask_windows (s : State) (n : Nat) (f : Task → Task) : (modTask s n f).windows = s.windows := rfl
@[simp] theorem modTask_access (s : State) (n : Nat) (f : Task → Task) : (modTask s n f).access = s.access := rfl
@[simp] theorem modTask_revocations (s : State) (n : Nat) (f : Task → Task) : (modTask s n f).revocations = s.revocations := rfl
@[simp] theorem modTask_migrations (s : State) (n : Nat) (f : Task → Task) : (modTask s n f).migrations = s.migrations := rfl
@[simp] theorem modTask_published (s : State) (n : Nat) (f : Task → Task) : (modTask s n f).published = s.published := rfl
@[simp] theorem modTask_owners (s : State) (n : Nat) (f : Task → Task) : (modTask s n f).owners = s.owners := rfl
@[simp] theorem modTask_flying (s : State) (n : Nat) (f : Task → Task) : (modTask s n f).flying = s.flying := rfl
@[simp] theorem modTask_jobs (s : State) (n : Nat) (f : Task → Task) : (modTask s n f).jobs = s.jobs := rfl
@[simp] theorem modTask_admitted (s : State) (n : Nat) (f : Task → Task) : (modTask s n f).admitted = s.admitted := rfl
@[simp] theorem modTask_jobNo (s : State) (n : Nat) (f : Task → Task) : (modTask s n f).jobNo = s.jobNo := rfl
@[simp] theorem modTask_jobServed (s : State) (n : Nat) (f : Task → Task) : (modTask s n f).jobServed = s.jobServed := rfl
@[simp] theorem modTask_links (s : State) (n : Nat) (f : Task → Task) : (modTask s n f).links = s.links := rfl
@[simp] theorem modTask_fw (s : State) (n : Nat) (f : Task → Task) : (modTask s n f).fw = s.fw := rfl
@[simp] theorem modTask_shadow (s : State) (n : Nat) (f : Task → Task) : (modTask s n f).shadow = s.shadow := rfl
@[simp] theorem modTask_tasks (s : State) (n : Nat) (f : Task → Task) : (modTask s n f).tasks = upd s.tasks n f := rfl

/-! ### `modPart` -/

@[simp] theorem modPart_now (s : State) (p : BitVec 4) (f : Partition → Partition) : (modPart s p f).now = s.now := rfl
@[simp] theorem modPart_free (s : State) (p : BitVec 4) (f : Partition → Partition) : (modPart s p f).free = s.free := rfl
@[simp] theorem modPart_agenda (s : State) (p : BitVec 4) (f : Partition → Partition) : (modPart s p f).agenda = s.agenda := rfl
@[simp] theorem modPart_focus (s : State) (p : BitVec 4) (f : Partition → Partition) : (modPart s p f).focus = s.focus := rfl
@[simp] theorem modPart_unitNext (s : State) (p : BitVec 4) (f : Partition → Partition) : (modPart s p f).unitNext = s.unitNext := rfl
@[simp] theorem modPart_rotor (s : State) (p : BitVec 4) (f : Partition → Partition) : (modPart s p f).rotor = s.rotor := rfl
@[simp] theorem modPart_cells (s : State) (p : BitVec 4) (f : Partition → Partition) : (modPart s p f).cells = s.cells := rfl
@[simp] theorem modPart_tasks (s : State) (p : BitVec 4) (f : Partition → Partition) : (modPart s p f).tasks = s.tasks := rfl
@[simp] theorem modPart_nextTask (s : State) (p : BitVec 4) (f : Partition → Partition) : (modPart s p f).nextTask = s.nextTask := rfl
@[simp] theorem modPart_barriers (s : State) (p : BitVec 4) (f : Partition → Partition) : (modPart s p f).barriers = s.barriers := rfl
@[simp] theorem modPart_counters (s : State) (p : BitVec 4) (f : Partition → Partition) : (modPart s p f).counters = s.counters := rfl
@[simp] theorem modPart_queues (s : State) (p : BitVec 4) (f : Partition → Partition) : (modPart s p f).queues = s.queues := rfl
@[simp] theorem modPart_images (s : State) (p : BitVec 4) (f : Partition → Partition) : (modPart s p f).images = s.images := rfl
@[simp] theorem modPart_caddy (s : State) (p : BitVec 4) (f : Partition → Partition) : (modPart s p f).caddy = s.caddy := rfl
@[simp] theorem modPart_caddyClock (s : State) (p : BitVec 4) (f : Partition → Partition) : (modPart s p f).caddyClock = s.caddyClock := rfl
@[simp] theorem modPart_mem (s : State) (p : BitVec 4) (f : Partition → Partition) : (modPart s p f).mem = s.mem := rfl
@[simp] theorem modPart_remote (s : State) (p : BitVec 4) (f : Partition → Partition) : (modPart s p f).remote = s.remote := rfl
@[simp] theorem modPart_poison (s : State) (p : BitVec 4) (f : Partition → Partition) : (modPart s p f).poison = s.poison := rfl
@[simp] theorem modPart_heat (s : State) (p : BitVec 4) (f : Partition → Partition) : (modPart s p f).heat = s.heat := rfl
@[simp] theorem modPart_heatTick (s : State) (p : BitVec 4) (f : Partition → Partition) : (modPart s p f).heatTick = s.heatTick := rfl
@[simp] theorem modPart_tlb (s : State) (p : BitVec 4) (f : Partition → Partition) : (modPart s p f).tlb = s.tlb := rfl
@[simp] theorem modPart_msgs (s : State) (p : BitVec 4) (f : Partition → Partition) : (modPart s p f).msgs = s.msgs := rfl
@[simp] theorem modPart_resps (s : State) (p : BitVec 4) (f : Partition → Partition) : (modPart s p f).resps = s.resps := rfl
@[simp] theorem modPart_nextMsg (s : State) (p : BitVec 4) (f : Partition → Partition) : (modPart s p f).nextMsg = s.nextMsg := rfl
@[simp] theorem modPart_asks (s : State) (p : BitVec 4) (f : Partition → Partition) : (modPart s p f).asks = s.asks := rfl
@[simp] theorem modPart_nextPerf (s : State) (p : BitVec 4) (f : Partition → Partition) : (modPart s p f).nextPerf = s.nextPerf := rfl
@[simp] theorem modPart_sends (s : State) (p : BitVec 4) (f : Partition → Partition) : (modPart s p f).sends = s.sends := rfl
@[simp] theorem modPart_decs (s : State) (p : BitVec 4) (f : Partition → Partition) : (modPart s p f).decs = s.decs := rfl
@[simp] theorem modPart_windows (s : State) (p : BitVec 4) (f : Partition → Partition) : (modPart s p f).windows = s.windows := rfl
@[simp] theorem modPart_access (s : State) (p : BitVec 4) (f : Partition → Partition) : (modPart s p f).access = s.access := rfl
@[simp] theorem modPart_revocations (s : State) (p : BitVec 4) (f : Partition → Partition) : (modPart s p f).revocations = s.revocations := rfl
@[simp] theorem modPart_migrations (s : State) (p : BitVec 4) (f : Partition → Partition) : (modPart s p f).migrations = s.migrations := rfl
@[simp] theorem modPart_published (s : State) (p : BitVec 4) (f : Partition → Partition) : (modPart s p f).published = s.published := rfl
@[simp] theorem modPart_owners (s : State) (p : BitVec 4) (f : Partition → Partition) : (modPart s p f).owners = s.owners := rfl
@[simp] theorem modPart_flying (s : State) (p : BitVec 4) (f : Partition → Partition) : (modPart s p f).flying = s.flying := rfl
@[simp] theorem modPart_jobs (s : State) (p : BitVec 4) (f : Partition → Partition) : (modPart s p f).jobs = s.jobs := rfl
@[simp] theorem modPart_admitted (s : State) (p : BitVec 4) (f : Partition → Partition) : (modPart s p f).admitted = s.admitted := rfl
@[simp] theorem modPart_jobNo (s : State) (p : BitVec 4) (f : Partition → Partition) : (modPart s p f).jobNo = s.jobNo := rfl
@[simp] theorem modPart_jobServed (s : State) (p : BitVec 4) (f : Partition → Partition) : (modPart s p f).jobServed = s.jobServed := rfl
@[simp] theorem modPart_links (s : State) (p : BitVec 4) (f : Partition → Partition) : (modPart s p f).links = s.links := rfl
@[simp] theorem modPart_fw (s : State) (p : BitVec 4) (f : Partition → Partition) : (modPart s p f).fw = s.fw := rfl
@[simp] theorem modPart_shadow (s : State) (p : BitVec 4) (f : Partition → Partition) : (modPart s p f).shadow = s.shadow := rfl
@[simp] theorem modPart_parts (s : State) (p : BitVec 4) (f : Partition → Partition) : (modPart s p f).parts = put s.parts p.toNat (f (partOf s p)) := rfl

/-! ### `modBarrier` -/

@[simp] theorem modBarrier_now (s : State) (k : Nat) (f : Barrier → Barrier) : (modBarrier s k f).now = s.now := rfl
@[simp] theorem modBarrier_free (s : State) (k : Nat) (f : Barrier → Barrier) : (modBarrier s k f).free = s.free := rfl
@[simp] theorem modBarrier_agenda (s : State) (k : Nat) (f : Barrier → Barrier) : (modBarrier s k f).agenda = s.agenda := rfl
@[simp] theorem modBarrier_focus (s : State) (k : Nat) (f : Barrier → Barrier) : (modBarrier s k f).focus = s.focus := rfl
@[simp] theorem modBarrier_unitNext (s : State) (k : Nat) (f : Barrier → Barrier) : (modBarrier s k f).unitNext = s.unitNext := rfl
@[simp] theorem modBarrier_rotor (s : State) (k : Nat) (f : Barrier → Barrier) : (modBarrier s k f).rotor = s.rotor := rfl
@[simp] theorem modBarrier_cells (s : State) (k : Nat) (f : Barrier → Barrier) : (modBarrier s k f).cells = s.cells := rfl
@[simp] theorem modBarrier_tasks (s : State) (k : Nat) (f : Barrier → Barrier) : (modBarrier s k f).tasks = s.tasks := rfl
@[simp] theorem modBarrier_nextTask (s : State) (k : Nat) (f : Barrier → Barrier) : (modBarrier s k f).nextTask = s.nextTask := rfl
@[simp] theorem modBarrier_parts (s : State) (k : Nat) (f : Barrier → Barrier) : (modBarrier s k f).parts = s.parts := rfl
@[simp] theorem modBarrier_counters (s : State) (k : Nat) (f : Barrier → Barrier) : (modBarrier s k f).counters = s.counters := rfl
@[simp] theorem modBarrier_queues (s : State) (k : Nat) (f : Barrier → Barrier) : (modBarrier s k f).queues = s.queues := rfl
@[simp] theorem modBarrier_images (s : State) (k : Nat) (f : Barrier → Barrier) : (modBarrier s k f).images = s.images := rfl
@[simp] theorem modBarrier_caddy (s : State) (k : Nat) (f : Barrier → Barrier) : (modBarrier s k f).caddy = s.caddy := rfl
@[simp] theorem modBarrier_caddyClock (s : State) (k : Nat) (f : Barrier → Barrier) : (modBarrier s k f).caddyClock = s.caddyClock := rfl
@[simp] theorem modBarrier_mem (s : State) (k : Nat) (f : Barrier → Barrier) : (modBarrier s k f).mem = s.mem := rfl
@[simp] theorem modBarrier_remote (s : State) (k : Nat) (f : Barrier → Barrier) : (modBarrier s k f).remote = s.remote := rfl
@[simp] theorem modBarrier_poison (s : State) (k : Nat) (f : Barrier → Barrier) : (modBarrier s k f).poison = s.poison := rfl
@[simp] theorem modBarrier_heat (s : State) (k : Nat) (f : Barrier → Barrier) : (modBarrier s k f).heat = s.heat := rfl
@[simp] theorem modBarrier_heatTick (s : State) (k : Nat) (f : Barrier → Barrier) : (modBarrier s k f).heatTick = s.heatTick := rfl
@[simp] theorem modBarrier_tlb (s : State) (k : Nat) (f : Barrier → Barrier) : (modBarrier s k f).tlb = s.tlb := rfl
@[simp] theorem modBarrier_msgs (s : State) (k : Nat) (f : Barrier → Barrier) : (modBarrier s k f).msgs = s.msgs := rfl
@[simp] theorem modBarrier_resps (s : State) (k : Nat) (f : Barrier → Barrier) : (modBarrier s k f).resps = s.resps := rfl
@[simp] theorem modBarrier_nextMsg (s : State) (k : Nat) (f : Barrier → Barrier) : (modBarrier s k f).nextMsg = s.nextMsg := rfl
@[simp] theorem modBarrier_asks (s : State) (k : Nat) (f : Barrier → Barrier) : (modBarrier s k f).asks = s.asks := rfl
@[simp] theorem modBarrier_nextPerf (s : State) (k : Nat) (f : Barrier → Barrier) : (modBarrier s k f).nextPerf = s.nextPerf := rfl
@[simp] theorem modBarrier_sends (s : State) (k : Nat) (f : Barrier → Barrier) : (modBarrier s k f).sends = s.sends := rfl
@[simp] theorem modBarrier_decs (s : State) (k : Nat) (f : Barrier → Barrier) : (modBarrier s k f).decs = s.decs := rfl
@[simp] theorem modBarrier_windows (s : State) (k : Nat) (f : Barrier → Barrier) : (modBarrier s k f).windows = s.windows := rfl
@[simp] theorem modBarrier_access (s : State) (k : Nat) (f : Barrier → Barrier) : (modBarrier s k f).access = s.access := rfl
@[simp] theorem modBarrier_revocations (s : State) (k : Nat) (f : Barrier → Barrier) : (modBarrier s k f).revocations = s.revocations := rfl
@[simp] theorem modBarrier_migrations (s : State) (k : Nat) (f : Barrier → Barrier) : (modBarrier s k f).migrations = s.migrations := rfl
@[simp] theorem modBarrier_published (s : State) (k : Nat) (f : Barrier → Barrier) : (modBarrier s k f).published = s.published := rfl
@[simp] theorem modBarrier_owners (s : State) (k : Nat) (f : Barrier → Barrier) : (modBarrier s k f).owners = s.owners := rfl
@[simp] theorem modBarrier_flying (s : State) (k : Nat) (f : Barrier → Barrier) : (modBarrier s k f).flying = s.flying := rfl
@[simp] theorem modBarrier_jobs (s : State) (k : Nat) (f : Barrier → Barrier) : (modBarrier s k f).jobs = s.jobs := rfl
@[simp] theorem modBarrier_admitted (s : State) (k : Nat) (f : Barrier → Barrier) : (modBarrier s k f).admitted = s.admitted := rfl
@[simp] theorem modBarrier_jobNo (s : State) (k : Nat) (f : Barrier → Barrier) : (modBarrier s k f).jobNo = s.jobNo := rfl
@[simp] theorem modBarrier_jobServed (s : State) (k : Nat) (f : Barrier → Barrier) : (modBarrier s k f).jobServed = s.jobServed := rfl
@[simp] theorem modBarrier_links (s : State) (k : Nat) (f : Barrier → Barrier) : (modBarrier s k f).links = s.links := rfl
@[simp] theorem modBarrier_fw (s : State) (k : Nat) (f : Barrier → Barrier) : (modBarrier s k f).fw = s.fw := rfl
@[simp] theorem modBarrier_shadow (s : State) (k : Nat) (f : Barrier → Barrier) : (modBarrier s k f).shadow = s.shadow := rfl
@[simp] theorem modBarrier_barriers (s : State) (k : Nat) (f : Barrier → Barrier) : (modBarrier s k f).barriers = put s.barriers k (f (barrierAt s k)) := rfl

/-! ### `tick` -/

@[simp] theorem tick_agenda (s : State) : (tick s).agenda = s.agenda := rfl
@[simp] theorem tick_focus (s : State) : (tick s).focus = s.focus := rfl
@[simp] theorem tick_unitNext (s : State) : (tick s).unitNext = s.unitNext := rfl
@[simp] theorem tick_rotor (s : State) : (tick s).rotor = s.rotor := rfl
@[simp] theorem tick_cells (s : State) : (tick s).cells = s.cells := rfl
@[simp] theorem tick_tasks (s : State) : (tick s).tasks = s.tasks := rfl
@[simp] theorem tick_nextTask (s : State) : (tick s).nextTask = s.nextTask := rfl
@[simp] theorem tick_parts (s : State) : (tick s).parts = s.parts := rfl
@[simp] theorem tick_barriers (s : State) : (tick s).barriers = s.barriers := rfl
@[simp] theorem tick_counters (s : State) : (tick s).counters = s.counters := rfl
@[simp] theorem tick_queues (s : State) : (tick s).queues = s.queues := rfl
@[simp] theorem tick_images (s : State) : (tick s).images = s.images := rfl
@[simp] theorem tick_caddy (s : State) : (tick s).caddy = s.caddy := rfl
@[simp] theorem tick_caddyClock (s : State) : (tick s).caddyClock = s.caddyClock := rfl
@[simp] theorem tick_mem (s : State) : (tick s).mem = s.mem := rfl
@[simp] theorem tick_remote (s : State) : (tick s).remote = s.remote := rfl
@[simp] theorem tick_poison (s : State) : (tick s).poison = s.poison := rfl
@[simp] theorem tick_heat (s : State) : (tick s).heat = s.heat := rfl
@[simp] theorem tick_heatTick (s : State) : (tick s).heatTick = s.heatTick := rfl
@[simp] theorem tick_tlb (s : State) : (tick s).tlb = s.tlb := rfl
@[simp] theorem tick_msgs (s : State) : (tick s).msgs = s.msgs := rfl
@[simp] theorem tick_resps (s : State) : (tick s).resps = s.resps := rfl
@[simp] theorem tick_nextMsg (s : State) : (tick s).nextMsg = s.nextMsg := rfl
@[simp] theorem tick_asks (s : State) : (tick s).asks = s.asks := rfl
@[simp] theorem tick_nextPerf (s : State) : (tick s).nextPerf = s.nextPerf := rfl
@[simp] theorem tick_sends (s : State) : (tick s).sends = s.sends := rfl
@[simp] theorem tick_decs (s : State) : (tick s).decs = s.decs := rfl
@[simp] theorem tick_windows (s : State) : (tick s).windows = s.windows := rfl
@[simp] theorem tick_access (s : State) : (tick s).access = s.access := rfl
@[simp] theorem tick_revocations (s : State) : (tick s).revocations = s.revocations := rfl
@[simp] theorem tick_migrations (s : State) : (tick s).migrations = s.migrations := rfl
@[simp] theorem tick_published (s : State) : (tick s).published = s.published := rfl
@[simp] theorem tick_owners (s : State) : (tick s).owners = s.owners := rfl
@[simp] theorem tick_flying (s : State) : (tick s).flying = s.flying := rfl
@[simp] theorem tick_jobs (s : State) : (tick s).jobs = s.jobs := rfl
@[simp] theorem tick_admitted (s : State) : (tick s).admitted = s.admitted := rfl
@[simp] theorem tick_jobNo (s : State) : (tick s).jobNo = s.jobNo := rfl
@[simp] theorem tick_jobServed (s : State) : (tick s).jobServed = s.jobServed := rfl
@[simp] theorem tick_links (s : State) : (tick s).links = s.links := rfl
@[simp] theorem tick_fw (s : State) : (tick s).fw = s.fw := rfl
@[simp] theorem tick_shadow (s : State) : (tick s).shadow = s.shadow := rfl
@[simp] theorem tick_now (s : State) : (tick s).now = s.now + Config.elapsed s.free := rfl
@[simp] theorem tick_free (s : State) : (tick s).free = s.free + 1 := rfl

/-! ### `modCore` -/

@[simp] theorem modCore_mem (c : Cell) (f : Core → Core) : (modCore c f).mem = c.mem := rfl
@[simp] theorem modCore_bar (c : Cell) (f : Core → Core) : (modCore c f).bar = c.bar := rfl
@[simp] theorem modCore_queues (c : Cell) (f : Core → Core) : (modCore c f).queues = c.queues := rfl
@[simp] theorem modCore_channels (c : Cell) (f : Core → Core) : (modCore c f).channels = c.channels := rfl
@[simp] theorem modCore_acc (c : Cell) (f : Core → Core) : (modCore c f).acc = c.acc := rfl
@[simp] theorem modCore_qtag (c : Cell) (f : Core → Core) : (modCore c f).qtag = c.qtag := rfl
@[simp] theorem modCore_malformed (c : Cell) (f : Core → Core) : (modCore c f).malformed = c.malformed := rfl
@[simp] theorem modCore_exitBank (c : Cell) (f : Core → Core) : (modCore c f).exitBank = c.exitBank := rfl
@[simp] theorem modCore_collar (c : Cell) (f : Core → Core) : (modCore c f).collar = c.collar := rfl
@[simp] theorem modCore_landing (c : Cell) (f : Core → Core) : (modCore c f).landing = c.landing := rfl
@[simp] theorem modCore_markers (c : Cell) (f : Core → Core) : (modCore c f).markers = c.markers := rfl
@[simp] theorem modCore_injected (c : Cell) (f : Core → Core) : (modCore c f).injected = c.injected := rfl
@[simp] theorem modCore_slotTable (c : Cell) (f : Core → Core) : (modCore c f).slotTable = c.slotTable := rfl
@[simp] theorem modCore_bag (c : Cell) (f : Core → Core) : (modCore c f).bag = c.bag := rfl
@[simp] theorem modCore_owed (c : Cell) (f : Core → Core) : (modCore c f).owed = c.owed := rfl
@[simp] theorem modCore_ends (c : Cell) (f : Core → Core) : (modCore c f).ends = c.ends := rfl
@[simp] theorem modCore_task (c : Cell) (f : Core → Core) : (modCore c f).task = c.task := rfl
@[simp] theorem modCore_part (c : Cell) (f : Core → Core) : (modCore c f).part = c.part := rfl
@[simp] theorem modCore_frozen (c : Cell) (f : Core → Core) : (modCore c f).frozen = c.frozen := rfl
@[simp] theorem modCore_frozenFault (c : Cell) (f : Core → Core) : (modCore c f).frozenFault = c.frozenFault := rfl
@[simp] theorem modCore_engineLog (c : Cell) (f : Core → Core) : (modCore c f).engineLog = c.engineLog := rfl
@[simp] theorem modCore_paused (c : Cell) (f : Core → Core) : (modCore c f).paused = c.paused := rfl
@[simp] theorem modCore_core (c : Cell) (f : Core → Core) : (modCore c f).core = f c.core := rfl

/-! ### `modMem` -/

@[simp] theorem modMem_core (c : Cell) (f : LocalMem → LocalMem) : (modMem c f).core = c.core := rfl
@[simp] theorem modMem_bar (c : Cell) (f : LocalMem → LocalMem) : (modMem c f).bar = c.bar := rfl
@[simp] theorem modMem_queues (c : Cell) (f : LocalMem → LocalMem) : (modMem c f).queues = c.queues := rfl
@[simp] theorem modMem_channels (c : Cell) (f : LocalMem → LocalMem) : (modMem c f).channels = c.channels := rfl
@[simp] theorem modMem_acc (c : Cell) (f : LocalMem → LocalMem) : (modMem c f).acc = c.acc := rfl
@[simp] theorem modMem_qtag (c : Cell) (f : LocalMem → LocalMem) : (modMem c f).qtag = c.qtag := rfl
@[simp] theorem modMem_malformed (c : Cell) (f : LocalMem → LocalMem) : (modMem c f).malformed = c.malformed := rfl
@[simp] theorem modMem_exitBank (c : Cell) (f : LocalMem → LocalMem) : (modMem c f).exitBank = c.exitBank := rfl
@[simp] theorem modMem_collar (c : Cell) (f : LocalMem → LocalMem) : (modMem c f).collar = c.collar := rfl
@[simp] theorem modMem_landing (c : Cell) (f : LocalMem → LocalMem) : (modMem c f).landing = c.landing := rfl
@[simp] theorem modMem_markers (c : Cell) (f : LocalMem → LocalMem) : (modMem c f).markers = c.markers := rfl
@[simp] theorem modMem_injected (c : Cell) (f : LocalMem → LocalMem) : (modMem c f).injected = c.injected := rfl
@[simp] theorem modMem_slotTable (c : Cell) (f : LocalMem → LocalMem) : (modMem c f).slotTable = c.slotTable := rfl
@[simp] theorem modMem_bag (c : Cell) (f : LocalMem → LocalMem) : (modMem c f).bag = c.bag := rfl
@[simp] theorem modMem_owed (c : Cell) (f : LocalMem → LocalMem) : (modMem c f).owed = c.owed := rfl
@[simp] theorem modMem_ends (c : Cell) (f : LocalMem → LocalMem) : (modMem c f).ends = c.ends := rfl
@[simp] theorem modMem_task (c : Cell) (f : LocalMem → LocalMem) : (modMem c f).task = c.task := rfl
@[simp] theorem modMem_part (c : Cell) (f : LocalMem → LocalMem) : (modMem c f).part = c.part := rfl
@[simp] theorem modMem_frozen (c : Cell) (f : LocalMem → LocalMem) : (modMem c f).frozen = c.frozen := rfl
@[simp] theorem modMem_frozenFault (c : Cell) (f : LocalMem → LocalMem) : (modMem c f).frozenFault = c.frozenFault := rfl
@[simp] theorem modMem_engineLog (c : Cell) (f : LocalMem → LocalMem) : (modMem c f).engineLog = c.engineLog := rfl
@[simp] theorem modMem_paused (c : Cell) (f : LocalMem → LocalMem) : (modMem c f).paused = c.paused := rfl
@[simp] theorem modMem_mem (c : Cell) (f : LocalMem → LocalMem) : (modMem c f).mem = f c.mem := rfl

/-! ### `setQueue` -/

@[simp] theorem setQueue_core (c : Cell) (q : BitVec 2) (e : EQueue) : (setQueue c q e).core = c.core := rfl
@[simp] theorem setQueue_mem (c : Cell) (q : BitVec 2) (e : EQueue) : (setQueue c q e).mem = c.mem := rfl
@[simp] theorem setQueue_bar (c : Cell) (q : BitVec 2) (e : EQueue) : (setQueue c q e).bar = c.bar := rfl
@[simp] theorem setQueue_channels (c : Cell) (q : BitVec 2) (e : EQueue) : (setQueue c q e).channels = c.channels := rfl
@[simp] theorem setQueue_acc (c : Cell) (q : BitVec 2) (e : EQueue) : (setQueue c q e).acc = c.acc := rfl
@[simp] theorem setQueue_qtag (c : Cell) (q : BitVec 2) (e : EQueue) : (setQueue c q e).qtag = c.qtag := rfl
@[simp] theorem setQueue_malformed (c : Cell) (q : BitVec 2) (e : EQueue) : (setQueue c q e).malformed = c.malformed := rfl
@[simp] theorem setQueue_exitBank (c : Cell) (q : BitVec 2) (e : EQueue) : (setQueue c q e).exitBank = c.exitBank := rfl
@[simp] theorem setQueue_collar (c : Cell) (q : BitVec 2) (e : EQueue) : (setQueue c q e).collar = c.collar := rfl
@[simp] theorem setQueue_landing (c : Cell) (q : BitVec 2) (e : EQueue) : (setQueue c q e).landing = c.landing := rfl
@[simp] theorem setQueue_markers (c : Cell) (q : BitVec 2) (e : EQueue) : (setQueue c q e).markers = c.markers := rfl
@[simp] theorem setQueue_injected (c : Cell) (q : BitVec 2) (e : EQueue) : (setQueue c q e).injected = c.injected := rfl
@[simp] theorem setQueue_slotTable (c : Cell) (q : BitVec 2) (e : EQueue) : (setQueue c q e).slotTable = c.slotTable := rfl
@[simp] theorem setQueue_bag (c : Cell) (q : BitVec 2) (e : EQueue) : (setQueue c q e).bag = c.bag := rfl
@[simp] theorem setQueue_owed (c : Cell) (q : BitVec 2) (e : EQueue) : (setQueue c q e).owed = c.owed := rfl
@[simp] theorem setQueue_ends (c : Cell) (q : BitVec 2) (e : EQueue) : (setQueue c q e).ends = c.ends := rfl
@[simp] theorem setQueue_task (c : Cell) (q : BitVec 2) (e : EQueue) : (setQueue c q e).task = c.task := rfl
@[simp] theorem setQueue_part (c : Cell) (q : BitVec 2) (e : EQueue) : (setQueue c q e).part = c.part := rfl
@[simp] theorem setQueue_frozen (c : Cell) (q : BitVec 2) (e : EQueue) : (setQueue c q e).frozen = c.frozen := rfl
@[simp] theorem setQueue_frozenFault (c : Cell) (q : BitVec 2) (e : EQueue) : (setQueue c q e).frozenFault = c.frozenFault := rfl
@[simp] theorem setQueue_engineLog (c : Cell) (q : BitVec 2) (e : EQueue) : (setQueue c q e).engineLog = c.engineLog := rfl
@[simp] theorem setQueue_paused (c : Cell) (q : BitVec 2) (e : EQueue) : (setQueue c q e).paused = c.paused := rfl
@[simp] theorem setQueue_queues (c : Cell) (q : BitVec 2) (e : EQueue) : (setQueue c q e).queues = c.queues.set q.toNat e q.isLt := rfl

/-! ### `modQueues` -/

@[simp] theorem modQueues_core (c : Cell) (f : EQueue → EQueue) : (modQueues c f).core = c.core := rfl
@[simp] theorem modQueues_mem (c : Cell) (f : EQueue → EQueue) : (modQueues c f).mem = c.mem := rfl
@[simp] theorem modQueues_bar (c : Cell) (f : EQueue → EQueue) : (modQueues c f).bar = c.bar := rfl
@[simp] theorem modQueues_channels (c : Cell) (f : EQueue → EQueue) : (modQueues c f).channels = c.channels := rfl
@[simp] theorem modQueues_acc (c : Cell) (f : EQueue → EQueue) : (modQueues c f).acc = c.acc := rfl
@[simp] theorem modQueues_qtag (c : Cell) (f : EQueue → EQueue) : (modQueues c f).qtag = c.qtag := rfl
@[simp] theorem modQueues_malformed (c : Cell) (f : EQueue → EQueue) : (modQueues c f).malformed = c.malformed := rfl
@[simp] theorem modQueues_exitBank (c : Cell) (f : EQueue → EQueue) : (modQueues c f).exitBank = c.exitBank := rfl
@[simp] theorem modQueues_collar (c : Cell) (f : EQueue → EQueue) : (modQueues c f).collar = c.collar := rfl
@[simp] theorem modQueues_landing (c : Cell) (f : EQueue → EQueue) : (modQueues c f).landing = c.landing := rfl
@[simp] theorem modQueues_markers (c : Cell) (f : EQueue → EQueue) : (modQueues c f).markers = c.markers := rfl
@[simp] theorem modQueues_injected (c : Cell) (f : EQueue → EQueue) : (modQueues c f).injected = c.injected := rfl
@[simp] theorem modQueues_slotTable (c : Cell) (f : EQueue → EQueue) : (modQueues c f).slotTable = c.slotTable := rfl
@[simp] theorem modQueues_bag (c : Cell) (f : EQueue → EQueue) : (modQueues c f).bag = c.bag := rfl
@[simp] theorem modQueues_owed (c : Cell) (f : EQueue → EQueue) : (modQueues c f).owed = c.owed := rfl
@[simp] theorem modQueues_ends (c : Cell) (f : EQueue → EQueue) : (modQueues c f).ends = c.ends := rfl
@[simp] theorem modQueues_task (c : Cell) (f : EQueue → EQueue) : (modQueues c f).task = c.task := rfl
@[simp] theorem modQueues_part (c : Cell) (f : EQueue → EQueue) : (modQueues c f).part = c.part := rfl
@[simp] theorem modQueues_frozen (c : Cell) (f : EQueue → EQueue) : (modQueues c f).frozen = c.frozen := rfl
@[simp] theorem modQueues_frozenFault (c : Cell) (f : EQueue → EQueue) : (modQueues c f).frozenFault = c.frozenFault := rfl
@[simp] theorem modQueues_engineLog (c : Cell) (f : EQueue → EQueue) : (modQueues c f).engineLog = c.engineLog := rfl
@[simp] theorem modQueues_paused (c : Cell) (f : EQueue → EQueue) : (modQueues c f).paused = c.paused := rfl
@[simp] theorem modQueues_queues (c : Cell) (f : EQueue → EQueue) : (modQueues c f).queues = mapAll f c.queues := rfl

/-! ### `advance` -/

@[simp] theorem advance_mem (y : Bool) (c : Cell) : (advance y c).mem = c.mem := rfl
@[simp] theorem advance_bar (y : Bool) (c : Cell) : (advance y c).bar = c.bar := rfl
@[simp] theorem advance_queues (y : Bool) (c : Cell) : (advance y c).queues = c.queues := rfl
@[simp] theorem advance_channels (y : Bool) (c : Cell) : (advance y c).channels = c.channels := rfl
@[simp] theorem advance_acc (y : Bool) (c : Cell) : (advance y c).acc = c.acc := rfl
@[simp] theorem advance_qtag (y : Bool) (c : Cell) : (advance y c).qtag = c.qtag := rfl
@[simp] theorem advance_malformed (y : Bool) (c : Cell) : (advance y c).malformed = c.malformed := rfl
@[simp] theorem advance_exitBank (y : Bool) (c : Cell) : (advance y c).exitBank = c.exitBank := rfl
@[simp] theorem advance_collar (y : Bool) (c : Cell) : (advance y c).collar = c.collar := rfl
@[simp] theorem advance_landing (y : Bool) (c : Cell) : (advance y c).landing = c.landing := rfl
@[simp] theorem advance_markers (y : Bool) (c : Cell) : (advance y c).markers = c.markers := rfl
@[simp] theorem advance_injected (y : Bool) (c : Cell) : (advance y c).injected = c.injected := rfl
@[simp] theorem advance_slotTable (y : Bool) (c : Cell) : (advance y c).slotTable = c.slotTable := rfl
@[simp] theorem advance_bag (y : Bool) (c : Cell) : (advance y c).bag = c.bag := rfl
@[simp] theorem advance_owed (y : Bool) (c : Cell) : (advance y c).owed = c.owed := rfl
@[simp] theorem advance_ends (y : Bool) (c : Cell) : (advance y c).ends = c.ends := rfl
@[simp] theorem advance_task (y : Bool) (c : Cell) : (advance y c).task = c.task := rfl
@[simp] theorem advance_part (y : Bool) (c : Cell) : (advance y c).part = c.part := rfl
@[simp] theorem advance_frozen (y : Bool) (c : Cell) : (advance y c).frozen = c.frozen := rfl
@[simp] theorem advance_frozenFault (y : Bool) (c : Cell) : (advance y c).frozenFault = c.frozenFault := rfl
@[simp] theorem advance_engineLog (y : Bool) (c : Cell) : (advance y c).engineLog = c.engineLog := rfl
@[simp] theorem advance_paused (y : Bool) (c : Cell) : (advance y c).paused = c.paused := rfl
@[simp] theorem advance_core (y : Bool) (c : Cell) : (advance y c).core = setPlace c.core y (getPlace c.core y + 4) := rfl

/-! ### `setPlace_execute` -/

@[simp] theorem setPlace_execute_regsE (k : Core) (p : Word) : (setPlace k false p).regsE = k.regsE := rfl
@[simp] theorem setPlace_execute_regsA (k : Core) (p : Word) : (setPlace k false p).regsA = k.regsA := rfl
@[simp] theorem setPlace_execute_pcA (k : Core) (p : Word) : (setPlace k false p).pcA = k.pcA := rfl
@[simp] theorem setPlace_execute_brE (k : Core) (p : Word) : (setPlace k false p).brE = k.brE := rfl
@[simp] theorem setPlace_execute_brA (k : Core) (p : Word) : (setPlace k false p).brA = k.brA := rfl
@[simp] theorem setPlace_execute_hm (k : Core) (p : Word) : (setPlace k false p).hm = k.hm := rfl
@[simp] theorem setPlace_execute_halted (k : Core) (p : Word) : (setPlace k false p).halted = k.halted := rfl
@[simp] theorem setPlace_execute_ldq (k : Core) (p : Word) : (setPlace k false p).ldq = k.ldq := rfl
@[simp] theorem setPlace_execute_eaq (k : Core) (p : Word) : (setPlace k false p).eaq = k.eaq := rfl
@[simp] theorem setPlace_execute_boq (k : Core) (p : Word) : (setPlace k false p).boq = k.boq := rfl
@[simp] theorem setPlace_execute_path (k : Core) (p : Word) : (setPlace k false p).path = k.path := rfl
@[simp] theorem setPlace_execute_busy (k : Core) (p : Word) : (setPlace k false p).busy = k.busy := rfl
@[simp] theorem setPlace_execute_barPhase (k : Core) (p : Word) : (setPlace k false p).barPhase = k.barPhase := rfl
@[simp] theorem setPlace_execute_tokWait (k : Core) (p : Word) : (setPlace k false p).tokWait = k.tokWait := rfl
@[simp] theorem setPlace_execute_save (k : Core) (p : Word) : (setPlace k false p).save = k.save := rfl
@[simp] theorem setPlace_execute_handles (k : Core) (p : Word) : (setPlace k false p).handles = k.handles := rfl
@[simp] theorem setPlace_execute_windows (k : Core) (p : Word) : (setPlace k false p).windows = k.windows := rfl
@[simp] theorem setPlace_execute_masks (k : Core) (p : Word) : (setPlace k false p).masks = k.masks := rfl
@[simp] theorem setPlace_execute_tokens (k : Core) (p : Word) : (setPlace k false p).tokens = k.tokens := rfl
@[simp] theorem setPlace_execute_sr (k : Core) (p : Word) : (setPlace k false p).sr = k.sr := rfl
@[simp] theorem setPlace_execute_trap (k : Core) (p : Word) : (setPlace k false p).trap = k.trap := rfl
@[simp] theorem setPlace_execute_trapAt (k : Core) (p : Word) : (setPlace k false p).trapAt = k.trapAt := rfl
@[simp] theorem setPlace_execute_run (k : Core) (p : Word) : (setPlace k false p).run = k.run := rfl
@[simp] theorem setPlace_execute_held (k : Core) (p : Word) : (setPlace k false p).held = k.held := rfl
@[simp] theorem setPlace_execute_exitBit (k : Core) (p : Word) : (setPlace k false p).exitBit = k.exitBit := rfl
@[simp] theorem setPlace_execute_slots (k : Core) (p : Word) : (setPlace k false p).slots = k.slots := rfl
@[simp] theorem setPlace_execute_credits (k : Core) (p : Word) : (setPlace k false p).credits = k.credits := rfl
@[simp] theorem setPlace_execute_refusedLoads (k : Core) (p : Word) : (setPlace k false p).refusedLoads = k.refusedLoads := rfl
@[simp] theorem setPlace_execute_stopIssue (k : Core) (p : Word) : (setPlace k false p).stopIssue = k.stopIssue := rfl
@[simp] theorem setPlace_execute_recent (k : Core) (p : Word) : (setPlace k false p).recent = k.recent := rfl
@[simp] theorem setPlace_execute_fired (k : Core) (p : Word) : (setPlace k false p).fired = k.fired := rfl
@[simp] theorem setPlace_execute_pcE (k : Core) (p : Word) : (setPlace k false p).pcE = p := rfl

/-! ### `setPlace_access` -/

@[simp] theorem setPlace_access_regsE (k : Core) (p : Word) : (setPlace k true p).regsE = k.regsE := rfl
@[simp] theorem setPlace_access_regsA (k : Core) (p : Word) : (setPlace k true p).regsA = k.regsA := rfl
@[simp] theorem setPlace_access_pcE (k : Core) (p : Word) : (setPlace k true p).pcE = k.pcE := rfl
@[simp] theorem setPlace_access_brE (k : Core) (p : Word) : (setPlace k true p).brE = k.brE := rfl
@[simp] theorem setPlace_access_brA (k : Core) (p : Word) : (setPlace k true p).brA = k.brA := rfl
@[simp] theorem setPlace_access_hm (k : Core) (p : Word) : (setPlace k true p).hm = k.hm := rfl
@[simp] theorem setPlace_access_halted (k : Core) (p : Word) : (setPlace k true p).halted = k.halted := rfl
@[simp] theorem setPlace_access_ldq (k : Core) (p : Word) : (setPlace k true p).ldq = k.ldq := rfl
@[simp] theorem setPlace_access_eaq (k : Core) (p : Word) : (setPlace k true p).eaq = k.eaq := rfl
@[simp] theorem setPlace_access_boq (k : Core) (p : Word) : (setPlace k true p).boq = k.boq := rfl
@[simp] theorem setPlace_access_path (k : Core) (p : Word) : (setPlace k true p).path = k.path := rfl
@[simp] theorem setPlace_access_busy (k : Core) (p : Word) : (setPlace k true p).busy = k.busy := rfl
@[simp] theorem setPlace_access_barPhase (k : Core) (p : Word) : (setPlace k true p).barPhase = k.barPhase := rfl
@[simp] theorem setPlace_access_tokWait (k : Core) (p : Word) : (setPlace k true p).tokWait = k.tokWait := rfl
@[simp] theorem setPlace_access_save (k : Core) (p : Word) : (setPlace k true p).save = k.save := rfl
@[simp] theorem setPlace_access_handles (k : Core) (p : Word) : (setPlace k true p).handles = k.handles := rfl
@[simp] theorem setPlace_access_windows (k : Core) (p : Word) : (setPlace k true p).windows = k.windows := rfl
@[simp] theorem setPlace_access_masks (k : Core) (p : Word) : (setPlace k true p).masks = k.masks := rfl
@[simp] theorem setPlace_access_tokens (k : Core) (p : Word) : (setPlace k true p).tokens = k.tokens := rfl
@[simp] theorem setPlace_access_sr (k : Core) (p : Word) : (setPlace k true p).sr = k.sr := rfl
@[simp] theorem setPlace_access_trap (k : Core) (p : Word) : (setPlace k true p).trap = k.trap := rfl
@[simp] theorem setPlace_access_trapAt (k : Core) (p : Word) : (setPlace k true p).trapAt = k.trapAt := rfl
@[simp] theorem setPlace_access_run (k : Core) (p : Word) : (setPlace k true p).run = k.run := rfl
@[simp] theorem setPlace_access_held (k : Core) (p : Word) : (setPlace k true p).held = k.held := rfl
@[simp] theorem setPlace_access_exitBit (k : Core) (p : Word) : (setPlace k true p).exitBit = k.exitBit := rfl
@[simp] theorem setPlace_access_slots (k : Core) (p : Word) : (setPlace k true p).slots = k.slots := rfl
@[simp] theorem setPlace_access_credits (k : Core) (p : Word) : (setPlace k true p).credits = k.credits := rfl
@[simp] theorem setPlace_access_refusedLoads (k : Core) (p : Word) : (setPlace k true p).refusedLoads = k.refusedLoads := rfl
@[simp] theorem setPlace_access_stopIssue (k : Core) (p : Word) : (setPlace k true p).stopIssue = k.stopIssue := rfl
@[simp] theorem setPlace_access_recent (k : Core) (p : Word) : (setPlace k true p).recent = k.recent := rfl
@[simp] theorem setPlace_access_fired (k : Core) (p : Word) : (setPlace k true p).fired = k.fired := rfl
@[simp] theorem setPlace_access_pcA (k : Core) (p : Word) : (setPlace k true p).pcA = p := rfl

/-! ### `setToken` -/

@[simp] theorem setToken_regsE (k : Core) (t : BitVec 6) (v : Token) : (setToken k t v).regsE = k.regsE := rfl
@[simp] theorem setToken_regsA (k : Core) (t : BitVec 6) (v : Token) : (setToken k t v).regsA = k.regsA := rfl
@[simp] theorem setToken_pcE (k : Core) (t : BitVec 6) (v : Token) : (setToken k t v).pcE = k.pcE := rfl
@[simp] theorem setToken_pcA (k : Core) (t : BitVec 6) (v : Token) : (setToken k t v).pcA = k.pcA := rfl
@[simp] theorem setToken_brE (k : Core) (t : BitVec 6) (v : Token) : (setToken k t v).brE = k.brE := rfl
@[simp] theorem setToken_brA (k : Core) (t : BitVec 6) (v : Token) : (setToken k t v).brA = k.brA := rfl
@[simp] theorem setToken_hm (k : Core) (t : BitVec 6) (v : Token) : (setToken k t v).hm = k.hm := rfl
@[simp] theorem setToken_halted (k : Core) (t : BitVec 6) (v : Token) : (setToken k t v).halted = k.halted := rfl
@[simp] theorem setToken_ldq (k : Core) (t : BitVec 6) (v : Token) : (setToken k t v).ldq = k.ldq := rfl
@[simp] theorem setToken_eaq (k : Core) (t : BitVec 6) (v : Token) : (setToken k t v).eaq = k.eaq := rfl
@[simp] theorem setToken_boq (k : Core) (t : BitVec 6) (v : Token) : (setToken k t v).boq = k.boq := rfl
@[simp] theorem setToken_path (k : Core) (t : BitVec 6) (v : Token) : (setToken k t v).path = k.path := rfl
@[simp] theorem setToken_busy (k : Core) (t : BitVec 6) (v : Token) : (setToken k t v).busy = k.busy := rfl
@[simp] theorem setToken_barPhase (k : Core) (t : BitVec 6) (v : Token) : (setToken k t v).barPhase = k.barPhase := rfl
@[simp] theorem setToken_tokWait (k : Core) (t : BitVec 6) (v : Token) : (setToken k t v).tokWait = k.tokWait := rfl
@[simp] theorem setToken_save (k : Core) (t : BitVec 6) (v : Token) : (setToken k t v).save = k.save := rfl
@[simp] theorem setToken_handles (k : Core) (t : BitVec 6) (v : Token) : (setToken k t v).handles = k.handles := rfl
@[simp] theorem setToken_windows (k : Core) (t : BitVec 6) (v : Token) : (setToken k t v).windows = k.windows := rfl
@[simp] theorem setToken_masks (k : Core) (t : BitVec 6) (v : Token) : (setToken k t v).masks = k.masks := rfl
@[simp] theorem setToken_sr (k : Core) (t : BitVec 6) (v : Token) : (setToken k t v).sr = k.sr := rfl
@[simp] theorem setToken_trap (k : Core) (t : BitVec 6) (v : Token) : (setToken k t v).trap = k.trap := rfl
@[simp] theorem setToken_trapAt (k : Core) (t : BitVec 6) (v : Token) : (setToken k t v).trapAt = k.trapAt := rfl
@[simp] theorem setToken_run (k : Core) (t : BitVec 6) (v : Token) : (setToken k t v).run = k.run := rfl
@[simp] theorem setToken_held (k : Core) (t : BitVec 6) (v : Token) : (setToken k t v).held = k.held := rfl
@[simp] theorem setToken_exitBit (k : Core) (t : BitVec 6) (v : Token) : (setToken k t v).exitBit = k.exitBit := rfl
@[simp] theorem setToken_slots (k : Core) (t : BitVec 6) (v : Token) : (setToken k t v).slots = k.slots := rfl
@[simp] theorem setToken_credits (k : Core) (t : BitVec 6) (v : Token) : (setToken k t v).credits = k.credits := rfl
@[simp] theorem setToken_refusedLoads (k : Core) (t : BitVec 6) (v : Token) : (setToken k t v).refusedLoads = k.refusedLoads := rfl
@[simp] theorem setToken_stopIssue (k : Core) (t : BitVec 6) (v : Token) : (setToken k t v).stopIssue = k.stopIssue := rfl
@[simp] theorem setToken_recent (k : Core) (t : BitVec 6) (v : Token) : (setToken k t v).recent = k.recent := rfl
@[simp] theorem setToken_fired (k : Core) (t : BitVec 6) (v : Token) : (setToken k t v).fired = k.fired := rfl
@[simp] theorem setToken_tokens (k : Core) (t : BitVec 6) (v : Token) : (setToken k t v).tokens = k.tokens.set t.toNat v t.isLt := rfl

/-! ### Registers -/

@[simp] theorem setReg_zero (k : Core) (y : Bool) (v : Word) : setReg k y 0#5 v = k := rfl

@[simp] theorem getReg_zero (k : Core) (y : Bool) : getReg k y 0#5 = 0 := rfl

/-- A register reads back as it was written (R6, R7). -/
theorem getReg_setReg_same (k : Core) (y : Bool) (r : BitVec 5) (v : Word) (h : r ≠ 0) : getReg (setReg k y r v) y r = v := by
  unfold getReg setReg
  rw [if_neg h, if_neg h]
  cases y <;> simp

/-- A write leaves every other register of both files alone (R6). -/
theorem getReg_setReg_other (k : Core) (y z : Bool) (r t : BitVec 5) (v : Word) (h : z ≠ y ∨ t ≠ r) :
    getReg (setReg k y r v) z t = getReg k z t := by
  unfold getReg
  by_cases ht : t = 0
  · rw [if_pos ht, if_pos ht]
  rw [if_neg ht, if_neg ht]
  unfold setReg
  by_cases h0 : r = 0
  · rw [if_pos h0]
  rw [if_neg h0]
  have hn : t ≠ r → r.toNat ≠ t.toNat := fun e e' => e (BitVec.eq_of_toNat_eq e'.symm)
  cases y <;> cases z <;> simp_all

@[simp] theorem setReg_pcE (k : Core) (y : Bool) (r : BitVec 5) (v : Word) : (setReg k y r v).pcE = k.pcE := by
  unfold setReg; split <;> [rfl; (split <;> rfl)]
@[simp] theorem setReg_pcA (k : Core) (y : Bool) (r : BitVec 5) (v : Word) : (setReg k y r v).pcA = k.pcA := by
  unfold setReg; split <;> [rfl; (split <;> rfl)]
@[simp] theorem setReg_brE (k : Core) (y : Bool) (r : BitVec 5) (v : Word) : (setReg k y r v).brE = k.brE := by
  unfold setReg; split <;> [rfl; (split <;> rfl)]
@[simp] theorem setReg_brA (k : Core) (y : Bool) (r : BitVec 5) (v : Word) : (setReg k y r v).brA = k.brA := by
  unfold setReg; split <;> [rfl; (split <;> rfl)]
@[simp] theorem setReg_hm (k : Core) (y : Bool) (r : BitVec 5) (v : Word) : (setReg k y r v).hm = k.hm := by
  unfold setReg; split <;> [rfl; (split <;> rfl)]
@[simp] theorem setReg_halted (k : Core) (y : Bool) (r : BitVec 5) (v : Word) : (setReg k y r v).halted = k.halted := by
  unfold setReg; split <;> [rfl; (split <;> rfl)]
@[simp] theorem setReg_ldq (k : Core) (y : Bool) (r : BitVec 5) (v : Word) : (setReg k y r v).ldq = k.ldq := by
  unfold setReg; split <;> [rfl; (split <;> rfl)]
@[simp] theorem setReg_eaq (k : Core) (y : Bool) (r : BitVec 5) (v : Word) : (setReg k y r v).eaq = k.eaq := by
  unfold setReg; split <;> [rfl; (split <;> rfl)]
@[simp] theorem setReg_boq (k : Core) (y : Bool) (r : BitVec 5) (v : Word) : (setReg k y r v).boq = k.boq := by
  unfold setReg; split <;> [rfl; (split <;> rfl)]
@[simp] theorem setReg_path (k : Core) (y : Bool) (r : BitVec 5) (v : Word) : (setReg k y r v).path = k.path := by
  unfold setReg; split <;> [rfl; (split <;> rfl)]
@[simp] theorem setReg_busy (k : Core) (y : Bool) (r : BitVec 5) (v : Word) : (setReg k y r v).busy = k.busy := by
  unfold setReg; split <;> [rfl; (split <;> rfl)]
@[simp] theorem setReg_barPhase (k : Core) (y : Bool) (r : BitVec 5) (v : Word) : (setReg k y r v).barPhase = k.barPhase := by
  unfold setReg; split <;> [rfl; (split <;> rfl)]
@[simp] theorem setReg_tokWait (k : Core) (y : Bool) (r : BitVec 5) (v : Word) : (setReg k y r v).tokWait = k.tokWait := by
  unfold setReg; split <;> [rfl; (split <;> rfl)]
@[simp] theorem setReg_save (k : Core) (y : Bool) (r : BitVec 5) (v : Word) : (setReg k y r v).save = k.save := by
  unfold setReg; split <;> [rfl; (split <;> rfl)]
@[simp] theorem setReg_handles (k : Core) (y : Bool) (r : BitVec 5) (v : Word) : (setReg k y r v).handles = k.handles := by
  unfold setReg; split <;> [rfl; (split <;> rfl)]
@[simp] theorem setReg_windows (k : Core) (y : Bool) (r : BitVec 5) (v : Word) : (setReg k y r v).windows = k.windows := by
  unfold setReg; split <;> [rfl; (split <;> rfl)]
@[simp] theorem setReg_masks (k : Core) (y : Bool) (r : BitVec 5) (v : Word) : (setReg k y r v).masks = k.masks := by
  unfold setReg; split <;> [rfl; (split <;> rfl)]
@[simp] theorem setReg_tokens (k : Core) (y : Bool) (r : BitVec 5) (v : Word) : (setReg k y r v).tokens = k.tokens := by
  unfold setReg; split <;> [rfl; (split <;> rfl)]
@[simp] theorem setReg_sr (k : Core) (y : Bool) (r : BitVec 5) (v : Word) : (setReg k y r v).sr = k.sr := by
  unfold setReg; split <;> [rfl; (split <;> rfl)]
@[simp] theorem setReg_trap (k : Core) (y : Bool) (r : BitVec 5) (v : Word) : (setReg k y r v).trap = k.trap := by
  unfold setReg; split <;> [rfl; (split <;> rfl)]
@[simp] theorem setReg_trapAt (k : Core) (y : Bool) (r : BitVec 5) (v : Word) : (setReg k y r v).trapAt = k.trapAt := by
  unfold setReg; split <;> [rfl; (split <;> rfl)]
@[simp] theorem setReg_run (k : Core) (y : Bool) (r : BitVec 5) (v : Word) : (setReg k y r v).run = k.run := by
  unfold setReg; split <;> [rfl; (split <;> rfl)]
@[simp] theorem setReg_held (k : Core) (y : Bool) (r : BitVec 5) (v : Word) : (setReg k y r v).held = k.held := by
  unfold setReg; split <;> [rfl; (split <;> rfl)]
@[simp] theorem setReg_exitBit (k : Core) (y : Bool) (r : BitVec 5) (v : Word) : (setReg k y r v).exitBit = k.exitBit := by
  unfold setReg; split <;> [rfl; (split <;> rfl)]
@[simp] theorem setReg_slots (k : Core) (y : Bool) (r : BitVec 5) (v : Word) : (setReg k y r v).slots = k.slots := by
  unfold setReg; split <;> [rfl; (split <;> rfl)]
@[simp] theorem setReg_credits (k : Core) (y : Bool) (r : BitVec 5) (v : Word) : (setReg k y r v).credits = k.credits := by
  unfold setReg; split <;> [rfl; (split <;> rfl)]
@[simp] theorem setReg_refusedLoads (k : Core) (y : Bool) (r : BitVec 5) (v : Word) : (setReg k y r v).refusedLoads = k.refusedLoads := by
  unfold setReg; split <;> [rfl; (split <;> rfl)]
@[simp] theorem setReg_stopIssue (k : Core) (y : Bool) (r : BitVec 5) (v : Word) : (setReg k y r v).stopIssue = k.stopIssue := by
  unfold setReg; split <;> [rfl; (split <;> rfl)]
@[simp] theorem setReg_recent (k : Core) (y : Bool) (r : BitVec 5) (v : Word) : (setReg k y r v).recent = k.recent := by
  unfold setReg; split <;> [rfl; (split <;> rfl)]
@[simp] theorem setReg_fired (k : Core) (y : Bool) (r : BitVec 5) (v : Word) : (setReg k y r v).fired = k.fired := by
  unfold setReg; split <;> [rfl; (split <;> rfl)]

/-! ### Reset -/

@[simp] theorem reset_mem : State.reset.mem = [] := rfl
@[simp] theorem reset_remote : State.reset.remote = [] := rfl
@[simp] theorem reset_cells : State.reset.cells = [] := rfl

/-- Every memory of the package is in canonical form after reset. -/
theorem reset_mem_wf : Memory.wf State.reset.mem = true ∧ Memory.wf State.reset.remote = true := ⟨rfl, rfl⟩

/-- Every memory of a cell is in canonical form at a task start. -/
theorem fresh_mem_wf : Memory.wf Cell.fresh.mem.scratch = true ∧ Memory.wf Cell.fresh.mem.code = true ∧
    Memory.wf Cell.fresh.mem.uniform = true ∧ Memory.wf Cell.fresh.collar.store = true := ⟨rfl, rfl, rfl, rfl⟩

end Sys2Proof.Laws
end

