-- ==== Sys2Proof/Safety.lean ====
section
/-! DEFINITION. What counts as a safe run, in the terms that claims use, and the words that claims share: what a stream
reads from a register, where a result goes, what a decided branch does. -/

namespace Sys2Proof

open Machine

/-! ### Runs -/

/-- The machine goes on from a state: its next step neither faults nor is refused. -/
def GoesOn (s : State) : Prop := ∃ t, step s = .next t

/-- An outcome that is no refusal. -/
def NotRefused (o : Host.Outcome State Fault Refusal) : Prop := ∀ r, o ≠ .refused r

/-- The stores of a context are in canonical form: scratch, context store, accumulator and vector registers. -/
def CellCanonical (c : Cell) : Prop :=
  Memory.wf c.mem.scratch = true ∧ Memory.wf c.collar.store = true ∧ canon 0 c.acc = true ∧ canon 0 c.collar.vreg = true

/-- Every memory is in canonical form: the package's, the part of the other packages' that this one knows, and the stores of
every context, on a cell, saved or swapped out. -/
def MemoryCanonical (s : State) : Prop :=
  Memory.wf s.mem = true ∧ Memory.wf s.remote = true ∧ (∀ x ∈ s.cells, CellCanonical x.2) ∧
  (∀ x ∈ s.tasks, ∀ c ∈ x.2.frames, CellCanonical c) ∧ ∀ x ∈ s.shadow, ∀ y ∈ x.2, CellCanonical y.2

/-! ### The words of claims about an instruction -/

/-- The cell whose unit has its turn is `c`, and its stream `y` may issue. -/
def Ready (s : State) (y : Bool) (c : Cell) : Prop := look s.cells s.focus.cell = some c ∧ streamRuns c y = true

/-- The instruction ends with the cell that runs it at `c`, and nothing outside that cell changed. -/
def EndsAt (i : Instr) (s : State) (c : Cell) : Prop := exec i s = .next (setCell s s.focus.cell c)

/-- What the execute stream takes from the LDQ: the next value of the oldest entry, when that entry is filled; the entry
goes with its last value (R9, R79, R191). -/
def fromLdq (c : Cell) : Option (Word × Cell) :=
  match c.core.ldq with
  | ⟨n, true, v :: vs, slot⟩ :: es =>
    some (v,
      match vs with
      | [] => { c with core := { c.core with ldq := es, slots := if slot then c.core.slots - 1 else c.core.slots } }
      | _ => { c with core := { c.core with ldq := ⟨n, true, vs, slot⟩ :: es } })
  | _ => none

/-- What stream `y` reads from register r, and the cell after the read; none while the stream waits for the value, or
where r is no source of this stream (R7, R9, R49). -/
def sourceOf (y : Bool) (r : BitVec 5) (c : Cell) : Option (Word × Cell) :=
  match y with
  | false => if r = 31 then none else if r = 30 then fromLdq c else some (getReg c.core false r, c)
  | true =>
    if r = 30 then none
    else if r = 31 then
      match c.core.eaq with
      | [] => none
      | v :: vs => some (v, { c with core := { c.core with eaq := vs } })
    else if bit c.core.busy r.toNat then none
    else some (getReg c.core true r, c)

/-- The cell after stream `y` has written v to register d; none while the write waits, or where d is no destination of
this stream (R7, R9, R79, R80). -/
def destOf (y : Bool) (d : BitVec 5) (v : Word) (c : Cell) : Option Cell :=
  match y with
  | false =>
    if d = 30 then none
    else if d = 31 then
      if c.core.eaq.length < 16 ∧ storesBuffered c false = false then
        some { c with core := { c.core with eaq := c.core.eaq ++ [v] } }
      else none
    else some { c with core := setReg c.core false d v }
  | true =>
    if d = 31 then none
    else if d = 30 then
      if c.core.ldq.length < 32 ∧ storesBuffered c true = false then
        some { c with core := { c.core with ldq := c.core.ldq ++ [⟨0, true, [v], false⟩] } }
      else none
    else if bit c.core.busy d.toNat then none
    else some { c with core := setReg c.core true d v }

/-- The cell after stream `y` has decided a branch: the stream stands at the target or at the next instruction, and the
outcome waits for the other stream; none while it waits for room (R77). -/
def decided (y : Bool) (taken : Bool) (target : Word) (c : Cell) : Option Cell :=
  let place := if taken then target else getPlace c.core y + 4
  if storesBuffered c y then none
  else
    match y with
    | false =>
      if c.core.path.all (· == .pass) then
        some { c with core := { c.core with path := c.core.path ++ [.outcome ⟨taken, target⟩], pcE := place, brE := c.core.brE + 1 } }
      else none
    | true =>
      if c.core.boq.length < 16 then
        some { c with core := { c.core with boq := c.core.boq ++ [⟨taken, target⟩], pcA := place, brA := c.core.brA + 1 } }
      else none

end Sys2Proof
end

