-- ==== Sys2Proof/Laws/Ops.lean ====
section
/-! SUPPORT. One law per shared operation: everything that reading a register, writing one, deciding a branch and running
an instruction can do. -/

namespace Sys2Proof.Laws

open Sys2Proof.Machine

/-- What `popLdq` does. -/
theorem popLdq_eq (c : Cell) (k : Word → Cell → Res) :
    popLdq c k = match fromLdq c with
      | some (v, c') => k v c'
      | none => .wait := by
  unfold popLdq fromLdq
  cases c.core.ldq with
  | nil => rfl
  | cons e es =>
    obtain ⟨n, f, vs, slot⟩ := e
    cases f with
    | false => simp
    | true =>
      match vs with
      | [] => rfl
      | [v] => rfl
      | v :: w :: us => rfl

/-- What `readReg` does: the value and the cell of `sourceOf`; else it waits, or traps on a port that is no source. -/
theorem readReg_eq (y : Bool) (r : BitVec 5) (c : Cell) (k : Word → Cell → Res) :
    readReg y r c k = match sourceOf y r c with
      | some (v, c') => k v c'
      | none => if srcOk y r then .wait else .trap illegalTrap := by
  unfold readReg sourceOf
  cases y with
  | false =>
    by_cases h31 : r = 31#5
    · subst h31; rfl
    have hs : srcOk false r = true := by simpa [srcOk] using h31
    by_cases h30 : r = 30#5
    · subst h30
      simp only [popLdq_eq]
      cases fromLdq c <;> rfl
    · simp [hs, h31, h30]
  | true =>
    by_cases h30 : r = 30#5
    · subst h30; rfl
    have hs : srcOk true r = true := by simpa [srcOk] using h30
    by_cases h31 : r = 31#5
    · subst h31
      simp only [hs]
      cases c.core.eaq <;> rfl
    · by_cases hb : bit c.core.busy r.toNat <;> simp [hs, h31, h30, hb]

theorem readReg_some {y : Bool} {r : BitVec 5} {c c' : Cell} {v : Word} (k : Word → Cell → Res)
    (h : sourceOf y r c = some (v, c')) : readReg y r c k = k v c' := by
  rw [readReg_eq, h]

/-- A read goes on only with the value and the cell of `sourceOf`. -/
theorem readReg_done {y : Bool} {r : BitVec 5} {c : Cell} {k : Word → Cell → Res} {t : State}
    (h : readReg y r c k = .done t) : ∃ v c', sourceOf y r c = some (v, c') ∧ k v c' = .done t := by
  rw [readReg_eq] at h
  cases hs : sourceOf y r c with
  | some p => exact ⟨p.1, p.2, rfl, by simpa [hs] using h⟩
  | none => simp only [hs] at h; split at h <;> cases h

/-- What `writeReg` does: the cell of `destOf`; else it waits, or traps on a port that is no destination. -/
theorem writeReg_eq (y : Bool) (d : BitVec 5) (v : Word) (c : Cell) (k : Cell → Res) :
    writeReg y d v c k = match destOf y d v c with
      | some c' => k c'
      | none => if dstOk y d then .wait else .trap illegalTrap := by
  unfold writeReg destOf
  cases y with
  | false =>
    by_cases h30 : d = 30#5
    · subst h30; rfl
    have hd : dstOk false d = true := by simpa [dstOk] using h30
    by_cases h31 : d = 31#5
    · subst h31
      by_cases hl : c.core.eaq.length < 16 <;> by_cases hb : storesBuffered c false = true
      all_goals simp [hd, hl, hb, modCore]
    · simp [hd, h31, h30, modCore]
  | true =>
    by_cases h31 : d = 31#5
    · subst h31; rfl
    have hd : dstOk true d = true := by simpa [dstOk] using h31
    by_cases h30 : d = 30#5
    · subst h30
      by_cases hl : c.core.ldq.length < 32 <;> by_cases hb : storesBuffered c true = true
      all_goals simp [hd, hl, hb, modCore]
    · by_cases hb : bit c.core.busy d.toNat <;> simp [hd, h31, h30, hb, modCore]

theorem writeReg_some {y : Bool} {d : BitVec 5} {v : Word} {c c' : Cell} (k : Cell → Res) (h : destOf y d v c = some c') :
    writeReg y d v c k = k c' := by
  rw [writeReg_eq, h]

/-- A write goes on only with the cell of `destOf`. -/
theorem writeReg_done {y : Bool} {d : BitVec 5} {v : Word} {c : Cell} {k : Cell → Res} {t : State}
    (h : writeReg y d v c k = .done t) : ∃ c', destOf y d v c = some c' ∧ k c' = .done t := by
  rw [writeReg_eq] at h
  cases hs : destOf y d v c with
  | some c' => exact ⟨c', rfl, by simpa [hs] using h⟩
  | none => simp only [hs] at h; split at h <;> cases h

theorem any_outcome_eq (ps : List PathItem) :
    ps.any (fun p => match p with | .outcome _ => true | .pass => false) = !ps.all (· == .pass) := by
  induction ps with
  | nil => rfl
  | cons p ps ih =>
    cases p with
    | pass => simpa using ih
    | outcome o => simp

/-- What `decide_` does: the cell of `decided`, else it waits. -/
theorem decide_eq' (y taken : Bool) (target : Word) (c : Cell) (k : Cell → Res) :
    decide_ y taken target c k = match decided y taken target c with
      | some c' => k c'
      | none => .wait := by
  unfold decide_ decided
  by_cases hb : storesBuffered c y = true
  · simp [hb]
  cases y with
  | false =>
    simp only [hb, Bool.false_eq_true, if_false]
    split
    · rename_i hp
      have : c.core.path.all (· == .pass) = false := by simpa using (any_outcome_eq _).symm.trans hp
      simp [this]
    · rename_i hp
      have : c.core.path.all (· == .pass) = true := by
        have e := any_outcome_eq c.core.path
        by_contra hn
        exact hp (e.trans (by rw [Bool.not_eq_true] at hn; rw [hn]; rfl))
      simp [this, follow, modCore]
  | true =>
    by_cases hl : c.core.boq.length < 16
    · have : ¬ 16 ≤ c.core.boq.length := by omega
      simp [hb, hl, this, follow, modCore]
    · have : 16 ≤ c.core.boq.length := by omega
      simp [hb, hl, this]

/-- An instruction of a stream that may issue does what its meaning says; one that waits changes nothing; one that traps
raises the trap with its unit and its word (R18). -/
theorem runCore_eq {s : State} {y : Bool} {c : Cell} (h : Ready s y c) (i : Instr) (body : State → Nat → Cell → Res) :
    runCore i y body s = match body s s.focus.cell c with
      | .done t => .next t
      | .wait => .next s
      | .trap t => .next (raise s s.focus.cell { t with unit := streamUnit y, word := coreWord i }) := by
  unfold runCore
  rw [h.1]
  simp only [h.2, if_true]
  all_goals (cases body s s.focus.cell c <;> rfl)

theorem runCore_done {s : State} {y : Bool} {c : Cell} (h : Ready s y c) {i : Instr} {body : State → Nat → Cell → Res} {t : State}
    (hb : body s s.focus.cell c = .done t) : runCore i y body s = .next t := by
  rw [runCore_eq h, hb]

/-- An instruction of a stream always ends in a next state. -/
theorem runCore_next (i : Instr) (y : Bool) (body : State → Nat → Cell → Res) (s : State) :
    ∃ t, runCore i y body s = .next t := by
  unfold runCore
  split
  · exact ⟨_, rfl⟩
  · split
    · split <;> exact ⟨_, rfl⟩
    · exact ⟨_, rfl⟩

/-- A step that is due or not always ends in a next state. -/
theorem settle_next (s : State) (r : Option State) : ∃ t, settle s r = .next t := ⟨_, rfl⟩

/-- Firmware of a device that has not booted does nothing (R404). -/
theorem settle_ofFirmware_idle {s : State} (h : s.fw.booted = false) (r : Option State) : settle s (ofFirmware s r) = .next s := by
  simp [settle, ofFirmware, h]

/-- Once it has booted an act of firmware is the act itself (R404). -/
theorem settle_ofFirmware_runs {s : State} (h : s.fw.booted = true) (r : Option State) : settle s (ofFirmware s r) = settle s r := by
  simp [ofFirmware, h]

@[simp] theorem settle_some (s t : State) : settle s (some t) = .next t := rfl
@[simp] theorem settle_none (s : State) : settle s none = .next s := rfl

/-! ### Operand forms -/

/-- Two sources, one destination. -/
theorem regForm2_ends {s : State} {y : Bool} {c c1 c2 c3 : Cell} {d a b : BitVec 5} {va vb : Word} (h : Ready s y c) (i : Instr)
    (f : Word → Word → Word) (ha : sourceOf y a c = some (va, c1)) (hb : sourceOf y b c1 = some (vb, c2))
    (hd : destOf y d (f va vb) c2 = some c3) :
    regForm2 i y d a b f s = .next (setCell s s.focus.cell (advance y c3)) :=
  runCore_done h (by rw [readReg_some _ ha, readReg_some _ hb, writeReg_some _ hd]; rfl)

/-- One source, one destination. -/
theorem regForm1_ends {s : State} {y : Bool} {c c1 c2 : Cell} {d a : BitVec 5} {va : Word} (h : Ready s y c) (i : Instr)
    (f : Word → Word) (ha : sourceOf y a c = some (va, c1)) (hd : destOf y d (f va) c1 = some c2) :
    regForm1 i y d a f s = .next (setCell s s.focus.cell (advance y c2)) :=
  runCore_done h (by rw [readReg_some _ ha, writeReg_some _ hd]; rfl)

/-- No source, one destination. -/
theorem constForm_ends {s : State} {y : Bool} {c c1 : Cell} {d : BitVec 5} {v : Word} (h : Ready s y c) (i : Instr)
    (hd : destOf y d v c = some c1) : constForm i y d v s = .next (setCell s s.focus.cell (advance y c1)) :=
  runCore_done h (by rw [writeReg_some _ hd]; rfl)

end Sys2Proof.Laws
end

