-- ==== Sys2Proof/Laws/Bits.lean ====
section
/-! SUPPORT. Laws of bit fields and of byte lists. -/

namespace Sys2Proof.Laws

open Sys2Proof.Machine

/-- A field that lies in the part pushed last is a field of that part. -/
theorem field_push_low {k : Nat} (hi : BitVec 32) (v : BitVec k) (lo len : Nat) (h : lo + len ≤ k) (hk : k ≤ 32) :
    field (push hi v) lo len = field v lo len := by
  apply BitVec.eq_of_getLsbD_eq
  intro i hi'
  simp only [field, push, BitVec.getLsbD_extractLsb', BitVec.getLsbD_or, BitVec.getLsbD_shiftLeft, BitVec.getLsbD_setWidth]
  have h1 : lo + i < k := by omega
  have h2 : lo + i < 32 := by omega
  simp [h1, h2]

/-- A field above the part pushed last is a field of what stood there before. -/
theorem field_push_high {k : Nat} (hi : BitVec 32) (v : BitVec k) (lo len : Nat) (h : k ≤ lo) (hk : lo + len ≤ 32) :
    field (push hi v) lo len = field hi (lo - k) len := by
  apply BitVec.eq_of_getLsbD_eq
  intro i hi'
  simp only [field, push, BitVec.getLsbD_extractLsb', BitVec.getLsbD_or, BitVec.getLsbD_shiftLeft, BitVec.getLsbD_setWidth]
  have h1 : ¬ lo + i < k := by omega
  have h2 : lo + i < 32 := by omega
  have h3 : k ≤ lo + i := by omega
  have h4 : lo + i - k = lo - k + i := by omega
  have h5 : v.getLsbD (lo + i) = false := BitVec.getLsbD_of_ge v _ (by omega)
  simp [h1, h2, h4, h5, hi']

/-- The whole of a value is its field of full width. -/
@[simp] theorem field_whole {k : Nat} (v : BitVec k) : field v 0 k = v := by
  apply BitVec.eq_of_getLsbD_eq
  intro i hi
  simp [field, hi]

/-- A Boolean written as one bit reads back. -/
@[simp] theorem ofBool_beq_one (y : Bool) : (BitVec.ofBool y == 1#1) = y := by
  cases y <;> rfl

/-- `mapAll` is the library's map. -/
theorem mapAll_eq {α β : Type} {n : Nat} (f : α → β) (v : Vector α n) : mapAll f v = v.map f := by
  ext i hi; simp [mapAll]

@[simp] theorem mapAll_get {α β : Type} {n : Nat} (f : α → β) (v : Vector α n) (i : Nat) (h : i < n) :
    (mapAll f v)[i] = f v[i] := by
  simp [mapAll_eq]

end Sys2Proof.Laws
end

