-- ==== Sys2Proof/Laws/PerInstr.lean ====
section
/-! SUPPORT. Decoding undoes encoding, one lemma per constructor of `Instr`. -/

set_option linter.unusedSimpArgs false

namespace Sys2Proof.Laws

open Sys2Proof.Machine

/-- The words of a well-formed instruction decode to it; a step that no word names has no words. -/
def RoundTrip.Statement (i : Instr) : Prop := i.WellFormed → encode i = .none ∨ decodeCode (encode i) = .ok i

/-- A control-core word that decodes to the instruction it encodes. -/
theorem coreRound {i : Instr} {w : BitVec 32} (he : encode i = .core w) (h : ∀ v, v = w → i.WellFormed → decodeCore v = .ok i) :
    RoundTrip.Statement i := fun hw => .inr (by rw [he]; exact h w rfl hw)

/-- A strip word that decodes to the instruction it encodes. -/
theorem stripRound {i : Instr} {w : BitVec 32} (he : encode i = .strip w) (h : ∀ v, v = w → i.WellFormed → decodeStrip v = .ok i) :
    RoundTrip.Statement i := fun hw => .inr (by rw [he]; exact h w rfl hw)

/-- A well-formed instruction whose encoding asks for nothing more is accepted. -/
theorem demand_legal {i : Instr} {a b c : Bool} (ha : a = true) (hb : b = true) (hc : c = true) (h : illegal i = none) :
    demand a b c i = .ok i := by
  simp [demand, judge, *]

theorem RoundTrip.add (y : Bool) (s : Bool) (d : BitVec 5) (a : BitVec 5) (b : BitVec 5) : RoundTrip.Statement (.add y s d a b) := by
  refine coreRound rfl fun v hv h => ?_
  have h0 : (field v 24 6).toNat = 1 := by simp [hv, field_push_low, field_push_high]
  have h1 : (field v 0 9).toNat = 0 := by simp [hv, field_push_low, field_push_high]
  delta decodeCore decodeAlu
  rw [h0, h1]
  simp [hv, demand_legal, h, field_push_low, field_push_high, bit]

theorem RoundTrip.sub (y : Bool) (s : Bool) (d : BitVec 5) (a : BitVec 5) (b : BitVec 5) : RoundTrip.Statement (.sub y s d a b) := by
  refine coreRound rfl fun v hv h => ?_
  have h0 : (field v 24 6).toNat = 1 := by simp [hv, field_push_low, field_push_high]
  have h1 : (field v 0 9).toNat = 1 := by simp [hv, field_push_low, field_push_high]
  delta decodeCore decodeAlu
  rw [h0, h1]
  simp [hv, demand_legal, h, field_push_low, field_push_high, bit]

theorem RoundTrip.and (y : Bool) (s : Bool) (d : BitVec 5) (a : BitVec 5) (b : BitVec 5) : RoundTrip.Statement (.and y s d a b) := by
  refine coreRound rfl fun v hv h => ?_
  have h0 : (field v 24 6).toNat = 1 := by simp [hv, field_push_low, field_push_high]
  have h1 : (field v 0 9).toNat = 2 := by simp [hv, field_push_low, field_push_high]
  delta decodeCore decodeAlu
  rw [h0, h1]
  simp [hv, demand_legal, h, field_push_low, field_push_high, bit]

theorem RoundTrip.or (y : Bool) (s : Bool) (d : BitVec 5) (a : BitVec 5) (b : BitVec 5) : RoundTrip.Statement (.or y s d a b) := by
  refine coreRound rfl fun v hv h => ?_
  have h0 : (field v 24 6).toNat = 1 := by simp [hv, field_push_low, field_push_high]
  have h1 : (field v 0 9).toNat = 3 := by simp [hv, field_push_low, field_push_high]
  delta decodeCore decodeAlu
  rw [h0, h1]
  simp [hv, demand_legal, h, field_push_low, field_push_high, bit]

theorem RoundTrip.xor (y : Bool) (s : Bool) (d : BitVec 5) (a : BitVec 5) (b : BitVec 5) : RoundTrip.Statement (.xor y s d a b) := by
  refine coreRound rfl fun v hv h => ?_
  have h0 : (field v 24 6).toNat = 1 := by simp [hv, field_push_low, field_push_high]
  have h1 : (field v 0 9).toNat = 4 := by simp [hv, field_push_low, field_push_high]
  delta decodeCore decodeAlu
  rw [h0, h1]
  simp [hv, demand_legal, h, field_push_low, field_push_high, bit]

theorem RoundTrip.andn (y : Bool) (s : Bool) (d : BitVec 5) (a : BitVec 5) (b : BitVec 5) : RoundTrip.Statement (.andn y s d a b) := by
  refine coreRound rfl fun v hv h => ?_
  have h0 : (field v 24 6).toNat = 1 := by simp [hv, field_push_low, field_push_high]
  have h1 : (field v 0 9).toNat = 5 := by simp [hv, field_push_low, field_push_high]
  delta decodeCore decodeAlu
  rw [h0, h1]
  simp [hv, demand_legal, h, field_push_low, field_push_high, bit]

theorem RoundTrip.orn (y : Bool) (s : Bool) (d : BitVec 5) (a : BitVec 5) (b : BitVec 5) : RoundTrip.Statement (.orn y s d a b) := by
  refine coreRound rfl fun v hv h => ?_
  have h0 : (field v 24 6).toNat = 1 := by simp [hv, field_push_low, field_push_high]
  have h1 : (field v 0 9).toNat = 6 := by simp [hv, field_push_low, field_push_high]
  delta decodeCore decodeAlu
  rw [h0, h1]
  simp [hv, demand_legal, h, field_push_low, field_push_high, bit]

theorem RoundTrip.sll (y : Bool) (s : Bool) (d : BitVec 5) (a : BitVec 5) (b : BitVec 5) : RoundTrip.Statement (.sll y s d a b) := by
  refine coreRound rfl fun v hv h => ?_
  have h0 : (field v 24 6).toNat = 1 := by simp [hv, field_push_low, field_push_high]
  have h1 : (field v 0 9).toNat = 7 := by simp [hv, field_push_low, field_push_high]
  delta decodeCore decodeAlu
  rw [h0, h1]
  simp [hv, demand_legal, h, field_push_low, field_push_high, bit]

theorem RoundTrip.srl (y : Bool) (s : Bool) (d : BitVec 5) (a : BitVec 5) (b : BitVec 5) : RoundTrip.Statement (.srl y s d a b) := by
  refine coreRound rfl fun v hv h => ?_
  have h0 : (field v 24 6).toNat = 1 := by simp [hv, field_push_low, field_push_high]
  have h1 : (field v 0 9).toNat = 8 := by simp [hv, field_push_low, field_push_high]
  delta decodeCore decodeAlu
  rw [h0, h1]
  simp [hv, demand_legal, h, field_push_low, field_push_high, bit]

theorem RoundTrip.sra (y : Bool) (s : Bool) (d : BitVec 5) (a : BitVec 5) (b : BitVec 5) : RoundTrip.Statement (.sra y s d a b) := by
  refine coreRound rfl fun v hv h => ?_
  have h0 : (field v 24 6).toNat = 1 := by simp [hv, field_push_low, field_push_high]
  have h1 : (field v 0 9).toNat = 9 := by simp [hv, field_push_low, field_push_high]
  delta decodeCore decodeAlu
  rw [h0, h1]
  simp [hv, demand_legal, h, field_push_low, field_push_high, bit]

theorem RoundTrip.rol (y : Bool) (s : Bool) (d : BitVec 5) (a : BitVec 5) (b : BitVec 5) : RoundTrip.Statement (.rol y s d a b) := by
  refine coreRound rfl fun v hv h => ?_
  have h0 : (field v 24 6).toNat = 1 := by simp [hv, field_push_low, field_push_high]
  have h1 : (field v 0 9).toNat = 10 := by simp [hv, field_push_low, field_push_high]
  delta decodeCore decodeAlu
  rw [h0, h1]
  simp [hv, demand_legal, h, field_push_low, field_push_high, bit]

theorem RoundTrip.ror (y : Bool) (s : Bool) (d : BitVec 5) (a : BitVec 5) (b : BitVec 5) : RoundTrip.Statement (.ror y s d a b) := by
  refine coreRound rfl fun v hv h => ?_
  have h0 : (field v 24 6).toNat = 1 := by simp [hv, field_push_low, field_push_high]
  have h1 : (field v 0 9).toNat = 11 := by simp [hv, field_push_low, field_push_high]
  delta decodeCore decodeAlu
  rw [h0, h1]
  simp [hv, demand_legal, h, field_push_low, field_push_high, bit]

theorem RoundTrip.slt (y : Bool) (s : Bool) (d : BitVec 5) (a : BitVec 5) (b : BitVec 5) : RoundTrip.Statement (.slt y s d a b) := by
  refine coreRound rfl fun v hv h => ?_
  have h0 : (field v 24 6).toNat = 1 := by simp [hv, field_push_low, field_push_high]
  have h1 : (field v 0 9).toNat = 12 := by simp [hv, field_push_low, field_push_high]
  delta decodeCore decodeAlu
  rw [h0, h1]
  simp [hv, demand_legal, h, field_push_low, field_push_high, bit]

theorem RoundTrip.sltn (y : Bool) (s : Bool) (d : BitVec 5) (a : BitVec 5) (b : BitVec 5) : RoundTrip.Statement (.sltn y s d a b) := by
  refine coreRound rfl fun v hv h => ?_
  have h0 : (field v 24 6).toNat = 1 := by simp [hv, field_push_low, field_push_high]
  have h1 : (field v 0 9).toNat = 13 := by simp [hv, field_push_low, field_push_high]
  delta decodeCore decodeAlu
  rw [h0, h1]
  simp [hv, demand_legal, h, field_push_low, field_push_high, bit]

theorem RoundTrip.min (y : Bool) (s : Bool) (d : BitVec 5) (a : BitVec 5) (b : BitVec 5) : RoundTrip.Statement (.min y s d a b) := by
  refine coreRound rfl fun v hv h => ?_
  have h0 : (field v 24 6).toNat = 1 := by simp [hv, field_push_low, field_push_high]
  have h1 : (field v 0 9).toNat = 14 := by simp [hv, field_push_low, field_push_high]
  delta decodeCore decodeAlu
  rw [h0, h1]
  simp [hv, demand_legal, h, field_push_low, field_push_high, bit]

theorem RoundTrip.max (y : Bool) (s : Bool) (d : BitVec 5) (a : BitVec 5) (b : BitVec 5) : RoundTrip.Statement (.max y s d a b) := by
  refine coreRound rfl fun v hv h => ?_
  have h0 : (field v 24 6).toNat = 1 := by simp [hv, field_push_low, field_push_high]
  have h1 : (field v 0 9).toNat = 15 := by simp [hv, field_push_low, field_push_high]
  delta decodeCore decodeAlu
  rw [h0, h1]
  simp [hv, demand_legal, h, field_push_low, field_push_high, bit]

theorem RoundTrip.minn (y : Bool) (s : Bool) (d : BitVec 5) (a : BitVec 5) (b : BitVec 5) : RoundTrip.Statement (.minn y s d a b) := by
  refine coreRound rfl fun v hv h => ?_
  have h0 : (field v 24 6).toNat = 1 := by simp [hv, field_push_low, field_push_high]
  have h1 : (field v 0 9).toNat = 16 := by simp [hv, field_push_low, field_push_high]
  delta decodeCore decodeAlu
  rw [h0, h1]
  simp [hv, demand_legal, h, field_push_low, field_push_high, bit]

theorem RoundTrip.maxn (y : Bool) (s : Bool) (d : BitVec 5) (a : BitVec 5) (b : BitVec 5) : RoundTrip.Statement (.maxn y s d a b) := by
  refine coreRound rfl fun v hv h => ?_
  have h0 : (field v 24 6).toNat = 1 := by simp [hv, field_push_low, field_push_high]
  have h1 : (field v 0 9).toNat = 17 := by simp [hv, field_push_low, field_push_high]
  delta decodeCore decodeAlu
  rw [h0, h1]
  simp [hv, demand_legal, h, field_push_low, field_push_high, bit]

theorem RoundTrip.mul (y : Bool) (s : Bool) (d : BitVec 5) (a : BitVec 5) (b : BitVec 5) : RoundTrip.Statement (.mul y s d a b) := by
  refine coreRound rfl fun v hv h => ?_
  have h0 : (field v 24 6).toNat = 2 := by simp [hv, field_push_low, field_push_high]
  have h1 : (field v 0 9).toNat = 0 := by simp [hv, field_push_low, field_push_high]
  delta decodeCore decodeMulDiv
  rw [h0, h1]
  simp [hv, demand_legal, h, field_push_low, field_push_high, bit]

theorem RoundTrip.mulh (y : Bool) (s : Bool) (d : BitVec 5) (a : BitVec 5) (b : BitVec 5) : RoundTrip.Statement (.mulh y s d a b) := by
  refine coreRound rfl fun v hv h => ?_
  have h0 : (field v 24 6).toNat = 2 := by simp [hv, field_push_low, field_push_high]
  have h1 : (field v 0 9).toNat = 1 := by simp [hv, field_push_low, field_push_high]
  delta decodeCore decodeMulDiv
  rw [h0, h1]
  simp [hv, demand_legal, h, field_push_low, field_push_high, bit]

theorem RoundTrip.mulhn (y : Bool) (s : Bool) (d : BitVec 5) (a : BitVec 5) (b : BitVec 5) : RoundTrip.Statement (.mulhn y s d a b) := by
  refine coreRound rfl fun v hv h => ?_
  have h0 : (field v 24 6).toNat = 2 := by simp [hv, field_push_low, field_push_high]
  have h1 : (field v 0 9).toNat = 2 := by simp [hv, field_push_low, field_push_high]
  delta decodeCore decodeMulDiv
  rw [h0, h1]
  simp [hv, demand_legal, h, field_push_low, field_push_high, bit]

theorem RoundTrip.div (y : Bool) (s : Bool) (d : BitVec 5) (a : BitVec 5) (b : BitVec 5) : RoundTrip.Statement (.div y s d a b) := by
  refine coreRound rfl fun v hv h => ?_
  have h0 : (field v 24 6).toNat = 2 := by simp [hv, field_push_low, field_push_high]
  have h1 : (field v 0 9).toNat = 3 := by simp [hv, field_push_low, field_push_high]
  delta decodeCore decodeMulDiv
  rw [h0, h1]
  simp [hv, demand_legal, h, field_push_low, field_push_high, bit]

theorem RoundTrip.divn (y : Bool) (s : Bool) (d : BitVec 5) (a : BitVec 5) (b : BitVec 5) : RoundTrip.Statement (.divn y s d a b) := by
  refine coreRound rfl fun v hv h => ?_
  have h0 : (field v 24 6).toNat = 2 := by simp [hv, field_push_low, field_push_high]
  have h1 : (field v 0 9).toNat = 4 := by simp [hv, field_push_low, field_push_high]
  delta decodeCore decodeMulDiv
  rw [h0, h1]
  simp [hv, demand_legal, h, field_push_low, field_push_high, bit]

theorem RoundTrip.rem (y : Bool) (s : Bool) (d : BitVec 5) (a : BitVec 5) (b : BitVec 5) : RoundTrip.Statement (.rem y s d a b) := by
  refine coreRound rfl fun v hv h => ?_
  have h0 : (field v 24 6).toNat = 2 := by simp [hv, field_push_low, field_push_high]
  have h1 : (field v 0 9).toNat = 5 := by simp [hv, field_push_low, field_push_high]
  delta decodeCore decodeMulDiv
  rw [h0, h1]
  simp [hv, demand_legal, h, field_push_low, field_push_high, bit]

theorem RoundTrip.remn (y : Bool) (s : Bool) (d : BitVec 5) (a : BitVec 5) (b : BitVec 5) : RoundTrip.Statement (.remn y s d a b) := by
  refine coreRound rfl fun v hv h => ?_
  have h0 : (field v 24 6).toNat = 2 := by simp [hv, field_push_low, field_push_high]
  have h1 : (field v 0 9).toNat = 6 := by simp [hv, field_push_low, field_push_high]
  delta decodeCore decodeMulDiv
  rw [h0, h1]
  simp [hv, demand_legal, h, field_push_low, field_push_high, bit]

theorem RoundTrip.clz (y : Bool) (s : Bool) (d : BitVec 5) (a : BitVec 5) : RoundTrip.Statement (.clz y s d a) := by
  refine coreRound rfl fun v hv h => ?_
  have h0 : (field v 24 6).toNat = 3 := by simp [hv, field_push_low, field_push_high]
  have h1 : (field v 0 9).toNat = 0 := by simp [hv, field_push_low, field_push_high]
  delta decodeCore decodeBits
  rw [h0, h1]
  simp [hv, demand_legal, h, field_push_low, field_push_high, bit]

theorem RoundTrip.ctz (y : Bool) (s : Bool) (d : BitVec 5) (a : BitVec 5) : RoundTrip.Statement (.ctz y s d a) := by
  refine coreRound rfl fun v hv h => ?_
  have h0 : (field v 24 6).toNat = 3 := by simp [hv, field_push_low, field_push_high]
  have h1 : (field v 0 9).toNat = 1 := by simp [hv, field_push_low, field_push_high]
  delta decodeCore decodeBits
  rw [h0, h1]
  simp [hv, demand_legal, h, field_push_low, field_push_high, bit]

theorem RoundTrip.popc (y : Bool) (s : Bool) (d : BitVec 5) (a : BitVec 5) : RoundTrip.Statement (.popc y s d a) := by
  refine coreRound rfl fun v hv h => ?_
  have h0 : (field v 24 6).toNat = 3 := by simp [hv, field_push_low, field_push_high]
  have h1 : (field v 0 9).toNat = 2 := by simp [hv, field_push_low, field_push_high]
  delta decodeCore decodeBits
  rw [h0, h1]
  simp [hv, demand_legal, h, field_push_low, field_push_high, bit]

theorem RoundTrip.sxb (y : Bool) (s : Bool) (d : BitVec 5) (a : BitVec 5) : RoundTrip.Statement (.sxb y s d a) := by
  refine coreRound rfl fun v hv h => ?_
  have h0 : (field v 24 6).toNat = 3 := by simp [hv, field_push_low, field_push_high]
  have h1 : (field v 0 9).toNat = 3 := by simp [hv, field_push_low, field_push_high]
  delta decodeCore decodeBits
  rw [h0, h1]
  simp [hv, demand_legal, h, field_push_low, field_push_high, bit]

theorem RoundTrip.sxh (y : Bool) (s : Bool) (d : BitVec 5) (a : BitVec 5) : RoundTrip.Statement (.sxh y s d a) := by
  refine coreRound rfl fun v hv h => ?_
  have h0 : (field v 24 6).toNat = 3 := by simp [hv, field_push_low, field_push_high]
  have h1 : (field v 0 9).toNat = 4 := by simp [hv, field_push_low, field_push_high]
  delta decodeCore decodeBits
  rw [h0, h1]
  simp [hv, demand_legal, h, field_push_low, field_push_high, bit]

theorem RoundTrip.sxw (y : Bool) (s : Bool) (d : BitVec 5) (a : BitVec 5) : RoundTrip.Statement (.sxw y s d a) := by
  refine coreRound rfl fun v hv h => ?_
  have h0 : (field v 24 6).toNat = 3 := by simp [hv, field_push_low, field_push_high]
  have h1 : (field v 0 9).toNat = 5 := by simp [hv, field_push_low, field_push_high]
  delta decodeCore decodeBits
  rw [h0, h1]
  simp [hv, demand_legal, h, field_push_low, field_push_high, bit]

theorem RoundTrip.zxb (y : Bool) (s : Bool) (d : BitVec 5) (a : BitVec 5) : RoundTrip.Statement (.zxb y s d a) := by
  refine coreRound rfl fun v hv h => ?_
  have h0 : (field v 24 6).toNat = 3 := by simp [hv, field_push_low, field_push_high]
  have h1 : (field v 0 9).toNat = 6 := by simp [hv, field_push_low, field_push_high]
  delta decodeCore decodeBits
  rw [h0, h1]
  simp [hv, demand_legal, h, field_push_low, field_push_high, bit]

theorem RoundTrip.zxh (y : Bool) (s : Bool) (d : BitVec 5) (a : BitVec 5) : RoundTrip.Statement (.zxh y s d a) := by
  refine coreRound rfl fun v hv h => ?_
  have h0 : (field v 24 6).toNat = 3 := by simp [hv, field_push_low, field_push_high]
  have h1 : (field v 0 9).toNat = 7 := by simp [hv, field_push_low, field_push_high]
  delta decodeCore decodeBits
  rw [h0, h1]
  simp [hv, demand_legal, h, field_push_low, field_push_high, bit]

theorem RoundTrip.zxw (y : Bool) (s : Bool) (d : BitVec 5) (a : BitVec 5) : RoundTrip.Statement (.zxw y s d a) := by
  refine coreRound rfl fun v hv h => ?_
  have h0 : (field v 24 6).toNat = 3 := by simp [hv, field_push_low, field_push_high]
  have h1 : (field v 0 9).toNat = 8 := by simp [hv, field_push_low, field_push_high]
  delta decodeCore decodeBits
  rw [h0, h1]
  simp [hv, demand_legal, h, field_push_low, field_push_high, bit]

theorem RoundTrip.bfx (y : Bool) (s : Bool) (d : BitVec 5) (a : BitVec 5) (b : BitVec 5) : RoundTrip.Statement (.bfx y s d a b) := by
  refine coreRound rfl fun v hv h => ?_
  have h0 : (field v 24 6).toNat = 3 := by simp [hv, field_push_low, field_push_high]
  have h1 : (field v 0 9).toNat = 9 := by simp [hv, field_push_low, field_push_high]
  delta decodeCore decodeBits
  rw [h0, h1]
  simp [hv, demand_legal, h, field_push_low, field_push_high, bit]

theorem RoundTrip.bfi (y : Bool) (s : Bool) (d : BitVec 5) (a : BitVec 5) (b : BitVec 5) : RoundTrip.Statement (.bfi y s d a b) := by
  refine coreRound rfl fun v hv h => ?_
  have h0 : (field v 24 6).toNat = 3 := by simp [hv, field_push_low, field_push_high]
  have h1 : (field v 0 9).toNat = 10 := by simp [hv, field_push_low, field_push_high]
  delta decodeCore decodeBits
  rw [h0, h1]
  simp [hv, demand_legal, h, field_push_low, field_push_high, bit]

theorem RoundTrip.sel (y : Bool) (s : Bool) (d : BitVec 5) (a : BitVec 5) (b : BitVec 5) (c : BitVec 5) :
    RoundTrip.Statement (.sel y s d a b c) := by
  refine coreRound rfl fun v hv h => ?_
  have h0 : (field v 24 6).toNat = 3 := by simp [hv, field_push_low, field_push_high]
  have h1 : (field v 0 9).toNat.testBit 8 = true := by
    subst hv
    simp only [field, push, ← BitVec.getLsbD_eq_getElem, BitVec.testBit_toNat]
    simp
  have h2 : 256 ≤ (field v 0 9).toNat := Nat.ge_two_pow_of_testBit h1
  delta decodeCore
  rw [h0]
  change decodeBits v = _
  delta decodeBits
  split <;> first | omega | simp [hv, demand_legal, h, field_push_low, field_push_high, bit]

theorem RoundTrip.addi (y : Bool) (s : Bool) (d : BitVec 5) (a : BitVec 5) (i : BitVec 14) : RoundTrip.Statement (.addi y s d a i) := by
  refine coreRound rfl fun v hv h => ?_
  have h0 : (field v 24 6).toNat = 4 := by simp [hv, field_push_low, field_push_high]
  delta decodeCore
  rw [h0]
  simp [hv, demand_legal, h, field_push_low, field_push_high, bit]

theorem RoundTrip.andi (y : Bool) (s : Bool) (d : BitVec 5) (a : BitVec 5) (i : BitVec 14) : RoundTrip.Statement (.andi y s d a i) := by
  refine coreRound rfl fun v hv h => ?_
  have h0 : (field v 24 6).toNat = 5 := by simp [hv, field_push_low, field_push_high]
  delta decodeCore
  rw [h0]
  simp [hv, demand_legal, h, field_push_low, field_push_high, bit]

theorem RoundTrip.ori (y : Bool) (s : Bool) (d : BitVec 5) (a : BitVec 5) (i : BitVec 14) : RoundTrip.Statement (.ori y s d a i) := by
  refine coreRound rfl fun v hv h => ?_
  have h0 : (field v 24 6).toNat = 6 := by simp [hv, field_push_low, field_push_high]
  delta decodeCore
  rw [h0]
  simp [hv, demand_legal, h, field_push_low, field_push_high, bit]

theorem RoundTrip.xori (y : Bool) (s : Bool) (d : BitVec 5) (a : BitVec 5) (i : BitVec 14) : RoundTrip.Statement (.xori y s d a i) := by
  refine coreRound rfl fun v hv h => ?_
  have h0 : (field v 24 6).toNat = 7 := by simp [hv, field_push_low, field_push_high]
  delta decodeCore
  rw [h0]
  simp [hv, demand_legal, h, field_push_low, field_push_high, bit]

theorem RoundTrip.slti (y : Bool) (s : Bool) (d : BitVec 5) (a : BitVec 5) (i : BitVec 14) : RoundTrip.Statement (.slti y s d a i) := by
  refine coreRound rfl fun v hv h => ?_
  have h0 : (field v 24 6).toNat = 8 := by simp [hv, field_push_low, field_push_high]
  delta decodeCore
  rw [h0]
  simp [hv, demand_legal, h, field_push_low, field_push_high, bit]

theorem RoundTrip.sltni (y : Bool) (s : Bool) (d : BitVec 5) (a : BitVec 5) (i : BitVec 14) : RoundTrip.Statement (.sltni y s d a i) := by
  refine coreRound rfl fun v hv h => ?_
  have h0 : (field v 24 6).toNat = 9 := by simp [hv, field_push_low, field_push_high]
  delta decodeCore
  rw [h0]
  simp [hv, demand_legal, h, field_push_low, field_push_high, bit]

theorem RoundTrip.shiSll (y : Bool) (s : Bool) (d : BitVec 5) (a : BitVec 5) (h : BitVec 6) : RoundTrip.Statement (.shiSll y s d a h) := by
  refine coreRound rfl fun v hv h => ?_
  have h0 : (field v 24 6).toNat = 10 := by simp [hv, field_push_low, field_push_high]
  have h1 : (field v 11 3).toNat = 0 := by simp [hv, field_push_low, field_push_high]
  delta decodeCore decodeShi
  rw [h0, h1]
  simp [hv, demand_legal, h, field_push_low, field_push_high, bit]

theorem RoundTrip.shiSrl (y : Bool) (s : Bool) (d : BitVec 5) (a : BitVec 5) (h : BitVec 6) : RoundTrip.Statement (.shiSrl y s d a h) := by
  refine coreRound rfl fun v hv h => ?_
  have h0 : (field v 24 6).toNat = 10 := by simp [hv, field_push_low, field_push_high]
  have h1 : (field v 11 3).toNat = 1 := by simp [hv, field_push_low, field_push_high]
  delta decodeCore decodeShi
  rw [h0, h1]
  simp [hv, demand_legal, h, field_push_low, field_push_high, bit]

theorem RoundTrip.shiSra (y : Bool) (s : Bool) (d : BitVec 5) (a : BitVec 5) (h : BitVec 6) : RoundTrip.Statement (.shiSra y s d a h) := by
  refine coreRound rfl fun v hv h => ?_
  have h0 : (field v 24 6).toNat = 10 := by simp [hv, field_push_low, field_push_high]
  have h1 : (field v 11 3).toNat = 2 := by simp [hv, field_push_low, field_push_high]
  delta decodeCore decodeShi
  rw [h0, h1]
  simp [hv, demand_legal, h, field_push_low, field_push_high, bit]

theorem RoundTrip.shiRol (y : Bool) (s : Bool) (d : BitVec 5) (a : BitVec 5) (h : BitVec 6) : RoundTrip.Statement (.shiRol y s d a h) := by
  refine coreRound rfl fun v hv h => ?_
  have h0 : (field v 24 6).toNat = 10 := by simp [hv, field_push_low, field_push_high]
  have h1 : (field v 11 3).toNat = 3 := by simp [hv, field_push_low, field_push_high]
  delta decodeCore decodeShi
  rw [h0, h1]
  simp [hv, demand_legal, h, field_push_low, field_push_high, bit]

theorem RoundTrip.shiRor (y : Bool) (s : Bool) (d : BitVec 5) (a : BitVec 5) (h : BitVec 6) : RoundTrip.Statement (.shiRor y s d a h) := by
  refine coreRound rfl fun v hv h => ?_
  have h0 : (field v 24 6).toNat = 10 := by simp [hv, field_push_low, field_push_high]
  have h1 : (field v 11 3).toNat = 4 := by simp [hv, field_push_low, field_push_high]
  delta decodeCore decodeShi
  rw [h0, h1]
  simp [hv, demand_legal, h, field_push_low, field_push_high, bit]

theorem RoundTrip.muli (y : Bool) (s : Bool) (d : BitVec 5) (a : BitVec 5) (i : BitVec 14) : RoundTrip.Statement (.muli y s d a i) := by
  refine coreRound rfl fun v hv h => ?_
  have h0 : (field v 24 6).toNat = 11 := by simp [hv, field_push_low, field_push_high]
  delta decodeCore
  rw [h0]
  simp [hv, demand_legal, h, field_push_low, field_push_high, bit]

theorem RoundTrip.lui (y : Bool) (s : Bool) (d : BitVec 5) (i : BitVec 19) : RoundTrip.Statement (.lui y s d i) := by
  refine coreRound rfl fun v hv h => ?_
  have h0 : (field v 24 6).toNat = 12 := by simp [hv, field_push_low, field_push_high]
  delta decodeCore
  rw [h0]
  simp [hv, demand_legal, h, field_push_low, field_push_high, bit]

theorem RoundTrip.aui (y : Bool) (s : Bool) (d : BitVec 5) (i : BitVec 19) : RoundTrip.Statement (.aui y s d i) := by
  refine coreRound rfl fun v hv h => ?_
  have h0 : (field v 24 6).toNat = 13 := by simp [hv, field_push_low, field_push_high]
  delta decodeCore
  rw [h0]
  simp [hv, demand_legal, h, field_push_low, field_push_high, bit]

theorem RoundTrip.lic (y : Bool) (s : Bool) (d : BitVec 5) (i : BitVec 19) : RoundTrip.Statement (.lic y s d i) := by
  refine coreRound rfl fun v hv h => ?_
  have h0 : (field v 24 6).toNat = 14 := by simp [hv, field_push_low, field_push_high]
  delta decodeCore
  rw [h0]
  simp [hv, demand_legal, h, field_push_low, field_push_high, bit]

theorem RoundTrip.beq (y : Bool) (s : Bool) (a : BitVec 5) (b : BitVec 5) (o : BitVec 14) : RoundTrip.Statement (.beq y s a b o) := by
  refine coreRound rfl fun v hv h => ?_
  have h0 : (field v 24 6).toNat = 16 := by simp [hv, field_push_low, field_push_high]
  delta decodeCore
  rw [h0]
  simp [hv, demand_legal, h, field_push_low, field_push_high, bit]

theorem RoundTrip.bne (y : Bool) (s : Bool) (a : BitVec 5) (b : BitVec 5) (o : BitVec 14) : RoundTrip.Statement (.bne y s a b o) := by
  refine coreRound rfl fun v hv h => ?_
  have h0 : (field v 24 6).toNat = 17 := by simp [hv, field_push_low, field_push_high]
  delta decodeCore
  rw [h0]
  simp [hv, demand_legal, h, field_push_low, field_push_high, bit]

theorem RoundTrip.blt (y : Bool) (s : Bool) (a : BitVec 5) (b : BitVec 5) (o : BitVec 14) : RoundTrip.Statement (.blt y s a b o) := by
  refine coreRound rfl fun v hv h => ?_
  have h0 : (field v 24 6).toNat = 18 := by simp [hv, field_push_low, field_push_high]
  delta decodeCore
  rw [h0]
  simp [hv, demand_legal, h, field_push_low, field_push_high, bit]

theorem RoundTrip.bge (y : Bool) (s : Bool) (a : BitVec 5) (b : BitVec 5) (o : BitVec 14) : RoundTrip.Statement (.bge y s a b o) := by
  refine coreRound rfl fun v hv h => ?_
  have h0 : (field v 24 6).toNat = 19 := by simp [hv, field_push_low, field_push_high]
  delta decodeCore
  rw [h0]
  simp [hv, demand_legal, h, field_push_low, field_push_high, bit]

theorem RoundTrip.bltn (y : Bool) (s : Bool) (a : BitVec 5) (b : BitVec 5) (o : BitVec 14) : RoundTrip.Statement (.bltn y s a b o) := by
  refine coreRound rfl fun v hv h => ?_
  have h0 : (field v 24 6).toNat = 20 := by simp [hv, field_push_low, field_push_high]
  delta decodeCore
  rw [h0]
  simp [hv, demand_legal, h, field_push_low, field_push_high, bit]

theorem RoundTrip.bgen (y : Bool) (s : Bool) (a : BitVec 5) (b : BitVec 5) (o : BitVec 14) : RoundTrip.Statement (.bgen y s a b o) := by
  refine coreRound rfl fun v hv h => ?_
  have h0 : (field v 24 6).toNat = 21 := by simp [hv, field_push_low, field_push_high]
  delta decodeCore
  rw [h0]
  simp [hv, demand_legal, h, field_push_low, field_push_high, bit]

theorem RoundTrip.bbs (y : Bool) (s : Bool) (a : BitVec 5) (n : BitVec 6) (o : BitVec 13) : RoundTrip.Statement (.bbs y s a n o) := by
  refine coreRound rfl fun v hv h => ?_
  have h0 : (field v 24 6).toNat = 22 := by simp [hv, field_push_low, field_push_high]
  delta decodeCore
  rw [h0]
  simp [hv, demand_legal, h, field_push_low, field_push_high, bit]

theorem RoundTrip.bbc (y : Bool) (s : Bool) (a : BitVec 5) (n : BitVec 6) (o : BitVec 13) : RoundTrip.Statement (.bbc y s a n o) := by
  refine coreRound rfl fun v hv h => ?_
  have h0 : (field v 24 6).toNat = 23 := by simp [hv, field_push_low, field_push_high]
  delta decodeCore
  rw [h0]
  simp [hv, demand_legal, h, field_push_low, field_push_high, bit]

theorem RoundTrip.j (y : Bool) (s : Bool) (o : BitVec 24) : RoundTrip.Statement (.j y s o) := by
  refine coreRound rfl fun v hv h => ?_
  have h0 : (field v 24 6).toNat = 24 := by simp [hv, field_push_low, field_push_high]
  delta decodeCore
  rw [h0]
  simp [hv, demand_legal, h, field_push_low, field_push_high, bit]

theorem RoundTrip.jal (y : Bool) (o : BitVec 24) : RoundTrip.Statement (.jal y o) := by
  refine coreRound rfl fun v hv h => ?_
  have h0 : (field v 24 6).toNat = 25 := by simp [hv, field_push_low, field_push_high]
  delta decodeCore
  rw [h0]
  simp [hv, demand_legal, h, field_push_low, field_push_high, bit]

theorem RoundTrip.jalr (y : Bool) (d : BitVec 5) (a : BitVec 5) (i : BitVec 14) : RoundTrip.Statement (.jalr y d a i) := by
  refine coreRound rfl fun v hv h => ?_
  have h0 : (field v 24 6).toNat = 26 := by simp [hv, field_push_low, field_push_high]
  delta decodeCore
  rw [h0]
  simp [hv, demand_legal, h, field_push_low, field_push_high, bit]

theorem RoundTrip.loop (y : Bool) (s : Bool) (a : BitVec 5) (o : BitVec 14) : RoundTrip.Statement (.loop y s a o) := by
  refine coreRound rfl fun v hv h => ?_
  have h0 : (field v 24 6).toNat = 27 := by simp [hv, field_push_low, field_push_high]
  delta decodeCore
  rw [h0]
  simp [hv, demand_legal, h, field_push_low, field_push_high, bit]

theorem RoundTrip.ldb (y : Bool) (d : BitVec 5) (b : BitVec 5) (c : BitVec 2) (o : BitVec 12) : RoundTrip.Statement (.ldb y d b c o) := by
  refine coreRound rfl fun v hv h => ?_
  have h0 : (field v 24 6).toNat = 28 := by simp [hv, field_push_low, field_push_high]
  delta decodeCore
  rw [h0]
  simp [hv, demand_legal, h, field_push_low, field_push_high, bit]

theorem RoundTrip.ldh (y : Bool) (d : BitVec 5) (b : BitVec 5) (c : BitVec 2) (o : BitVec 12) : RoundTrip.Statement (.ldh y d b c o) := by
  refine coreRound rfl fun v hv h => ?_
  have h0 : (field v 24 6).toNat = 29 := by simp [hv, field_push_low, field_push_high]
  delta decodeCore
  rw [h0]
  simp [hv, demand_legal, h, field_push_low, field_push_high, bit]

theorem RoundTrip.ldw (y : Bool) (d : BitVec 5) (b : BitVec 5) (c : BitVec 2) (o : BitVec 12) : RoundTrip.Statement (.ldw y d b c o) := by
  refine coreRound rfl fun v hv h => ?_
  have h0 : (field v 24 6).toNat = 30 := by simp [hv, field_push_low, field_push_high]
  delta decodeCore
  rw [h0]
  simp [hv, demand_legal, h, field_push_low, field_push_high, bit]

theorem RoundTrip.ldd (y : Bool) (d : BitVec 5) (b : BitVec 5) (c : BitVec 2) (o : BitVec 12) : RoundTrip.Statement (.ldd y d b c o) := by
  refine coreRound rfl fun v hv h => ?_
  have h0 : (field v 24 6).toNat = 31 := by simp [hv, field_push_low, field_push_high]
  delta decodeCore
  rw [h0]
  simp [hv, demand_legal, h, field_push_low, field_push_high, bit]

theorem RoundTrip.ldbn (y : Bool) (d : BitVec 5) (b : BitVec 5) (c : BitVec 2) (o : BitVec 12) : RoundTrip.Statement (.ldbn y d b c o) := by
  refine coreRound rfl fun v hv h => ?_
  have h0 : (field v 24 6).toNat = 32 := by simp [hv, field_push_low, field_push_high]
  delta decodeCore
  rw [h0]
  simp [hv, demand_legal, h, field_push_low, field_push_high, bit]

theorem RoundTrip.ldhn (y : Bool) (d : BitVec 5) (b : BitVec 5) (c : BitVec 2) (o : BitVec 12) : RoundTrip.Statement (.ldhn y d b c o) := by
  refine coreRound rfl fun v hv h => ?_
  have h0 : (field v 24 6).toNat = 33 := by simp [hv, field_push_low, field_push_high]
  delta decodeCore
  rw [h0]
  simp [hv, demand_legal, h, field_push_low, field_push_high, bit]

theorem RoundTrip.ldwn (y : Bool) (d : BitVec 5) (b : BitVec 5) (c : BitVec 2) (o : BitVec 12) : RoundTrip.Statement (.ldwn y d b c o) := by
  refine coreRound rfl fun v hv h => ?_
  have h0 : (field v 24 6).toNat = 34 := by simp [hv, field_push_low, field_push_high]
  delta decodeCore
  rw [h0]
  simp [hv, demand_legal, h, field_push_low, field_push_high, bit]

theorem RoundTrip.stb (y : Bool) (s : BitVec 5) (b : BitVec 5) (c : BitVec 2) (o : BitVec 12) : RoundTrip.Statement (.stb y s b c o) := by
  refine coreRound rfl fun v hv h => ?_
  have h0 : (field v 24 6).toNat = 35 := by simp [hv, field_push_low, field_push_high]
  delta decodeCore
  rw [h0]
  simp [hv, demand_legal, h, field_push_low, field_push_high, bit]

theorem RoundTrip.sth (y : Bool) (s : BitVec 5) (b : BitVec 5) (c : BitVec 2) (o : BitVec 12) : RoundTrip.Statement (.sth y s b c o) := by
  refine coreRound rfl fun v hv h => ?_
  have h0 : (field v 24 6).toNat = 36 := by simp [hv, field_push_low, field_push_high]
  delta decodeCore
  rw [h0]
  simp [hv, demand_legal, h, field_push_low, field_push_high, bit]

theorem RoundTrip.stw (y : Bool) (s : BitVec 5) (b : BitVec 5) (c : BitVec 2) (o : BitVec 12) : RoundTrip.Statement (.stw y s b c o) := by
  refine coreRound rfl fun v hv h => ?_
  have h0 : (field v 24 6).toNat = 37 := by simp [hv, field_push_low, field_push_high]
  delta decodeCore
  rw [h0]
  simp [hv, demand_legal, h, field_push_low, field_push_high, bit]

theorem RoundTrip.std (y : Bool) (s : BitVec 5) (b : BitVec 5) (c : BitVec 2) (o : BitVec 12) : RoundTrip.Statement (.std y s b c o) := by
  refine coreRound rfl fun v hv h => ?_
  have h0 : (field v 24 6).toNat = 38 := by simp [hv, field_push_low, field_push_high]
  delta decodeCore
  rw [h0]
  simp [hv, demand_legal, h, field_push_low, field_push_high, bit]

theorem RoundTrip.ldu (y : Bool) (s : Bool) (d : BitVec 5) (b : BitVec 5) (o : BitVec 12) : RoundTrip.Statement (.ldu y s d b o) := by
  refine coreRound rfl fun v hv h => ?_
  have h0 : (field v 24 6).toNat = 39 := by simp [hv, field_push_low, field_push_high]
  delta decodeCore
  rw [h0]
  simp [hv, demand_legal, h, field_push_low, field_push_high, bit]

theorem RoundTrip.hld (d : BitVec 5) (h : BitVec 4) (c : BitVec 2) (z : BitVec 2) (x : BitVec 5) (i : BitVec 6) : RoundTrip.Statement (.hld d h c z x i) := by
  refine coreRound rfl fun v hv h => ?_
  have h0 : (field v 24 6).toNat = 40 := by simp [hv, field_push_low, field_push_high]
  delta decodeCore
  rw [h0]
  simp [hv, demand_legal, h, field_push_low, field_push_high, bit]

theorem RoundTrip.hldn (d : BitVec 5) (h : BitVec 4) (c : BitVec 2) (z : BitVec 2) (x : BitVec 5) (i : BitVec 6) : RoundTrip.Statement (.hldn d h c z x i) := by
  refine coreRound rfl fun v hv h => ?_
  have h0 : (field v 24 6).toNat = 41 := by simp [hv, field_push_low, field_push_high]
  delta decodeCore
  rw [h0]
  simp [hv, demand_legal, h, field_push_low, field_push_high, bit]

theorem RoundTrip.hst (s : BitVec 5) (h : BitVec 4) (c : BitVec 2) (z : BitVec 2) (x : BitVec 5) (i : BitVec 6) : RoundTrip.Statement (.hst s h c z x i) := by
  refine coreRound rfl fun v hv h => ?_
  have h0 : (field v 24 6).toNat = 42 := by simp [hv, field_push_low, field_push_high]
  delta decodeCore
  rw [h0]
  simp [hv, demand_legal, h, field_push_low, field_push_high, bit]

theorem RoundTrip.hstnt (s : BitVec 5) (h : BitVec 4) (c : BitVec 2) (z : BitVec 2) (x : BitVec 5) (i : BitVec 6) : RoundTrip.Statement (.hstnt s h c z x i) := by
  refine coreRound rfl fun v hv h => ?_
  have h0 : (field v 24 6).toNat = 43 := by simp [hv, field_push_low, field_push_high]
  delta decodeCore
  rw [h0]
  simp [hv, demand_legal, h, field_push_low, field_push_high, bit]

theorem RoundTrip.xlatR (h : BitVec 4) (a : BitVec 5) : RoundTrip.Statement (.xlatR h a) := by
  refine coreRound rfl fun v hv h => ?_
  have h0 : (field v 24 6).toNat = 44 := by simp [hv, field_push_low, field_push_high]
  have h1 : (field v 0 9).toNat = 0 := by simp [hv, field_push_low, field_push_high]
  delta decodeCore decodeHandle
  rw [h0, h1]
  simp [hv, demand_legal, h, field_push_low, field_push_high, bit]

theorem RoundTrip.xlatRw (h : BitVec 4) (a : BitVec 5) : RoundTrip.Statement (.xlatRw h a) := by
  refine coreRound rfl fun v hv h => ?_
  have h0 : (field v 24 6).toNat = 44 := by simp [hv, field_push_low, field_push_high]
  have h1 : (field v 0 9).toNat = 1 := by simp [hv, field_push_low, field_push_high]
  delta decodeCore decodeHandle
  rw [h0, h1]
  simp [hv, demand_legal, h, field_push_low, field_push_high, bit]

theorem RoundTrip.hrel (h : BitVec 4) : RoundTrip.Statement (.hrel h) := by
  refine coreRound rfl fun v hv h => ?_
  have h0 : (field v 24 6).toNat = 44 := by simp [hv, field_push_low, field_push_high]
  have h1 : (field v 0 9).toNat = 2 := by simp [hv, field_push_low, field_push_high]
  delta decodeCore decodeHandle
  rw [h0, h1]
  simp [hv, demand_legal, h, field_push_low, field_push_high, bit]

theorem RoundTrip.amo (d : BitVec 5) (h : BitVec 4) (c : BitVec 2) (x : BitVec 5) (k : BitVec 4) (z : BitVec 1) : RoundTrip.Statement (.amo d h c x k z) := by
  refine coreRound rfl fun v hv h => ?_
  have h0 : (field v 24 6).toNat = 45 := by simp [hv, field_push_low, field_push_high]
  delta decodeCore
  rw [h0]
  simp [hv, demand_legal, h, field_push_low, field_push_high, bit]

theorem RoundTrip.rld (d : BitVec 5) (p : BitVec 5) (o : BitVec 5) (r : BitVec 2) (c : BitVec 2) (f : BitVec 5) :
    RoundTrip.Statement (.rld d p o r c f) := by
  refine coreRound rfl fun v hv h => ?_
  have h0 : (field v 24 6).toNat = 46 := by simp [hv, field_push_low, field_push_high]
  have h1 : field v 0 5 = f := by simp [hv, field_push_low]
  have h2 : f.toNat ≤ 6 := by
    by_contra hf
    revert h
    simp only [Instr.WellFormed, illegal, legalRoute, need, ports, firstOf]
    split <;> simp [firstOf, hf]
  delta decodeCore
  rw [h0]
  change decodeRld v = _
  delta decodeRld
  rw [h1]
  split
  · omega
  · simp [hv, demand_legal, h, field_push_low, field_push_high, bit]

theorem RoundTrip.rldLine (p : BitVec 5) (o : BitVec 5) (r : BitVec 2) (c : BitVec 2) : RoundTrip.Statement (.rldLine p o r c) := by
  refine coreRound rfl fun v hv h => ?_
  have h0 : (field v 24 6).toNat = 46 := by simp [hv, field_push_low, field_push_high]
  have h1 : (field v 0 5).toNat = 7 := by simp [hv, field_push_low, field_push_high]
  delta decodeCore decodeRld
  rw [h0, h1]
  simp [hv, demand_legal, h, field_push_low, field_push_high, bit]

theorem RoundTrip.rst (s : BitVec 5) (p : BitVec 5) (o : BitVec 5) (r : BitVec 2) (c : BitVec 2) (f : BitVec 5) : RoundTrip.Statement (.rst s p o r c f) := by
  refine coreRound rfl fun v hv h => ?_
  have h0 : (field v 24 6).toNat = 47 := by simp [hv, field_push_low, field_push_high]
  delta decodeCore
  rw [h0]
  simp [hv, demand_legal, h, field_push_low, field_push_high, bit]

theorem RoundTrip.ramo (d : BitVec 5) (p : BitVec 5) (o : BitVec 5) (r : BitVec 2) (c : BitVec 2) (k : BitVec 4) (z : BitVec 1) : RoundTrip.Statement (.ramo d p o r c k z) := by
  refine coreRound rfl fun v hv h => ?_
  have h0 : (field v 24 6).toNat = 48 := by simp [hv, field_push_low, field_push_high]
  delta decodeCore
  rw [h0]
  simp [hv, demand_legal, h, field_push_low, field_push_high, bit]

theorem RoundTrip.fence (y : Bool) (e : BitVec 3) (r : BitVec 3) (c : BitVec 4) : RoundTrip.Statement (.fence y e r c) := by
  refine coreRound rfl fun v hv h => ?_
  have h0 : (field v 24 6).toNat = 49 := by simp [hv, field_push_low, field_push_high]
  have h1 : (field v 13 1).toNat = 0 := by simp [hv, field_push_low, field_push_high]
  delta decodeCore decodeFence
  rw [h0, h1]
  simp [hv, demand_legal, h, field_push_low, field_push_high, bit]

theorem RoundTrip.drain (y : Bool) (e : BitVec 3) : RoundTrip.Statement (.drain y e) := by
  refine coreRound rfl fun v hv h => ?_
  have h0 : (field v 24 6).toNat = 49 := by simp [hv, field_push_low, field_push_high]
  have h1 : (field v 13 1).toNat = 1 := by simp [hv, field_push_low, field_push_high]
  delta decodeCore decodeFence
  rw [h0, h1]
  simp [hv, demand_legal, h, field_push_low, field_push_high, bit]

theorem RoundTrip.bar (l : BitVec 3) : RoundTrip.Statement (.bar l) := by
  refine coreRound rfl fun v hv h => ?_
  have h0 : (field v 24 6).toNat = 50 := by simp [hv, field_push_low, field_push_high]
  have h1 : (field v 12 2).toNat = 0 := by simp [hv, field_push_low, field_push_high]
  delta decodeCore decodeBarrier
  rw [h0, h1]
  simp [hv, demand_legal, h, field_push_low, field_push_high, bit]

theorem RoundTrip.barr (d : BitVec 5) (a : BitVec 5) (l : BitVec 3) (c : BitVec 3) : RoundTrip.Statement (.barr d a l c) := by
  refine coreRound rfl fun v hv h => ?_
  have h0 : (field v 24 6).toNat = 50 := by simp [hv, field_push_low, field_push_high]
  have h1 : (field v 12 2).toNat = 1 := by simp [hv, field_push_low, field_push_high]
  delta decodeCore decodeBarrier
  rw [h0, h1]
  simp [hv, demand_legal, h, field_push_low, field_push_high, bit]

theorem RoundTrip.bara (l : BitVec 3) : RoundTrip.Statement (.bara l) := by
  refine coreRound rfl fun v hv h => ?_
  have h0 : (field v 24 6).toNat = 50 := by simp [hv, field_push_low, field_push_high]
  have h1 : (field v 12 2).toNat = 2 := by simp [hv, field_push_low, field_push_high]
  delta decodeCore decodeBarrier
  rw [h0, h1]
  simp [hv, demand_legal, h, field_push_low, field_push_high, bit]

theorem RoundTrip.barw (l : BitVec 3) : RoundTrip.Statement (.barw l) := by
  refine coreRound rfl fun v hv h => ?_
  have h0 : (field v 24 6).toNat = 50 := by simp [hv, field_push_low, field_push_high]
  have h1 : (field v 12 2).toNat = 3 := by simp [hv, field_push_low, field_push_high]
  delta decodeCore decodeBarrier
  rw [h0, h1]
  simp [hv, demand_legal, h, field_push_low, field_push_high, bit]

theorem RoundTrip.sig (a : BitVec 5) : RoundTrip.Statement (.sig a) := by
  refine coreRound rfl fun v hv h => ?_
  have h0 : (field v 24 6).toNat = 51 := by simp [hv, field_push_low, field_push_high]
  have h1 : (field v 12 2).toNat = 0 := by simp [hv, field_push_low, field_push_high]
  delta decodeCore decodeSignal
  rw [h0, h1]
  simp [hv, demand_legal, h, field_push_low, field_push_high, bit]

theorem RoundTrip.waitc (a : BitVec 5) : RoundTrip.Statement (.waitc a) := by
  refine coreRound rfl fun v hv h => ?_
  have h0 : (field v 24 6).toNat = 51 := by simp [hv, field_push_low, field_push_high]
  have h1 : (field v 12 2).toNat = 1 := by simp [hv, field_push_low, field_push_high]
  delta decodeCore decodeSignal
  rw [h0, h1]
  simp [hv, demand_legal, h, field_push_low, field_push_high, bit]

theorem RoundTrip.clrp (a : BitVec 5) (b : BitVec 5) : RoundTrip.Statement (.clrp a b) := by
  refine coreRound rfl fun v hv h => ?_
  have h0 : (field v 24 6).toNat = 52 := by simp [hv, field_push_low, field_push_high]
  have h1 : (field v 0 9).toNat = 0 := by simp [hv, field_push_low, field_push_high]
  delta decodeCore decodePresence
  rw [h0, h1]
  simp [hv, demand_legal, h, field_push_low, field_push_high, bit]

theorem RoundTrip.setp (a : BitVec 5) (b : BitVec 5) : RoundTrip.Statement (.setp a b) := by
  refine coreRound rfl fun v hv h => ?_
  have h0 : (field v 24 6).toNat = 52 := by simp [hv, field_push_low, field_push_high]
  have h1 : (field v 0 9).toNat = 1 := by simp [hv, field_push_low, field_push_high]
  delta decodeCore decodePresence
  rw [h0, h1]
  simp [hv, demand_legal, h, field_push_low, field_push_high, bit]

theorem RoundTrip.enq (q : BitVec 3) (f : BitVec 5) (c : BitVec 3) : RoundTrip.Statement (.enq q f c) := by
  refine coreRound rfl fun v hv h => ?_
  have h0 : (field v 24 6).toNat = 53 := by simp [hv, field_push_low, field_push_high]
  delta decodeCore
  rw [h0]
  simp [hv, demand_legal, h, field_push_low, field_push_high, bit]

theorem RoundTrip.enqi (q : BitVec 3) (l : BitVec 5) (o : BitVec 16) : RoundTrip.Statement (.enqi q l o) := by
  refine coreRound rfl fun v hv h => ?_
  have h0 : (field v 24 6).toNat = 54 := by simp [hv, field_push_low, field_push_high]
  delta decodeCore
  rw [h0]
  simp [hv, demand_legal, h, field_push_low, field_push_high, bit]

theorem RoundTrip.tokw (t : BitVec 6) : RoundTrip.Statement (.tokw t) := by
  refine coreRound rfl fun v hv h => ?_
  have h0 : (field v 24 6).toNat = 55 := by simp [hv, field_push_low, field_push_high]
  have h1 : (field v 12 2).toNat = 0 := by simp [hv, field_push_low, field_push_high]
  delta decodeCore decodeToken
  rw [h0, h1]
  simp [hv, demand_legal, h, field_push_low, field_push_high, bit]

theorem RoundTrip.tokq (d : BitVec 5) (t : BitVec 6) : RoundTrip.Statement (.tokq d t) := by
  refine coreRound rfl fun v hv h => ?_
  have h0 : (field v 24 6).toNat = 55 := by simp [hv, field_push_low, field_push_high]
  have h1 : (field v 12 2).toNat = 1 := by simp [hv, field_push_low, field_push_high]
  delta decodeCore decodeToken
  rw [h0, h1]
  simp [hv, demand_legal, h, field_push_low, field_push_high, bit]

theorem RoundTrip.kset (k : BitVec 3) (x : BitVec 5) (p : BitVec 2) : RoundTrip.Statement (.kset k x p) := by
  refine coreRound rfl fun v hv h => ?_
  have h0 : (field v 24 6).toNat = 56 := by simp [hv, field_push_low, field_push_high]
  have h1 : (field v 0 4).toNat = 0 := by simp [hv, field_push_low, field_push_high]
  delta decodeCore decodeMask
  rw [h0, h1]
  simp [hv, demand_legal, h, field_push_low, field_push_high, bit]

theorem RoundTrip.krange (k : BitVec 3) (x : BitVec 5) : RoundTrip.Statement (.krange k x) := by
  refine coreRound rfl fun v hv h => ?_
  have h0 : (field v 24 6).toNat = 56 := by simp [hv, field_push_low, field_push_high]
  have h1 : (field v 0 4).toNat = 1 := by simp [hv, field_push_low, field_push_high]
  delta decodeCore decodeMask
  rw [h0, h1]
  simp [hv, demand_legal, h, field_push_low, field_push_high, bit]

theorem RoundTrip.kand (k : BitVec 3) (a : BitVec 3) (b : BitVec 3) : RoundTrip.Statement (.kand k a b) := by
  refine coreRound rfl fun v hv h => ?_
  have h0 : (field v 24 6).toNat = 56 := by simp [hv, field_push_low, field_push_high]
  have h1 : (field v 0 4).toNat = 2 := by simp [hv, field_push_low, field_push_high]
  delta decodeCore decodeMask
  rw [h0, h1]
  simp [hv, demand_legal, h, field_push_low, field_push_high, bit]

theorem RoundTrip.kor (k : BitVec 3) (a : BitVec 3) (b : BitVec 3) : RoundTrip.Statement (.kor k a b) := by
  refine coreRound rfl fun v hv h => ?_
  have h0 : (field v 24 6).toNat = 56 := by simp [hv, field_push_low, field_push_high]
  have h1 : (field v 0 4).toNat = 3 := by simp [hv, field_push_low, field_push_high]
  delta decodeCore decodeMask
  rw [h0, h1]
  simp [hv, demand_legal, h, field_push_low, field_push_high, bit]

theorem RoundTrip.knot (k : BitVec 3) (a : BitVec 3) : RoundTrip.Statement (.knot k a) := by
  refine coreRound rfl fun v hv h => ?_
  have h0 : (field v 24 6).toNat = 56 := by simp [hv, field_push_low, field_push_high]
  have h1 : (field v 0 4).toNat = 4 := by simp [hv, field_push_low, field_push_high]
  delta decodeCore decodeMask
  rw [h0, h1]
  simp [hv, demand_legal, h, field_push_low, field_push_high, bit]

theorem RoundTrip.kpop (a : BitVec 3) (x : BitVec 5) : RoundTrip.Statement (.kpop a x) := by
  refine coreRound rfl fun v hv h => ?_
  have h0 : (field v 24 6).toNat = 56 := by simp [hv, field_push_low, field_push_high]
  have h1 : (field v 0 4).toNat = 5 := by simp [hv, field_push_low, field_push_high]
  delta decodeCore decodeMask
  rw [h0, h1]
  simp [hv, demand_legal, h, field_push_low, field_push_high, bit]

theorem RoundTrip.swopen (w : BitVec 4) (a : BitVec 5) (b : BitVec 5) : RoundTrip.Statement (.swopen w a b) := by
  refine coreRound rfl fun v hv h => ?_
  have h0 : (field v 24 6).toNat = 57 := by simp [hv, field_push_low, field_push_high]
  have h1 : (field v 0 9).toNat = 0 := by simp [hv, field_push_low, field_push_high]
  delta decodeCore decodeWindow
  rw [h0, h1]
  simp [hv, demand_legal, h, field_push_low, field_push_high, bit]

theorem RoundTrip.swadv (w : BitVec 4) (a : BitVec 5) : RoundTrip.Statement (.swadv w a) := by
  refine coreRound rfl fun v hv h => ?_
  have h0 : (field v 24 6).toNat = 57 := by simp [hv, field_push_low, field_push_high]
  have h1 : (field v 0 9).toNat = 1 := by simp [hv, field_push_low, field_push_high]
  delta decodeCore decodeWindow
  rw [h0, h1]
  simp [hv, demand_legal, h, field_push_low, field_push_high, bit]

theorem RoundTrip.swclose (w : BitVec 4) : RoundTrip.Statement (.swclose w) := by
  refine coreRound rfl fun v hv h => ?_
  have h0 : (field v 24 6).toNat = 57 := by simp [hv, field_push_low, field_push_high]
  have h1 : (field v 0 9).toNat = 2 := by simp [hv, field_push_low, field_push_high]
  delta decodeCore decodeWindow
  rw [h0, h1]
  simp [hv, demand_legal, h, field_push_low, field_push_high, bit]

theorem RoundTrip.nop (y : Bool) : RoundTrip.Statement (.nop y) := by
  refine coreRound rfl fun v hv h => ?_
  have h0 : (field v 24 6).toNat = 0 := by simp [hv, field_push_low, field_push_high]
  have h1 : (field v 10 4).toNat = 0 := by simp [hv, field_push_low, field_push_high]
  delta decodeCore decodeSystem
  rw [h0, h1]
  simp [hv, demand_legal, h, field_push_low, field_push_high, bit]

theorem RoundTrip.halt : RoundTrip.Statement .halt := by
  refine coreRound rfl fun v hv h => ?_
  have h0 : (field v 24 6).toNat = 0 := by simp [hv, field_push_low, field_push_high]
  have h1 : (field v 10 4).toNat = 1 := by simp [hv, field_push_low, field_push_high]
  delta decodeCore decodeSystem
  rw [h0, h1]
  simp [hv, demand_legal, h, field_push_low, field_push_high, bit]

theorem RoundTrip.trap (y : Bool) (i : BitVec 10) : RoundTrip.Statement (.trap y i) := by
  refine coreRound rfl fun v hv h => ?_
  have h0 : (field v 24 6).toNat = 0 := by simp [hv, field_push_low, field_push_high]
  have h1 : (field v 10 4).toNat = 2 := by simp [hv, field_push_low, field_push_high]
  delta decodeCore decodeSystem
  rw [h0, h1]
  simp [hv, demand_legal, h, field_push_low, field_push_high, bit]

theorem RoundTrip.tret : RoundTrip.Statement .tret := by
  refine coreRound rfl fun v hv h => ?_
  have h0 : (field v 24 6).toNat = 0 := by simp [hv, field_push_low, field_push_high]
  have h1 : (field v 10 4).toNat = 3 := by simp [hv, field_push_low, field_push_high]
  delta decodeCore decodeSystem
  rw [h0, h1]
  simp [hv, demand_legal, h, field_push_low, field_push_high, bit]

theorem RoundTrip.yield : RoundTrip.Statement .yield := by
  refine coreRound rfl fun v hv h => ?_
  have h0 : (field v 24 6).toNat = 0 := by simp [hv, field_push_low, field_push_high]
  have h1 : (field v 10 4).toNat = 4 := by simp [hv, field_push_low, field_push_high]
  delta decodeCore decodeSystem
  rw [h0, h1]
  simp [hv, demand_legal, h, field_push_low, field_push_high, bit]

theorem RoundTrip.brk (y : Bool) (i : BitVec 10) : RoundTrip.Statement (.brk y i) := by
  refine coreRound rfl fun v hv h => ?_
  have h0 : (field v 24 6).toNat = 0 := by simp [hv, field_push_low, field_push_high]
  have h1 : (field v 10 4).toNat = 5 := by simp [hv, field_push_low, field_push_high]
  delta decodeCore decodeSystem
  rw [h0, h1]
  simp [hv, demand_legal, h, field_push_low, field_push_high, bit]

theorem RoundTrip.mfs (y : Bool) (d : BitVec 5) (n : BitVec 8) : RoundTrip.Statement (.mfs y d n) := by
  refine coreRound rfl fun v hv h => ?_
  have h0 : (field v 24 6).toNat = 0 := by simp [hv, field_push_low, field_push_high]
  have h1 : (field v 10 4).toNat = 6 := by simp [hv, field_push_low, field_push_high]
  delta decodeCore decodeSystem
  rw [h0, h1]
  simp [hv, demand_legal, h, field_push_low, field_push_high, bit]

theorem RoundTrip.mts (a : BitVec 5) (n : BitVec 8) : RoundTrip.Statement (.mts a n) := by
  refine coreRound rfl fun v hv h => ?_
  have h0 : (field v 24 6).toNat = 0 := by simp [hv, field_push_low, field_push_high]
  have h1 : (field v 10 4).toNat = 7 := by simp [hv, field_push_low, field_push_high]
  delta decodeCore decodeSystem
  rw [h0, h1]
  simp [hv, demand_legal, h, field_push_low, field_push_high, bit]

theorem RoundTrip.chkb (y : Bool) (a : BitVec 5) (b : BitVec 5) : RoundTrip.Statement (.chkb y a b) := by
  refine coreRound rfl fun v hv h => ?_
  have h0 : (field v 24 6).toNat = 0 := by simp [hv, field_push_low, field_push_high]
  have h1 : (field v 10 4).toNat = 8 := by simp [hv, field_push_low, field_push_high]
  delta decodeCore decodeSystem
  rw [h0, h1]
  simp [hv, demand_legal, h, field_push_low, field_push_high, bit]

theorem RoundTrip.goMm : RoundTrip.Statement .goMm := fun _ => .inr rfl

theorem RoundTrip.goMmacc : RoundTrip.Statement .goMmacc := fun _ => .inr rfl

theorem RoundTrip.fire : RoundTrip.Statement .fire := fun _ => .inr rfl

theorem RoundTrip.collarArm : RoundTrip.Statement .collarArm := fun _ => .inr rfl

theorem RoundTrip.recfgE : RoundTrip.Statement .recfgE := fun _ => .inr rfl

theorem RoundTrip.recfgX : RoundTrip.Statement .recfgX := fun _ => .inr rfl

theorem RoundTrip.xctx : RoundTrip.Statement .xctx := fun _ => .inr rfl

theorem RoundTrip.strain : RoundTrip.Statement .strain := fun _ => .inr rfl

theorem RoundTrip.chain : RoundTrip.Statement .chain := fun _ => .inr rfl

theorem RoundTrip.kick : RoundTrip.Statement .kick := fun _ => .inr rfl

theorem RoundTrip.copy : RoundTrip.Statement .copy := fun _ => .inr rfl

theorem RoundTrip.fill : RoundTrip.Statement .fill := fun _ => .inr rfl

theorem RoundTrip.blend : RoundTrip.Statement .blend := fun _ => .inr rfl

theorem RoundTrip.stripPass (a : BitVec 3) (u : BitVec 2) : RoundTrip.Statement (.stripPass a u) := by
  refine stripRound rfl fun v hv h => ?_
  have h0 : (field v 26 6).toNat = 0 := by simp [hv, field_push_low, field_push_high]
  delta decodeStrip
  rw [h0]
  simp [hv, demand_legal, h, field_push_low, field_push_high, bit]

theorem RoundTrip.idle (u : BitVec 2) (n : BitVec 8) : RoundTrip.Statement (.idle u n) := by
  refine stripRound rfl fun v hv h => ?_
  have h0 : (field v 26 6).toNat = 1 := by simp [hv, field_push_low, field_push_high]
  delta decodeStrip
  rw [h0]
  simp [hv, demand_legal, h, field_push_low, field_push_high, bit]

theorem RoundTrip.stripEos (u : BitVec 2) (p : BitVec 4) (m : BitVec 4) : RoundTrip.Statement (.stripEos u p m) := by
  refine stripRound rfl fun v hv h => ?_
  have h0 : (field v 26 6).toNat = 2 := by simp [hv, field_push_low, field_push_high]
  delta decodeStrip
  rw [h0]
  simp [hv, demand_legal, h, field_push_low, field_push_high, bit]

theorem RoundTrip.fadd (a : BitVec 3) (b : BitVec 3) (u : BitVec 2) (t : BitVec 4) (r : BitVec 3) : RoundTrip.Statement (.fadd a b u t r) := by
  refine stripRound rfl fun v hv h => ?_
  have h0 : (field v 26 6).toNat = 4 := by simp [hv, field_push_low, field_push_high]
  delta decodeStrip
  rw [h0]
  simp [hv, demand_legal, h, field_push_low, field_push_high, bit]

theorem RoundTrip.fsub (a : BitVec 3) (b : BitVec 3) (u : BitVec 2) (t : BitVec 4) (r : BitVec 3) : RoundTrip.Statement (.fsub a b u t r) := by
  refine stripRound rfl fun v hv h => ?_
  have h0 : (field v 26 6).toNat = 5 := by simp [hv, field_push_low, field_push_high]
  delta decodeStrip
  rw [h0]
  simp [hv, demand_legal, h, field_push_low, field_push_high, bit]

theorem RoundTrip.fmul (a : BitVec 3) (b : BitVec 3) (u : BitVec 2) (t : BitVec 4) (r : BitVec 3) : RoundTrip.Statement (.fmul a b u t r) := by
  refine stripRound rfl fun v hv h => ?_
  have h0 : (field v 26 6).toNat = 6 := by simp [hv, field_push_low, field_push_high]
  delta decodeStrip
  rw [h0]
  simp [hv, demand_legal, h, field_push_low, field_push_high, bit]

theorem RoundTrip.ffma (a : BitVec 3) (b : BitVec 3) (c : BitVec 3) (u : BitVec 2) (t : BitVec 4) (r : BitVec 3) : RoundTrip.Statement (.ffma a b c u t r) := by
  refine stripRound rfl fun v hv h => ?_
  have h0 : (field v 26 6).toNat = 7 := by simp [hv, field_push_low, field_push_high]
  delta decodeStrip
  rw [h0]
  simp [hv, demand_legal, h, field_push_low, field_push_high, bit]

theorem RoundTrip.fmin (a : BitVec 3) (b : BitVec 3) (u : BitVec 2) (t : BitVec 4) : RoundTrip.Statement (.fmin a b u t) := by
  refine stripRound rfl fun v hv h => ?_
  have h0 : (field v 26 6).toNat = 8 := by simp [hv, field_push_low, field_push_high]
  delta decodeStrip
  rw [h0]
  simp [hv, demand_legal, h, field_push_low, field_push_high, bit]

theorem RoundTrip.fmax (a : BitVec 3) (b : BitVec 3) (u : BitVec 2) (t : BitVec 4) : RoundTrip.Statement (.fmax a b u t) := by
  refine stripRound rfl fun v hv h => ?_
  have h0 : (field v 26 6).toNat = 9 := by simp [hv, field_push_low, field_push_high]
  delta decodeStrip
  rw [h0]
  simp [hv, demand_legal, h, field_push_low, field_push_high, bit]

theorem RoundTrip.fabs (a : BitVec 3) (u : BitVec 2) (t : BitVec 4) : RoundTrip.Statement (.fabs a u t) := by
  refine stripRound rfl fun v hv h => ?_
  have h0 : (field v 26 6).toNat = 10 := by simp [hv, field_push_low, field_push_high]
  delta decodeStrip
  rw [h0]
  simp [hv, demand_legal, h, field_push_low, field_push_high, bit]

theorem RoundTrip.fneg (a : BitVec 3) (u : BitVec 2) (t : BitVec 4) : RoundTrip.Statement (.fneg a u t) := by
  refine stripRound rfl fun v hv h => ?_
  have h0 : (field v 26 6).toNat = 11 := by simp [hv, field_push_low, field_push_high]
  delta decodeStrip
  rw [h0]
  simp [hv, demand_legal, h, field_push_low, field_push_high, bit]

theorem RoundTrip.fcmpEq (a : BitVec 3) (b : BitVec 3) (u : BitVec 2) (t : BitVec 4) : RoundTrip.Statement (.fcmpEq a b u t) := by
  refine stripRound rfl fun v hv h => ?_
  have h0 : (field v 26 6).toNat = 12 := by simp [hv, field_push_low, field_push_high]
  delta decodeStrip
  rw [h0]
  simp [hv, demand_legal, h, field_push_low, field_push_high, bit]

theorem RoundTrip.fcmpLt (a : BitVec 3) (b : BitVec 3) (u : BitVec 2) (t : BitVec 4) : RoundTrip.Statement (.fcmpLt a b u t) := by
  refine stripRound rfl fun v hv h => ?_
  have h0 : (field v 26 6).toNat = 13 := by simp [hv, field_push_low, field_push_high]
  delta decodeStrip
  rw [h0]
  simp [hv, demand_legal, h, field_push_low, field_push_high, bit]

theorem RoundTrip.fcmpLe (a : BitVec 3) (b : BitVec 3) (u : BitVec 2) (t : BitVec 4) : RoundTrip.Statement (.fcmpLe a b u t) := by
  refine stripRound rfl fun v hv h => ?_
  have h0 : (field v 26 6).toNat = 14 := by simp [hv, field_push_low, field_push_high]
  delta decodeStrip
  rw [h0]
  simp [hv, demand_legal, h, field_push_low, field_push_high, bit]

theorem RoundTrip.fsel (a : BitVec 3) (b : BitVec 3) (c : BitVec 3) (u : BitVec 2) (t : BitVec 4) : RoundTrip.Statement (.fsel a b c u t) := by
  refine stripRound rfl fun v hv h => ?_
  have h0 : (field v 26 6).toNat = 15 := by simp [hv, field_push_low, field_push_high]
  delta decodeStrip
  rw [h0]
  simp [hv, demand_legal, h, field_push_low, field_push_high, bit]

theorem RoundTrip.iadd (a : BitVec 3) (b : BitVec 3) (u : BitVec 2) (t : BitVec 4) (r : BitVec 3) : RoundTrip.Statement (.iadd a b u t r) := by
  refine stripRound rfl fun v hv h => ?_
  have h0 : (field v 26 6).toNat = 16 := by simp [hv, field_push_low, field_push_high]
  delta decodeStrip
  rw [h0]
  simp [hv, demand_legal, h, field_push_low, field_push_high, bit]

theorem RoundTrip.isub (a : BitVec 3) (b : BitVec 3) (u : BitVec 2) (t : BitVec 4) (r : BitVec 3) : RoundTrip.Statement (.isub a b u t r) := by
  refine stripRound rfl fun v hv h => ?_
  have h0 : (field v 26 6).toNat = 17 := by simp [hv, field_push_low, field_push_high]
  delta decodeStrip
  rw [h0]
  simp [hv, demand_legal, h, field_push_low, field_push_high, bit]

theorem RoundTrip.iand (a : BitVec 3) (b : BitVec 3) (u : BitVec 2) (t : BitVec 4) : RoundTrip.Statement (.iand a b u t) := by
  refine stripRound rfl fun v hv h => ?_
  have h0 : (field v 26 6).toNat = 18 := by simp [hv, field_push_low, field_push_high]
  delta decodeStrip
  rw [h0]
  simp [hv, demand_legal, h, field_push_low, field_push_high, bit]

theorem RoundTrip.ior (a : BitVec 3) (b : BitVec 3) (u : BitVec 2) (t : BitVec 4) : RoundTrip.Statement (.ior a b u t) := by
  refine stripRound rfl fun v hv h => ?_
  have h0 : (field v 26 6).toNat = 19 := by simp [hv, field_push_low, field_push_high]
  delta decodeStrip
  rw [h0]
  simp [hv, demand_legal, h, field_push_low, field_push_high, bit]

theorem RoundTrip.ixor (a : BitVec 3) (b : BitVec 3) (u : BitVec 2) (t : BitVec 4) : RoundTrip.Statement (.ixor a b u t) := by
  refine stripRound rfl fun v hv h => ?_
  have h0 : (field v 26 6).toNat = 20 := by simp [hv, field_push_low, field_push_high]
  delta decodeStrip
  rw [h0]
  simp [hv, demand_legal, h, field_push_low, field_push_high, bit]

theorem RoundTrip.ishl (a : BitVec 3) (b : BitVec 3) (u : BitVec 2) (t : BitVec 4) : RoundTrip.Statement (.ishl a b u t) := by
  refine stripRound rfl fun v hv h => ?_
  have h0 : (field v 26 6).toNat = 21 := by simp [hv, field_push_low, field_push_high]
  delta decodeStrip
  rw [h0]
  simp [hv, demand_legal, h, field_push_low, field_push_high, bit]

theorem RoundTrip.ishr (a : BitVec 3) (b : BitVec 3) (u : BitVec 2) (t : BitVec 4) : RoundTrip.Statement (.ishr a b u t) := by
  refine stripRound rfl fun v hv h => ?_
  have h0 : (field v 26 6).toNat = 22 := by simp [hv, field_push_low, field_push_high]
  delta decodeStrip
  rw [h0]
  simp [hv, demand_legal, h, field_push_low, field_push_high, bit]

theorem RoundTrip.isar (a : BitVec 3) (b : BitVec 3) (u : BitVec 2) (t : BitVec 4) : RoundTrip.Statement (.isar a b u t) := by
  refine stripRound rfl fun v hv h => ?_
  have h0 : (field v 26 6).toNat = 23 := by simp [hv, field_push_low, field_push_high]
  delta decodeStrip
  rw [h0]
  simp [hv, demand_legal, h, field_push_low, field_push_high, bit]

theorem RoundTrip.imin (a : BitVec 3) (b : BitVec 3) (u : BitVec 2) (t : BitVec 4) : RoundTrip.Statement (.imin a b u t) := by
  refine stripRound rfl fun v hv h => ?_
  have h0 : (field v 26 6).toNat = 24 := by simp [hv, field_push_low, field_push_high]
  delta decodeStrip
  rw [h0]
  simp [hv, demand_legal, h, field_push_low, field_push_high, bit]

theorem RoundTrip.imax (a : BitVec 3) (b : BitVec 3) (u : BitVec 2) (t : BitVec 4) : RoundTrip.Statement (.imax a b u t) := by
  refine stripRound rfl fun v hv h => ?_
  have h0 : (field v 26 6).toNat = 25 := by simp [hv, field_push_low, field_push_high]
  delta decodeStrip
  rw [h0]
  simp [hv, demand_legal, h, field_push_low, field_push_high, bit]

theorem RoundTrip.cvt (a : BitVec 3) (u : BitVec 2) (t : BitVec 4) (r : BitVec 3) (s : BitVec 4) : RoundTrip.Statement (.cvt a u t r s) := by
  refine stripRound rfl fun v hv h => ?_
  have h0 : (field v 26 6).toNat = 28 := by simp [hv, field_push_low, field_push_high]
  delta decodeStrip
  rw [h0]
  simp [hv, demand_legal, h, field_push_low, field_push_high, bit]

theorem RoundTrip.quant (a : BitVec 3) (b : BitVec 3) (u : BitVec 2) (t : BitVec 4) (r : BitVec 3) (l : BitVec 1) : RoundTrip.Statement (.quant a b u t r l) := by
  refine stripRound rfl fun v hv h => ?_
  have h0 : (field v 26 6).toNat = 29 := by simp [hv, field_push_low, field_push_high]
  delta decodeStrip
  rw [h0]
  simp [hv, demand_legal, h, field_push_low, field_push_high, bit]

theorem RoundTrip.dequant (a : BitVec 3) (u : BitVec 2) (t : BitVec 4) (r : BitVec 3) : RoundTrip.Statement (.dequant a u t r) := by
  refine stripRound rfl fun v hv h => ?_
  have h0 : (field v 26 6).toNat = 30 := by simp [hv, field_push_low, field_push_high]
  delta decodeStrip
  rw [h0]
  simp [hv, demand_legal, h, field_push_low, field_push_high, bit]

theorem RoundTrip.pk4 (a : BitVec 3) (u : BitVec 2) : RoundTrip.Statement (.pk4 a u) := by
  refine stripRound rfl fun v hv h => ?_
  have h0 : (field v 26 6).toNat = 31 := by simp [hv, field_push_low, field_push_high]
  delta decodeStrip
  rw [h0]
  simp [hv, demand_legal, h, field_push_low, field_push_high, bit]

theorem RoundTrip.upk4 (a : BitVec 3) (u : BitVec 2) : RoundTrip.Statement (.upk4 a u) := by
  refine stripRound rfl fun v hv h => ?_
  have h0 : (field v 26 6).toNat = 32 := by simp [hv, field_push_low, field_push_high]
  delta decodeStrip
  rw [h0]
  simp [hv, demand_legal, h, field_push_low, field_push_high, bit]

theorem RoundTrip.stripHdr (a : BitVec 3) (u : BitVec 2) (d : BitVec 1) : RoundTrip.Statement (.stripHdr a u d) := by
  refine stripRound rfl fun v hv h => ?_
  have h0 : (field v 26 6).toNat = 33 := by simp [hv, field_push_low, field_push_high]
  delta decodeStrip
  rw [h0]
  simp [hv, demand_legal, h, field_push_low, field_push_high, bit]

theorem RoundTrip.rcp (a : BitVec 3) (u : BitVec 2) (t : BitVec 4) (r : BitVec 3) : RoundTrip.Statement (.rcp a u t r) := by
  refine stripRound rfl fun v hv h => ?_
  have h0 : (field v 26 6).toNat = 36 := by simp [hv, field_push_low, field_push_high]
  delta decodeStrip
  rw [h0]
  simp [hv, demand_legal, h, field_push_low, field_push_high, bit]

theorem RoundTrip.stripDiv (a : BitVec 3) (b : BitVec 3) (u : BitVec 2) (t : BitVec 4) (r : BitVec 3) : RoundTrip.Statement (.stripDiv a b u t r) := by
  refine stripRound rfl fun v hv h => ?_
  have h0 : (field v 26 6).toNat = 37 := by simp [hv, field_push_low, field_push_high]
  delta decodeStrip
  rw [h0]
  simp [hv, demand_legal, h, field_push_low, field_push_high, bit]

theorem RoundTrip.sqrt (a : BitVec 3) (u : BitVec 2) (t : BitVec 4) (r : BitVec 3) : RoundTrip.Statement (.sqrt a u t r) := by
  refine stripRound rfl fun v hv h => ?_
  have h0 : (field v 26 6).toNat = 38 := by simp [hv, field_push_low, field_push_high]
  delta decodeStrip
  rw [h0]
  simp [hv, demand_legal, h, field_push_low, field_push_high, bit]

theorem RoundTrip.rsqrt (a : BitVec 3) (u : BitVec 2) (t : BitVec 4) (r : BitVec 3) : RoundTrip.Statement (.rsqrt a u t r) := by
  refine stripRound rfl fun v hv h => ?_
  have h0 : (field v 26 6).toNat = 39 := by simp [hv, field_push_low, field_push_high]
  delta decodeStrip
  rw [h0]
  simp [hv, demand_legal, h, field_push_low, field_push_high, bit]

theorem RoundTrip.exp2 (a : BitVec 3) (u : BitVec 2) (t : BitVec 4) (r : BitVec 3) : RoundTrip.Statement (.exp2 a u t r) := by
  refine stripRound rfl fun v hv h => ?_
  have h0 : (field v 26 6).toNat = 40 := by simp [hv, field_push_low, field_push_high]
  delta decodeStrip
  rw [h0]
  simp [hv, demand_legal, h, field_push_low, field_push_high, bit]

theorem RoundTrip.log2 (a : BitVec 3) (u : BitVec 2) (t : BitVec 4) (r : BitVec 3) : RoundTrip.Statement (.log2 a u t r) := by
  refine stripRound rfl fun v hv h => ?_
  have h0 : (field v 26 6).toNat = 41 := by simp [hv, field_push_low, field_push_high]
  delta decodeStrip
  rw [h0]
  simp [hv, demand_legal, h, field_push_low, field_push_high, bit]

theorem RoundTrip.tanh (a : BitVec 3) (u : BitVec 2) (t : BitVec 4) (r : BitVec 3) : RoundTrip.Statement (.tanh a u t r) := by
  refine stripRound rfl fun v hv h => ?_
  have h0 : (field v 26 6).toNat = 42 := by simp [hv, field_push_low, field_push_high]
  delta decodeStrip
  rw [h0]
  simp [hv, demand_legal, h, field_push_low, field_push_high, bit]

theorem RoundTrip.rsum (a : BitVec 3) (u : BitVec 2) (t : BitVec 4) (x : BitVec 1) (m : BitVec 2) : RoundTrip.Statement (.rsum a u t x m) := by
  refine stripRound rfl fun v hv h => ?_
  have h0 : (field v 26 6).toNat = 44 := by simp [hv, field_push_low, field_push_high]
  delta decodeStrip
  rw [h0]
  simp [hv, demand_legal, h, field_push_low, field_push_high, bit]

theorem RoundTrip.rmax (a : BitVec 3) (u : BitVec 2) (t : BitVec 4) (x : BitVec 1) (m : BitVec 2) : RoundTrip.Statement (.rmax a u t x m) := by
  refine stripRound rfl fun v hv h => ?_
  have h0 : (field v 26 6).toNat = 45 := by simp [hv, field_push_low, field_push_high]
  delta decodeStrip
  rw [h0]
  simp [hv, demand_legal, h, field_push_low, field_push_high, bit]

theorem RoundTrip.rmin (a : BitVec 3) (u : BitVec 2) (t : BitVec 4) (x : BitVec 1) (m : BitVec 2) : RoundTrip.Statement (.rmin a u t x m) := by
  refine stripRound rfl fun v hv h => ?_
  have h0 : (field v 26 6).toNat = 46 := by simp [hv, field_push_low, field_push_high]
  delta decodeStrip
  rw [h0]
  simp [hv, demand_legal, h, field_push_low, field_push_high, bit]

theorem RoundTrip.scan (a : BitVec 3) (u : BitVec 2) (t : BitVec 4) (e : BitVec 1) : RoundTrip.Statement (.scan a u t e) := by
  refine stripRound rfl fun v hv h => ?_
  have h0 : (field v 26 6).toNat = 47 := by simp [hv, field_push_low, field_push_high]
  delta decodeStrip
  rw [h0]
  simp [hv, demand_legal, h, field_push_low, field_push_high, bit]

theorem RoundTrip.perm (a : BitVec 3) (b : BitVec 3) (u : BitVec 2) : RoundTrip.Statement (.perm a b u) := by
  refine stripRound rfl fun v hv h => ?_
  have h0 : (field v 26 6).toNat = 48 := by simp [hv, field_push_low, field_push_high]
  delta decodeStrip
  rw [h0]
  simp [hv, demand_legal, h, field_push_low, field_push_high, bit]

theorem RoundTrip.rot (a : BitVec 3) (u : BitVec 2) (n : BitVec 8) : RoundTrip.Statement (.rot a u n) := by
  refine stripRound rfl fun v hv h => ?_
  have h0 : (field v 26 6).toNat = 49 := by simp [hv, field_push_low, field_push_high]
  delta decodeStrip
  rw [h0]
  simp [hv, demand_legal, h, field_push_low, field_push_high, bit]

theorem RoundTrip.bcast (a : BitVec 3) (u : BitVec 2) (n : BitVec 8) : RoundTrip.Statement (.bcast a u n) := by
  refine stripRound rfl fun v hv h => ?_
  have h0 : (field v 26 6).toNat = 50 := by simp [hv, field_push_low, field_push_high]
  delta decodeStrip
  rw [h0]
  simp [hv, demand_legal, h, field_push_low, field_push_high, bit]

theorem RoundTrip.lds (u : BitVec 2) (c : BitVec 1) : RoundTrip.Statement (.lds u c) := by
  refine stripRound rfl fun v hv h => ?_
  have h0 : (field v 26 6).toNat = 52 := by simp [hv, field_push_low, field_push_high]
  delta decodeStrip
  rw [h0]
  simp [hv, demand_legal, h, field_push_low, field_push_high, bit]

theorem RoundTrip.sts (a : BitVec 3) (c : BitVec 1) (s : BitVec 1) : RoundTrip.Statement (.sts a c s) := by
  refine stripRound rfl fun v hv h => ?_
  have h0 : (field v 26 6).toNat = 53 := by simp [hv, field_push_low, field_push_high]
  delta decodeStrip
  rw [h0]
  simp [hv, demand_legal, h, field_push_low, field_push_high, bit]

theorem RoundTrip.gath (a : BitVec 3) (u : BitVec 2) : RoundTrip.Statement (.gath a u) := by
  refine stripRound rfl fun v hv h => ?_
  have h0 : (field v 26 6).toNat = 54 := by simp [hv, field_push_low, field_push_high]
  delta decodeStrip
  rw [h0]
  simp [hv, demand_legal, h, field_push_low, field_push_high, bit]

theorem RoundTrip.scat (a : BitVec 3) (b : BitVec 3) : RoundTrip.Statement (.scat a b) := by
  refine stripRound rfl fun v hv h => ?_
  have h0 : (field v 26 6).toNat = 55 := by simp [hv, field_push_low, field_push_high]
  delta decodeStrip
  rw [h0]
  simp [hv, demand_legal, h, field_push_low, field_push_high, bit]

theorem RoundTrip.dly (a : BitVec 3) (u : BitVec 2) (n : BitVec 8) : RoundTrip.Statement (.dly a u n) := by
  refine stripRound rfl fun v hv h => ?_
  have h0 : (field v 26 6).toNat = 56 := by simp [hv, field_push_low, field_push_high]
  delta decodeStrip
  rw [h0]
  simp [hv, demand_legal, h, field_push_low, field_push_high, bit]

theorem RoundTrip.vrd (u : BitVec 2) (t : BitVec 4) (v : BitVec 6) : RoundTrip.Statement (.vrd u t v) := by
  refine stripRound rfl fun v hv h => ?_
  have h0 : (field v 26 6).toNat = 58 := by simp [hv, field_push_low, field_push_high]
  delta decodeStrip
  rw [h0]
  simp [hv, demand_legal, h, field_push_low, field_push_high, bit]

theorem RoundTrip.vwr (a : BitVec 3) (t : BitVec 4) (v : BitVec 6) : RoundTrip.Statement (.vwr a t v) := by
  refine stripRound rfl fun v hv h => ?_
  have h0 : (field v 26 6).toNat = 59 := by simp [hv, field_push_low, field_push_high]
  delta decodeStrip
  rw [h0]
  simp [hv, demand_legal, h, field_push_low, field_push_high, bit]

theorem RoundTrip.tail (q : BitVec 12) (port : Option (BitVec 4)) (v : Word) :
    RoundTrip.Statement (.tail q port v) := fun _ => .inl rfl

theorem RoundTrip.notify (q : BitVec 12) (port : Option (BitVec 4)) :
    RoundTrip.Statement (.notify q port) := fun _ => .inl rfl

theorem RoundTrip.commandFetch (q : BitVec 12) :
    RoundTrip.Statement (.commandFetch q) := fun _ => .inl rfl

theorem RoundTrip.commandRefetch (q : BitVec 12) :
    RoundTrip.Statement (.commandRefetch q) := fun _ => .inl rfl

theorem RoundTrip.queueDescriptorWrite (q : BitVec 12) (dw : BitVec 2) (v : Word) :
    RoundTrip.Statement (.queueDescriptorWrite q dw v) := fun _ => .inl rfl

theorem RoundTrip.qerrClear (q : BitVec 12) :
    RoundTrip.Statement (.qerrClear q) := fun _ => .inl rfl

theorem RoundTrip.queueSwitchIn (q : BitVec 12) :
    RoundTrip.Statement (.queueSwitchIn q) := fun _ => .inl rfl

theorem RoundTrip.dispatch (part : BitVec 4) :
    RoundTrip.Statement (.dispatch part) := fun _ => .inl rfl

theorem RoundTrip.arm (q : BitVec 12) :
    RoundTrip.Statement (.arm q) := fun _ => .inl rfl

theorem RoundTrip.free (q : BitVec 12) :
    RoundTrip.Statement (.free q) := fun _ => .inl rfl

theorem RoundTrip.launch (q : BitVec 12) :
    RoundTrip.Statement (.launch q) := fun _ => .inl rfl

theorem RoundTrip.launchAllocate (q : BitVec 12) :
    RoundTrip.Statement (.launchAllocate q) := fun _ => .inl rfl

theorem RoundTrip.caddyBusyHit (task : Nat) :
    RoundTrip.Statement (.caddyBusyHit task) := fun _ => .inl rfl

theorem RoundTrip.steepSpecialise (task : Nat) :
    RoundTrip.Statement (.steepSpecialise task) := fun _ => .inl rfl

theorem RoundTrip.placeAndRoute (task : Nat) :
    RoundTrip.Statement (.placeAndRoute task) := fun _ => .inl rfl

theorem RoundTrip.configCode (task row : Nat) :
    RoundTrip.Statement (.configCode task row) := fun _ => .inl rfl

theorem RoundTrip.configContext (task row : Nat) :
    RoundTrip.Statement (.configContext task row) := fun _ => .inl rfl

theorem RoundTrip.configSlotTable (task row : Nat) :
    RoundTrip.Statement (.configSlotTable task row) := fun _ => .inl rfl

theorem RoundTrip.configDataBlock (task row : Nat) :
    RoundTrip.Statement (.configDataBlock task row) := fun _ => .inl rfl

theorem RoundTrip.configUniform (task row : Nat) :
    RoundTrip.Statement (.configUniform task row) := fun _ => .inl rfl

theorem RoundTrip.configEnd (task row : Nat) :
    RoundTrip.Statement (.configEnd task row) := fun _ => .inl rfl

theorem RoundTrip.taskStart (task : Nat) :
    RoundTrip.Statement (.taskStart task) := fun _ => .inl rfl

theorem RoundTrip.taskEnd (task : Nat) :
    RoundTrip.Statement (.taskEnd task) := fun _ => .inl rfl

theorem RoundTrip.saveTask (task : Nat) :
    RoundTrip.Statement (.saveTask task) := fun _ => .inl rfl

theorem RoundTrip.restoreTask (task : Nat) :
    RoundTrip.Statement (.restoreTask task) := fun _ => .inl rfl

theorem RoundTrip.pageResident (part : BitVec 4) (va : BitVec 57) :
    RoundTrip.Statement (.pageResident part va) := fun _ => .inl rfl

theorem RoundTrip.counterDecrement (ctr : BitVec 16) (senders : List Nat) :
    RoundTrip.Statement (.counterDecrement ctr senders) := fun _ => .inl rfl

theorem RoundTrip.hang (part : BitVec 4) :
    RoundTrip.Statement (.hang part) := fun _ => .inl rfl

theorem RoundTrip.barrierArrival (cell : Nat) (l : BitVec 3) :
    RoundTrip.Statement (.barrierArrival cell l) := fun _ => .inl rfl

theorem RoundTrip.barrierComplete (part : BitVec 4) (l : BitVec 3) (dom : Nat) :
    RoundTrip.Statement (.barrierComplete part l dom) := fun _ => .inl rfl

theorem RoundTrip.deferto (cell i : Nat) :
    RoundTrip.Statement (.deferto cell i) := fun _ => .inl rfl

theorem RoundTrip.storeRetire (cell : Nat) (c : BitVec 2) :
    RoundTrip.Statement (.storeRetire cell c) := fun _ => .inl rfl

theorem RoundTrip.leaveBag (cell i : Nat) :
    RoundTrip.Statement (.leaveBag cell i) := fun _ => .inl rfl

theorem RoundTrip.deliver (msg : Nat) :
    RoundTrip.Statement (.deliver msg) := fun _ => .inl rfl

theorem RoundTrip.responseArrival (msg : Nat) :
    RoundTrip.Statement (.responseArrival msg) := fun _ => .inl rfl

theorem RoundTrip.writeAcknowledgement (msg : Nat) :
    RoundTrip.Statement (.writeAcknowledgement msg) := fun _ => .inl rfl

theorem RoundTrip.refusal (msg : Nat) :
    RoundTrip.Statement (.refusal msg) := fun _ => .inl rfl

theorem RoundTrip.translationWalk (cell : Nat) (h : BitVec 4) :
    RoundTrip.Statement (.translationWalk cell h) := fun _ => .inl rfl

theorem RoundTrip.revocation (cell : Nat) (pfn : BitVec 36) :
    RoundTrip.Statement (.revocation cell pfn) := fun _ => .inl rfl

theorem RoundTrip.revocationComplete (pfn : BitVec 36) :
    RoundTrip.Statement (.revocationComplete pfn) := fun _ => .inl rfl

theorem RoundTrip.heatDecay : RoundTrip.Statement .heatDecay := fun _ => .inl rfl

theorem RoundTrip.migrationArm (die : BitVec 2) (part : BitVec 4) (va : BitVec 57) (dst : BitVec 36) :
    RoundTrip.Statement (.migrationArm die part va dst) := fun _ => .inl rfl

theorem RoundTrip.migrationCopy (die : BitVec 2) :
    RoundTrip.Statement (.migrationCopy die) := fun _ => .inl rfl

theorem RoundTrip.migrationRecopy (die : BitVec 2) :
    RoundTrip.Statement (.migrationRecopy die) := fun _ => .inl rfl

theorem RoundTrip.migrationHold (die : BitVec 2) :
    RoundTrip.Statement (.migrationHold die) := fun _ => .inl rfl

theorem RoundTrip.migrationSwitch (die : BitVec 2) :
    RoundTrip.Statement (.migrationSwitch die) := fun _ => .inl rfl

theorem RoundTrip.migrationForward (die : BitVec 2) :
    RoundTrip.Statement (.migrationForward die) := fun _ => .inl rfl

theorem RoundTrip.eviction (die : BitVec 2) (part : BitVec 4) (dst : BitVec 36) :
    RoundTrip.Statement (.eviction die part dst) := fun _ => .inl rfl

theorem RoundTrip.windowPublish (cell : Nat) (w : BitVec 4) :
    RoundTrip.Statement (.windowPublish cell w) := fun _ => .inl rfl

theorem RoundTrip.rowRetirement (row : RowId) (frames : List (BitVec 36)) :
    RoundTrip.Statement (.rowRetirement row frames) := fun _ => .inl rfl

theorem RoundTrip.retirementListUpdate (entries : List Word) :
    RoundTrip.Statement (.retirementListUpdate entries) := fun _ => .inl rfl

theorem RoundTrip.slotOwnerWrite (frame : Option Nat) (die : BitVec 2) (offset : Nat) (bytes : List Byte) :
    RoundTrip.Statement (.slotOwnerWrite frame die offset bytes) := fun _ => .inl rfl

theorem RoundTrip.slotOwnerApply (frame : Option Nat) (die : BitVec 2) :
    RoundTrip.Statement (.slotOwnerApply frame die) := fun _ => .inl rfl

theorem RoundTrip.circuitBeat (i : Nat) :
    RoundTrip.Statement (.circuitBeat i) := fun _ => .inl rfl

theorem RoundTrip.entryComplete (cell : Nat) (q : BitVec 2) :
    RoundTrip.Statement (.entryComplete cell q) := fun _ => .inl rfl

theorem RoundTrip.matrixStep (cell : Nat) :
    RoundTrip.Statement (.matrixStep cell) := fun _ => .inl rfl

theorem RoundTrip.retirement (cell : Nat) :
    RoundTrip.Statement (.retirement cell) := fun _ => .inl rfl

theorem RoundTrip.exitBankEmit (cell : Nat) :
    RoundTrip.Statement (.exitBankEmit cell) := fun _ => .inl rfl

theorem RoundTrip.aeBeWrite (cell : Nat) (be : Bool) :
    RoundTrip.Statement (.aeBeWrite cell be) := fun _ => .inl rfl

theorem RoundTrip.cfgToken (cell : Nat) (strip : BitVec 4) (input : BitVec 2) :
    RoundTrip.Statement (.cfgToken cell strip input) := fun _ => .inl rfl

theorem RoundTrip.snapshotRequest (cell : Nat) :
    RoundTrip.Statement (.snapshotRequest cell) := fun _ => .inl rfl

theorem RoundTrip.snapMarker (cell : Nat) (strip : BitVec 4) (input : BitVec 2) :
    RoundTrip.Statement (.snapMarker cell strip input) := fun _ => .inl rfl

theorem RoundTrip.snapshotComplete (cell : Nat) :
    RoundTrip.Statement (.snapshotComplete cell) := fun _ => .inl rfl

theorem RoundTrip.strainerRelease (cell : Nat) :
    RoundTrip.Statement (.strainerRelease cell) := fun _ => .inl rfl

theorem RoundTrip.copyRecord (cell : Nat) :
    RoundTrip.Statement (.copyRecord cell) := fun _ => .inl rfl

theorem RoundTrip.trapEntry (cell : Nat) :
    RoundTrip.Statement (.trapEntry cell) := fun _ => .inl rfl

theorem RoundTrip.fatalTrap (task : Nat) :
    RoundTrip.Statement (.fatalTrap task) := fun _ => .inl rfl

theorem RoundTrip.freeze (part : BitVec 4) :
    RoundTrip.Statement (.freeze part) := fun _ => .inl rfl

theorem RoundTrip.thaw (part : BitVec 4) :
    RoundTrip.Statement (.thaw part) := fun _ => .inl rfl

theorem RoundTrip.cellHalt (cell : Nat) :
    RoundTrip.Statement (.cellHalt cell) := fun _ => .inl rfl

theorem RoundTrip.partitionSwap (out inn : BitVec 4) :
    RoundTrip.Statement (.partitionSwap out inn) := fun _ => .inl rfl

theorem RoundTrip.blenderChunk (die : BitVec 2) :
    RoundTrip.Statement (.blenderChunk die) := fun _ => .inl rfl

theorem RoundTrip.dataFlitSend (link : Nat) (vc : BitVec 3) (payload : BitVec 384) :
    RoundTrip.Statement (.dataFlitSend link vc payload) := fun _ => .inl rfl

theorem RoundTrip.dataFlit (link : Nat) (flit : BitVec 512) :
    RoundTrip.Statement (.dataFlit link flit) := fun _ => .inl rfl

theorem RoundTrip.totalsFlit (link : Nat) (flit : BitVec 512) :
    RoundTrip.Statement (.totalsFlit link flit) := fun _ => .inl rfl

theorem RoundTrip.totalsSend (link : Nat) :
    RoundTrip.Statement (.totalsSend link) := fun _ => .inl rfl

theorem RoundTrip.replayRequest (link : Nat) (flit : BitVec 512) :
    RoundTrip.Statement (.replayRequest link flit) := fun _ => .inl rfl

theorem RoundTrip.keyInstall (link : Nat) (rx : Bool) (key : BitVec 128) (salt : BitVec 48) :
    RoundTrip.Statement (.keyInstall link rx key salt) := fun _ => .inl rfl

theorem RoundTrip.keySwitch (link : Nat) :
    RoundTrip.Statement (.keySwitch link) := fun _ => .inl rfl

theorem RoundTrip.exhaustionTimeout (link : Nat) :
    RoundTrip.Statement (.exhaustionTimeout link) := fun _ => .inl rfl

theorem RoundTrip.linkRetrain (link : Nat) :
    RoundTrip.Statement (.linkRetrain link) := fun _ => .inl rfl

theorem RoundTrip.eventRingSummary (part : BitVec 4) :
    RoundTrip.Statement (.eventRingSummary part) := fun _ => .inl rfl

theorem RoundTrip.powerEvent (part : BitVec 4) :
    RoundTrip.Statement (.powerEvent part) := fun _ => .inl rfl

theorem RoundTrip.boot (b : BootImages) :
    RoundTrip.Statement (.boot b) := fun _ => .inl rfl

theorem RoundTrip.ownerEnrolment (key : BitVec 512) (image : List Byte) (sig : BitVec 512) :
    RoundTrip.Statement (.ownerEnrolment key image sig) := fun _ => .inl rfl

theorem RoundTrip.ownershipTransfer (sig : BitVec 512) :
    RoundTrip.Statement (.ownershipTransfer sig) := fun _ => .inl rfl

theorem RoundTrip.acceptEmpty (sig : BitVec 512) :
    RoundTrip.Statement (.acceptEmpty sig) := fun _ => .inl rfl

theorem RoundTrip.attestationQuote (nonce : BitVec 256) :
    RoundTrip.Statement (.attestationQuote nonce) := fun _ => .inl rfl

theorem RoundTrip.partitionReset (part : BitVec 4) :
    RoundTrip.Statement (.partitionReset part) := fun _ => .inl rfl

theorem RoundTrip.configGenerationChange : RoundTrip.Statement .configGenerationChange := fun _ => .inl rfl

theorem RoundTrip.imageLoad (bytes : List Byte) :
    RoundTrip.Statement (.imageLoad bytes) := fun _ => .inl rfl

theorem RoundTrip.configurationWrite (w : ConfigWrite) :
    RoundTrip.Statement (.configurationWrite w) := fun _ => .inl rfl

theorem RoundTrip.memoryError (pa : BitVec 52) (len : Nat) (uncorrectable : Bool) :
    RoundTrip.Statement (.memoryError pa len uncorrectable) := fun _ => .inl rfl

theorem RoundTrip.powerLoss (torn : Option (BitVec 1)) :
    RoundTrip.Statement (.powerLoss torn) := fun _ => .inl rfl

theorem RoundTrip.configPacketCorruption (task row : Nat) (kind : BitVec 4) :
    RoundTrip.Statement (.configPacketCorruption task row kind) := fun _ => .inl rfl

end Sys2Proof.Laws
end

