-- ==== Sys2Proof/Laws/Store.lean ====
section
/-! SUPPORT. Laws of sparse stores and of byte memory: a read after a write, the frame of a write, and that every
operation keeps the canonical form. -/

namespace Sys2Proof.Laws

open Sys2Proof.Machine

variable {α : Type}

/-! ### Look-up and update -/

@[simp] theorem look_put_same (m : SMap α) (n : Nat) (a : α) : look (put m n a) n = some a := by
  induction m with
  | nil => simp [put, look]
  | cons p m ih =>
    obtain ⟨k, v⟩ := p
    simp only [put]
    split
    · simp [look]
    · split
      · simp [look]
      · rename_i h
        simp only [look, ih]
        rw [if_neg (Ne.symm h)]

theorem look_put_other (m : SMap α) {n k : Nat} (a : α) (h : k ≠ n) : look (put m n a) k = look m k := by
  induction m with
  | nil => simp [put, look, Ne.symm h]
  | cons p m ih =>
    obtain ⟨j, v⟩ := p
    simp only [put]
    split
    · simp [look, Ne.symm h]
    · split
      · rename_i e
        simp [look, ← e, Ne.symm h]
      · simp only [look, ih]

theorem look_del_other (m : SMap α) {n k : Nat} (h : k ≠ n) : look (del m n) k = look m k := by
  induction m with
  | nil => rfl
  | cons p m ih =>
    obtain ⟨j, v⟩ := p
    simp only [del]
    split
    · rename_i e
      simp [look, e, Ne.symm h]
    · simp only [look, ih]

theorem keysFrom_le (m : SMap α) {lo lo' : Nat} (h : lo' ≤ lo) (k : keysFrom lo m = true) : keysFrom lo' m = true := by
  cases m with
  | nil => rfl
  | cons p m =>
    obtain ⟨j, v⟩ := p
    simp only [keysFrom, Bool.and_eq_true, decide_eq_true_eq] at k ⊢
    exact ⟨by omega, k.2⟩

theorem look_below (m : SMap α) {lo n : Nat} (k : keysFrom lo m = true) (h : n < lo) : look m n = none := by
  induction m generalizing lo with
  | nil => rfl
  | cons p m ih =>
    obtain ⟨j, v⟩ := p
    simp only [keysFrom, Bool.and_eq_true, decide_eq_true_eq] at k
    simp only [look]
    rw [if_neg (by omega)]
    exact ih k.2 (by omega)

theorem look_del_same (m : SMap α) {lo : Nat} (n : Nat) (k : keysFrom lo m = true) : look (del m n) n = none := by
  induction m generalizing lo with
  | nil => rfl
  | cons p m ih =>
    obtain ⟨j, v⟩ := p
    simp only [keysFrom, Bool.and_eq_true, decide_eq_true_eq] at k
    simp only [del]
    split
    · rename_i e
      exact look_below m k.2 (by omega)
    · rename_i e
      simp only [look]
      rw [if_neg e]
      exact ih k.2

/-! ### Rising keys -/

theorem keysFrom_put (m : SMap α) {lo n : Nat} (a : α) (k : keysFrom lo m = true) (h : lo ≤ n) : keysFrom lo (put m n a) = true := by
  induction m generalizing lo with
  | nil => simp [put, keysFrom, h]
  | cons p m ih =>
    obtain ⟨j, v⟩ := p
    simp only [keysFrom, Bool.and_eq_true, decide_eq_true_eq] at k
    simp only [put]
    split
    · rename_i lt
      simp only [keysFrom, Bool.and_eq_true, decide_eq_true_eq]
      exact ⟨h, by omega, k.2⟩
    · split
      · rename_i e
        simp only [keysFrom, Bool.and_eq_true, decide_eq_true_eq]
        exact ⟨h, e ▸ k.2⟩
      · simp only [keysFrom, Bool.and_eq_true, decide_eq_true_eq]
        exact ⟨k.1, ih k.2 (by omega)⟩

theorem keysFrom_del (m : SMap α) {lo : Nat} (n : Nat) (k : keysFrom lo m = true) : keysFrom lo (del m n) = true := by
  induction m generalizing lo with
  | nil => rfl
  | cons p m ih =>
    obtain ⟨j, v⟩ := p
    simp only [keysFrom, Bool.and_eq_true, decide_eq_true_eq] at k
    simp only [del]
    split
    · exact keysFrom_le m (by omega) k.2
    · simp only [keysFrom, Bool.and_eq_true, decide_eq_true_eq]
      exact ⟨k.1, ih k.2⟩

theorem keysFrom_filter (m : SMap α) {lo : Nat} (f : Nat × α → Bool) (k : keysFrom lo m = true) :
    keysFrom lo (m.filter f) = true := by
  induction m generalizing lo with
  | nil => rfl
  | cons p m ih =>
    obtain ⟨j, v⟩ := p
    simp only [keysFrom, Bool.and_eq_true, decide_eq_true_eq] at k
    simp only [List.filter_cons]
    split
    · simp only [keysFrom, Bool.and_eq_true, decide_eq_true_eq]
      exact ⟨k.1, ih k.2⟩
    · exact ih (keysFrom_le m (by omega) k.2)

/-! ### Values -/

theorem all_put (m : SMap α) (n : Nat) (a : α) (f : Nat × α → Bool) (h : m.all f = true) (ha : f (n, a) = true) :
    (put m n a).all f = true := by
  induction m with
  | nil => simp [put, ha]
  | cons p m ih =>
    obtain ⟨j, v⟩ := p
    simp only [List.all_cons, Bool.and_eq_true] at h
    simp only [put]
    split
    · simp only [List.all_cons, Bool.and_eq_true]
      exact ⟨ha, h.1, h.2⟩
    · split
      · simp only [List.all_cons, Bool.and_eq_true]
        exact ⟨ha, h.2⟩
      · simp only [List.all_cons, Bool.and_eq_true]
        exact ⟨h.1, ih h.2⟩

theorem all_del (m : SMap α) (n : Nat) (f : Nat × α → Bool) (h : m.all f = true) : (del m n).all f = true := by
  induction m with
  | nil => rfl
  | cons p m ih =>
    obtain ⟨j, v⟩ := p
    simp only [List.all_cons, Bool.and_eq_true] at h
    simp only [del]
    split
    · exact h.2
    · simp only [List.all_cons, Bool.and_eq_true]
      exact ⟨h.1, ih h.2⟩

/-! ### The canonical form -/

theorem canon_poke [DecidableEq α] (d : α) (m : SMap α) (n : Nat) (a : α) (h : canon d m = true) : canon d (poke d m n a) = true := by
  simp only [canon, Bool.and_eq_true] at h ⊢
  simp only [poke]
  split
  · exact ⟨keysFrom_del m n h.1, all_del m n _ h.2⟩
  · rename_i ne
    exact ⟨keysFrom_put m a h.1 (Nat.zero_le n), all_put m n a _ h.2 (by simp [ne])⟩

theorem canon_filter [DecidableEq α] (d : α) (m : SMap α) (f : Nat × α → Bool) (h : canon d m = true) :
    canon d (m.filter f) = true := by
  simp only [canon, Bool.and_eq_true] at h ⊢
  refine ⟨keysFrom_filter m f h.1, ?_⟩
  rw [List.all_eq_true] at h ⊢
  exact fun x hx => h.2 x (List.mem_filter.mp hx).1

theorem peek_poke_same [DecidableEq α] (d : α) (m : SMap α) (n : Nat) (a : α) (h : canon d m = true) :
    peek d (poke d m n a) n = a := by
  simp only [canon, Bool.and_eq_true] at h
  simp only [peek, poke]
  split
  · rename_i e
    simp [look_del_same m n h.1, e]
  · simp

theorem peek_poke_other [DecidableEq α] (d : α) (m : SMap α) {n k : Nat} (a : α) (h : k ≠ n) :
    peek d (poke d m n a) k = peek d m k := by
  simp only [peek, poke]
  split
  · rw [look_del_other m h]
  · rw [look_put_other m a h]

/-! ### Byte memory -/

theorem wf_nil : Memory.wf [] = true := rfl

theorem writeByte_wf (m : Mem) (a : Nat) (b : Byte) (h : Memory.wf m = true) : Memory.wf (writeByte m a b) = true :=
  canon_poke 0 m a b h

theorem writeBytes_wf (bs : List Byte) (m : Mem) (a : Nat) (h : Memory.wf m = true) : Memory.wf (writeBytes m a bs) = true := by
  induction bs generalizing m a with
  | nil => exact h
  | cons b bs ih => exact ih _ _ (writeByte_wf m a b h)

theorem writeWord_wf (m : Mem) (a n : Nat) (v : Word) (h : Memory.wf m = true) : Memory.wf (writeWord m a n v) = true :=
  writeBytes_wf _ m a h

theorem memOf_wf (bs : List Byte) : Memory.wf (memOf bs) = true := writeBytes_wf bs [] 0 wf_nil

theorem filter_wf (m : Mem) (f : Nat × Byte → Bool) (h : Memory.wf m = true) : Memory.wf (m.filter f) = true :=
  canon_filter 0 m f h

/-- A byte reads back as it was written. -/
theorem readByte_writeByte_same (m : Mem) (a : Nat) (b : Byte) (h : Memory.wf m = true) : readByte (writeByte m a b) a = b :=
  peek_poke_same 0 m a b h

/-- A write leaves every other byte alone. -/
theorem readByte_writeByte_other (m : Mem) {a k : Nat} (b : Byte) (h : k ≠ a) : readByte (writeByte m a b) k = readByte m k :=
  peek_poke_other 0 m b h

/-- A wide write leaves every byte outside it alone. -/
theorem readByte_writeBytes_outside (bs : List Byte) (m : Mem) {a k : Nat} (h : k < a ∨ a + bs.length ≤ k) :
    readByte (writeBytes m a bs) k = readByte m k := by
  induction bs generalizing m a with
  | nil => rfl
  | cons b bs ih =>
    simp only [List.length_cons] at h
    rw [writeBytes, ih _ (by omega), readByte_writeByte_other m b (by omega)]

/-- A byte within a wide write reads back as it was written. -/
theorem readByte_writeBytes_inside (bs : List Byte) (m : Mem) (a i : Nat) (hi : i < bs.length) (h : Memory.wf m = true) :
    readByte (writeBytes m a bs) (a + i) = bs[i] := by
  induction bs generalizing m a i with
  | nil => simp at hi
  | cons b bs ih =>
    cases i with
    | zero =>
      rw [writeBytes, readByte_writeBytes_outside bs _ (by omega)]
      simpa using readByte_writeByte_same m a b h
    | succ i =>
      have e : a + (i + 1) = a + 1 + i := by omega
      rw [writeBytes, e, ih _ _ i (by simpa using hi) (writeByte_wf m a b h)]
      simp

@[simp] theorem readBytes_length (m : Mem) (a n : Nat) : (readBytes m a n).length = n := by
  induction n generalizing a with
  | zero => rfl
  | succ n ih => simp [readBytes, ih]

@[simp] theorem bytesOf_length (v n : Nat) : (bytesOf v n).length = n := by
  induction n generalizing v with
  | zero => rfl
  | succ n ih => simp [bytesOf, ih]

/-- Two memories that read alike from `a` on for `n` bytes give the same bytes. -/
theorem readBytes_congr (m m' : Mem) (a n : Nat) (h : ∀ k, a ≤ k → k < a + n → readByte m k = readByte m' k) :
    readBytes m a n = readBytes m' a n := by
  induction n generalizing a with
  | zero => rfl
  | succ n ih =>
    rw [readBytes, readBytes, h a (by omega) (by omega), ih (a + 1) fun k h1 h2 => h k (by omega) (by omega)]

/-- The bytes written are the bytes read. -/
theorem readBytes_writeBytes_same (bs : List Byte) (m : Mem) (a : Nat) (h : Memory.wf m = true) :
    readBytes (writeBytes m a bs) a bs.length = bs := by
  induction bs generalizing m a with
  | nil => rfl
  | cons b bs ih =>
    rw [List.length_cons, readBytes, writeBytes, ih _ _ (writeByte_wf m a b h),
      readByte_writeBytes_outside bs _ (by omega), readByte_writeByte_same m a b h]

/-- Bytes of a number give the number back, cut to their width. -/
theorem ofBytes_bytesOf (v n : Nat) : ofBytes (bytesOf v n) = v % 256 ^ n := by
  induction n generalizing v with
  | zero => simp [bytesOf, ofBytes, Nat.mod_one]
  | succ n ih =>
    rw [bytesOf, ofBytes, ih, Nat.pow_succ, Nat.mul_comm (256 ^ n) 256, Nat.mod_mul]
    simp

end Sys2Proof.Laws
end

