-- ==== Sys2Proof/Certificates/Slice0/Obligations.lean ====
section
/-! DEFINITION. The statements for the provers. -/

open Sys2Proof Sys2Proof.Machine

/-- A control-core word: a base word with fields laid in, each at its lowest bit. -/
def Claims.laid (base : Nat) (fs : List (Nat × Nat)) : Code := .core (BitVec.ofNat 32 (base + (fs.map fun f => f.1 * 2 ^ f.2).sum))

/-! ### Scalar instructions -/

/-- R50, R53, and R55 for `bfx`: a register-register instruction has the word its rule gives, reads a and then b, sets d to the value its rule gives, and its stream
goes on at the next instruction. Everything else in the package stays as it was: the conclusion gives the whole next
state. With x0, x30 and x31 as operands `sourceOf` and `destOf` say what R7, R9, R79 and R80 say of them. -/
def Obligations.RegisterArithmetic : Prop :=
  (∀ (y z : Bool) (d a b : BitVec 5), ∀ p ∈ ([(.add, 0x01000000), (.sub, 0x01000001), (.and, 0x01000002), (.or, 0x01000003),
      (.xor, 0x01000004), (.andn, 0x01000005), (.orn, 0x01000006), (.sll, 0x01000007), (.srl, 0x01000008), (.sra, 0x01000009),
      (.rol, 0x0100000A), (.ror, 0x0100000B), (.slt, 0x0100000C), (.sltn, 0x0100000D), (.min, 0x0100000E), (.max, 0x0100000F),
      (.minn, 0x01000010), (.maxn, 0x01000011), (.mul, 0x02000000), (.mulh, 0x02000001), (.mulhn, 0x02000002),
      (.div, 0x02000003), (.divn, 0x02000004), (.rem, 0x02000005), (.remn, 0x02000006), (.bfx, 0x03000009)] :
      List ((Bool → Bool → BitVec 5 → BitVec 5 → BitVec 5 → Instr) × Nat)),
    encode (p.1 y z d a b) = Claims.laid p.2 [(y.toNat, 31), (z.toNat, 30), (d.toNat, 19), (a.toNat, 14), (b.toNat, 9)]) ∧
  ∀ (y z : Bool) (d a b : BitVec 5) (s : State) (c c1 c2 : Cell) (va vb : Word),
    Ready s y c → sourceOf y a c = some (va, c1) → sourceOf y b c1 = some (vb, c2) →
    ∀ p ∈ ([(.add, va + vb), (.sub, va - vb), (.and, va &&& vb), (.or, va ||| vb), (.xor, va ^^^ vb),
        (.andn, va &&& ~~~vb), (.orn, va ||| ~~~vb),
        (.sll, va <<< (vb.toNat % 64)), (.srl, va >>> (vb.toNat % 64)), (.sra, va.sshiftRight (vb.toNat % 64)),
        (.rol, va.rotateLeft (vb.toNat % 64)), (.ror, va.rotateRight (vb.toNat % 64)),
        (.slt, if va.toInt < vb.toInt then 1 else 0), (.sltn, if va.toNat < vb.toNat then 1 else 0),
        (.min, if va.toInt ≤ vb.toInt then va else vb), (.max, if va.toInt ≤ vb.toInt then vb else va),
        (.minn, if va.toNat ≤ vb.toNat then va else vb), (.maxn, if va.toNat ≤ vb.toNat then vb else va),
        (.mul, va * vb), (.mulh, BitVec.ofInt 64 (va.toInt * vb.toInt / 2 ^ 64)),
        (.mulhn, BitVec.ofNat 64 (va.toNat * vb.toNat / 2 ^ 64)),
        (.div, if vb = 0 then BitVec.allOnes 64 else if va.toInt = -2 ^ 63 ∧ vb.toInt = -1 then va
          else BitVec.ofInt 64 (va.toInt.tdiv vb.toInt)),
        (.divn, if vb = 0 then BitVec.allOnes 64 else BitVec.ofNat 64 (va.toNat / vb.toNat)),
        (.rem, if vb = 0 then va else if va.toInt = -2 ^ 63 ∧ vb.toInt = -1 then 0
          else BitVec.ofInt 64 (va.toInt - vb.toInt * va.toInt.tdiv vb.toInt)),
        (.remn, if vb = 0 then va else BitVec.ofNat 64 (va.toNat % vb.toNat)),
        (.bfx, (va >>> (vb.toNat % 64)) &&&
          BitVec.ofNat 64 (2 ^ (if vb.toNat / 256 % 64 = 0 then 64 else vb.toNat / 256 % 64) - 1))] :
        List ((Bool → Bool → BitVec 5 → BitVec 5 → BitVec 5 → Instr) × Word)),
      ∀ c3, destOf y d p.2 c2 = some c3 → EndsAt (p.1 y z d a b) s (advance y c3)

/-- R51, R54: an instruction with one register source, or one and an immediate, has the word its rule gives and sets d to the
value its rule gives; a `shi` word with a zero field or kind out of range is none. -/
def Obligations.RegisterImmediate : Prop :=
  (∀ (y z : Bool) (d a : BitVec 5) (i : BitVec 14), ∀ p ∈ ([(.addi, 0x04000000), (.andi, 0x05000000), (.ori, 0x06000000),
      (.xori, 0x07000000), (.slti, 0x08000000), (.sltni, 0x09000000), (.muli, 0x0B000000)] :
      List ((Bool → Bool → BitVec 5 → BitVec 5 → BitVec 14 → Instr) × Nat)),
    encode (p.1 y z d a i) = Claims.laid p.2 [(y.toNat, 31), (z.toNat, 30), (d.toNat, 19), (a.toNat, 14), (i.toNat, 0)]) ∧
  (∀ (y z : Bool) (d a : BitVec 5) (h : BitVec 6), ∀ p ∈ ([(.shiSll, 0), (.shiSrl, 1), (.shiSra, 2), (.shiRol, 3), (.shiRor, 4)] :
      List ((Bool → Bool → BitVec 5 → BitVec 5 → BitVec 6 → Instr) × Nat)),
    encode (p.1 y z d a h) = Claims.laid 0x0A000000 [(y.toNat, 31), (z.toNat, 30), (d.toNat, 19), (a.toNat, 14), (p.2, 11), (h.toNat, 0)]) ∧
  (∀ w : BitVec 32, w.toNat / 2 ^ 24 % 64 = 0x0A → w.toNat / 2 ^ 6 % 32 ≠ 0 ∨ 5 ≤ w.toNat / 2 ^ 11 % 8 →
    ∀ i, decodeCore w ≠ .ok i) ∧
  (∀ (y z : Bool) (d a : BitVec 5), ∀ p ∈ ([(.clz, 0), (.ctz, 1), (.popc, 2), (.sxb, 3), (.sxh, 4), (.sxw, 5), (.zxb, 6), (.zxh, 7),
      (.zxw, 8)] : List ((Bool → Bool → BitVec 5 → BitVec 5 → Instr) × Nat)),
    encode (p.1 y z d a) = Claims.laid 0x03000000 [(y.toNat, 31), (z.toNat, 30), (d.toNat, 19), (a.toNat, 14), (p.2, 0)]) ∧
  ∀ (y z : Bool) (d a : BitVec 5) (i : BitVec 14) (h : BitVec 6) (s : State) (c c1 : Cell) (va : Word),
    Ready s y c → sourceOf y a c = some (va, c1) →
    ∀ p ∈ ([(.clz y z d a, BitVec.ofNat 64 ((List.range 64).takeWhile fun n => !va.getLsbD (63 - n)).length),
        (.ctz y z d a, BitVec.ofNat 64 ((List.range 64).takeWhile fun n => !va.getLsbD n).length),
        (.popc y z d a, BitVec.ofNat 64 ((List.range 64).filter va.getLsbD).length),
        (.sxb y z d a, (va.setWidth 8).signExtend 64), (.sxh y z d a, (va.setWidth 16).signExtend 64),
        (.sxw y z d a, (va.setWidth 32).signExtend 64), (.zxb y z d a, BitVec.ofNat 64 (va.toNat % 2 ^ 8)),
        (.zxh y z d a, BitVec.ofNat 64 (va.toNat % 2 ^ 16)), (.zxw y z d a, BitVec.ofNat 64 (va.toNat % 2 ^ 32)),
        (.addi y z d a i, va + i.signExtend 64), (.andi y z d a i, va &&& BitVec.ofNat 64 i.toNat),
        (.ori y z d a i, va ||| BitVec.ofNat 64 i.toNat), (.xori y z d a i, va ^^^ BitVec.ofNat 64 i.toNat),
        (.slti y z d a i, if va.toInt < i.toInt then 1 else 0),
        (.sltni y z d a i, if va.toNat < (i.signExtend 64).toNat then 1 else 0),
        (.muli y z d a i, va * i.signExtend 64),
        (.shiSll y z d a h, va <<< h.toNat), (.shiSrl y z d a h, va >>> h.toNat), (.shiSra y z d a h, va.sshiftRight h.toNat),
        (.shiRol y z d a h, va.rotateLeft h.toNat), (.shiRor y z d a h, va.rotateRight h.toNat)] : List (Instr × Word)),
      ∀ c2, destOf y d p.2 c1 = some c2 → EndsAt p.1 s (advance y c2)

/-- R52, and R55 and R56 for what `bfi` and `sel` do: constants, with their words, and the instructions that read the register
they write or that choose. An instruction that reads d after its other sources writes it back. -/
def Obligations.ConstantsAndSelection : Prop :=
  ∀ (y z : Bool) (d a b e : BitVec 5) (i : BitVec 19) (s : State) (c : Cell), Ready s y c →
    (∀ p ∈ [(Instr.lui y z d i, 0x0C000000), (.aui y z d i, 0x0D000000), (.lic y z d i, 0x0E000000)],
      encode p.1 = Claims.laid p.2 [(y.toNat, 31), (z.toNat, 30), (d.toNat, 19), (i.toNat, 0)]) ∧
    (∀ c', destOf y d (i.signExtend 64) c = some c' → EndsAt (.lui y z d i) s (advance y c')) ∧
    (d.toNat < 30 → ∀ vd c1, sourceOf y d c = some (vd, c1) →
      (∀ c', destOf y d (vd + i.signExtend 64 * 2 ^ 14) c1 = some c' → EndsAt (.aui y z d i) s (advance y c')) ∧
      (∀ c', destOf y d (BitVec.ofNat 64 (vd.toNat * 2 ^ 19 + i.toNat)) c1 = some c' → EndsAt (.lic y z d i) s (advance y c'))) ∧
    (∀ va c1 vb c2, sourceOf y a c = some (va, c1) → sourceOf y b c1 = some (vb, c2) →
      (d.toNat < 30 → ∀ vd c3, sourceOf y d c2 = some (vd, c3) →
        ∀ c', destOf y d (BitVec.ofFnLE fun n : Fin 64 =>
            if vb.toNat % 64 ≤ n ∧ n < vb.toNat % 64 + (if vb.toNat / 256 % 64 = 0 then 64 else vb.toNat / 256 % 64)
            then va.getLsbD (n - vb.toNat % 64) else vd.getLsbD n) c3 = some c' →
          EndsAt (.bfi y z d a b) s (advance y c')) ∧
      (∀ ve c3, sourceOf y e c2 = some (ve, c3) →
        ∀ c', destOf y d (if ve = 0 then vb else va) c3 = some c' → EndsAt (.sel y z d a b e) s (advance y c')))

/-- R57, R58, R61: the words of the branches, which are taken, where they go, and that the decided outcome waits for the other stream
(`decided`). Offsets are words, counted from the branch itself (R10). -/
def Obligations.Branches : Prop :=
  ∀ (y z : Bool) (a b : BitVec 5) (o : BitVec 14) (o' : BitVec 13) (n : BitVec 6) (s : State) (c : Cell), Ready s y c →
    (∀ p ∈ [(Instr.beq y z a b o, 0x10000000), (.bne y z a b o, 0x11000000), (.blt y z a b o, 0x12000000),
        (.bge y z a b o, 0x13000000), (.bltn y z a b o, 0x14000000), (.bgen y z a b o, 0x15000000)],
      encode p.1 = Claims.laid p.2 [(y.toNat, 31), (z.toNat, 30), (a.toNat, 19), (b.toNat, 14), (o.toNat, 0)]) ∧
    (∀ p ∈ [(Instr.bbs y z a n o', 0x16000000), (.bbc y z a n o', 0x17000000)],
      encode p.1 = Claims.laid p.2 [(y.toNat, 31), (z.toNat, 30), (a.toNat, 19), (n.toNat, 13), (o'.toNat, 0)]) ∧
    encode (.loop y z a o) = Claims.laid 0x1B000000 [(y.toNat, 31), (z.toNat, 30), (a.toNat, 19), (o.toNat, 0)] ∧
    (∀ va c1 vb c2, sourceOf y a c = some (va, c1) → sourceOf y b c1 = some (vb, c2) →
      ∀ p ∈ ([(.beq, decide (va = vb)), (.bne, decide (va ≠ vb)), (.blt, decide (va.toInt < vb.toInt)),
          (.bge, decide (vb.toInt ≤ va.toInt)), (.bltn, decide (va.toNat < vb.toNat)),
          (.bgen, decide (vb.toNat ≤ va.toNat))] :
          List ((Bool → Bool → BitVec 5 → BitVec 5 → BitVec 14 → Instr) × Bool)),
        ∀ c', decided y p.2 (getPlace c2.core y + o.signExtend 64 * 4) c2 = some c' → EndsAt (p.1 y z a b o) s c') ∧
    (∀ va c1, sourceOf y a c = some (va, c1) →
      ∀ p ∈ ([(.bbs, va.getLsbD n.toNat), (.bbc, !va.getLsbD n.toNat)] :
          List ((Bool → Bool → BitVec 5 → BitVec 6 → BitVec 13 → Instr) × Bool)),
        ∀ c', decided y p.2 (getPlace c1.core y + o'.signExtend 64 * 4) c1 = some c' → EndsAt (p.1 y z a n o') s c') ∧
    (a.toNat < 30 → ∀ va c1 c2, sourceOf y a c = some (va, c1) → destOf y a (va - 1) c1 = some c2 →
      ∀ c', decided y (decide (va ≠ 1)) (getPlace c2.core y + o.signExtend 64 * 4) c2 = some c' →
        EndsAt (.loop y z a o) s c')

/-- R59, R60: jumps and calls, with their words. The link is the offset of the next instruction; `jalr` reads a before it writes the link, and
a target that is no multiple of four traps ALIGN, with no link written. -/
def Obligations.JumpsAndCalls : Prop :=
  ∀ (y z : Bool) (d a : BitVec 5) (i : BitVec 14) (o : BitVec 24) (s : State) (c : Cell), Ready s y c →
    encode (.j y z o) = Claims.laid 0x18000000 [(y.toNat, 31), (z.toNat, 30), (o.toNat, 0)] ∧
    encode (.jal y o) = Claims.laid 0x19000000 [(y.toNat, 31), (o.toNat, 0)] ∧
    encode (.jalr y d a i) = Claims.laid 0x1A000000 [(y.toNat, 31), (d.toNat, 19), (a.toNat, 14), (i.toNat, 0)] ∧
    (∀ c', decided y true (getPlace c.core y + o.signExtend 64 * 4) c = some c' → EndsAt (.j y z o) s c') ∧
    (∀ c1 c', destOf y 1 (getPlace c.core y + 4) c = some c1 →
      decided y true (getPlace c.core y + o.signExtend 64 * 4) c1 = some c' → EndsAt (.jal y o) s c') ∧
    (∀ va c1, sourceOf y a c = some (va, c1) →
      ((va.toNat % 4 = 0 → ∀ c2 c', destOf y d (getPlace c1.core y + 4) c1 = some c2 →
          decided y true (va + i.signExtend 64 * 4) c2 = some c' → EndsAt (.jalr y d a i) s c') ∧
       (va.toNat % 4 ≠ 0 → exec (.jalr y d a i) s =
          .next (raise s s.focus.cell { code := .align, unit := if y then 1 else 0, word := coreWord (.jalr y d a i) }))))

/-- R62, R105: a local load reads `size` bytes at base + sx(imm12) × size, from the newest store of its own class and
stream where one covers a byte (R198), and extends them. A load of an empty presence word, of bytes that no buffered store
of its class and stream covers, is deferred: the stream goes on, the read stands at its bank, and nothing is written yet. -/
def Obligations.LocalLoads : Prop :=
  ∀ (y : Bool) (d b : BitVec 5) (k : BitVec 2) (o : BitVec 12) (s : State) (c c1 : Cell) (vb : Word),
    Ready s y c → debugs s c = false → sourceOf y b c = some (vb, c1) →
    ∀ p ∈ ([(.ldb y d b k o, 1, true), (.ldh y d b k o, 2, true), (.ldw y d b k o, 4, true), (.ldd y d b k o, 8, false),
        (.ldbn y d b k o, 1, false), (.ldhn y d b k o, 2, false), (.ldwn y d b k o, 4, false)] : List (Instr × Nat × Bool)),
      ∀ ea : Word, ea = vb + o.signExtend 64 * BitVec.ofNat 64 p.2.1 →
      ea.toNat < 0xC0000 → ea.toNat % p.2.1 = 0 →
      (isEmpty c1 ea.toNat = false → ∀ c', destOf y d
          (if p.2.2 then BitVec.ofInt 64 (Int.bmod (ofBytes (loadBytes c1 y k ea.toNat p.2.1)) (2 ^ (8 * p.2.1)))
           else BitVec.ofNat 64 (ofBytes (loadBytes c1 y k ea.toNat p.2.1))) c1 = some c' →
        EndsAt p.1 s (advance y c')) ∧
      (isEmpty c1 ea.toNat = true → (∀ e ∈ c1.mem.bufs[k.toNat]'k.isLt, e.acc ≠ y) →
        let read (x : Deferred) (r : Reader) : Prop :=
          x.addr = ea.toNat ∧ x.size = p.2.1 ∧ x.signed = p.2.2 ∧ x.reader = r ∧ x.since = s.now
        let waits (x : Deferred) (l : List LdqEntry) : Prop := EndsAt p.1 s (advance y { c1 with
          core := { c1.core with ldq := c1.core.ldq ++ l }, mem := { c1.mem with deferred := c1.mem.deferred ++ [x] } })
        ((y = true → d.toNat < 30 ∧ bit c1.core.busy d.toNat = false) →
          (y = false → d.toNat < 30 ∨ d = 31 ∧ c1.core.eaq.length < 16 ∧ storesBuffered c1 false = false) →
          ∃ x, read x (.stream y d) ∧ waits x []) ∧
        (y = true → d = 30 → c1.core.ldq.length < 32 → storesBuffered c1 true = false →
          ∃ x n, read x (.ldq n) ∧ waits x [⟨n, false, [], false⟩]))

/-- R62, R340: a local access outside scratch traps ACCESS, a misaligned one ALIGN, and the instruction has no other effect
(R18): the next state is the state before with the trap raised. -/
def Obligations.LocalAccessTraps : Prop :=
  ∀ (y : Bool) (r b : BitVec 5) (k : BitVec 2) (o : BitVec 12) (s : State) (c c1 : Cell) (vb : Word),
    Ready s y c → sourceOf y b c = some (vb, c1) →
    (∀ p ∈ ([(.ldb y r b k o, 1), (.ldh y r b k o, 2), (.ldw y r b k o, 4), (.ldd y r b k o, 8),
        (.ldbn y r b k o, 1), (.ldhn y r b k o, 2), (.ldwn y r b k o, 4)] : List (Instr × Nat)),
      ∀ ea : Word, ea = vb + o.signExtend 64 * BitVec.ofNat 64 p.2 →
      (0xC0000 ≤ ea.toNat → exec p.1 s = .next (raise s s.focus.cell
        { code := .access, unit := if y then 1 else 0, word := coreWord p.1 })) ∧
      (ea.toNat < 0xC0000 → ea.toNat % p.2 ≠ 0 → exec p.1 s = .next (raise s s.focus.cell
        { code := .align, unit := if y then 1 else 0, word := coreWord p.1 }))) ∧
    (∀ v c2, sourceOf y r c1 = some (v, c2) →
      ∀ p ∈ ([(.stb y r b k o, 1), (.sth y r b k o, 2), (.stw y r b k o, 4), (.std y r b k o, 8)] : List (Instr × Nat)),
      ∀ ea : Word, ea = vb + o.signExtend 64 * BitVec.ofNat 64 p.2 →
      (0xC0000 ≤ ea.toNat → exec p.1 s = .next (raise s s.focus.cell
        { code := .access, unit := if y then 1 else 0, word := coreWord p.1 })) ∧
      (ea.toNat < 0xC0000 → ea.toNat % p.2 ≠ 0 → exec p.1 s = .next (raise s s.focus.cell
        { code := .align, unit := if y then 1 else 0, word := coreWord p.1 })))

/-- R65: `ldu` has its word and reads a doubleword of the uniform block; past ULEN it traps ACCESS, misaligned ALIGN. -/
def Obligations.UniformLoads : Prop :=
  ∀ (y z : Bool) (d b : BitVec 5) (o : BitVec 12) (s : State) (c c1 : Cell) (vb ua : Word),
    Ready s y c → sourceOf y b c = some (vb, c1) → ua = vb + o.signExtend 64 * 8 →
    encode (.ldu y z d b o) = Claims.laid 0x27000000 [(y.toNat, 31), (z.toNat, 30), (d.toNat, 19), (b.toNat, 14), (o.toNat, 0)] ∧
    (ua.toNat + 8 ≤ c1.mem.ulen → ua.toNat % 8 = 0 →
      ∀ c', destOf y d (BitVec.ofNat 64 (ofBytes (readBytes c1.mem.uniform ua.toNat 8))) c1 = some c' →
        EndsAt (.ldu y z d b o) s (advance y c')) ∧
    (c1.mem.ulen < ua.toNat + 8 → exec (.ldu y z d b o) s = .next (raise s s.focus.cell
      { code := .access, unit := if y then 1 else 0, word := coreWord (.ldu y z d b o) })) ∧
    (ua.toNat + 8 ≤ c1.mem.ulen → ua.toNat % 8 ≠ 0 → exec (.ldu y z d b o) s = .next (raise s s.focus.cell
      { code := .align, unit := if y then 1 else 0, word := coreWord (.ldu y z d b o) }))

/-! ### Lane masks, special registers and system instructions -/

/-- R66: the masks are full at task start; the word of each mask instruction, the value it gives to every lane of its
destination, and what `kpop` counts. -/
def Obligations.LaneMasks : Prop :=
  (∀ m : Fin 8, Cell.fresh.core.masks[m.val]'m.isLt = BitVec.allOnes 192) ∧
  (∀ (k a b : BitVec 3) (x : BitVec 5) (p : BitVec 2), ∀ q ∈ ([(.kset k x p, k, 0, 0, x, p, 0), (.krange k x, k, 0, 0, x, 0, 1),
      (.kand k a b, k, a, b, 0, 0, 2), (.kor k a b, k, a, b, 0, 0, 3), (.knot k a, k, a, 0, 0, 0, 4), (.kpop a x, 0, a, 0, x, 0, 5)] :
      List (Instr × BitVec 3 × BitVec 3 × BitVec 3 × BitVec 5 × BitVec 2 × Nat)),
    encode q.1 = Claims.laid 0x38000000 [(q.2.1.toNat, 21), (q.2.2.1.toNat, 18), (q.2.2.2.1.toNat, 15), (q.2.2.2.2.1.toNat, 10),
      (q.2.2.2.2.2.1.toNat, 4), (q.2.2.2.2.2.2, 0)]) ∧
  ∀ (k a b : BitVec 3) (x : BitVec 5) (p : BitVec 2) (s : State) (c : Cell), Ready s false c →
    let lanes (c : Cell) (m : BitVec 3) (i : Nat) : Bool := (c.core.masks[m.toNat]'m.isLt).getLsbD i
    let put_ (c : Cell) (f : Nat → Bool) : Cell := { c with core := { c.core with
      masks := c.core.masks.set k.toNat (BitVec.ofFnLE fun i : Fin 192 => f i) k.isLt } }
    (∀ v c1, sourceOf false x c = some (v, c1) →
      (p ≠ 3 → EndsAt (.kset k x p) s (advance false
        (put_ c1 fun i => if i / 64 = p.toNat then v.getLsbD (i % 64) else lanes c1 k i))) ∧
      EndsAt (.krange k x) s (advance false
        (put_ c1 fun i => decide (v.toNat % 256 ≤ i ∧ i < min (v.toNat % 256 + v.toNat / 256 % 256) 192)))) ∧
    EndsAt (.kand k a b) s (advance false (put_ c fun i => lanes c a i && lanes c b i)) ∧
    EndsAt (.kor k a b) s (advance false (put_ c fun i => lanes c a i || lanes c b i)) ∧
    EndsAt (.knot k a) s (advance false (put_ c fun i => !lanes c a i)) ∧
    (∀ c1, destOf false x (BitVec.ofNat 64 ((List.range 192).filter (lanes c a)).length) c = some c1 →
      EndsAt (.kpop a x) s (advance false c1))

/-- R15, R16, R72: `mfs` reads each special register under its number; CYC counts the device cycles since the superstep
began. A number that names none traps ILLEGAL. -/
def Obligations.SpecialRegisterReads : Prop :=
  ∀ (y : Bool) (d : BitVec 5) (n : BitVec 8) (s : State) (c : Cell), Ready s y c →
    (∀ p ∈ ([(0x00, zx c.core.sr.cellid), (0x01, zx c.core.sr.lcell), (0x02, zx c.core.sr.taskid),
        (0x04, zx c.core.sr.maxk), (0x05, zx c.core.sr.pgmode), (0x06, c.core.sr.domain), (0x07, c.core.sr.trapvec),
        (0x08, zx c.core.sr.defer), (0x09, zx c.core.sr.ftz), (0x10, c.core.sr.trec[0]), (0x11, c.core.sr.trec[1]),
        (0x12, c.core.sr.trec[2]), (0x13, c.core.sr.trec[3]), (0x14, c.core.sr.trec[4]), (0x15, c.core.sr.trec[5]),
        (0x16, c.core.sr.trec[6]), (0x17, c.core.sr.trec[7])] : List (BitVec 8 × Word)),
      ∀ c', destOf y d p.2 c = some c' → EndsAt (.mfs y d p.1) s (advance y c')) ∧
    (c.frozen = none → ∀ c', destOf y d (BitVec.ofNat 64 ((s.now - c.core.sr.cycBase) % 2 ^ 32)) c = some c' →
      EndsAt (.mfs y d 0x03) s (advance y c')) ∧
    ((9 < n.toNat ∧ n.toNat < 16) ∨ 23 < n.toNat → exec (.mfs y d n) s = .next (raise s s.focus.cell
      { code := .illegal, unit := if y then 1 else 0, word := coreWord (.mfs y d n) }))

/-- R15, R16, R72, R103: `mts` writes TRAPVEC (bits 1 and 0 read zero), DEFER (256 at least), FTZ and PGMODE; a group that
enters presence mode has no empty word; a read-only number traps ACCESS, an absent one ILLEGAL. R97 does not list `mts`
among the instructions at which the access stream stops: that `mts` waits until the access stream has come to it (and a
write of PGMODE until no store is buffered), and that the access stream may pass only then, is the model's choice
(assumption 15). -/
def Obligations.SpecialRegisterWrites : Prop :=
  ∀ (a : BitVec 5) (n : BitVec 8) (s : State) (c c1 : Cell) (v : Word), Ready s false c →
    sourceOf false a c = some (v, c1) →
    (accessReached c.core = false → exec (.mts a n) s = .next s) ∧
    (accessReached c.core = true →
    let set_ (f : Specials → Specials) : Cell := advance false { c1 with core := { c1.core with
      sr := f c1.core.sr, path := c1.core.path ++ [.pass] } }
    EndsAt (.mts a 0x07) s (set_ fun r => { r with trapvec := BitVec.ofNat 64 (v.toNat / 4 * 4) }) ∧
    EndsAt (.mts a 0x08) s (set_ fun r => { r with defer := BitVec.ofNat 32 (max 256 (v.toNat % 2 ^ 32)) }) ∧
    EndsAt (.mts a 0x09) s (set_ fun r => { r with ftz := BitVec.ofNat 16 (v.toNat % 2 ^ 16) }) ∧
    ((∃ q : Fin 4, c.mem.bufs[q] ≠ []) → exec (.mts a 0x05) s = .next s) ∧
    ((∀ q : Fin 4, c.mem.bufs[q] = []) → ∃ t c', exec (.mts a 0x05) s = .next t ∧ look t.cells s.focus.cell = some c' ∧
      c'.core.sr.pgmode = BitVec.ofNat 6 (v.toNat % 64) ∧ c'.core.pcE = c1.core.pcE + 4 ∧
      (∀ w ∈ c'.mem.empty, w ∈ c1.mem.empty ∧ c1.core.sr.pgmode.getLsbD (w * 32 / 0x20000) = true ∧
        c'.core.sr.pgmode.getLsbD (w * 32 / 0x20000) = true) ∧
      c'.mem.scratch = c1.mem.scratch) ∧
    (n ∈ ([0x00, 0x01, 0x02, 0x03, 0x04, 0x06, 0x10, 0x11, 0x12, 0x13, 0x14, 0x15, 0x16, 0x17] : List (BitVec 8)) →
      exec (.mts a n) s = .next (raise s s.focus.cell { code := .access, unit := 0, word := coreWord (.mts a n) })) ∧
    ((9 < n.toNat ∧ n.toNat < 16) ∨ 23 < n.toNat → exec (.mts a n) s = .next (raise s s.focus.cell
      { code := .illegal, unit := 0, word := coreWord (.mts a n) })))

/-- R67, R71, R73: `nop` only goes on; `yield` leaves the registers, the scratch and the package's memory as they are and
goes on at the next instruction; `chkb` only goes on when a < b, and else traps CHK with a in the address field. -/
def Claims.NopYieldAndBounds : Prop :=
  ∀ (y : Bool) (a b : BitVec 5) (s : State) (c : Cell), Ready s y c →
    encode (.chkb y a b) = Claims.laid 0x00002000 [(y.toNat, 31), (a.toNat, 14), (b.toNat, 5)] ∧
    EndsAt (.nop y) s (advance y c) ∧
    (y = false → ∃ t c', exec .yield s = .next t ∧ look t.cells s.focus.cell = some c' ∧ c'.core.pcE = c.core.pcE + 4 ∧
      c'.core.regsE = c.core.regsE ∧ c'.core.regsA = c.core.regsA ∧ c'.mem.scratch = c.mem.scratch ∧ t.mem = s.mem) ∧
    (∀ va c1 vb c2, sourceOf y a c = some (va, c1) → sourceOf y b c1 = some (vb, c2) →
      (va.toNat < vb.toNat → EndsAt (.chkb y a b) s (advance y c2)) ∧
      (vb.toNat ≤ va.toNat → exec (.chkb y a b) s = .next (raise s s.focus.cell
        { code := .chk, unit := if y then 1 else 0, word := coreWord (.chkb y a b), addr := va })))

/-- R68, R110, R344: `halt` waits for every earlier instruction; it then stops fetch in both streams, when the cell is its
cluster's only one or its exit bit is set, and else traps ILLEGAL. In a handler it also discards every entry that the queues
hold and loads the Strainer. -/
def Claims.Halt : Prop :=
  ∀ (s : State) (c : Cell), Ready s false c →
    (earlierDone s s.focus.cell c = false → exec .halt s = .next s) ∧
    (earlierDone s s.focus.cell c = true → clusterSize s c ≤ 1 ∨ c.core.exitBit = true →
      (c.core.hm = false → EndsAt .halt s { c with core := { c.core with halted := true } }) ∧
      (c.core.hm = true → ∃ t c', exec .halt s = .next t ∧ look t.cells s.focus.cell = some c' ∧ c'.core.halted = true ∧
        c'.collar.strainer = true ∧ (∀ q : BitVec 2, (getQueue c' q).entries = []) ∧ c'.mem.scratch = c.mem.scratch ∧ t.mem = s.mem)) ∧
    (earlierDone s s.focus.cell c = true → 1 < clusterSize s c → c.core.exitBit = false →
      exec .halt s = .next (raise s s.focus.cell { code := .illegal, unit := 0, word := coreWord .halt }))

/-! ### Taking a trap and returning from one -/

/-- R69, R338-R340, R343: `trap` and `brk` of a cell that has a handler and has come to rest enter it: TREC0 holds the code
(17 or 18) in bits 63-56, UNIT in bits 55-52 and the word, with the instruction's ten bits in it, TREC1 is zero, the queues between the streams are saved and empty, HM is set, both streams stand at TRAPVEC, the
stream that trapped is to go on at the next instruction, and no register changes. That the code is the one that the bits of
the word name for each instruction, and that TREC1 is zero, is the model's reading (DEDUCED, assumption 10). -/
def Obligations.SoftwareTraps : Prop :=
  ∀ (y : Bool) (n : BitVec 10) (s : State) (c : Cell), Ready s y c → c.core.hm = false → c.core.trap = none →
    c.core.sr.trapvec ≠ 0 → (taskOf s c).bind (·.residual) = none → (taskOf s c).bind (·.fatal) = none →
    accessesDone s s.focus.cell c = true → allAtStop c = true → freezePending s c.part s.focus.cell = false →
    halting s c = false →
    ∀ p ∈ ([(.trap y n, 17), (.brk y n, 18)] : List (Instr × Nat)),
      ∃ c' v, EndsAt p.1 s c' ∧ c'.core.hm = true ∧ c'.core.pcE = c.core.sr.trapvec ∧ c'.core.pcA = c.core.sr.trapvec ∧
        (c'.core.sr.trec[0]).toNat / 2 ^ 56 = p.2 ∧ (c'.core.sr.trec[0]).toNat / 2 ^ 52 % 16 = (if y then 1 else 0) ∧
        (c'.core.sr.trec[0]).toNat % 2 ^ 32 = (coreWord p.1).toNat ∧ c'.core.sr.trec[1] = 0 ∧
        c'.core.ldq = [] ∧ c'.core.eaq = [] ∧ c'.core.boq = [] ∧ c'.core.save = some v ∧
        v.ldq = c.core.ldq ∧ v.eaq = c.core.eaq ∧ v.boq = c.core.boq ∧
        (if y then v.pcA = c.core.pcA + 4 else v.pcE = c.core.pcE + 4) ∧
        c'.core.regsE = c.core.regsE ∧ c'.core.regsA = c.core.regsA ∧ c'.mem.scratch = c.mem.scratch

/-- R70, R344: `tret` in a handler whose instructions have completed brings the queues between the streams back, clears HM
and lets each stream go on at its recorded place, registers and scratch as the handler left them; outside a handler it
traps ILLEGAL. -/
def Obligations.TrapReturn : Prop :=
  ∀ (s : State) (c : Cell), Ready s false c →
    (c.core.hm = false → exec .tret s = .next (raise s s.focus.cell { code := .illegal, unit := 0, word := coreWord .tret })) ∧
    (∀ v, c.core.hm = true → earlierDone s s.focus.cell c = true → c.core.save = some v → c.core.held = [] →
      c.core.refusedLoads = [] →
      ∃ t c', exec .tret s = .next t ∧ look t.cells s.focus.cell = some c' ∧ c'.core.hm = false ∧ c'.core.save = none ∧
        c'.core.ldq = v.ldq ∧ c'.core.eaq = v.eaq ∧ c'.core.boq = v.boq ∧ c'.core.pcE = v.pcE ∧ c'.core.pcA = v.pcA ∧
        c'.core.regsE = c.core.regsE ∧ c'.core.regsA = c.core.regsA ∧ c'.mem.scratch = c.mem.scratch ∧ t.mem = s.mem)

/-- R345: a trap of a cell that has no handler (TRAPVEC 0, or a handler is running) is fatal: the task records the member
and its trap, and every member stops. -/
def Obligations.FatalTraps : Prop :=
  ∀ (y : Bool) (n : BitVec 10) (s : State) (c : Cell) (k : Task), Ready s y c → c.core.trap = none →
    look s.tasks c.task = some k → k.fatal = none → c.core.sr.trapvec = 0 ∨ c.core.hm = true →
    ∀ p ∈ ([(.trap y n, .soft), (.brk y n, .brk)] : List (Instr × TrapCode)), ∃ t k', exec p.1 s = .next t ∧
      look t.tasks c.task = some k' ∧ k'.fatal = some ⟨c.core.sr.lcell.toNat,
        { code := p.2, unit := if y then 1 else 0, word := coreWord p.1 }, c.core.hm⟩ ∧
      (∀ id ∈ k.cells, ∀ c', look t.cells id = some c' → c'.core.stopIssue = true) ∧ t.mem = s.mem

/-! ### Barriers, counters, presence and tokens -/

/-- R93, R95, R96: what the arrival of member `m` makes of a domain record. In the generation in which it is counted it raises
ARRIVED by one; else it is held as early with its operand. `bar` and `bara` (no operand) leave the combine as it is; of
`barr` the first counted one sets the combine, a further one of the same combine adds to it (sum, signed minimum and maximum,
or, and), and one of another sets MIX. -/
def Claims.Counts (m : Nat) (o : Option (BitVec 3 × Word)) (b b' : Barrier) : Prop :=
  b'.gen = b.gen ∧ b'.expect = b.expect ∧ b'.counted = b.counted ∧ b'.placed = b.placed ∧ b'.out0 = b.out0 ∧ b'.out1 = b.out1 ∧
  (m ∉ b.counted → b'.arrived = b.arrived ∧ b'.early = b.early ++ [(m, o)] ∧ b'.op = b.op ∧ b'.acc = b.acc ∧ b'.mix = b.mix) ∧
  (m ∈ b.counted → b'.arrived = b.arrived + 1 ∧ b'.early = b.early ∧
    (o = none → b'.op = b.op ∧ b'.acc = b.acc ∧ b'.mix = b.mix) ∧
    ∀ f v, o = some (f, v) →
      (b.op = none → b'.op = some f ∧ b'.acc = v ∧ b'.mix = b.mix) ∧
      (b.op = some f → b'.op = some f ∧ b'.mix = b.mix ∧ b'.acc =
        if f = 0 then b.acc + v else if f = 1 then (if b.acc.toInt < v.toInt then b.acc else v)
        else if f = 2 then (if b.acc.toInt < v.toInt then v else b.acc) else if f = 3 then b.acc ||| v else b.acc &&& v) ∧
      (∀ g, b.op = some g → g ≠ f → b'.op = some g ∧ b'.acc = b.acc ∧ b'.mix = true))

/-- R93, R95, R96, R110: the arrival of a member whose earlier writes are performed and which has no open arrival of the
level. A member counted in the generation raises ARRIVED; the others are held as early (`Claims.Counts`). `bara` ends with its arrival and
clears the exit bit; `bar` and `bara` leave the combine as it is. `barr` arrives with the value of a: the first sets the
combine, a further one of the same combine adds to it (sum, signed minimum and maximum, or, and), one of another sets MIX. -/
def Obligations.BarrierArrivals : Prop :=
  ∀ (l : BitVec 3) (s : State) (c : Cell), Ready s false c → takesPart c l = true → c.core.barPhase = .idle →
    levelBit c.bar.pending l = false → released s s.focus.cell c l.toNat = true →
    let key := cellBarrier s.focus.cell c l.toNat
    let m := memberOf c
    (∃ t c', exec (.bara l) s = .next t ∧ look t.cells s.focus.cell = some c' ∧ c'.core.pcE = c.core.pcE + 4 ∧
      c'.core.exitBit = false ∧ levelBit c'.bar.pending l = true ∧ Claims.Counts m none (barrierAt s key) (barrierAt t key)) ∧
    (∃ t c', exec (.bar l) s = .next t ∧ look t.cells s.focus.cell = some c' ∧ c'.core.pcE = c.core.pcE ∧
      levelBit c'.bar.pending l = true ∧ c'.core.barPhase = .arrived l ∧
      Claims.Counts m none (barrierAt s key) (barrierAt t key)) ∧
    (∀ (d a : BitVec 5) (o : BitVec 3) va c1, sourceOf false a c = some (va, c1) → o.toNat ≤ 4 →
      released s s.focus.cell c1 l.toNat = true →
      ∃ t c', exec (.barr d a l o) s = .next t ∧ look t.cells s.focus.cell = some c' ∧ c'.core.pcE = c.core.pcE ∧
        levelBit c'.bar.pending l = true ∧ c'.core.barPhase = .arrived l ∧
        Claims.Counts m (some (o, va)) (barrierAt s key) (barrierAt t key))

/-- R95, R96: once the generation is complete, `bar` and `barr` end, `barr` with the combined value in d; `barw` ends when
no arrival of the level is open. The access stream may then pass. -/
def Claims.BarrierEnds : Prop :=
  ∀ (d a : BitVec 5) (l o : BitVec 3) (s : State) (c : Cell), Ready s false c → l.toNat ≤ 4 →
    let ended (c : Cell) : Cell := advance false { c with
      bar := { c.bar with pending := setLevelBit c.bar.pending l false, done := setLevelBit c.bar.done l false }
      core := { c.core with barPhase := .idle, path := c.core.path ++ [.pass] } }
    (c.core.barPhase = .arrived l → barrierDone s c l = true →
      EndsAt (.bar l) s (ended c) ∧
      (∀ c1, destOf false d (c.bar.combined.toList.getD l.toNat 0) c = some c1 → EndsAt (.barr d a l o) s (ended c1))) ∧
    (c.core.barPhase = .idle → takesPart c l = true → levelBit c.bar.pending l = false ∨ barrierDone s c l = true →
      EndsAt (.barw l) s (ended c)) ∧
    (c.core.barPhase = .idle → takesPart c l = false →
      ∀ i ∈ [Instr.bar l, Instr.bara l, Instr.barw l, Instr.barr d a l o],
        exec i s = .next (raise s s.focus.cell { code := .access, unit := 0, word := coreWord i }))

/-- R92, R93, R95, R96, R99, R330, R376: a generation with ARRIVED = EXPECT, some arrival and OUT[GEN] = 0 completes; at
level 4 these are the sums over the packages of the domain, and every package has sent its part up the tree. GEN turns,
ARRIVED restarts from the held early arrivals, the members placed meanwhile are expected, and every member of the domain
gets a CYC of 0, or, while it is being halted, a restart of CYC that waits for its return, and the combined value where
it waits for that generation. At level 2 and above they get the highest clock step of which the projected power, a free value,
stays within the board's limit (R87, R409; the lowest where none does: assumption 48). A generation that is not ready stays. -/
def Obligations.BarrierCompletion : Prop :=
  ∀ (p : BitVec 4) (l : BitVec 3) (dom : Nat) (s : State),
    let key := barrierKey p l.toNat dom
    let b := barrierAt s key
    let others := b.far.filter fun a => a.gen == b.gen
    let all := s.fw.torus.1.toNat * s.fw.torus.2.1.toNat * s.fw.torus.2.2.toNat
    let out := (if b.gen then b.out1 else b.out0).toNat
    let arrived := b.arrived + (others.map (·.arrived)).sum
    let expect := b.expect + (others.map (·.expect)).sum
    let known : Prop := all ≤ others.length + 1 ∧ (all ≤ 1 ∨ b.told = some (b.gen, b.expect, b.arrived, out))
    (0 < arrived → arrived = expect → out + (others.map (·.open_)).sum = 0 → (l = 4 → known) →
      ∃ t, exec (.barrierComplete p l dom) s = .next t ∧
        (barrierAt t key).gen = !b.gen ∧ (barrierAt t key).arrived = b.early.length ∧
        (barrierAt t key).expect = b.expect + b.placed.length ∧ (barrierAt t key).early = [] ∧
        (∀ id c, look s.cells id = some c → inDomain key l id c = true → (b.early.map (·.1)).contains (memberOf c) = false →
          ∃ c', look t.cells id = some c' ∧ c'.core.regsE = c.core.regsE ∧
            (halting s c = false → c'.core.sr.cycBase = c.frozen.getD s.now) ∧
            (halting s c = true → c'.core.sr.cycBase = c.core.sr.cycBase ∧ c'.bar.restart = true) ∧
            let waits : Prop := c.bar.pending.getLsbD l.toNat = true ∧ c.bar.done.getLsbD l.toNat = false ∧ c.bar.record.toList.getD l.toNat 0 = key ∧
              (c.bar.early.getLsbD l.toNat = true ∨ c.bar.mygen.getLsbD l.toNat = b.gen)
            (¬ waits → c'.bar.combined = c.bar.combined ∧ c'.bar.done = c.bar.done) ∧
            (l.toNat ≤ 4 → waits → levelBit c'.bar.done l = true ∧ c'.bar.pending = c.bar.pending) ∧
            (l.toNat ≤ 4 → waits → c'.bar.combined.toList.getD l.toNat 0 = combinedValue (withFar b)) ∧
            (l.toNat ≤ 4 → waits → b.far = [] → c'.bar.combined.toList.getD l.toNat 0 =
              if b.mix then 0 else if b.op.isSome then b.acc else 0) ∧
            (l = 1 → c'.core.exitBit = true)) ∧
        (2 ≤ l.toNat → keysFrom 0 s.fw.clocks = true → ∀ id c, look s.cells id = some c → inDomain key l id c = true →
          let watts := Config.projectedWatts s.free
          let v := peek 15 t.fw.clocks id
          (watts v ≤ s.fw.powerLimit ∧ ∀ x : BitVec 4, v.toNat < x.toNat → s.fw.powerLimit < watts x) ∨
            v = 0 ∧ ∀ x, s.fw.powerLimit < watts x) ∧
        t.mem = s.mem) ∧
    (arrived = 0 ∨ arrived ≠ expect ∨ out + (others.map (·.open_)).sum ≠ 0 ∨ l = 4 ∧ ¬ known →
      exec (.barrierComplete p l dom) s = .next s)

/-- R93, R95, R96: the arrival an execute stream waits to make is made once its earlier writes are performed, and the record
counts or holds it, with a `barr` operand, as `Claims.Counts` says. -/
def Claims.WaitingArrival : Prop :=
  ∀ (id : Nat) (l : BitVec 3) (o : Option (BitVec 3 × Word)) (s : State) (c : Cell), look s.cells id = some c →
    c.core.barPhase = .arriving l o → levelBit c.bar.pending l = false → released s id c l.toNat = true → l.toNat ≤ 4 →
    (∀ f v, o = some (f, v) → f.toNat ≤ 4) →
    ∃ t c', exec (.barrierArrival id l) s = .next t ∧ look t.cells id = some c' ∧ c'.core.barPhase = .arrived l ∧
      levelBit c'.bar.pending l = true ∧
      levelBit c'.bar.mygen l = (barrierAt s (cellBarrier id c l.toNat)).gen ∧ t.mem = s.mem ∧
      Claims.Counts (memberOf c) o (barrierAt s (cellBarrier id c l.toNat)) (barrierAt t (cellBarrier id c l.toNat))

/-- R100-R102, R359: `sig` sends one decrement of the counter it names once every earlier write is performed; `waitc` ends on
a FIRED or FREE counter of its generation, and on a FIRED event of that counter and generation that was recorded while its
cell was away. A counter of another partition, a nonzero high half, and for `waitc` a FAULTED
counter or another generation, trap ACCESS with the operand in the record. -/
def Obligations.CounterInstructions : Prop :=
  ∀ (a : BitVec 5) (s : State) (c c1 : Cell) (v : Word), Ready s false c → sourceOf false a c = some (v, c1) →
    let k : Counter := peek {} s.counters (v.toNat % 2 ^ 16)
    let mine := v.toNat / 2 ^ 32 = 0 ∧ k.part = c1.part
    encode (.sig a) = Claims.laid 0x33000000 [(a.toNat, 14)] ∧ encode (.waitc a) = Claims.laid 0x33001000 [(a.toNat, 14)] ∧
    (mine → released s s.focus.cell c1 3 = true → exec (.sig a) s = .next (setCell
      { s with decs := s.decs ++ [⟨s.focus.cell, c1.part, BitVec.ofNat 16 v.toNat, BitVec.ofNat 16 (v.toNat / 2 ^ 16)⟩] }
      s.focus.cell (advance false c1))) ∧
    let noted : Prop := c1.core.fired = some (v.setWidth 32)
    (mine → noted → EndsAt (.waitc a) s (advance false { c1 with core := { c1.core with
      fired := none, path := c1.core.path ++ [.pass] } })) ∧
    (mine → ¬ noted → k.gen.toNat = v.toNat / 2 ^ 16 → k.state = .fired ∨ k.state = .free →
      EndsAt (.waitc a) s (advance false { c1 with core := { c1.core with path := c1.core.path ++ [.pass] } })) ∧
    (mine → ¬ noted → k.gen.toNat = v.toNat / 2 ^ 16 → k.state = .armed → exec (.waitc a) s = .next s) ∧
    (¬ mine → ∀ i ∈ [Instr.sig a, Instr.waitc a], exec i s = .next (raise s s.focus.cell
      { code := .access, unit := 0, word := coreWord i, addr := v })) ∧
    (mine → ¬ noted → k.gen.toNat ≠ v.toNat / 2 ^ 16 ∨ k.state = .faulted → exec (.waitc a) s = .next (raise s s.focus.cell
      { code := .access, unit := 0, word := coreWord (.waitc a), addr := v }))

/-- R107: `clrp` marks every word of its range empty and `setp` full, and no other word; scratch keeps its bytes. A
misaligned range traps ALIGN; one outside scratch, or in a group that is not in presence mode, ACCESS; an empty range marks
nothing. R97 does not list `clrp` and `setp`: that the access stream stops at them and may pass once they are done is the
model's choice (assumption 15). -/
def Obligations.PresenceRanges : Prop :=
  ∀ (a b : BitVec 5) (s : State) (c c1 c2 : Cell) (va vb : Word), Ready s false c →
    sourceOf false a c = some (va, c1) → sourceOf false b c1 = some (vb, c2) →
    let inRange (w : Nat) : Prop := va.toNat / 32 ≤ w ∧ w < (va.toNat + vb.toNat) / 32
    let here : Prop := va.toNat % 32 = 0 ∧ vb.toNat % 32 = 0 ∧ va.toNat + vb.toNat ≤ 0xC0000 ∧
      ∀ w, inRange w → c2.core.sr.pgmode.getLsbD (w * 32 / 0x20000) = true
    (vb = 0 → ∀ i ∈ [Instr.clrp a b, Instr.setp a b], EndsAt i s (advance false { c2 with core := { c2.core with
      path := c2.core.path ++ [.pass] } })) ∧
    (vb ≠ 0 → here →
      (∃ t c', exec (.clrp a b) s = .next t ∧ look t.cells s.focus.cell = some c' ∧ c'.core.pcE = c2.core.pcE + 4 ∧
        (∀ w, w ∈ c'.mem.empty ↔ w ∈ c2.mem.empty ∨ inRange w) ∧ c'.mem.scratch = c2.mem.scratch) ∧
      (∃ t c', exec (.setp a b) s = .next t ∧ look t.cells s.focus.cell = some c' ∧ c'.core.pcE = c2.core.pcE + 4 ∧
        (∀ w, w ∈ c'.mem.empty ↔ w ∈ c2.mem.empty ∧ ¬ inRange w) ∧ c'.mem.scratch = c2.mem.scratch)) ∧
    (vb ≠ 0 → va.toNat % 32 ≠ 0 ∨ vb.toNat % 32 ≠ 0 → ∀ i ∈ [Instr.clrp a b, Instr.setp a b],
      exec i s = .next (raise s s.focus.cell { code := .align, unit := 0, word := coreWord i })) ∧
    (vb ≠ 0 → va.toNat % 32 = 0 → vb.toNat % 32 = 0 → ¬ here → ∀ i ∈ [Instr.clrp a b, Instr.setp a b],
      exec i s = .next (raise s s.focus.cell { code := .access, unit := 0, word := coreWord i }))

/-- R234, R241: `tokw` ends at once when the token's bound production is done, and else waits with that production on
record until it is; `tokq` reads SEQ into bits 31-16 and PEND into bit 0. -/
def Obligations.Tokens : Prop :=
  ∀ (d : BitVec 5) (n : BitVec 6) (s : State) (c : Cell), Ready s false c →
    let k : Token := c.core.tokens[n.toNat]'n.isLt
    (c.core.tokWait = none → k.pend = false → EndsAt (.tokw n) s (advance false { c with core := { c.core with
      path := c.core.path ++ [.pass] } })) ∧
    (c.core.tokWait = none → k.pend = true → EndsAt (.tokw n) s { c with core := { c.core with tokWait := some (n, k.seq) } }) ∧
    (∀ m q, c.core.tokWait = some (m, q) →
      ((c.core.tokens[m.toNat]'m.isLt).pend = false ∨ (c.core.tokens[m.toNat]'m.isLt).seq ≠ q) →
      EndsAt (.tokw n) s (advance false { c with core := { c.core with tokWait := none, path := c.core.path ++ [.pass] } })) ∧
    (∀ c', destOf false d (BitVec.ofNat 64 (k.seq.toNat * 2 ^ 16 + if k.pend then 1 else 0)) c = some c' →
      EndsAt (.tokq d n) s (advance false c'))

/-! ### Handles, remote accesses, fences and windows -/

/-- The message an access of the access stream leaves on the packet plane: who issued it, where it stood, and what it asks. -/
def Claims.requestOf (id : Nat) (c : Cell) (w : BitVec 32) (cls rc : BitVec 2) (nt : Bool) (t : Target) (addr off size : Nat)
    (k : Access) (frame : Option (BitVec 36) := none) : Msg :=
  { cell := id, task := c.task, acc := true, br := c.core.brA, pc := c.core.pcA, word := w, cls := cls, rc := rc, nt := nt
    target := t, addr := addr, off := off, size := size, kind := k, frame := frame }

/-- The next state of an instruction that sends one message: the message joins the packet plane behind all others, the cell
is at `c'`, and the rest of the package stands as it was. Only a `two` request (R176) gets an intermediate stop: within the
package the site in bits 6-0 of its router's LFSR, which then steps. -/
def Claims.Sends (i : Instr) (s : State) (m : Msg) (c' : Cell) : Prop :=
  ∃ (via : Option Nat) (lfsr : SMap (BitVec 16)), exec i s = .next { s with
      cells := put s.cells s.focus.cell c'
      msgs := put s.msgs s.nextMsg { m with via := via }
      nextMsg := s.nextMsg + 1
      sends := put s.sends m.cell (peek 0 s.sends m.cell + 1)
      fw := { s.fw with lfsr := lfsr } } ∧
    (m.rc ≠ 2 → via = none ∧ lfsr = s.fw.lfsr) ∧
    (m.rc = 2 → (∀ pkg wid, m.target = .window pkg wid → pkg = s.fw.pkg) → via = some ((peek 0 s.fw.lfsr m.cell).toNat % 128) ∧
      lfsr = put s.fw.lfsr m.cell (routerStep (peek 0 s.fw.lfsr m.cell)))

/-- R177, R190, R191: a load that issues holds a response slot; its register is busy, or an LDQ entry is reserved. -/
def Claims.loadHeld (d : BitVec 5) (c : Cell) : Option (Dest × Cell) :=
  if 8 ≤ c.core.slots then none
  else if d = 30 then
    if c.core.ldq.length < 32 ∧ storesBuffered c true = false then
      some (.ldq (freshEntry c.core), advance true { c with core := { c.core with
        ldq := c.core.ldq ++ [⟨freshEntry c.core, false, [], false⟩], slots := c.core.slots + 1 } })
    else none
  else if bit c.core.busy d.toNat then none
  else some (.reg d, advance true { c with core := { c.core with
    busy := if d = 0 then c.core.busy else c.core.busy ||| 1#32 <<< d.toNat, slots := c.core.slots + 1 } })

/-- R181, R182: `xlat` on an address of more than 57 bits traps XLATFAULT. Where the die's cache holds a leaf of the
partition for the address that R156 accepts for the mode, the handle is bound and valid, with the leaf's region, size,
frame, generation and page base, W where the leaf and the mode grant it, and the leaf counts as used last; on a miss, or a
leaf that R156 rejects, the handle is bound to the address's page and not yet valid. `hrel` leaves it unbound. -/
def Obligations.HandleBinding : Prop :=
  ∀ (h : BitVec 4) (a : BitVec 5) (s : State) (c : Cell), Ready s true c →
    let set_ (c : Cell) (x : Handle) : Cell := advance true { c with core := { c.core with handles := c.core.handles.set h.toNat x h.isLt } }
    EndsAt (.hrel h) s (set_ c ⟨false, false, 0, 0, false, 0, 0, 0, false⟩) ∧
    (∀ va c1, sourceOf true a c = some (va, c1) →
      (2 ^ 57 ≤ va.toNat → ∀ i ∈ [Instr.xlatR h a, Instr.xlatRw h a], exec i s = .next (raise s s.focus.cell
        { code := .xlatfault, unit := 1, word := coreWord i })) ∧
      (va.toNat < 2 ^ 57 → ∀ p ∈ [(Instr.xlatR h a, false), (Instr.xlatRw h a, true)],
        let mine (e : TlbEntry) : Bool := e.die.toNat = dieOfCell s.focus.cell ∧ e.part = c1.part ∧
          e.vpage.toNat = va.toNat / pageBytes e.size * (pageBytes e.size / 0x10000)
        let accepted (e : TlbEntry) : Prop := leafVerdict s.fw e.size e.pte p.2 = .leaf e.size e.pte
        (∀ e, s.tlb.find? mine = some e → accepted e →
          exec p.1 s = .next (setCell (tlbTouch s e) s.focus.cell (set_ c1
            { v := true, w := e.pte.getLsbD 61 && p.2, kind := (regionOf (e.pte.toNat / 2 ^ 16 % 2 ^ 36 * 0x10000)).getD 0
              size := e.size, bound := true, pfn := BitVec.ofNat 36 (e.pte.toNat / 2 ^ 16)
              gen := BitVec.ofNat 8 (e.pte.toNat / 2 ^ 52)
              vpage := BitVec.ofNat 41 (va.toNat / pageBytes e.size * (pageBytes e.size / 0x10000)), rwreq := p.2 }))) ∧
        ((∀ e, s.tlb.find? mine = some e → ¬ accepted e) →
          EndsAt p.1 s (set_ c1 { bound := true, vpage := BitVec.ofNat 41 (va.toNat / 2 ^ 16), rwreq := p.2 }))))

/-- R183, R184: an access through a valid handle, within its page, aligned, and permitted sends its request to the physical
address PFN × 64 KiB + offset, the offset being x + imm6 × size modulo 2^64. A load waits for its value; a store takes a
write credit, and a non-temporal one stands in the bag. -/
def Claims.HandleAccesses : Prop :=
  ∀ (d : BitVec 5) (h : BitVec 4) (k z : BitVec 2) (x : BitVec 5) (n : BitVec 6) (s : State) (c c1 : Cell) (vx : Word) (off pa : Nat),
    Ready s true c → debugs s c = false → sourceOf true x c = some (vx, c1) →
    let q : Handle := c1.core.handles[h.toNat]'h.isLt
    off = (vx.toNat + n.toNat * 2 ^ z.toNat) % 2 ^ 64 → pa = q.pfn.toNat * 0x10000 + off →
    q.bound = true → q.v = true → off + 2 ^ z.toNat ≤ pageBytes q.size → pa % 2 ^ z.toNat = 0 →
    (∀ p ∈ [(Instr.hld d h k z x n, true), (Instr.hldn d h k z x n, false)], p.1.WellFormed →
      ∀ w c', Claims.loadHeld d c1 = some (w, c') →
        Claims.Sends p.1 s (Claims.requestOf s.focus.cell c1 (coreWord p.1) k 0 false .pa pa off (2 ^ z.toNat) (.load p.2 w)
          (some q.pfn)) c') ∧
    (∀ p ∈ [(Instr.hst d h k z x n, false), (Instr.hstnt d h k z x n, true)], p.1.WellFormed → q.w = true →
      ∀ v c2, sourceOf true d c1 = some (v, c2) → c2.core.credits < 16 →
        Claims.Sends p.1 s (Claims.requestOf s.focus.cell c2 (coreWord p.1) k 0 p.2 .pa pa off (2 ^ z.toNat) (.store v) (some q.pfn))
          (advance true { c2 with core := { c2.core with credits := c2.core.credits + 1 }
                                  bag := if p.2 then c2.bag ++ [s.nextMsg] else c2.bag }))

/-- R183, R185: the checks of an access of `size` bytes at `off` through a handle, in their order: an unbound one traps HANDLE,
one that is bound but not valid makes the access wait, past the end of its page is ACCESS, misaligned ALIGN, and a write
without write permission, or an atomic through a handle of host memory, ACCESS. -/
def Claims.HandleTraps (i : Instr) (s : State) (q : Handle) (off size : Nat) (writes atomic : Bool) : Prop :=
  let pa := q.pfn.toNat * 0x10000 + off
  let traps (code : TrapCode) : Prop := exec i s = .next (raise s s.focus.cell { code := code, unit := 1, word := coreWord i })
  (q.bound = false → traps .handle) ∧
  (q.bound = true → q.v = false → exec i s = .next s) ∧
  (q.bound = true → q.v = true → pageBytes q.size < off + size → traps .access) ∧
  (q.bound = true → q.v = true → off + size ≤ pageBytes q.size → pa % size ≠ 0 → traps .align) ∧
  (q.bound = true → q.v = true → off + size ≤ pageBytes q.size → pa % size = 0 →
    (writes = true ∧ q.w = false) ∨ (atomic = true ∧ q.kind = 3) → traps .access)

/-- R183, R185: what the loads, the stores and the atomics do at a handle that does not take their access
(`Claims.HandleTraps`). They read x[ox] first, and then a store its datum and an atomic its operands. -/
def Claims.HandleAccessTraps : Prop :=
  ∀ (d : BitVec 5) (h : BitVec 4) (k z : BitVec 2) (x : BitVec 5) (n : BitVec 6) (s : State) (c c1 : Cell) (vx : Word),
    Ready s true c → sourceOf true x c = some (vx, c1) →
    let q : Handle := c1.core.handles[h.toNat]'h.isLt
    let off := (vx.toNat + n.toNat * 2 ^ z.toNat) % 2 ^ 64
    (∀ i ∈ [Instr.hld d h k z x n, .hldn d h k z x n], i.WellFormed → Claims.HandleTraps i s q off (2 ^ z.toNat) false false) ∧
    (∀ v c2, sourceOf true d c1 = some (v, c2) →
      ∀ i ∈ [Instr.hst d h k z x n, .hstnt d h k z x n], i.WellFormed → Claims.HandleTraps i s q off (2 ^ z.toNat) true false) ∧
    (∀ (op : BitVec 4) (w : BitVec 1) v c2, sourceOf true d c1 = some (v, c2) →
      (op = 2 → ∃ v2 c3, sourceOf true (d + 1) c2 = some (v2, c3)) → (Instr.amo d h k x op w).WellFormed →
      Claims.HandleTraps (.amo d h k x op w) s q vx.toNat (if w = 1 then 8 else 4) true true)

/-- R88, R89, R108, R186, R372: the target a place register names. A local place is a cell of the issuer's cluster at a
signed offset of columns and rows, with an offset in scratch; a window place names a window of this package, or of the
package at a signed torus offset, each coordinate taken modulo the domain's size, where the issuing package itself acts as
in the first form; every other value names none. -/
def Obligations.PlaceTargets : Prop :=
  ∀ (s : State) (c : Cell) (p off : Word) (k : Task), taskOf s c = some k → 0 < k.w →
    let dx : Int := (p.extractLsb' 0 4).toInt
    let dy : Int := (p.extractLsb' 4 4).toInt
    let col : Int := (c.core.sr.lcell.toNat % k.w : Nat) + dx
    let row : Int := (c.core.sr.lcell.toNat / k.w : Nat) + dy
    (p.toNat < 256 → off.toNat < 0xC0000 → 0 ≤ col → col < k.w → 0 ≤ row → row < k.h →
      placeTarget s c p off = (k.cells[(row * k.w + col).toNat]?).map .cell) ∧
    (p.toNat < 256 → 0xC0000 ≤ off.toNat ∨ col < 0 ∨ (k.w : Int) ≤ col ∨ row < 0 ∨ (k.h : Int) ≤ row →
      placeTarget s c p off = none) ∧
    (p.toNat / 2 ^ 62 = 0 → 256 ≤ p.toNat → placeTarget s c p off = none) ∧
    (∀ w : BitVec 16, p.toNat = 2 ^ 62 + w.toNat * 2 ^ 16 → placeTarget s c p off = some (.window s.fw.pkg w)) ∧
    (∀ w : BitVec 16, p.toNat = 2 ^ 63 + w.toNat * 2 ^ 16 → s.fw.torus.1 ≠ 0 → s.fw.torus.2.1 ≠ 0 → s.fw.torus.2.2 ≠ 0 →
      s.fw.pkg.toNat % 8 < s.fw.torus.1.toNat → s.fw.pkg.toNat / 8 % 8 < s.fw.torus.2.1.toNat →
      s.fw.pkg.toNat / 64 < s.fw.torus.2.2.toNat → placeTarget s c p off = some (.window s.fw.pkg w)) ∧
    (∀ (w : BitVec 16) (dX dY dZ : BitVec 4),
      p.toNat = 2 ^ 63 + dZ.toNat * 2 ^ 44 + dY.toNat * 2 ^ 40 + dX.toNat * 2 ^ 36 + w.toNat * 2 ^ 16 →
      let size (n : BitVec 4) : Prop := 1 ≤ n.toNat ∧ n.toNat ≤ 8
      size s.fw.torus.1 → size s.fw.torus.2.1 → size s.fw.torus.2.2 →
      ∃ q : BitVec 9, placeTarget s c p off = some (.window q w) ∧
        ((q.toNat % 8 : Nat) : Int) = ((s.fw.pkg.toNat % 8 : Nat) + dX.toInt) % (s.fw.torus.1.toNat : Int) ∧
        ((q.toNat / 8 % 8 : Nat) : Int) = ((s.fw.pkg.toNat / 8 % 8 : Nat) + dY.toInt) % (s.fw.torus.2.1.toNat : Int) ∧
        ((q.toNat / 64 : Nat) : Int) = ((s.fw.pkg.toNat / 64 : Nat) + dZ.toInt) % (s.fw.torus.2.2.toNat : Int)) ∧
    (p.toNat / 2 ^ 62 = 1 → (∀ w : BitVec 16, p.toNat ≠ 2 ^ 62 + w.toNat * 2 ^ 16) → placeTarget s c p off = none) ∧
    (p.toNat / 2 ^ 62 = 2 → (∀ (w : BitVec 16) (dX dY dZ : BitVec 4),
      p.toNat ≠ 2 ^ 63 + dZ.toNat * 2 ^ 44 + dY.toNat * 2 ^ 40 + dX.toNat * 2 ^ 36 + w.toNat * 2 ^ 16) →
      placeTarget s c p off = none) ∧
    (3 * 2 ^ 62 ≤ p.toNat → placeTarget s c p off = none)

/-- R38, R108, R110, R190, R191: a remote load, line load or store whose place names a target and whose offset is aligned
sends its request there with its routing and alias class, and clears the exit bit. A place that names none traps ACCESS, a
misaligned offset ALIGN. -/
def Obligations.RemoteAccesses : Prop :=
  ∀ (d p o : BitVec 5) (r k : BitVec 2) (f : BitVec 5) (s : State) (c c1 c2 : Cell) (vp vo : Word),
    Ready s true c → debugs s c = false → sourceOf true p c = some (vp, c1) → sourceOf true o c1 = some (vo, c2) →
    let clear (c : Cell) : Cell := { c with core := { c.core with exitBit := false } }
    (∀ t, placeTarget s c2 vp vo = some t →
      ((Instr.rld d p o r k f).WellFormed → vo.toNat % 2 ^ (f.toNat % 4) = 0 → ∀ w c', Claims.loadHeld d (clear c2) = some (w, c') →
        Claims.Sends (.rld d p o r k f) s (Claims.requestOf s.focus.cell c2 (coreWord (.rld d p o r k f)) k r false t vo.toNat vo.toNat
          (2 ^ (f.toNat % 4)) (.load (decide (f.toNat ≤ 3)) w)) c') ∧
      ((Instr.rldLine p o r k).WellFormed → vo.toNat % 128 = 0 → c2.core.slots < 8 → c2.core.ldq.length < 32 →
        storesBuffered c2 true = false →
        Claims.Sends (.rldLine p o r k) s (Claims.requestOf s.focus.cell c2 (coreWord (.rldLine p o r k)) k r false t vo.toNat vo.toNat
          128 (.line (freshEntry c2.core)))
          (advance true { c2 with core := { c2.core with exitBit := false
                                                         ldq := c2.core.ldq ++ [⟨freshEntry c2.core, false, [], true⟩]
                                                         slots := c2.core.slots + 1 } })) ∧
      ((Instr.rst d p o r k f).WellFormed → vo.toNat % 2 ^ (f.toNat % 4) = 0 → ∀ v c3, sourceOf true d c2 = some (v, c3) →
        c3.core.credits < 16 → placeTarget s c3 vp vo = some t →
        Claims.Sends (.rst d p o r k f) s (Claims.requestOf s.focus.cell c3 (coreWord (.rst d p o r k f)) k r false t vo.toNat vo.toNat
          (2 ^ (f.toNat % 4)) (.store v))
          (advance true { c3 with core := { c3.core with exitBit := false, credits := c3.core.credits + 1 } }))) ∧
    (placeTarget s c2 vp vo = none → ∀ i ∈ [Instr.rld d p o r k f, Instr.rldLine p o r k], i.WellFormed →
      exec i s = .next (raise s s.focus.cell { code := .access, unit := 1, word := coreWord i })) ∧
    (placeTarget s c2 vp vo ≠ none → ∀ q ∈ [(Instr.rld d p o r k f, 2 ^ (f.toNat % 4)), (.rldLine p o r k, 128)],
      q.1.WellFormed → vo.toNat % q.2 ≠ 0 →
      exec q.1 s = .next (raise s s.focus.cell { code := .align, unit := 1, word := coreWord q.1 })) ∧
    (∀ v c3, (Instr.rst d p o r k f).WellFormed → sourceOf true d c2 = some (v, c3) →
      (placeTarget s c3 vp vo = none → exec (.rst d p o r k f) s = .next (raise s s.focus.cell
        { code := .access, unit := 1, word := coreWord (.rst d p o r k f) })) ∧
      (placeTarget s c3 vp vo ≠ none → vo.toNat % 2 ^ (f.toNat % 4) ≠ 0 → exec (.rst d p o r k f) s = .next (raise s s.focus.cell
        { code := .align, unit := 1, word := coreWord (.rst d p o r k f) })))

/-- R37, R185, R192: an atomic reads its operand from d (and the new value of `cas` from d + 1), and sends its request of 4
or 8 bytes to the handle's address or to the place; d is busy until the response. -/
def Claims.Atomics : Prop :=
  ∀ (d : BitVec 5) (k : BitVec 4) (z : BitVec 1) (m r : BitVec 2) (s : State) (c : Cell), Ready s true c → debugs s c = false →
    let size := if z = 1 then 8 else 4
    let held (c : Cell) : Cell := advance true { c with core := { c.core with
      busy := if d = 0 then c.core.busy else c.core.busy ||| 1#32 <<< d.toNat, slots := c.core.slots + 1 } }
    let ops (c : Cell) (v v2 : Word) (c' : Cell) : Prop := ∃ c1, sourceOf true d c = some (v, c1) ∧
      if k = 2 then sourceOf true (d + 1) c1 = some (v2, c') else v2 = 0 ∧ c' = c1
    (∀ (h : BitVec 4) (x : BitVec 5) vx c1 v v2 c2, sourceOf true x c = some (vx, c1) → ops c1 v v2 c2 →
      let q : Handle := c2.core.handles[h.toNat]'h.isLt
      let pa := q.pfn.toNat * 0x10000 + vx.toNat
      (Instr.amo d h m x k z).WellFormed → q.bound = true → q.v = true → q.w = true → q.kind ≠ 3 →
      vx.toNat + size ≤ pageBytes q.size → pa % size = 0 → c2.core.slots < 8 →
      Claims.Sends (.amo d h m x k z) s (Claims.requestOf s.focus.cell c2 (coreWord (.amo d h m x k z)) m 0 false .pa pa vx.toNat size
        (.amo k v v2 d) (some q.pfn)) (held c2)) ∧
    (∀ (p o : BitVec 5) vp c1 vo c2 v v2 c3 t, sourceOf true p c = some (vp, c1) → sourceOf true o c1 = some (vo, c2) →
      ops c2 v v2 c3 → (Instr.ramo d p o r m k z).WellFormed → placeTarget s c3 vp vo = some t → vo.toNat % size = 0 →
      c3.core.slots < 8 →
      Claims.Sends (.ramo d p o r m k z) s (Claims.requestOf s.focus.cell c3 (coreWord (.ramo d p o r m k z)) m r false t vo.toNat vo.toNat size
        (.amo k v v2 d)) (held { c3 with core := { c3.core with exitBit := false } }))

/-- R194-R196: a `fence` completes when no access of its stream is outstanding that its routing classes, its alias classes and
its scope cover: no buffered local store, no load of the LDQ deferred in local scratch, no request not yet performed, beside
non-temporal stores. A `drain` completes when no non-temporal store of the cell that precedes it is unperformed at its
scope, one of the execute stream once the access stream has reached its place. Both only let their stream go on (a fence
also ends what debug mode remembers of the accesses of its stream and classes, non-temporal stores apart), and both wait as long as such an access is outstanding. -/
def Obligations.FencesAndDrains : Prop :=
  ∀ (y : Bool) (e r : BitVec 3) (k : BitVec 4) (s : State) (c : Cell), Ready s y c →
    let id := s.focus.cell
    let rc (n : Nat) : Prop := r = 0 ∨ r.getLsbD n = true
    let cls (n : Nat) : Prop := k = 0 ∨ k.getLsbD n = true
    let sent (m : Msg) : Prop := m.cell = id ∧ ((∃ n, (n, m) ∈ s.msgs) ∨ ∃ n x, (n, x) ∈ s.resps ∧ x.ready = false ∧ x.msg = m)
    let fenced : Prop :=
      (∃ (q : Fin 4) (b : BufStore), b ∈ c.mem.bufs[q] ∧ b.acc = y ∧ rc 0 ∧ cls q) ∨
      (y = true ∧ ∃ d n, d ∈ c.mem.deferred ∧ d.reader = .ldq n ∧ rc 0 ∧ cls d.cls.toNat) ∨
      (∃ m, sent m ∧ m.acc = y ∧ m.nt = false ∧ rc m.rc.toNat ∧ cls m.cls.toNat ∧ insideScope s m e.toNat = true)
    let before (b : Nat) (p : Word) : Prop := b < c.core.brE ∨ b = c.core.brE ∧ p.toNat < c.core.pcE.toNat
    let drained : Prop :=
      (y = false ∧ before c.core.brA c.core.pcA) ∨
      (∃ n m, (n, m) ∈ s.msgs ∧ m.cell = id ∧ m.nt = true ∧ insideScope s m e.toNat = true ∧ (y = true ∨ before m.br m.pc))
    ((Instr.fence y e r k).WellFormed →
      (¬ fenced → EndsAt (.fence y e r k) s (advance y { c with core := { c.core with
        recent := c.core.recent.filter fun x => !(decide (x.acc = y ∧ x.nt = false ∧ rc x.rc.toNat ∧ cls x.cls.toNat)) } })) ∧
      (fenced → exec (.fence y e r k) s = .next s)) ∧
    ((Instr.drain y e).WellFormed →
      (¬ drained → EndsAt (.drain y e) s (advance y c)) ∧
      (drained → exec (.drain y e) s = .next s))

/-- R197: the words; `swopen` opens a window with its mark at its base, a zero length closes it; a base or length that is no multiple of
64 KiB traps ALIGN, one past 2^57 ACCESS; `swadv` raises the mark, never past the end and never down; `swclose` closes. -/
def Obligations.StreamWindows : Prop :=
  ∀ (w : BitVec 4) (a b : BitVec 5) (s : State) (c : Cell), Ready s true c →
    let set_ (c : Cell) (x : Option StreamWindow) : Cell :=
      advance true { c with core := { c.core with windows := c.core.windows.set w.toNat x w.isLt } }
    encode (.swopen w a b) = Claims.laid 0xB9000000 [(w.toNat, 19), (a.toNat, 14), (b.toNat, 9)] ∧
    encode (.swadv w a) = Claims.laid 0xB9000001 [(w.toNat, 19), (a.toNat, 14)] ∧
    encode (.swclose w) = Claims.laid 0xB9000002 [(w.toNat, 19)] ∧
    EndsAt (.swclose w) s (set_ c none) ∧
    (∀ va c1, sourceOf true a c = some (va, c1) →
      ((c1.core.windows[w.toNat]'w.isLt) = none → EndsAt (.swadv w a) s (advance true c1)) ∧
      (∀ x, (c1.core.windows[w.toNat]'w.isLt) = some x → EndsAt (.swadv w a) s (set_ c1 (some { x with
        mark := BitVec.ofNat 64 (max x.mark.toNat (min va.toNat (x.base.toNat + x.len.toNat))) }))) ∧
      (∀ vb c2, sourceOf true b c1 = some (vb, c2) →
        (vb = 0 → EndsAt (.swopen w a b) s (set_ c2 none)) ∧
        (vb ≠ 0 → va.toNat % 65536 ≠ 0 ∨ vb.toNat % 65536 ≠ 0 → exec (.swopen w a b) s = .next (raise s s.focus.cell
          { code := .align, unit := 1, word := coreWord (.swopen w a b) })) ∧
        (vb ≠ 0 → va.toNat % 65536 = 0 → vb.toNat % 65536 = 0 → 2 ^ 57 ≤ va.toNat ∨ 2 ^ 57 < va.toNat + vb.toNat →
          exec (.swopen w a b) s = .next (raise s s.focus.cell { code := .access, unit := 1, word := coreWord (.swopen w a b) })) ∧
        (vb ≠ 0 → va.toNat % 65536 = 0 → vb.toNat % 65536 = 0 → va.toNat < 2 ^ 57 → va.toNat + vb.toNat ≤ 2 ^ 57 →
          EndsAt (.swopen w a b) s (set_ c2 (some ⟨va, vb, va⟩)))))

/-! ### The memory system -/

/-- R18, R104, R198: the oldest store of an alias-class buffer writes its bytes to scratch, and only those. A store that meets a
full presence word raises PRESENCE at the store: it and what its stream has issued behind it have had no effect, its stream
stands at it again, what it took from the LDQ and the EAQ is back, and the record is that of a trap at the instruction.
(That the trap is precise, and how its stream comes to stand at the store, is assumption 9.) -/
def Claims.StoreRetirement : Prop :=
  ∀ (id : Nat) (k : BitVec 2) (s : State) (c : Cell) (e : BufStore) (es : List BufStore), look s.cells id = some c →
    (c.mem.bufs[k.toNat]'k.isLt) = e :: es → Memory.wf c.mem.scratch = true →
    (meetsFull c e.addr = false →
      ∃ t c', exec (.storeRetire id k) s = .next t ∧ look t.cells id = some c' ∧ (c'.mem.bufs[k.toNat]'k.isLt) = es ∧
        readBytes c'.mem.scratch e.addr e.size = bytesOf e.data.toNat e.size ∧
        (∀ a, a < e.addr ∨ e.addr + e.size ≤ a → readByte c'.mem.scratch a = readByte c.mem.scratch a) ∧ t.mem = s.mem) ∧
    (meetsFull c e.addr = true → c.core.trap = none →
      ∃ c', exec (.storeRetire id k) s = .next (raise (setCell s id c') id
          { code := .presence, unit := if e.acc then 1 else 0, word := codeWord c.mem e.pc.toNat }) ∧
        getPlace c'.core e.acc = e.pc ∧ getPlace c'.core (!e.acc) = getPlace c.core (!e.acc) ∧
        c'.core.regsE = c.core.regsE ∧ c'.core.regsA = c.core.regsA ∧
        c'.mem.scratch = c.mem.scratch ∧ c'.mem.empty = c.mem.empty ∧ c'.mem.deferred = c.mem.deferred ∧
        c'.core.eaq = e.eaqBack ++ c.core.eaq ∧
        c'.core.ldq = e.ldqBack.foldr (fun x l => x :: if x.vals.length ≤ 1 then l else l.drop 1) c.core.ldq ∧
        c'.core.slots = c.core.slots + (e.ldqBack.filter fun x => decide (x.vals.length ≤ 1) && x.slot).length ∧
        (∀ (q : Fin 4) (x : BufStore), x ∈ c'.mem.bufs[q] ↔ x ∈ (if q.val = k.toNat then es else c.mem.bufs[q]) ∧
          ¬ (x.acc = e.acc ∧ (e.br < x.br ∨ e.br = x.br ∧ e.pc.toNat < x.pc.toNat))))

/-- R104, R105, R189, R198, R201: a request whose turn it is on its channel is performed at its target: a load or a store of a
cell's scratch, when the target's access table admits it. A store writes its bytes, and only those, and an empty word is full
then; a load's response carries the bytes read; the message has left the plane. A store that meets a full presence word is
refused with PRESENCE, a request that the table does not admit with ACCESS, and neither changes a byte; a load of an empty
word waits at its bank, its response not ready. -/
def Obligations.ScratchRequests : Prop :=
  ∀ (n dst : Nat) (s : State) (m : Msg) (c : Cell), look s.msgs n = some m → deliverable s n m = true → m.target = .cell dst →
    look s.cells dst = some c → Memory.wf c.mem.scratch = true → keysFrom 0 s.msgs = true →
    let admitted := admits s (unitKey (.cellRemote (BitVec.ofNat 9 dst))) 0 (issuerPart s m) 0 (permBit m.kind) m.addr (m.addr + m.size - 1)
    let refused (code : TrapCode) : Prop :=
      ∃ t c', exec (.deliver n) s = .next t ∧ look t.cells dst = some c' ∧ c'.mem.scratch = c.mem.scratch ∧ c'.core = c.core ∧
        look t.msgs n = none ∧ look t.resps n = some ⟨m, [], some code, true, [], 0, s.nextPerf⟩ ∧ t.mem = s.mem
    (∀ v, m.kind = .store v → admitted = true → meetsFull c m.addr = false →
      ∃ t c' p, exec (.deliver n) s = .next t ∧ look t.cells dst = some c' ∧
        readBytes c'.mem.scratch m.addr m.size = bytesOf v.toNat m.size ∧
        (∀ a, a < m.addr ∨ m.addr + m.size ≤ a → readByte c'.mem.scratch a = readByte c.mem.scratch a) ∧
        isEmpty c' m.addr = false ∧
        look t.msgs n = none ∧ s.nextPerf ≤ p ∧ look t.resps n = some ⟨m, [], none, true, [], 0, p⟩ ∧ t.mem = s.mem) ∧
    (∀ v, m.kind = .store v → admitted = true → meetsFull c m.addr = true → refused .presence) ∧
    (∀ sg w, m.kind = .load sg w → admitted = true → isEmpty c m.addr = false →
      ∃ t, exec (.deliver n) s = .next t ∧ t.cells = s.cells ∧ look t.msgs n = none ∧ t.mem = s.mem ∧
        look t.resps n = some ⟨m, [extend sg m.size (readWord c.mem.scratch m.addr m.size)], none, true, [], 0, s.nextPerf⟩) ∧
    (∀ sg w, m.kind = .load sg w → admitted = true → isEmpty c m.addr = true →
      ∃ t x, exec (.deliver n) s = .next t ∧ look t.msgs n = none ∧ look t.resps n = some ⟨m, [], none, false, [], 0, 0⟩ ∧
        x.addr = m.addr ∧ x.size = m.size ∧ x.reader = .msg n ∧ x.since = s.now ∧
        look t.cells dst = some { c with mem := { c.mem with deferred := c.mem.deferred ++ [x] } } ∧ t.mem = s.mem) ∧
    (admitted = false → (∀ e, m.kind ≠ .line e) → refused .access)

/-- R166, R183, R189, R201: the same for a request at a physical address in no migrating page: one that is admitted performs, a
store writes its bytes of memory and only those, a load reads them; where a byte is uncorrectable it is refused with ECC,
and one that is not admitted with ACCESS, and no byte changes. -/
def Obligations.PhysicalRequests : Prop :=
  ∀ (n : Nat) (s : State) (m : Msg), look s.msgs n = some m → deliverable s n m = true → m.target = .pa →
    s.migrations = [] → Memory.wf s.mem = true → keysFrom 0 s.msgs = true → (∀ e, m.kind ≠ .line e) →
    let admitted := admitsPhysical s 0 (issuerPart s m) 0 (permBit m.kind) m.addr m.size
    let good := ∀ a ∈ s.poison, a < m.addr ∨ m.addr + m.size ≤ a
    let refused (code : TrapCode) : Prop :=
      ∃ t, exec (.deliver n) s = .next t ∧ t.cells = s.cells ∧ t.mem = s.mem ∧ look t.msgs n = none ∧
        look t.resps n = some ⟨m, [], some code, true, [], 0, s.nextPerf⟩
    (∀ v, m.kind = .store v → admitted = true → good →
      ∃ t, exec (.deliver n) s = .next t ∧ t.cells = s.cells ∧ readBytes t.mem m.addr m.size = bytesOf v.toNat m.size ∧
        (∀ a, a < m.addr ∨ m.addr + m.size ≤ a → readByte t.mem a = readByte s.mem a) ∧
        look t.msgs n = none ∧ look t.resps n = some ⟨m, [], none, true, [], 0, s.nextPerf⟩) ∧
    (∀ sg w, m.kind = .load sg w → admitted = true → good →
      ∃ t, exec (.deliver n) s = .next t ∧ t.cells = s.cells ∧ t.mem = s.mem ∧ look t.msgs n = none ∧
        look t.resps n = some ⟨m, [extend sg m.size (readWord s.mem m.addr m.size)], none, true, [], 0, s.nextPerf⟩) ∧
    (admitted = true → ¬ good → refused .ecc) ∧ (admitted = false → refused .access)

/-- R185: what an atomic of `size` bytes leaves where `old` stands, as numbers of that size; none where it writes nothing, a
`cas` whose comparison fails. -/
def Claims.atomicLeaves (op : BitVec 4) (size old v v2 : Nat) : Option Nat :=
  let m := 2 ^ (8 * size)
  let signed (x : Nat) : Int := Int.bmod x m
  match op.toNat with
  | 0 => some ((old + v) % m)
  | 1 => some v
  | 2 => if old = v then some v2 else none
  | 3 => some (if signed old < signed v then old else v)
  | 4 => some (if signed old < signed v then v else old)
  | 5 => some (if old < v then old else v)
  | 6 => some (if old < v then v else old)
  | 7 => some (old &&& v)
  | 8 => some (old ||| v)
  | _ => some (old ^^^ v)

/-- R185: the value each atomic operation leaves, over four bytes and over eight. -/
def Claims.AtomicValues : Prop :=
  ∀ (op : BitVec 4) (size : Nat) (old v v2 : Word), op.toNat < 10 → size = 4 ∨ size = 8 →
    (atomicResult op size old v v2).map (fun w => w.toNat % 2 ^ (8 * size)) =
      Claims.atomicLeaves op size (old.toNat % 2 ^ (8 * size)) (v.toNat % 2 ^ (8 * size)) (v2.toNat % 2 ^ (8 * size))

/-- R185, R192: an atomic whose turn it is on its channel is performed at its target in one step: at its place in a cell's
scratch, or at its physical address in no migrating page. The bytes at its address become what the operation leaves of
them, no other byte changes, and the response carries the old value, sign-extended. In a group in presence mode it is
refused with PRESENCE, and the word stays as it is. -/
def Claims.AtomicDelivers : Prop :=
  ∀ (n : Nat) (s : State) (m : Msg) (op : BitVec 4) (v v2 : Word) (d : BitVec 5), look s.msgs n = some m → deliverable s n m = true →
    m.kind = .amo op v v2 d → op.toNat < 10 → m.size = 4 ∨ m.size = 8 → keysFrom 0 s.msgs = true →
    let w := 2 ^ (8 * m.size)
    let old (x : SMap Byte) : Nat := ofBytes (readBytes x m.addr m.size)
    let acts (x y : SMap Byte) : Prop :=
      ofBytes (readBytes y m.addr m.size) = (Claims.atomicLeaves op m.size (old x) (v.toNat % w) (v2.toNat % w)).getD (old x) ∧
      ∀ a, a < m.addr ∨ m.addr + m.size ≤ a → readByte y a = readByte x a
    let answers (x : SMap Byte) (t : State) : Prop := look t.msgs n = none ∧ ∃ p, s.nextPerf ≤ p ∧
      look t.resps n = some ⟨m, [BitVec.ofInt 64 (Int.bmod (old x) w)], none, true, [], 0, p⟩
    (∀ dst c, m.target = .cell dst → look s.cells dst = some c → Memory.wf c.mem.scratch = true →
      admits s (unitKey (.cellRemote (BitVec.ofNat 9 dst))) 0 (issuerPart s m) 0 (permBit m.kind) m.addr (m.addr + m.size - 1) = true →
      (c.core.sr.pgmode.getLsbD (m.addr / 0x20000) = false → ∃ t c', exec (.deliver n) s = .next t ∧ look t.cells dst = some c' ∧
        acts c.mem.scratch c'.mem.scratch ∧ answers c.mem.scratch t ∧ t.mem = s.mem) ∧
      (c.core.sr.pgmode.getLsbD (m.addr / 0x20000) = true → ∃ t c', exec (.deliver n) s = .next t ∧ look t.cells dst = some c' ∧
        c'.mem.scratch = c.mem.scratch ∧ c'.mem.empty = c.mem.empty ∧ look t.msgs n = none ∧
        look t.resps n = some ⟨m, [], some .presence, true, [], 0, s.nextPerf⟩ ∧ t.mem = s.mem)) ∧
    (m.target = .pa → s.migrations = [] → Memory.wf s.mem = true →
      admitsPhysical s 0 (issuerPart s m) 0 (permBit m.kind) m.addr m.size = true →
      (∀ a ∈ s.poison, a < m.addr ∨ m.addr + m.size ≤ a) →
      ∃ t, exec (.deliver n) s = .next t ∧ t.cells = s.cells ∧ acts s.mem t.mem ∧ answers s.mem t)

/-- A response to a cell that has left its target, and has come where the target is another package's (R366), which no other
response of that target to that cell precedes (R205). -/
def Claims.Arrives (s : State) (n : Nat) (r : Resp) : Prop :=
  look s.resps n = some r ∧ r.ready = true ∧ r.msg.origin = none ∧ hasCome s r.msg = true ∧
  ∀ k x, (k, x) ∈ s.resps → k ≠ n → x.ready = true → x.msg.cell = r.msg.cell → channelOf s.fw x.msg = channelOf s.fw r.msg →
    r.perf < x.perf

/-- R190, R191, R205: of the responses of one target to one cell the one performed first arrives: the value of a load or of an
atomic is written to its register, which frees its slot, or fills its LDQ entry; a line fills its entry and keeps its slot; a
store's acknowledgement returns its credit. -/
def Claims.Responses : Prop :=
  ∀ (n : Nat) (s : State) (r : Resp) (c : Cell), Claims.Arrives s n r → r.refusal = none →
    look s.cells r.msg.cell = some c → c.task = r.msg.task → keysFrom 0 s.resps = true →
    (∀ d v, ((∃ sg, r.msg.kind = .load sg (.reg d)) ∨ ∃ op x y, r.msg.kind = .amo op x y d) → r.vals = [v] →
      ∃ t c', exec (.responseArrival n) s = .next t ∧ look t.resps n = none ∧ look t.cells r.msg.cell = some c' ∧
        getReg c'.core true d = (if d = 0 then 0 else v) ∧ bit c'.core.busy d.toNat = false ∧
        c'.core.slots = c.core.slots - 1 ∧
        (∀ e, e ≠ d → getReg c'.core true e = getReg c.core true e) ∧ c'.core.regsE = c.core.regsE ∧ t.mem = s.mem) ∧
    (∀ e, ((∃ sg, r.msg.kind = .load sg (.ldq e)) ∧ r.vals.length = 1) ∨ r.msg.kind = .line e →
      ∃ t c', exec (.responseArrival n) s = .next t ∧ look t.cells r.msg.cell = some c' ∧
        c'.core.ldq = c.core.ldq.map (fun x => if x.id = e ∧ x.filled = false then { x with filled := true, vals := r.vals } else x) ∧
        c'.core.slots = (if r.msg.kind = .line e then c.core.slots else c.core.slots - 1) ∧ c'.core.regsA = c.core.regsA) ∧
    (∀ v, r.msg.kind = .store v →
      ∃ t c', exec (.writeAcknowledgement n) s = .next t ∧ look t.resps n = none ∧ look t.cells r.msg.cell = some c' ∧
        c' = { c with core := { c.core with credits := c.core.credits - 1 } })

/-- R189, R191, R205, R342: a refusal gives its slot or credit back, writes no register, and raises its code late, with the
offset within the target in the record's address field and the place of the refused instruction beside it. An LDQ entry that
waits for the refused load stays unfilled until the handler returns, and a line's slot stays with it. -/
def Claims.Refusals : Prop :=
  ∀ (n : Nat) (s : State) (r : Resp) (c : Cell) (code : TrapCode), Claims.Arrives s n r →
    r.refusal = some code → look s.cells r.msg.cell = some c → c.task = r.msg.task →
    let ends (k : Core) : Prop := exec (.refusal n) s = .next (raise
      { s with resps := del s.resps n, cells := put s.cells r.msg.cell { c with core := k } } r.msg.cell
      { code := code, unit := 1, late := true, addr := BitVec.ofNat 64 r.msg.off, d6 := r.msg.pc })
    (∀ d, ((∃ sg, r.msg.kind = .load sg (.reg d)) ∨ ∃ op x y, r.msg.kind = .amo op x y d) →
      ends { c.core with busy := c.core.busy &&& ~~~(1#32 <<< d.toNat), slots := c.core.slots - 1 }) ∧
    (∀ sg e, r.msg.kind = .load sg (.ldq e) →
      ends { c.core with refusedLoads := c.core.refusedLoads ++ [e], slots := c.core.slots - 1 }) ∧
    (∀ e, r.msg.kind = .line e → ends { c.core with refusedLoads := c.core.refusedLoads ++ [e] }) ∧
    (∀ v, r.msg.kind = .store v → ends { c.core with credits := c.core.credits - 1 })

/-- R184: a store leaves the non-temporal bag for the back of its channel. -/
def Claims.BagLeaves : Prop :=
  ∀ (id i n : Nat) (s : State) (c : Cell) (m : Msg), look s.cells id = some c → c.bag[i]? = some n → look s.msgs n = some m →
    exec (.leaveBag id i) s = .next { s with
      cells := put s.cells id { c with bag := c.bag.eraseIdx i }
      msgs := put (del s.msgs n) s.nextMsg m, nextMsg := s.nextMsg + 1 }

/-- R158, R156: while the access stream stands at an access through a handle that is bound and not valid, a walk that finds
a leaf makes the handle valid with the leaf's frame, permission and generation. -/
def Claims.HandleWalk : Prop :=
  ∀ (id : Nat) (h : BitVec 4) (s : State) (c : Cell) (size : BitVec 2) (pte : Word), look s.cells id = some c →
    let q : Handle := c.core.handles[h.toNat]'h.isLt
    streamRuns c true = true → q.bound = true → q.v = false → fetchOk c.mem (nextPlace c true) = true →
    usesHandle (codeWord c.mem (nextPlace c true).toNat) h = true →
    walk s c.part (q.vpage.toNat * 0x10000) q.rwreq = .leaf size pte →
    ∃ t c', exec (.translationWalk id h) s = .next t ∧ look t.cells id = some c' ∧
      let q' : Handle := c'.core.handles[h.toNat]'h.isLt
      q'.v = true ∧ q'.pfn.toNat = pte.toNat / 2 ^ 16 % 2 ^ 36 ∧ q'.w = (pte.getLsbD 61 && q.rwreq) ∧ q'.size = size ∧
      q'.gen.toNat = pte.toNat / 2 ^ 52 % 2 ^ 8 ∧ c'.core.pcA = c.core.pcA ∧ t.mem = s.mem

/-- R159: a revocation takes V from every handle of the frame, also those that the channels of the copy engine hold, and the cell acknowledges when every access that it has issued
through a handle of the frame has reached its controller (a migrating page's source may take it later, R162); the revocation completes with its last acknowledgement. -/
def Claims.Revocations : Prop :=
  ∀ (id : Nat) (pfn : BitVec 36) (s : State) (c : Cell) (part : BitVec 4) (w : List Nat), look s.cells id = some c →
    s.revocations = [⟨part, pfn, w⟩] →
    let flies : Prop := ∃ n m, (n, m) ∈ s.msgs ∧ m.cell = id ∧ m.frame = some pfn ∧ heldBack s n m = false
    (id ∈ w →
      ∃ t c', exec (.revocation id pfn) s = .next t ∧ look t.cells id = some c' ∧
        (∀ h : Fin 16, c'.core.handles[h] =
          if c.core.handles[h].pfn = pfn then { c.core.handles[h] with v := false } else c.core.handles[h]) ∧
        (∀ n : Fin 4,
          c'.channels[n].readsBy = (if c.channels[n].readsBy.pfn = pfn then { c.channels[n].readsBy with v := false }
            else c.channels[n].readsBy) ∧
          c'.channels[n].writesBy = if c.channels[n].writesBy.pfn = pfn then { c.channels[n].writesBy with v := false }
            else c.channels[n].writesBy) ∧
        (¬ flies → t.revocations = [⟨part, pfn, w.filter (· ≠ id)⟩]) ∧ (flies → t.revocations = s.revocations) ∧ t.mem = s.mem) ∧
    (w = [] → exec (.revocationComplete pfn) s = .next { s with revocations := [] })

/-- R162, R163, R165, R166, R168: a migration is armed for a page that is mapped, not pinned, under no window, not of 16 GiB
and moved by no other engine, to a populated, aligned frame that is not offlined (HBM only once a retirement list stands),
where the die migrates nothing yet; the evictor arms it, when the partition's free HBM is below its threshold, for the page
it chooses and a frame of the CXL tier. Nothing moves yet. -/
def Claims.MigrationStarts : Prop :=
  ∀ (die : BitVec 2) (part : BitVec 4) (va : BitVec 57) (dst : BitVec 36) (s : State) (size : BitVec 2) (pte : Word),
    look s.migrations die.toNat = none → walk s part va.toNat false = .leaf size pte →
    let n := pageBytes size
    let src := (ptePfn pte).toNat * 0x10000
    let goal := dst.toNat * 0x10000
    (∀ f ∈ s.fw.offlined, f.toNat * 0x10000 + 0x10000 ≤ goal ∨ goal + n ≤ f.toNat * 0x10000) →
    (regionOf goal = some 1 → s.fw.retActive ≠ none) →
    (∀ x ∈ s.migrations, ∀ a ∈ [x.2.src.toNat * 0x10000, x.2.dst.toNat * 0x10000],
      (a + x.2.bytes ≤ src ∨ src + n ≤ a) ∧ (a + x.2.bytes ≤ goal ∨ goal + n ≤ a)) →
    size ≠ 2 → pte.getLsbD 60 = false → mayMove src (dst.toNat * 0x10000) = true →
    populated s.fw (dst.toNat * 0x10000) n = true → dst.toNat * 0x10000 % n = 0 → underWindow s src n = false →
    ∃ t m, exec (.migrationArm die part va dst) s = .next t ∧ look t.migrations die.toNat = some m ∧ m.step = .arm ∧
      m.src = ptePfn pte ∧ m.dst = dst ∧ m.bytes = n ∧ m.va.toNat = va.toNat / n * n ∧ m.dirty = [] ∧ m.held = [] ∧
      t.mem = s.mem ∧ t.cells = s.cells ∧
      (evictChoice s die part = some va.toNat → (partOf s part).freePages < (partOf s part).evictPages → regionOf goal = some 2 →
        exec (.eviction die part dst) s = .next t)

/-- R161, R162, steps 2 to 6, R163, R407: where the access tables admit the engine's requests, the copy writes the
destination frame alone, with the bytes and the poison of the source; the recopies carry the dirty sectors, all of them
and no other byte, while more than four are dirty, eight rounds at most, and then writes are held; the switch writes the
new frame and the next generation into the leaf and revokes the old frame; once that revocation has completed, the held
writes are applied at the destination in their order, requests that the source kept go on to it, the heat of the page's
frames goes with them, and the migration is over. -/
def Claims.MigrationSteps : Prop :=
  ∀ (die : BitVec 2) (s : State) (m : Migration), look s.migrations die.toNat = some m → Memory.wf s.mem = true →
    let src := m.src.toNat * 0x10000
    let dst := m.dst.toNat * 0x10000
    let apart : Prop := dst + m.bytes ≤ src ∨ src + m.bytes ≤ dst
    let copyable (i : Nat) : Prop :=
      admitsPhysical s 3 m.part 0 62 (src + i) 1 = true ∧ admitsPhysical s 3 m.part 0 61 (dst + i) 1 = true
    let carried (t : State) : Prop := apart → (∀ k ∈ m.dirty, src ≤ k * 256 ∧ k * 256 + 256 ≤ src + m.bytes) →
      (∀ i, i < m.bytes → readByte t.mem (dst + i) =
        if (src + i) / 256 ∈ m.dirty then readByte s.mem (src + i) else readByte s.mem (dst + i)) ∧
      (∀ i, i < m.bytes → (dst + i ∈ t.poison ↔ if (src + i) / 256 ∈ m.dirty then src + i ∈ s.poison else dst + i ∈ s.poison)) ∧
      (∀ a, a < dst ∨ dst + m.bytes ≤ a → readByte t.mem a = readByte s.mem a)
    (m.step = .arm → apart → (∀ i, i < m.bytes / 4096 → copyable (i * 4096)) →
      ∃ t m', exec (.migrationCopy die) s = .next t ∧ look t.migrations die.toNat = some m' ∧ m'.step = .copy ∧ m'.dirty = [] ∧
        (∀ i, i < m.bytes → readByte t.mem (dst + i) = readByte s.mem (src + i)) ∧
        (∀ i, i < m.bytes → (dst + i ∈ t.poison ↔ src + i ∈ s.poison)) ∧
        (∀ a, a < dst ∨ dst + m.bytes ≤ a → readByte t.mem a = readByte s.mem a)) ∧
    (m.step = .copy ∨ m.step = .recopy → 4 < m.dirty.length → m.rounds < 8 → (∀ k ∈ m.dirty, copyable (k * 256 - src)) →
      ∃ t m', exec (.migrationRecopy die) s = .next t ∧ look t.migrations die.toNat = some m' ∧ m'.step = .recopy ∧
        m'.dirty = [] ∧ m'.rounds = m.rounds + 1 ∧ m'.held = m.held ∧ carried t) ∧
    (m.step = .copy ∨ m.step = .recopy → m.dirty.length ≤ 4 ∨ 8 ≤ m.rounds → (∀ k ∈ m.dirty, copyable (k * 256 - src)) →
      ∃ t m', exec (.migrationHold die) s = .next t ∧ look t.migrations die.toNat = some m' ∧ m'.step = .hold ∧ m'.dirty = [] ∧
        m'.held = m.held ∧ carried t) ∧
    (m.step = .hold → admitsPhysical s 3 m.part 0 61 m.leafAt 8 = true →
      ∃ t m', exec (.migrationSwitch die) s = .next t ∧ look t.migrations die.toNat = some m' ∧ m'.step = .switched ∧
        m'.held = m.held ∧
        (readWord t.mem m.leafAt 8).toNat / 2 ^ 16 % 2 ^ 36 = m.dst.toNat ∧
        (readWord t.mem m.leafAt 8).toNat / 2 ^ 52 % 2 ^ 8 = ((readWord s.mem m.leafAt 8).toNat / 2 ^ 52 % 2 ^ 8 + 1) % 2 ^ 8 ∧
        (∀ a, a < m.leafAt ∨ m.leafAt + 8 ≤ a → readByte t.mem a = readByte s.mem a) ∧
        (∃ w, t.revocations = s.revocations ++ [⟨m.part, m.src, w⟩])) ∧
    (m.step = .switched → (∀ r ∈ s.revocations, ¬ (r.part = m.part ∧ r.pfn = m.src)) →
      (∀ w ∈ m.held, admitsPhysical s 3 m.part 0 61 (w.1 - src + dst) w.2.length = true) → keysFrom 0 s.migrations = true →
      ∃ t, exec (.migrationForward die) s = .next t ∧ look t.migrations die.toNat = none ∧
        (∀ a, readByte t.mem a = m.held.foldl (fun b w =>
          if w.1 - src + dst ≤ a ∧ a < w.1 - src + dst + w.2.length then w.2.getD (a - (w.1 - src + dst)) b else b)
          (readByte s.mem a)) ∧
        (∀ n x, look s.msgs n = some x → ∃ x', look t.msgs n = some x' ∧
          (x.target = .pa ∧ src ≤ x.addr ∧ x.addr < src + m.bytes → x'.addr = x.addr - src + dst ∧ x'.kind = x.kind) ∧
          (¬ (x.target = .pa ∧ src ≤ x.addr ∧ x.addr < src + m.bytes) → x' = x)) ∧
        (apart → keysFrom 0 s.heat = true → ∀ i, i < m.bytes / 0x10000 →
          peek (0 : Byte) t.heat (m.dst.toNat + i) = peek (0 : Byte) s.heat (m.src.toNat + i)))

/-- R161, R166, R167, R193, R404: a heat decay halves every counter; a row takes one of its bank's sixteen spares, and after them
its frames, which firmware names, are taken offline, once no page table maps them any more (firmware that runs does both); an uncorrectable error poisons its bytes and is reported, and a correctable one only reported;
a retirement list goes to the older flash slot under a higher number and the device's signature; a window's mark reaches the controllers. No byte of
memory changes. Which frames hold bytes of a row is Config's, and a list of other frames does nothing (the model's choice,
assumption 11); that a window's mark reaches every controller in one step is its choice too (assumption 54). -/
def Obligations.HeatRowsAndErrors : Prop :=
  ∀ (s : State),
    (keysFrom 0 s.heat = true → ∃ t, exec .heatDecay s = .next t ∧ t.mem = s.mem ∧
      ∀ f, (peek (0 : Byte) t.heat f).toNat = (peek (0 : Byte) s.heat f).toNat / 2) ∧
    (s.fw.booted = false → (∀ r fs, exec (.rowRetirement r fs) s = .next s) ∧ ∀ es, exec (.retirementListUpdate es) s = .next s) ∧
    (∀ (r : RowId) (fs : List (BitVec 36)), s.fw.booted = true →
      (peek 0 s.fw.spares (bankKey r) < 16 → ∃ t, exec (.rowRetirement r fs) s = .next t ∧ t.mem = s.mem ∧
        peek 0 t.fw.spares (bankKey r) = peek 0 s.fw.spares (bankKey r) + 1 ∧ t.fw.offlined = s.fw.offlined) ∧
      (16 ≤ peek 0 s.fw.spares (bankKey r) → fs = framesOf r → (∀ f ∈ fs, frameMapped s f = false) →
        ∃ t, exec (.rowRetirement r fs) s = .next t ∧ t.mem = s.mem ∧
          t.fw.spares = s.fw.spares ∧ t.fw.offlined = s.fw.offlined ++ fs) ∧
      (16 ≤ peek 0 s.fw.spares (bankKey r) → ∀ f ∈ fs, frameMapped s f = true → exec (.rowRetirement r fs) s = .next s) ∧
      (16 ≤ peek 0 s.fw.spares (bankKey r) → fs ≠ framesOf r → exec (.rowRetirement r fs) s = .next s)) ∧
    (∀ (pa : BitVec 52) (n : Nat),
      (∃ t, exec (.memoryError pa n true) s = .next t ∧ t.mem = s.mem ∧
        (∀ a, a ∈ t.poison ↔ a ∈ s.poison ∨ (pa.toNat ≤ a ∧ a < pa.toNat + n)) ∧
        t.fw.reports = s.fw.reports ++ [.memory pa.toNat]) ∧
      (∃ t, exec (.memoryError pa n false) s = .next t ∧ t.mem = s.mem ∧ t.poison = s.poison ∧
        t.fw.reports = s.fw.reports ++ [.memory pa.toNat])) ∧
    (∀ (es : List Word) (a b : RetSlot), s.fw.booted = true → es.length ≤ 4096 → s.fw.ret = #v[some a, some b] → a.verifies = true →
      b.verifies = true → a.seq.toNat < b.seq.toNat → b.seq.toNat + 1 < 2 ^ 64 →
      ∃ t r, exec (.retirementListUpdate es) s = .next t ∧ t.mem = s.mem ∧ t.fw.ret = #v[some r, some b] ∧ r.seq = b.seq + 1 ∧
        r.entries = es ∧ r.verifies = true) ∧
    (∀ (id : Nat) (w : BitVec 4) (c : Cell), look s.cells id = some c →
      (∀ x, (c.core.windows[w.toNat]'w.isLt) = some x → ∃ t, exec (.windowPublish id w) s = .next t ∧
        look t.published (memberOf c * 16 + w.toNat) = some ⟨c.part, x⟩ ∧ t.cells = s.cells) ∧
      ((c.core.windows[w.toNat]'w.isLt) = none → keysFrom 0 s.published = true → ∃ t, exec (.windowPublish id w) s = .next t ∧
        look t.published (memberOf c * 16 + w.toNat) = none ∧ t.cells = s.cells))

/-! ### Packets and engine queues -/

/-- A PACKET trap: the reason and the index of the word in the address field (R240). -/
def Claims.packetError (reason i : Nat) : Trap := { code := .packet, unit := 0, addr := BitVec.ofNat 64 (reason * 256 + i) }

/-- R229-R237, R240: what each word of a packet does before its launch word, on a stack of at most eight entries: literals,
stack words, `setf`, `wait`, `tok`, `sig`, `phase`, and the launch words without operands; each error by its reason. -/
def Claims.PacketWords : Prop :=
  ∀ (s : State) (c : Cell) (q : BitVec 2) (i : Nat) (p : Parse), p.launch = none → p.stack.length ≤ 8 →
    let run (w : BitVec 16) : Parsed := packetWord s c q i w p
    let push_ (v : Word) : Parsed :=
      if p.stack.length = 8 then .error (Claims.packetError 3 i) else .ok { p with stack := v :: p.stack }
    (∀ w : BitVec 16, w.toNat < 2 ^ 15 → run w = push_ (BitVec.ofNat 64 w.toNat)) ∧
    (∀ v : BitVec 14, run (2#2 ++ v) = match p.stack with
      | [] => .error (Claims.packetError 4 i)
      | t :: r => .ok { p with stack := BitVec.ofNat 64 (t.toNat * 2 ^ 14 + v.toNat) :: r }) ∧
    (∀ o ∈ ([(0xE004, fun u t => u + t), (0xE005, fun u t => u - t), (0xE006, fun u t => u * t),
        (0xE007, fun u t => u <<< (t.toNat % 64)), (0xE008, fun u t => u >>> (t.toNat % 64)),
        (0xE009, fun u t => u &&& t), (0xE00A, fun u t => u ||| t)] : List (BitVec 16 × (Word → Word → Word))),
      run o.1 = match p.stack with
        | t :: u :: r => .ok { p with stack := o.2 u t :: r }
        | _ => .error (Claims.packetError 4 i)) ∧
    (run 0xE000 = match p.stack with
      | [] => .error (Claims.packetError 4 i)
      | t :: _ => push_ t) ∧
    (run 0xE001 = match p.stack with
      | [] => .error (Claims.packetError 4 i)
      | _ :: r => .ok { p with stack := r }) ∧
    (run 0xE002 = match p.stack with
      | t :: u :: r => .ok { p with stack := u :: t :: r }
      | _ => .error (Claims.packetError 4 i)) ∧
    (run 0xE003 = match p.stack with
      | _ :: u :: _ => push_ u
      | _ => .error (Claims.packetError 4 i)) ∧
    (∀ n : BitVec 3, run (0x1860#13 ++ n) = match p.stack[n.toNat]? with
      | some v => push_ v
      | none => .error (Claims.packetError 4 i)) ∧
    (∀ f : BitVec 8, run (0xC0#8 ++ f) = match p.stack with
      | [] => .error (Claims.packetError 4 i)
      | t :: r => match storedField q f.toNat t with
        | none => .error (Claims.packetError 5 i)
        | some v => .ok { p with stack := r, shadow := poke (fieldDefault q f.toNat) p.shadow f.toNat v }) ∧
    (∀ n : BitVec 6, run (0x304#10 ++ n) =
      if 3 ≤ p.waits.length then .error (Claims.packetError 9 i)
      else .ok { p with waits := p.waits ++ [(n, (c.core.tokens[n.toNat]'n.isLt).seq)] }) ∧
    (∀ (n : BitVec 6) (e : BitVec 2), run (0xC2#8 ++ e ++ n) =
      if p.tok.isSome then .error (Claims.packetError 9 i)
      else if (c.core.tokens[n.toNat]'n.isLt).pend then .error (Claims.packetError 11 i)
      else .ok { p with tok := some (n, e) }) ∧
    (run 0xE010 = match p.stack with
      | [] => .error (Claims.packetError 4 i)
      | t :: r =>
        if 2 ≤ p.sigs.length then .error (Claims.packetError 9 i)
        else if 2 ^ 32 ≤ t.toNat then .error (Claims.packetError 10 i)
        else if (peek ({} : Counter) s.counters (t.toNat % 2 ^ 16)).part ≠ c.part then
          .error { code := .access, unit := 0, addr := t }
        else .ok { p with stack := r, sigs := p.sigs ++ [BitVec.ofNat 32 t.toNat] }) ∧
    (run 0xE011 = match p.stack with
      | [] => .error (Claims.packetError 4 i)
      | t :: r =>
        if p.phase.isSome then .error (Claims.packetError 9 i)
        else if 4 < t.toNat then .error (Claims.packetError 10 i)
        else .ok { p with stack := r, phase := some (BitVec.ofNat 3 t.toNat) }) ∧
    (∀ o ∈ ([(0xE020, 0, .goMm), (0xE021, 0, .goMmacc), (0xE030, 1, .fire), (0xE035, 1, .strain)] :
        List (BitVec 16 × BitVec 2 × Launch)),
      run o.1 = if q ≠ o.2.1 then .error (Claims.packetError 6 i)
        else if p.tok = none then .error (Claims.packetError 13 i)
        else .ok { p with launch := some o.2.2 })

/-- R238, R239: the operands of the launch words that have some, taken from the top of the stack, and reason 8 for one
outside its limits. -/
def Claims.LaunchOperands : Prop :=
  ∀ (s : State) (c : Cell) (i : Nat) (p : Parse) (t u : Word) (r : List Word), p.launch = none → p.tok ≠ none →
    p.stack = t :: u :: r →
    let gives (q : BitVec 2) (w : BitVec 16) (l : Launch) : Prop := packetWord s c q i w p = .ok { p with launch := some l }
    let refuses (q : BitVec 2) (w : BitVec 16) : Prop := packetWord s c q i w p = .error (Claims.packetError 8 i)
    (t.toNat < 16 → gives 1 0xE031 (.arm (BitVec.ofNat 4 t.toNat)) ∧ gives 1 0xE032 (.recfgE (BitVec.ofNat 4 t.toNat)) ∧
      gives 1 0xE033 (.recfgX (BitVec.ofNat 4 t.toNat))) ∧
    (16 ≤ t.toNat → refuses 1 0xE031 ∧ refuses 1 0xE032 ∧ refuses 1 0xE033) ∧
    (t.toNat % 32 = 0 ∧ t.toNat ≤ 0xBE000 ∧ u.toNat < 32 →
      gives 1 0xE034 (.xctx t (BitVec.ofNat 4 u.toNat) (decide (16 ≤ u.toNat)))) ∧
    (¬ (t.toNat % 32 = 0 ∧ t.toNat ≤ 0xBE000 ∧ u.toNat < 32) → refuses 1 0xE034) ∧
    (t.toNat % 64 = 0 ∧ t.toNat < 2 ^ 57 ∧ u.toNat < 4 → gives 2 0xE040 (.chain t (BitVec.ofNat 2 u.toNat))) ∧
    (¬ (t.toNat % 64 = 0 ∧ t.toNat < 2 ^ 57 ∧ u.toNat < 4) → refuses 2 0xE040) ∧
    (t.toNat < 4 → gives 2 0xE041 (.kick (BitVec.ofNat 2 t.toNat)) ∧ gives 2 0xE042 (.copy (BitVec.ofNat 2 t.toNat))) ∧
    (4 ≤ t.toNat → refuses 2 0xE041 ∧ refuses 2 0xE042) ∧
    (t.toNat < 2 ^ 32 ∧ u.toNat < 4 → gives 2 0xE043 (.fill (BitVec.ofNat 32 t.toNat) (BitVec.ofNat 2 u.toNat))) ∧
    (¬ (t.toNat < 2 ^ 32 ∧ u.toNat < 4) → refuses 2 0xE043) ∧
    (t.toNat % 128 = 0 ∧ t.toNat < 2 ^ 57 → gives 3 0xE050 (.blend t)) ∧
    (¬ (t.toNat % 128 = 0 ∧ t.toNat < 2 ^ 57) → refuses 3 0xE050)

/-- R42, R226, R227, R234, R239: `enq` takes its packet from registers, four words from each, `enqi` from the image. A packet
without error joins the back of its queue with the fields and masks captured, the queue's ISEQ goes up by one, and its
production is bound to its token; its phase item is counted in the phase that is open to the cell. A packet with an error
traps and has no effect; a full queue or a full count makes the instruction wait; `enqi` outside the sections traps ILLEGAL. -/
def Obligations.PacketIssue : Prop :=
  ∀ (s : State) (c : Cell) (q : BitVec 2) (f : BitVec 5) (n : BitVec 3) (l : BitVec 5) (o : BitVec 16), Ready s false c →
    let words (ws : List (BitVec 16)) : Parsed := packetWords s c q 0 ws { shadow := (getQueue c q).shadow }
    let a : Int := c.core.pcE.toNat + 4 * o.toInt
    let regWords := (List.range (n.toNat + 1)).flatMap fun j =>
      let v := getReg c.core false (f + BitVec.ofNat 5 j)
      [BitVec.ofNat 16 v.toNat, BitVec.ofNat 16 (v.toNat / 2 ^ 16), BitVec.ofNat 16 (v.toNat / 2 ^ 32),
        BitVec.ofNat 16 (v.toNat / 2 ^ 48)]
    let inImage := (List.range (l.toNat + 1)).map fun j => BitVec.ofNat 16 (ofBytes (readBytes c.mem.code (a.toNat + 2 * j) 2))
    let issues (i : Instr) (p : Parse) : Prop :=
      ∀ la t, p.launch = some la → p.tok = some t → p.phase = none →
      ∃ c' e, EndsAt i s c' ∧ c'.core.pcE = c.core.pcE + 4 ∧ c'.core.regsE = c.core.regsE ∧ c'.core.regsA = c.core.regsA ∧
        c'.mem = c.mem ∧ (getQueue c' q).entries = (getQueue c q).entries ++ [e] ∧ (getQueue c' q).shadow = p.shadow ∧
        (getQueue c' q).iseq = (getQueue c q).iseq + 1 ∧ (getQueue c' q).dseq = (getQueue c q).dseq ∧
        (∀ r, r ≠ q → getQueue c' r = getQueue c r) ∧
        (∀ m : BitVec 6, c'.core.tokens[m.toNat]'m.isLt =
          if m = t.1 then ⟨true, (c.core.tokens[m.toNat]'m.isLt).seq + 1⟩ else c.core.tokens[m.toNat]'m.isLt) ∧
        e.seq = (getQueue c q).iseq + 1 ∧ e.launch = la ∧ e.waits = p.waits ∧ e.tok = t.1 ∧ e.scope.toNat = t.2.toNat ∧
        e.prod = (c.core.tokens[t.1.toNat]'t.1.isLt).seq + 1 ∧ e.sigs = p.sigs ∧ e.phase = none ∧ e.cfg = p.shadow ∧
        e.status = .waiting ∧
        (q = 0 → ∀ m : Nat, m = (peek 0 p.shadow 0x0B).toNat →
          e.km = c.core.masks[m % 8]'(by omega) ∧ e.kn = c.core.masks[m / 8 % 8]'(by omega) ∧
          e.kk = c.core.masks[m / 64 % 8]'(by omega))
    let counts (i : Instr) (p : Parse) : Prop :=
      ∀ la t l, p.launch = some la → p.tok = some t → p.phase = some l →
      let key := cellBarrier s.focus.cell c l.toNat
      let b := barrierAt s key
      let side := if bit c.bar.pending l.toNat then !b.gen else b.gen
      let out (r : Barrier) : BitVec 16 := if side then r.out1 else r.out0
      (out b = 0xFFFF → exec i s = .next s) ∧
      (out b ≠ 0xFFFF → ∃ u c' e, exec i s = .next u ∧ look u.cells s.focus.cell = some c' ∧ c'.core.pcE = c.core.pcE + 4 ∧
        (getQueue c' q).entries = (getQueue c q).entries ++ [e] ∧ e.launch = la ∧ e.phase = some ⟨l, side, key⟩ ∧
        out (barrierAt u key) = out b + 1 ∧ (barrierAt u key).arrived = b.arrived ∧ u.mem = s.mem)
    ((getQueue c q).entries.length < 16 →
      ((Instr.enq (q.setWidth 3) f n).WellFormed →
        (∀ p, words regWords = .ok p → issues (.enq (q.setWidth 3) f n) p ∧ counts (.enq (q.setWidth 3) f n) p) ∧
        (∀ tr, words regWords = .error tr → exec (.enq (q.setWidth 3) f n) s = .next (raise s s.focus.cell
          { tr with unit := 0, word := coreWord (.enq (q.setWidth 3) f n) }))) ∧
      (0 ≤ a → a + 2 * (l.toNat + 1) ≤ c.mem.codeLen + c.mem.constLen →
        (∀ p, words inImage = .ok p → issues (.enqi (q.setWidth 3) l o) p ∧ counts (.enqi (q.setWidth 3) l o) p) ∧
        (∀ tr, words inImage = .error tr → exec (.enqi (q.setWidth 3) l o) s = .next (raise s s.focus.cell
          { tr with unit := 0, word := coreWord (.enqi (q.setWidth 3) l o) })))) ∧
    (a < 0 ∨ (c.mem.codeLen + c.mem.constLen : Int) < a + 2 * (l.toNat + 1) →
      exec (.enqi (q.setWidth 3) l o) s = .next (raise s s.focus.cell
        { code := .illegal, unit := 0, word := coreWord (.enqi (q.setWidth 3) l o) })) ∧
    ((getQueue c q).entries.length = 16 → (Instr.enq (q.setWidth 3) f n).WellFormed →
      exec (.enq (q.setWidth 3) f n) s = .next s)

/-- The head entry of queue q of the cell in turn is e, and it may start (R242). -/
def Claims.HeadMayStart (s : State) (q : BitVec 2) (c : Cell) (e : Entry) : Prop :=
  look s.cells s.focus.cell = some c ∧ (getQueue c q).entries.head? = some e ∧ startable s s.focus.cell c q e = true

/-- R248, R252, R253: `go.mm` and `go.mmacc` begin at the first step of their nest, `go.mm` with a clear; a check that fails
stops the entry at its fault. Accumulators and memory stay until a step is made. -/
def Claims.MatrixStarts : Prop :=
  ∀ (s : State) (c : Cell) (e : Entry), Claims.HeadMayStart s 0 c e → (peek 0 e.cfg 0x0C).getLsbD 0 = false →
    ∀ p ∈ [(Instr.goMm, Launch.goMm, true), (.goMmacc, .goMmacc, false)], e.launch = p.2.1 →
      (startFault c e = none → ∃ c', EndsAt p.1 s c' ∧ (getQueue c' 0).entries.head? =
          some { e with status := .running, idx := [0, 0, 0, 0, 0, 0], clr := p.2.2, retire := false, atPoint := true } ∧
        c'.acc = c.acc ∧ c'.mem = c.mem ∧ c'.core = c.core ∧ c'.exitBank = c.exitBank) ∧
      (c.core.sr.maxk.toNat < (((List.range 6).filter fun l => (peek 3 e.cfg (0x11 + 0x10 * l)).toNat = 2).map fun l =>
          (peek 1 e.cfg (0x10 + 0x10 * l)).toNat).foldl (· * ·) 1 →
        ∃ tr, startFault c e = some tr ∧ tr.code = .matgroup ∧ tr.addr.toNat ∈ [1, 2] ∧
          exec p.1 s = .next (engineFault s s.focus.cell 0 tr false))

/-- R271, R275, R278, R279, R288: the words of q1. `arm` copies a context into both halves of the shadow set; `fire` makes
the shadow active once both active halves have ended, `recfg.e` and `recfg.x` one half; each faults ILLEGAL with its reason;
`xctx` moves 8 KiB between scratch and the store, byte for byte. -/
def Obligations.CollarStarts : Prop :=
  ∀ (s : State) (c : Cell) (e : Entry), Claims.HeadMayStart s 1 c e → e.swapped = false →
    let k := c.collar
    let illegal_ (n : Nat) : Trap := { code := .illegal, unit := 3, sub := 2, addr := BitVec.ofNat 64 n }
    let copyOf (ctx : BitVec 4) (h : Half) : Prop := h.ctx = ctx ∧ h.stale = false ∧
      ∀ i, readByte h.bytes i = if i < 0x2000 then readByte k.store (ctx.toNat * 0x2000 + i) else 0
    (∀ ctx, e.launch = .arm ctx →
      (contextFault (healthyStrips s s.focus.cell) (loadContext k ctx) = none → ∃ c' h, EndsAt .collarArm s c' ∧ copyOf ctx h ∧
        c'.collar = { k with shE := some h, shX := some h, shValid := true } ∧
        (getQueue c' 1).entries.head? = some { e with status := .finished } ∧ c'.mem = c.mem) ∧
      (∀ tr, contextFault (healthyStrips s s.focus.cell) (loadContext k ctx) = some tr →
        exec .collarArm s = .next (engineFault s s.focus.cell 1 tr false))) ∧
    (e.launch = .fire →
      (k.shValid = false → exec .fire s = .next (engineFault s s.focus.cell 1 (illegal_ 1) false)) ∧
      (k.shValid = true → halfEnded k k.actE false = true → halfEnded k k.actX true = true → ∃ c', EndsAt .fire s c' ∧
        c'.collar.actE = k.shE ∧ c'.collar.actX = k.shX ∧ c'.collar.shE = none ∧ c'.collar.shX = none ∧
        c'.collar.shValid = false ∧ (getQueue c' 1).entries.head? = some { e with status := .running, swapped := true } ∧
        c'.mem = c.mem ∧ c'.acc = c.acc) ∧
      (k.shValid = true → halfEnded k k.actE false = false ∨ halfEnded k k.actX true = false → ∃ c', EndsAt .fire s c' ∧
        c'.collar = k ∧ (getQueue c' 1).entries.head? = some { e with status := .running })) ∧
    (∀ ctx, (e.launch = .recfgE ctx ∨ e.launch = .recfgX ctx) →
      let i := match e.launch with
        | .recfgX _ => Instr.recfgX
        | _ => .recfgE
      let fault := contextFault (healthyStrips s s.focus.cell) (loadContext k ctx)
      (contextUse (loadContext k ctx) ≠ activeUse k → exec i s = .next (engineFault s s.focus.cell 1 (illegal_ 2) false)) ∧
      (contextUse (loadContext k ctx) = activeUse k → ∀ tr, fault = some tr →
        exec i s = .next (engineFault s s.focus.cell 1 tr false)) ∧
      (contextUse (loadContext k ctx) = activeUse k → fault = none →
        (e.launch = .recfgE ctx → k.shE = none → halfEnded k k.actE false = true → ∃ c' h, EndsAt .recfgE s c' ∧ copyOf ctx h ∧
          c'.collar.actE = some h ∧ c'.collar.actX = k.actX ∧ c'.collar.shE = none ∧ c'.collar.shX = k.shX ∧ c'.collar.shValid = false ∧
          (getQueue c' 1).entries.head? = some { e with status := .running, swapped := true }) ∧
        (e.launch = .recfgX ctx → k.shX = none → halfEnded k k.actX true = true → ∃ c' h, EndsAt .recfgX s c' ∧ copyOf ctx h ∧
          c'.collar.actX = some h ∧ c'.collar.actE = k.actE ∧ c'.collar.shX = none ∧ c'.collar.shE = k.shE ∧ c'.collar.shValid = false ∧
          (getQueue c' 1).entries.head? = some { e with status := .running, swapped := true }))) ∧
    (∀ a ctx save, e.launch = .xctx a ctx save → debugs s c = false → presenceMode c a.toNat = false →
      presenceMode c (a.toNat + 0x1FFF) = false →
      ∃ c', EndsAt .xctx s c' ∧ (getQueue c' 1).entries.head? = some { e with status := .finished } ∧
        (save = true → c'.collar = k ∧ ∀ n, readByte c'.mem.scratch n =
          if a.toNat ≤ n ∧ n < a.toNat + 0x2000 then readByte k.store (ctx.toNat * 0x2000 + (n - a.toNat)) else readByte c.mem.scratch n) ∧
        (save = false → c'.mem = c.mem ∧ ∀ n, readByte c'.collar.store n =
          if ctx.toNat * 0x2000 ≤ n ∧ n < (ctx.toNat + 1) * 0x2000 then readByte c.mem.scratch (a.toNat + (n - ctx.toNat * 0x2000))
          else readByte k.store n)) ∧
    (∀ a ctx save, e.launch = .xctx a ctx save → presenceMode c a.toNat = true ∨ presenceMode c (a.toNat + 0x1FFF) = true →
      exec .xctx s = .next (engineFault s s.focus.cell 1 { code := .access, unit := 3 } false)) ∧
    (e.launch = .strain → ∃ c', EndsAt .strain s c' ∧ c'.collar.strainer = true ∧ c'.collar.links = [] ∧
      c'.collar.store = k.store ∧ c'.collar.vreg = k.vreg ∧ (∀ j : Fin 16, c'.collar.strips[j].fifo = [] ∧ c'.collar.strips[j].fault = none) ∧
      (getQueue c' 1).entries.head? = some { e with status := .running } ∧ c'.mem.scratch = c.mem.scratch ∧
      ∀ d, d ∈ c'.mem.deferred ↔ d ∈ c.mem.deferred ∧ ∀ n, d.reader ≠ .port n)

/-- R317, R325, R327: a copy launch on a channel that stands at a fault faults with reason 5. `chain` starts its channel at a
record; `kick` a parked channel, and else ends at once; `copy` and `fill` run the captured record on their channel. -/
def Claims.CopyStarts : Prop :=
  ∀ (s : State) (c : Cell) (e : Entry) (ch : BitVec 2), Claims.HeadMayStart s 2 c e →
    let h : Channel := c.channels[ch.toNat]'ch.isLt
    let starts (i : Instr) (h' : Channel) (st : EntryStatus) : Prop := ∃ c', EndsAt i s c' ∧
      (c'.channels[ch.toNat]'ch.isLt) = h' ∧ (∀ d : BitVec 2, d ≠ ch → (c'.channels[d.toNat]'d.isLt) = (c.channels[d.toNat]'d.isLt)) ∧
      (getQueue c' 2).entries.head? = some { e with status := st } ∧ c'.mem = c.mem ∧ c'.core = c.core
    let faults (i : Instr) (p : Word) : Prop := exec i s = .next (engineFault s s.focus.cell 2
      { code := .illegal, unit := 5, sub := 2
        addr := BitVec.ofNat 64 (ch.toNat * 2 ^ 57 + p.toNat % 2 ^ 57 / 64 * 64 + 5)
        d6 := h.head, d7 := BitVec.ofNat 64 (ch.toNat * 2 ^ 48 + h.cur % 2 ^ 48) } false)
    (∀ p, e.launch = .chain p ch →
      (h.state ≠ .faulted → starts .chain { state := .walk, head := p, cur := 0, map := 0, prior := .idle } .running) ∧
      (h.state = .faulted → faults .chain p)) ∧
    (e.launch = .kick ch →
      (h.state = .parked → starts .kick { h with state := .walk } .running) ∧
      (h.state ≠ .parked → h.state ≠ .faulted → starts .kick h .finished) ∧
      (h.state = .faulted → faults .kick h.head)) ∧
    (∀ v, ∀ p ∈ [(Instr.copy, Launch.copy ch), (.fill, .fill v ch)], e.launch = p.2 →
      (h.state ≠ .faulted → starts p.1 { h with state := .walk, prior := h.state, cur := 0, map := 0 } .running) ∧
      (h.state = .faulted → faults p.1 0))

/-- R215, R221, R255, R258: the value of element k of row r of an operand, before the scale: zero where the K index is
inactive, or the quad of an N4X element is malformed. -/
def Claims.element (e : Entry) (o : Operand) (m : Mem) (r k : Nat) : FV :=
  let a := (o.base + (r * o.ld : Nat)).toNat
  if e.kk.getLsbD k = false then .fin false 0 0
  else if o.tag = 2 then decodeFp bf16 (readWord m (a + 2 * k) 2).toNat
  else if o.tag = 3 then decodeFp fp16 (readWord m (a + 2 * k) 2).toNat
  else if o.tag = 4 then decodeFp e4m3 (readByte m (a + k)).toNat
  else if o.tag = 5 then decodeFp e5m2 (readByte m (a + k)).toNat
  else if o.tag = 7 then
    match decodeQuad false (readWord m (a + 2 * (k / 4)) 2).toNat with
    | some vs => vs.getD (k % 4) (.fin false 0 0)
    | none => .fin false 0 0
  else ofInt (if o.tag = 11 then ((readByte m (a + k)).toNat : Int) else (readByte m (a + k)).toInt)

/-- R221, R254, R258, R262: lane (i, j) after one step in a floating-point format, A in `mA` and B in `mB`. K-step by K-step
of g elements, in rising order up to the highest active K index, the exact sum of the products, times the scales of the
blocks that hold them, is added and rounded once; a K-step with no active index adds nothing. -/
def Claims.floatLane (e : Entry) (a b : Operand) (mA mB : Mem) (i j : Nat) (old : BitVec 32) : BitVec 32 :=
  let g := if a.tag = 7 then 4 else if a.tag = 2 ∨ a.tag = 3 then 1 else 2
  let code (o : Operand) (m : Mem) (r k : Nat) : Nat :=
    if o.scaled then (readByte m (o.sbase + (r * o.sld + k / o.blen : Nat)).toNat).toNat else 127
  let live := (List.range (blockK e)).filter fun k => e.kk.getLsbD k
  let keff := (live.getLast?.map (· + 1)).getD 0
  let product (n i' : Nat) : FV := (mulFV (Claims.element e a mA i (n * g + i')) (Claims.element e b mB j (n * g + i'))).1
  let total (n : Nat) : FV :=
    match ((List.range g).filter fun i' => n * g + i' < blockK e).map (product n) with
    | p :: ps => ps.foldl (fun x y => (addFV .rne x y).1) p
    | [] => .fin false 0 0
  (List.range ((keff + g - 1) / g)).foldl (fun acc n =>
    if live.any (fun k => k / g == n) then
      BitVec.ofNat 32 (roundTo fp32 .ieee .rne false
        (addFV .rne (decodeFp fp32 acc.toNat) (applyScale (code b mB j (n * g)) (applyScale (code a mA i (n * g)) (total n)))).1).1
    else acc) old

/-- R248: two tags whose pairing accumulates in FP32. -/
def Claims.floatPair (a b : BitVec 4) : Prop :=
  (a ∈ ([4, 5, 6] : List (BitVec 4)) ∧ b ∈ ([4, 5, 6] : List (BitVec 4))) ∨
  (a ∈ ([2, 3] : List (BitVec 4)) ∧ b ∈ ([2, 3] : List (BitVec 4))) ∨ (a = 7 ∧ b = 7)

/-- R221, R252, R254, R258, R262: one K-block step of a running, unpaired entry that no check stops and whose scale bytes can be
read. Lanes outside its active rows and columns keep their value. With i8 operands on both sides an active lane takes its old
value (0 where the step clears) plus the sum of the products over the active K indices, modulo 2^32; in the floating-point
formats it goes on K-step by K-step with their scales, one rounding each. A clear sets the tags of the quadrants the tile
touches. -/
def Claims.MatrixSteps : Prop :=
  ∀ (id : Nat) (s : State) (c : Cell) (e : Entry), look s.cells id = some c → (getQueue c 0).entries.head? = some e →
    e.status = .running → c.frozen = none → e.retire = false → (e.atPoint = true → (getQueue c 0).stopped = false) →
    (∀ x ∈ c.mem.served, x.reader ≠ .matrix) →
    paired e = false → debugs s c = false → stepFault c e = none →
    emptyScale c (operandA e) (blockK e) (actRows e) = none → emptyScale c (operandB e) (blockK e) (actCols e) = none →
    keysFrom 0 c.acc = true →
    let row (i : Nat) : Prop := i < tileM e ∧ e.km.getLsbD i = true
    let col (j : Nat) : Prop := j < tileN e ∧ e.kn.getLsbD j = true
    let elem (o : Operand) (r k : Nat) : Int := (readByte c.mem.scratch ((o.base + (r * o.ld : Nat)).toNat + k)).toInt
    ∃ c', exec (.matrixStep id) s = .next (setCell s id c') ∧ c'.mem = c.mem ∧ c'.core = c.core ∧ c'.exitBank = c.exitBank ∧
      (getQueue c' 0).entries.head? = some (afterStep e) ∧
      (∀ i j, j < 192 → ¬ (row i ∧ col j) → laneAt (peek 0 c'.acc i) j = laneAt (peek 0 c.acc i) j) ∧
      (fmtA e = 10 → fmtB e = 10 → ∀ i j, row i → col j → laneAt (peek 0 c'.acc i) j =
        (if e.clr then 0 else laneAt (peek 0 c.acc i) j) + BitVec.ofInt 32
          (((List.range (blockK e)).filter fun k => e.kk.getLsbD k).map fun k =>
            elem (operandA e) i k * elem (operandB e) j k).sum) ∧
      (Claims.floatPair (fmtA e) (fmtB e) → ∀ i j, row i → col j → laneAt (peek 0 c'.acc i) j =
        Claims.floatLane e (operandA e) (operandB e) c.mem.scratch c.mem.scratch i j
          (if e.clr then 0 else laneAt (peek 0 c.acc i) j)) ∧
      (e.clr = true → c'.qtag[0] = accTag e ∧ (96 < tileN e → c'.qtag[1] = accTag e) ∧ (96 < tileM e → c'.qtag[2] = accTag e) ∧
        (96 < tileM e → 96 < tileN e → c'.qtag[3] = accTag e)) ∧
      (e.clr = false → c'.qtag = c.qtag)

/-- R259: a step of a pair is made at both cells at once, when both entries stand at the same step and no check stops either:
the follower's lanes take the leader's rows of A, scales included, and its own columns of B. -/
def Claims.PairSteps : Prop :=
  ∀ (id p : Nat) (s : State) (c d : Cell) (e f : Entry), look s.cells id = some c → look s.cells p = some d → p ≠ id →
    stepsNow c = some e → stepsNow d = some f → paired e = true → partnerOf s c e = .ok p → namesBack e f = true →
    e.idx = f.idx → follower e = false → follower f = true → stepFault c e = none → stepFault d f = none →
    debugs s c = false → debugs s d = false → keysFrom 0 c.acc = true → keysFrom 0 d.acc = true →
    (∀ x ∈ c.mem.served, x.reader ≠ .matrix) → (∀ x ∈ d.mem.served, x.reader ≠ .matrix) →
    emptyScale c (operandA e) (blockK e) (actRows e) = none → emptyScale c (operandB e) (blockK e) (actCols e) = none →
    emptyScale d (operandB f) (blockK f) (actCols f) = none → Claims.floatPair (fmtA e) (fmtB e) →
    Claims.floatPair (fmtA f) (fmtB f) → Claims.floatPair (fmtA e) (fmtB f) →
    let on (g : Entry) (i j : Nat) : Prop := (i < tileM g ∧ g.km.getLsbD i = true) ∧ (j < tileN g ∧ g.kn.getLsbD j = true)
    ∃ c' d', exec (.matrixStep id) s = .next (setCell (setCell s id c') p d') ∧
      (getQueue c' 0).entries.head? = some (afterStep e) ∧ (getQueue d' 0).entries.head? = some (afterStep f) ∧
      c'.mem = c.mem ∧ d'.mem = d.mem ∧
      (∀ i j, on e i j → laneAt (peek 0 c'.acc i) j = Claims.floatLane e (operandA e) (operandB e) c.mem.scratch c.mem.scratch i j
        (if e.clr then 0 else laneAt (peek 0 c.acc i) j)) ∧
      (∀ i j, on f i j → laneAt (peek 0 d'.acc i) j = Claims.floatLane f (operandA e) (operandB f) c.mem.scratch d.mem.scratch i j
        (if f.clr then 0 else laneAt (peek 0 d.acc i) j)) ∧
      (∀ i j, j < 192 → ¬ on e i j → laneAt (peek 0 c'.acc i) j = laneAt (peek 0 c.acc i) j) ∧
      (∀ i j, j < 192 → ¬ on f i j → laneAt (peek 0 d'.acc i) j = laneAt (peek 0 d.acc i) j)

/-- R261, R263, R276, R354: a retirement with the exit bank empty copies the tile into it row by row: lane c < NT of token r
holds position (r, c), the further lanes zero, live are the active positions, `eod1` follows, and `eos` after the nest's last point. CX then sends token after token where its route has room; under the
Strainer they are discarded. -/
def Claims.MatrixRetires : Prop :=
  ∀ (id : Nat) (s : State) (c : Cell), look s.cells id = some c → c.frozen = none →
    (∀ e, (getQueue c 0).entries.head? = some e → e.status = .running → e.retire = true → c.exitBank = [] →
      let last := (advanceLevels e (pointLevels e) e.idx).2
      let side : BitVec 32 := BitVec.ofInt 32 (nestAt e 0x08 4)
      ∃ c', exec (.retirement id) s = .next (setCell s id c') ∧ c'.acc = c.acc ∧ c'.mem = c.mem ∧
        c'.exitBank.length = tileM e + (if last then 2 else 1) ∧
        (∀ r, r < tileM e → ∃ t, c'.exitBank[r]? = some t ∧ t.tag = 0 ∧ t.side = side ∧ ∀ j, j < 192 →
          t.pred.getLsbD j = (e.km.getLsbD r && e.kn.getLsbD j && decide (j < tileN e)) ∧
          laneAt t.data j = if j < tileN e then laneAt (peek 0 c.acc r) j else 0) ∧
        c'.exitBank[tileM e]? = some { tag := 2, side := side } ∧
        (last = true → c'.exitBank[tileM e + 1]? = some { tag := 7, side := side }) ∧
        (∃ e', (getQueue c' 0).entries.head? = some e' ∧ e'.retire = false ∧ e'.clr = true ∧
          e'.status = if last then .finished else .running)) ∧
    (∀ t ts, c.exitBank = t :: ts →
      (c.collar.strainer = true → exec (.exitBankEmit id) s = .next (setCell s id { c with exitBank := ts })) ∧
      (∀ key, c.collar.strainer = false → sinksOf c.collar 16 false = [key] →
        (linkAt c.collar key).length < linkCapacity (liveRoute c.collar key) → c.collar.snapping = false →
        (∀ j : Fin 16, c.collar.strips[j].outQ = []) →
        ∃ c', exec (.exitBankEmit id) s = .next (setCell s id c') ∧ c'.exitBank = ts ∧
          linkAt c'.collar key = linkAt c.collar key ++ [t] ∧
          (∀ o, o ≠ key → linkAt c'.collar o = linkAt c.collar o) ∧ c'.collar.strips = c.collar.strips) ∧
      (c.collar.strainer = false → sinksOf c.collar 16 false = [] → exec (.exitBankEmit id) s = .next s))

/-- R234-R237, R263, R277, R330, R331: an entry whose operation is over, and of whose bag no write lies inside its `tok` scope,
completes: its production is done, DSEQ goes up by one, and the entry leaves the queue. Its `sig` words send their decrements
once no write of its bag lies inside package scope, and its phase item leaves its count once none lies inside the level of the
item: with the completion where that holds already, and else later. An operation of q2 or q3 is over when it has finished; one
of q0 or q1 once its tokens are consumed as well; that of `fire` and of a `recfg` when the swap is made and the LD ports of its
part are DONE. -/
def Claims.EntriesComplete : Prop :=
  ∀ (id : Nat) (q : BitVec 2) (s : State) (c : Cell) (e : Entry) (es : List Entry), look s.cells id = some c → c.frozen = none →
    (getQueue c q).entries = e :: es →
    let swaps : Bool := match e.launch with
      | .fire | .recfgE _ | .recfgX _ => true
      | _ => false
    let consumed : Prop := c.exitBank = [] ∧ (∀ key, linkAt c.collar key = []) ∧ c.collar.wave.buf = [] ∧
      ∀ p ∈ c.collar.strips.toList, p.group = [] ∧ p.fifo = [] ∧ p.outQ = [] ∧ p.skid = []
    let bag (seq : BitVec 16) (scope : Nat) : Prop := ∃ w ∈ c.owed, w.seq = seq ∧
      placeInside s { id := id, part := c.part, ch := some w.ch } w.place w.addr scope = true
    let owes (scope : Nat) : Prop := q = 2 ∧ bag e.seq scope
    let sent (seq : List (BitVec 32)) : List Dec := seq.map fun w => ⟨id, c.part, BitVec.ofNat 16 w.toNat, BitVec.ofNat 16 (w.toNat / 2 ^ 16)⟩
    let uncounted (b : Barrier) (ph : PhaseItem) : Barrier := if ph.side then { b with out1 := b.out1 - 1 } else { b with out0 := b.out0 - 1 }
    (owes e.scope.toNat → exec (.entryComplete id q) s = .next s) ∧
    (¬ owes e.scope.toNat → (swaps = false → e.status = .finished) → (q.toNat < 2 → consumed) →
      (swaps = true → q = 1 ∧ e.status = .running ∧ e.swapped = true ∧
        ∀ j : Fin 16, j.val < 3 → (halfOfStrip c.collar j).isSome = true → c.collar.strips[j].done = true) →
      ∃ t c', exec (.entryComplete id q) s = .next t ∧ look t.cells id = some c' ∧
        (getQueue c' q).entries = es ∧ (getQueue c' q).dseq = (getQueue c q).dseq + 1 ∧ (getQueue c' q).iseq = (getQueue c q).iseq ∧
        (∀ n : BitVec 6, c'.core.tokens[n.toNat]'n.isLt =
          if n = e.tok then { c.core.tokens[n.toNat]'n.isLt with pend := false } else c.core.tokens[n.toNat]'n.isLt) ∧ t.mem = s.mem ∧
        (¬ owes 3 → t.decs = s.decs ++ sent e.sigs) ∧ (owes 3 → t.decs = s.decs) ∧
        (e.phase = none → t.barriers = s.barriers) ∧
        (∀ ph, e.phase = some ph →
          (¬ owes ph.level.toNat → barrierAt t ph.key = uncounted (barrierAt s ph.key) ph) ∧
          (owes ph.level.toNat → t.barriers = s.barriers)) ∧
        ((e.sigs = [] ∨ ¬ owes 3) → (∀ ph, e.phase = some ph → ¬ owes ph.level.toNat) → c'.ends = c.ends) ∧
        (owes 3 → e.sigs ≠ [] → ∃ x, c'.ends = c.ends ++ [x] ∧ x.seq = e.seq ∧ x.sigs = e.sigs)) ∧
    (∀ x, c.ends = [x] → x.phase = none → x.sigs ≠ [] →
      (bag x.seq 3 → entryEnds id s = none) ∧
      (¬ bag x.seq 3 → ∃ t c', entryEnds id s = some t ∧ t.decs = s.decs ++ sent x.sigs ∧ t.mem = s.mem ∧
        look t.cells id = some c' ∧ c'.ends = [] ∧ c'.core = c.core))

/-- R320, R321, R323, R325, R327, R328: a walking channel whose record in scratch is not owned parks, and its entry ends. A
captured record is taken when its checks pass. One of one run of n bytes into scratch outside presence mode is performed move by
move: each move reads bytes of the source, or performs bytes not yet performed: a `fill` writes its 32-bit value over and over, a
`copy` the bytes it has read, which are the source's as long as the two runs are apart; no other byte changes. With every byte
performed a captured record gives its channel back what it was before and ends the entry; one in scratch is written back with OWN
clear, sends its decrement, and the channel goes to the next record, or ends the entry after the last; so does one whose last
bytes have left the bag. -/
def Claims.CopyRecords : Prop :=
  ∀ (id : Nat) (s : State) (c : Cell) (e : Entry) (ch : BitVec 2), look s.cells id = some c → c.frozen = none →
    (getQueue c 2).entries.head? = some e → e.status = .running → debugs s c = false → c.core.sr.pgmode = 0 →
    Memory.wf c.mem.scratch = true → (∀ x ∈ c.mem.served, x.reader ≠ .copy id) → e.counted = none → e.ended = false →
    c.owed = [] →
    let h : Channel := c.channels[ch.toNat]'ch.isLt
    let at_ (c : Cell) : Channel := c.channels[ch.toNat]'ch.isLt
    let walks : Prop := ∃ p, e.launch = .chain p ch ∨ e.launch = .kick ch
    let ended : Channel := { prior := h.prior, readsBy := h.readsBy, writesBy := h.writesBy }
    (walks → h.atHand = none → h.head.toNat % 64 = 0 → h.head.toNat < 0xC0000 →
      (readWord c.mem.scratch h.head.toNat 8).getLsbD 63 = false →
      ∃ c', exec (.copyRecord id) s = .next (setCell s id c') ∧ at_ c' = { h with state := .parked } ∧
        (getQueue c' 2).entries.head? = some { e with status := .finished } ∧ c'.mem = c.mem) ∧
    (∀ (v : BitVec 32) (src dst n : Nat), (e.launch = .fill v ch ∨ e.launch = .copy ch) →
      1 ≤ n → n < 65536 → src + n ≤ 0xC0000 → dst + n ≤ 0xC0000 → src + n ≤ dst ∨ dst + n ≤ src →
      ∀ r : Vector Word 8, (∀ f ∈ [0, 1, 3, 5, 7], r[f]! = 0) →
      r[2] = BitVec.ofNat 64 src → r[4] = BitVec.ofNat 64 dst → r[6] = BitVec.ofNat 64 (n + 0x1000100010000) →
      let done (h : Channel) (i : Nat) : Bool := decide (i < h.cur) || h.map.getLsbD (i - h.cur)
      let byte (i : Nat) : Byte := if e.launch = .copy ch then readByte c.mem.scratch (src + i) else v.extractLsb' (8 * (i % 4)) 8
      (h.atHand = none → (∀ f, f < 8 → peek (0 : Word) e.cfg f = r[f]!) →
        ∃ c', exec (.copyRecord id) s = .next (setCell s id c') ∧ at_ c' = { h with atHand := some r } ∧ c'.mem = c.mem ∧
          (getQueue c' 2).entries.head? = some e) ∧
      (h.atHand = some r → h.left = false → h.cur < n → h.map.getLsbD 0 = false → keysFrom 0 h.got = true →
        (∀ i b, look h.got i = some b → b = byte i) →
        ∃ t c', exec (.copyRecord id) s = .next t ∧ look t.cells id = some c' ∧ t.mem = s.mem ∧
          (∀ i, i < n → done h i = true → done (at_ c') i = true) ∧
          (∀ i, i < n → readByte c'.mem.scratch (dst + i) =
            if done h i = false ∧ done (at_ c') i = true then byte i else readByte c.mem.scratch (dst + i)) ∧
          (∀ a, a < dst ∨ dst + n ≤ a → readByte c'.mem.scratch a = readByte c.mem.scratch a) ∧
          (∀ i b, look (at_ c').got i = some b → b = byte i) ∧ (at_ c').state = h.state ∧ (at_ c').atHand = some r ∧
          (∃ i, i < n ∧ done h i = false ∧
            (done (at_ c') i = true ∨ look h.got i = none ∧ look (at_ c').got i = some (byte i))) ∧
          (getQueue c' 2).entries.head? = some e) ∧
      (h.atHand = some r → h.left = true ∨ n ≤ h.cur →
        ∃ c', exec (.copyRecord id) s = .next (setCell s id c') ∧
          at_ c' = { ended with state := h.prior, head := h.head } ∧ c'.mem = c.mem ∧
          (getQueue c' 2).entries.head? = some { e with status := .finished })) ∧
    (∀ r : Vector Word 8, walks → h.atHand = some r → (∀ f ∈ [2, 4], r[f]!.toNat < 0xC0000) → r[0].getLsbD 60 = false →
      h.left = true ∨ ((List.range 4).map fun d => r[6].toNat / 2 ^ (16 * d) % 2 ^ 16).foldl (· * ·) 1 ≤ h.cur →
      h.head.toNat % 64 = 0 → h.head.toNat < 0xC0000 →
      let next : Word := BitVec.ofNat 64 (r[0].toNat % 2 ^ 57 / 64 * 64)
      ∃ t c', exec (.copyRecord id) s = .next t ∧ look t.cells id = some c' ∧ t.mem = s.mem ∧
        readWord c'.mem.scratch h.head.toNat 8 = r[0] &&& 0x7FFFFFFFFFFFFFFF ∧
        (∀ a, a < h.head.toNat ∨ h.head.toNat + 8 ≤ a → readByte c'.mem.scratch a = readByte c.mem.scratch a) ∧
        t.decs = s.decs ++ (if r[0].getLsbD 62 then
          [⟨id, c.part, BitVec.ofNat 16 (r[1].toNat / 2 ^ 32), BitVec.ofNat 16 (r[1].toNat / 2 ^ 48)⟩] else []) ∧
        at_ c' = { ended with state := if next = 0 then .idle else h.state, head := next } ∧
        (getQueue c' 2).entries.head? = some (if next = 0 then { e with status := .finished } else e))

/-- R331: a write that an entry's record left in the bag is performed at its target by a later move, where no other write
stands before it and the target's access table admits it: its bytes of the other cell's scratch, and only those. -/
def Claims.BagDelivers : Prop :=
  ∀ (id t : Nat) (s : State) (c x : Cell) (w : OwedWrite), look s.cells id = some c → look s.cells t = some x → t ≠ id →
    c.owed = [w] → w.refused = false → w.place = .cluster t → w.rc ≠ 2 → runningHead c 2 = none → Memory.wf x.mem.scratch = true →
    admits s (unitKey (.cellRemote (BitVec.ofNat 9 t))) 0 c.part 0 61 w.addr (w.addr + w.bytes.length - 1) = true →
    meetsFull x w.addr = false →
    ∃ u c' x', exec (.copyRecord id) s = .next u ∧ look u.cells id = some c' ∧ c'.owed = [] ∧ c'.core = c.core ∧
      look u.cells t = some x' ∧ readBytes x'.mem.scratch w.addr w.bytes.length = w.bytes ∧
      (∀ a, a < w.addr ∨ w.addr + w.bytes.length ≤ a → readByte x'.mem.scratch a = readByte x.mem.scratch a) ∧ u.mem = s.mem

/-- R378, R379, R383-R387, R389, R390: `blend` admits its job when the die runs fewer than eight and it is the cell's turn. A job whose
records pass the checks runs from its progress record, a NEW one from its beginning, with RUNNING committed; one that is DONE ends
its entry; one whose record is not resident waits, and firmware is told; one whose controller is busy is read again. The job first
in rotation of those whose cell is neither frozen nor being halted is served: the next piece of its chunk is read, or, with all
of them read, the next piece written with the bytes read first, or, with every piece written, the cursor goes past the chunk and
one more commit is made; with no chunk left DONE is committed and the entry ends; a job at its fault commits FAULTED and its cell traps. -/
def Claims.BlenderJobs : Prop :=
  ∀ (s : State),
    (∀ (c : Cell) (e : Entry) (a : Word), Claims.HeadMayStart s 3 c e → e.launch = .blend a →
      (s.jobs.filter fun j => j.die.toNat = s.focus.cell / 128).length < 8 → nextBlend s (s.focus.cell / 128) = some s.focus.cell →
      let j : Job := { die := BitVec.ofNat 2 (s.focus.cell / 128), cell := s.focus.cell, part := c.part, addr := a, no := s.jobNo + 1 }
      let s1 : State := { setCell s s.focus.cell (begin_ c 3) with
        jobs := s.jobs ++ [j], admitted := put s.admitted (s.focus.cell / 128) s.focus.cell, jobNo := s.jobNo + 1 }
      (startJob s1 j = none → exec .blend s = .next s1) ∧
      (∀ va s2, placeOfVa s1 (masterOf j) a.toNat false = (.error (.page va), s2) → ∃ t, exec .blend s = .next t ∧
        { j with waits := some (BitVec.ofNat 57 va) } ∈ t.jobs ∧ .page c.part (BitVec.ofNat 57 va) ∈ t.fw.reports ∧ t.mem = s2.mem) ∧
      (∀ b0 b1 b2 b3 s2 s3 s4 s5 s6,
        let job := wordsOfBytes b0
        let prog := wordsOfBytes b3
        let state := (rw prog 0).toNat / 2 ^ 62
        let j' : Job := { j with
          prog := rw job 2, opts := rw job 3, src := wordsOfBytes b1, dst := wordsOfBytes b2, checked := true
          cursor := if state = 0 then [0, 0, 0, 0, 0, 0] else cursorOf prog
          ck := if state = 0 then 0 else (rw prog 5).toNat % 2 ^ 32, cdone := BitVec.ofNat 48 (rw prog 1).toNat
          err := BitVec.ofNat 8 (rw prog 6).toNat }
        readRecord s1 j a 128 = .bytes b0 s2 → jobReason1 job = false → readRecord s2 j (rw job 0) 128 = .bytes b1 s3 →
        readRecord s3 j (rw job 1) 128 = .bytes b2 s4 → progPlace s4 j (rw job 2) = (.ok (), s5) →
        readRecord s5 j (rw job 2) 64 = .bytes b3 s6 → progReason1 prog = false →
        layoutReason s6 (wordsOfBytes b1) (wordsOfBytes b2) = none →
        (state = 0 ∨ (rw prog 0).toNat / 2 ^ 7 % 2 ^ 50 = a.toNat / 2 ^ 7 % 2 ^ 50) →
        (∀ x ∈ s6.jobs, x.cell ≠ j.cell → x.prog ≠ rw job 2) →
        (state = 2 → exec .blend s = .next (finishJob s6 j)) ∧
        (∀ s7, state ≠ 2 → writeProgress s6 j' (progressBytes j' 1) = .done s7 → ownCoords s7 (layoutOf (wordsOfBytes b2)) ≠ [] →
          exec .blend s = .next (putJob s7 j')))) ∧
    (∀ (die : BitVec 2) (j : Job) (js : List Job), (serviceOrder s die).filter (jobRuns s) = j :: js →
      let own := ownCoords s (layoutOf j.dst)
      let sl := layoutOf j.src
      let dl := layoutOf j.dst
      let plan := planOf sl dl (own.headD [])
      let next := nextChunk sl.esz plan (2 ^ (j.opts.toNat / 2 ^ 8 % 4)) (j.opts.toNat / 2 ^ 12 % 4) j.cursor j.ck
      (∀ f, j.fault = some f → (f.commits = 0 → exec (.blenderChunk die) s = .next (endInFault s j f)) ∧
        ∀ t, f.commits = 1 → commit s { j with err := BitVec.ofNat 8 f.code.num } 3 = .done t →
          exec (.blenderChunk die) s = .next (endInFault t { j with err := BitVec.ofNat 8 f.code.num } f)) ∧
      (j.fault = none → j.checked = true → own = [] ∨ next = none → ∀ t, commit s j 2 = .done t →
        exec (.blenderChunk die) s = .next (finishJob t j)) ∧
      (j.fault = none → j.checked = true → own ≠ [] → ∀ n q, next = some (n, q) →
        let from_ : BitVec 9 := sourcePackage s sl dl (own.headD []) (runOf plan n)
        let reads := chunkPieces sl (·.slocal) (runOf plan n) q
        let writes := chunkPieces dl (·.dlocal) (runOf plan n) q
        let quiet (t : State) : Prop := ∀ c, look t.cells j.cell = some c → debugs t c = false
        (∀ a k bs t, reads[j.moved]? = some (a, k) →
          readPlace s { masterOf j with rc := if j.opts.getLsbD 2 then BitVec.ofNat 2 j.opts.toNat else 2 } (.window from_ sl.wid) a k =
            .bytes bs t → quiet t →
          exec (.blenderChunk die) s = .next (putJob t { j with cursor := indicesOf (counts plan) n, ck := q, moved := j.moved + 1, data := j.data ++ bs })) ∧
        (∀ a k t, reads.length ≤ j.moved → writes[j.moved - reads.length]? = some (a, k) →
          writePlace s (masterOf j) (.window s.fw.pkg dl.wid) a (j.data.take k) = .done t → quiet t →
          exec (.blenderChunk die) s = .next (putJob t { j with cursor := indicesOf (counts plan) n, ck := q, moved := j.moved + 1, data := j.data.drop k })) ∧
        (∀ t, reads.length + writes.length ≤ j.moved →
          let past := cursorPast sl.esz plan (2 ^ (j.opts.toNat / 2 ^ 8 % 4)) n q
          let j' : Job := { j with cursor := past.1, ck := past.2, cdone := j.cdone + 1, moved := 0, data := [] }
          commit s j' 1 = .done t → exec (.blenderChunk die) s = .next (servedJob (putJob t j') j))))

/-! ### The collar and its strips -/

/-- R268, R104: an array entry port writes the live lanes of a `dat` token at BASE + counter × STRIDE and counts it; `eos`
restarts the counter, `eod` markers are only taken. Bytes of no live lane stay. -/
def Claims.PortWrites : Prop :=
  ∀ (id : Nat) (be : Bool) (s : State) (c : Cell) (h : Half) (t : Tok) (ts : List Tok), look s.cells id = some c →
    c.collar.actE = some h → linkAt c.collar (if be then 65 else 64) = t :: ts → c.frozen = none → c.collar.strainer = false →
    c.collar.snapping = false → (∀ j : Fin 16, c.collar.strips[j].outQ = []) →
    (if be then c.collar.beFault else c.collar.aeFault) = none → (if be then c.collar.beMarked else c.collar.aeMarked) = false →
    Memory.wf c.mem.scratch = true → keysFrom 0 c.collar.links = true →
    let n := if be then c.collar.beK else c.collar.aeK
    let d := readWord h.bytes (if be then 0x50 else 0x40) 8
    let a := d.toNat % 2 ^ 20 + n * (d.toNat / 2 ^ 32 % 2 ^ 20)
    let count (c : Cell) : Nat := if be then c.collar.beK else c.collar.aeK
    (t.tag = 0 → c.core.sr.pgmode = 0 → debugs s c = false → a + 768 ≤ 0xC0000 →
      ∃ u c', exec (.aeBeWrite id be) s = .next u ∧ look u.cells id = some c' ∧ u.mem = s.mem ∧ count c' = n + 1 ∧
        linkAt c'.collar (if be then 65 else 64) = ts ∧
        (∀ j, j < 192 → t.pred.getLsbD j = true → readBytes c'.mem.scratch (a + 4 * j) 4 = bytesOf (laneAt t.data j).toNat 4) ∧
        (∀ x, (∀ j, j < 192 → t.pred.getLsbD j = true → x < a + 4 * j ∨ a + 4 * j + 4 ≤ x) →
          readByte c'.mem.scratch x = readByte c.mem.scratch x)) ∧
    (t.tag = 7 → ∃ c', exec (.aeBeWrite id be) s = .next (setCell s id c') ∧ count c' = 0 ∧ c'.mem = c.mem ∧
      linkAt c'.collar (if be then 65 else 64) = ts) ∧
    (2 ≤ t.tag.toNat → t.tag.toNat ≤ 6 → ∃ c', exec (.aeBeWrite id be) s = .next (setCell s id c') ∧ count c' = n ∧
      c'.mem = c.mem ∧ linkAt c'.collar (if be then 65 else 64) = ts)

/-- R280: a `cfg` token at an input without an open stream sets the constants its live lanes name; at an input with one it
waits in the holder, at most eight of them; a ninth faults STRIPINV. -/
def Claims.ConstantUpdates : Prop :=
  ∀ (id : Nat) (j : BitVec 4) (n : BitVec 2) (s : State) (c : Cell) (t : Tok), look s.cells id = some c →
    headToken c.collar j n = some t → t.tag = 8 → stripLive c j = true →
    let p := stripAt c.collar j
    (p.opened.getLsbD n.toNat = false → ∃ c', exec (.cfgToken id j n) s = .next (setCell s id c') ∧ c'.mem = c.mem ∧
      (stripAt c'.collar j).pp = p.pp ∧ (stripAt c'.collar j).holder = p.holder ∧
      ∀ i : Fin 8, (stripAt c'.collar j).w[i] = if t.pred.getLsbD i then laneAt t.data i else p.w[i]) ∧
    (p.opened.getLsbD n.toNat = true → p.holder.length < 8 → ∃ c', exec (.cfgToken id j n) s = .next (setCell s id c') ∧
      c'.mem = c.mem ∧ (stripAt c'.collar j).w = p.w ∧ (stripAt c'.collar j).holder = p.holder ++ [(n, t)]) ∧
    (p.opened.getLsbD n.toNat = true → 8 ≤ p.holder.length → exec (.cfgToken id j n) s = .next (stripFault s id c j
      { code := .stripinv, unit := 4, sub := 2 }))

/-- R332, R348, R351-R355: a snapshot begins when q1 is to stop while an entry of its own runs and no strip or port of the collar
stands at a fault, and records the sources that stand at a
boundary; the array exit sends its marker behind what the exit bank holds, where the matrix engine has stopped; a `snap` marker
marks its input, and a strip whose routed inputs are all marked is recorded; the snapshot is complete when every strip of the live
set is recorded and the ports are marked. A `strain` that a handler issued behind a faulted entry starts at once: the entries that
q1 held before it go, their productions done, those issued after it stay. The Strainer leaves an empty collar behind. -/
def Claims.Snapshots : Prop :=
  ∀ (id : Nat) (s : State) (c : Cell), look s.cells id = some c →
    let k := c.collar
    (∀ e, (getQueue c 1).entries.head? = some e → e.status = .running → c.frozen = none → (getQueue c 1).stopped = true →
      k.snapping = false → k.strainer = false → (collarFaulted k = true → exec (.snapshotRequest id) s = .next s) ∧
      (collarFaulted k = false → ∃ c', exec (.snapshotRequest id) s = .next (setCell s id c') ∧ c'.collar.snapping = true ∧ c'.mem = c.mem ∧
        c'.collar.cxSnapped = decide (sinksOf k 16 false = []) ∧ c'.exitBank = c.exitBank ∧
        (∀ j : BitVec 4, (stripAt c'.collar j).recorded = ((stripAt k j).recorded || snapsNow k j)))) ∧
    (c.exitBank = [] → c.frozen = none → k.snapping = true → k.cxSnapped = false → hasRoom k 16 false = true →
      (∀ e, (getQueue c 0).entries.head? = some e → e.status = .running → e.atPoint = true) →
      ∃ c', exec (.exitBankEmit id) s = .next (setCell s id c') ∧ c'.collar.cxSnapped = true ∧ c'.mem = c.mem ∧ c'.acc = c.acc) ∧
    (∀ (h e : Entry) (held later : List Entry) (tr : Trap) (st : Bool), id = s.focus.cell → c.core.hm = true →
      (getQueue c 1).entries = (h :: held) ++ e :: later → h.status = .faulted tr st → e.launch = .strain → e.hm = true →
      (∀ x ∈ h :: held, (x.launch = .strain → x.hm = false) ∧ x.phase = none) → ∃ t c', exec .strain s = .next t ∧
        look t.cells id = some c' ∧ (getQueue c' 1).entries = { e with status := .running } :: later ∧
        (getQueue c' 1).stopped = false ∧ c'.collar.strainer = true ∧ c'.collar.links = [] ∧ c'.mem.scratch = c.mem.scratch ∧
        (∀ x ∈ h :: held, (c'.core.tokens[x.tok.toNat]'x.tok.isLt).pend = false) ∧ t.mem = s.mem) ∧
    (∀ (j : BitVec 4) (n : BitVec 2) (t : Tok), headToken k j n = some t → t.tag = 9 → c.frozen = none →
      ∃ c', exec (.snapMarker id j n) s = .next (setCell s id c') ∧ c'.mem = c.mem ∧
        (k.snapping = false → (stripAt c'.collar j).marked = (stripAt k j).marked) ∧
        (k.snapping = true → (stripAt c'.collar j).marked = (stripAt k j).marked ||| (1#4 <<< n.toNat) ∧
          ((∀ i ∈ routedInputs k j.toNat, ((stripAt k j).marked ||| (1#4 <<< n.toNat)).getLsbD i = true) →
            (stripAt c'.collar j).recorded = true))) ∧
    (k.snapping = true → k.snapDone = false → k.cxSnapped = true → k.aeMarked = true → k.beMarked = true →
      (∀ j : BitVec 4, (halfOfStrip k j.toNat).isSome = true → (stripAt k j).recorded = true) →
      exec (.snapshotComplete id) s = .next (setCell s id { c with collar := { k with snapDone := true } })) ∧
    (k.strainer = true → c.exitBank = [] → (getQueue c 0).entries = [] →
      (c.frozen ≠ none → exec (.strainerRelease id) s = .next s) ∧
      (c.frozen = none → ∃ c', exec (.strainerRelease id) s = .next (setCell s id c') ∧
        (∀ e, (getQueue c 1).entries.head? = some e → e.status = .running → e.launch = .strain →
          (getQueue c' 1).entries.head? = some { e with status := .finished }) ∧ c'.mem = c.mem ∧ c'.collar.strainer = false ∧
        c'.collar.actE = none ∧ c'.collar.actX = none ∧ c'.collar.shE = none ∧ c'.collar.shX = none ∧ c'.collar.shValid = false ∧
        ∀ j : Fin 16, c'.collar.strips[j] = { k.strips[j] with done := false }))

/-- The strip of a firing has its turn and may act (R289). -/
def Claims.MayFire (v : Firing) : Prop :=
  v.id = v.s.focus.cell ∧ v.s.focus.unit = .strip v.j ∧ look v.s.cells v.id = some v.c ∧
  halfOfStrip v.c.collar v.j.toNat = some v.h ∧ v.p = stripAt v.c.collar v.j ∧ stripLive v.c v.j = true ∧ v.p.holdUntil ≤ v.s.now

/-- The word fires: it takes the heads of the inputs `ins`, its strip changes as `f` says, the tokens `ts` go to the outputs
that `u` selects, and nothing outside the collar changes. -/
def Claims.FiresAs (i : Instr) (v : Firing) (ins : List Nat) (f : Strip → Strip) (u : BitVec 2) (ts : List Tok) : Prop :=
  exec i v.s = .next (setCell v.s v.id { v.c with collar := fireCollar v ins f u ts })

/-- The word fires and goes on at the next word, its constants, generator, group and FIFO as they were. -/
def Claims.Fires (i : Instr) (v : Firing) (ins : List Nat) (u : BitVec 2) (ts : List Tok) : Prop :=
  ∃ f : Strip → Strip, Claims.FiresAs i v ins f u ts ∧ ∀ p, (f p).pp = nextWord v ∧ (f p).w = p.w ∧ (f p).gen = p.gen ∧
    (f p).fifo = p.fifo ∧ (f p).done = p.done ∧ (f p).sc = p.sc

/-- A `dat` token after operand token x: its lanes by number, dead ones 0. -/
def Claims.laneToken (x : Tok) (pred : Nat → Bool) (f : Nat → BitVec 32) : Tok :=
  { data := rowBy fun n => if pred n then f n else 0, pred := lanesBy pred, tag := 0, side := x.side, ord := x.ord }

/-- One rounding of an exact result to an element (R219, R294). -/
def Claims.rounded (t : BitVec 4) (r : BitVec 3) (z : Bool) (x : FV) : Nat := (roundTo (fmtOf t) .ieee (exactMode r) z x).1

/-- A picked value as an element (R208). -/
def Claims.picked (t : BitVec 4) (z : Bool) (x : FV) : Nat := (roundTo (fmtOf t) .ieee .rne z x).1

/-- The integer an operation gives, wrapped, or clamped under rnd 1 (R296). -/
def Claims.wrapped (t : BitVec 4) (r : BitVec 3) (x : Int) : Nat :=
  intBits t (if r = 1 then max (intRange t).1 (min (intRange t).2 x) else x)

/-- R208, R218, R219, R289-R296, R302: a word that works lane by lane, on data at all its inputs, with room on its outputs and
no event enabled to trap, takes them and sends one token: live where every input is live, each element of a live lane the
word's function of the same element of its operands (that `fsel` takes a floating-point element of c by its value is the
model's reading, DEDUCED, assumption 64). A marker passes, `eos` moves the pointer to the next `eos` word, and
unlike heads fault STRIPINV. -/
def Obligations.LaneWords : Prop :=
  ∀ (v : Firing) (a b d : BitVec 3) (u : BitVec 2) (t : BitVec 4) (r : BitVec 3), Claims.MayFire v →
    let z := flushes v
    let x (es : List Nat) (n : Nat) : FV := readFp (fmtOf t) z (es.getD n 0)
    let m (es : List Nat) (n : Nat) : Int := intOf t (es.getD n 0)
    let w := elemBits t
    let sgn (n : Nat) : Int := if 2 ^ (w - 1) ≤ n then (n : Int) - 2 ^ w else n
    ∀ p ∈ ([
      (.fadd a b u t r, fun es => Claims.rounded t r z (addFV (exactMode r) (x es 0) (x es 1)).1),
      (.fsub a b u t r, fun es => Claims.rounded t r z (addFV (exactMode r) (x es 0) (negFV (x es 1))).1),
      (.fmul a b u t r, fun es => Claims.rounded t r z (mulFV (x es 0) (x es 1)).1),
      (.ffma a b d u t r, fun es => Claims.rounded t r z (addFV (exactMode r) (mulFV (x es 0) (x es 1)).1 (x es 2)).1),
      (.fmin a b u t, fun es => Claims.picked t z (if isNan (x es 0) || isNan (x es 1) then .nan
        else if lessFV true (x es 1) (x es 0) then x es 1 else x es 0)),
      (.fmax a b u t, fun es => Claims.picked t z (if isNan (x es 0) || isNan (x es 1) then .nan
        else if lessFV true (x es 0) (x es 1) then x es 1 else x es 0)),
      (.fabs a u t, fun es => Claims.picked t z (match x es 0 with
        | .nan => .nan
        | .inf _ => .inf false
        | .fin _ k e => .fin false k e)),
      (.fneg a u t, fun es => Claims.picked t z (negFV (x es 0))),
      (.fcmpEq a b u t, fun es => if sameFV (x es 0) (x es 1) then 2 ^ w - 1 else 0),
      (.fcmpLt a b u t, fun es => if lessFV false (x es 0) (x es 1) then 2 ^ w - 1 else 0),
      (.fcmpLe a b u t, fun es => if lessFV false (x es 0) (x es 1) || sameFV (x es 0) (x es 1) then 2 ^ w - 1 else 0),
      (.fsel a b d u t, fun es =>
        let zero := if 1 ≤ t.toNat ∧ t.toNat ≤ 3 then (match x es 2 with
          | .fin _ 0 _ => true
          | _ => false) else es.getD 2 0 == 0
        if zero then es.getD 1 0 else es.getD 0 0),
      (.iadd a b u t r, fun es => Claims.wrapped t r (m es 0 + m es 1)),
      (.isub a b u t r, fun es => Claims.wrapped t r (m es 0 - m es 1)),
      (.iand a b u t, fun es => (es.getD 0 0 &&& es.getD 1 0) % 2 ^ w),
      (.ior a b u t, fun es => (es.getD 0 0 ||| es.getD 1 0) % 2 ^ w),
      (.ixor a b u t, fun es => (es.getD 0 0 ^^^ es.getD 1 0) % 2 ^ w),
      (.ishl a b u t, fun es => es.getD 0 0 * 2 ^ (es.getD 1 0 % w) % 2 ^ w),
      (.ishr a b u t, fun es => es.getD 0 0 / 2 ^ (es.getD 1 0 % w)),
      (.isar a b u t, fun es => (sgn (es.getD 0 0) / (2 ^ (es.getD 1 0 % w) : Nat) % (2 ^ w : Nat)).toNat),
      (.imin a b u t, fun es => intBits t (min (m es 0) (m es 1))),
      (.imax a b u t, fun es => intBits t (max (m es 0) (m es 1))),
      (.rcp a u t r, fun es => (divSpecial (fmtOf t) (exactMode r) z (.fin false 1 0) (x es 0)).1),
      (.stripDiv a b u t r, fun es => (divSpecial (fmtOf t) (exactMode r) z (x es 0) (x es 1)).1),
      (.sqrt a u t r, fun es => (sqrtSpecial (fmtOf t) (exactMode r) z (x es 0)).1),
      (.rsqrt a u t r, fun es => (rsqrtSpecial (fmtOf t) (exactMode r) z (x es 0)).1),
      (.exp2 a u t r, fun es => (exp2Special (fmtOf t) (exactMode r) z (x es 0) (es.getD 0 0) r).1),
      (.log2 a u t r, fun es => (log2Special (fmtOf t) (exactMode r) z (x es 0) (es.getD 0 0) r).1),
      (.tanh a u t r, fun es => (tanhSpecial (fmtOf t) (exactMode r) z (x es 0) (es.getD 0 0) r).1)] :
        List (Instr × (List Nat → Nat))),
      p.1.WellFormed →
      let ins := (portInputs p.1).eraseDups
      let heads := ins.filterMap fun n => headToken v.c.collar v.j (BitVec.ofNat 2 n)
      ∀ ops, operandToks v (stripOperands p.1) = some ops →
        (readHeads heads = .data → outputsFree v.c.collar v.j u = true → trapsDz v.h = false → trapsInv v.h = false →
          trapsOvf v.h = false → Claims.Fires p.1 v ins u [Claims.laneToken (ops.headD {}) (fun n => ops.all fun o => o.pred.getLsbD n) fun n =>
            laneOf t ((List.range (perLane t)).map fun k => p.2 (ops.map fun o => elemOf t (laneAt o.data n) k))]) ∧
        (readHeads heads = .marker → outputsFree v.c.collar v.j u = true → Claims.FiresAs p.1 v ins id u (heads.take 1)) ∧
        (∀ n, readHeads heads = .eos → nextEos v = some n → Claims.FiresAs p.1 v [] (fun q => { q with pp := n }) 0 []) ∧
        (readHeads heads = .mix → exec p.1 v.s = .next (stripFault v.s v.id v.c v.j { code := .stripinv, unit := 4, sub := 2 }))

/-- The lane values of an i32 token, dead ones none. -/
def Claims.liveLanes (x : Tok) : List (BitVec 32) := ((List.range 192).filter fun n => x.pred.getLsbD n).map fun n => laneAt x.data n

/-- R280, R290-R292, R301, R303-R305, R312-R314: the words that are not lane by lane, on data, with room on their outputs:
`pass`, `idle`, `eos`, reductions and scans of i32 lanes, permutes, vector registers, `hdr`, `dly`. That `dly` keeps PP where
it is, as its table's word does not say where R289 would move it, is the model's choice (assumption 41). -/
def Claims.MovingWords : Prop :=
  ∀ (v : Firing) (a b : BitVec 3) (u : BitVec 2) (x : Tok), Claims.MayFire v → outputsFree v.c.collar v.j u = true →
    operandTok v a = some x →
    let ins : List Nat := if a.toNat < 4 then [a.toNat] else []
    let move (i : Instr) (src : Nat → Option Nat) : Prop :=
      let from_ (n : Nat) : Option Nat := (src n).filter fun p => x.pred.getLsbD p
      Claims.Fires i v ins u [Claims.laneToken x (fun n => (from_ n).isSome) fun n => laneAt x.data ((from_ n).getD 0)]
    (x.tag.toNat < 7 → Claims.Fires (.stripPass a u) v ins u [x]) ∧
    (∀ n : BitVec 8, ∃ f : Strip → Strip, Claims.FiresAs (.idle u n) v [] f 0 [] ∧
      ∀ p, (f p).pp = nextWord v ∧ (f p).holdUntil = v.s.now + if n = 0 then 256 else n.toNat) ∧
    (∀ rep m : BitVec 4,
      let eosIns := ((List.range 4).filter fun n => m.getLsbD n).eraseDups
      (∀ n ∈ eosIns, ∃ y, headToken v.c.collar v.j (BitVec.ofNat 2 n) = some y ∧ y.tag = 7) →
      ∃ (f : Strip → Strip) (y : Tok), Claims.FiresAs (.stripEos u rep m) v eosIns f u [y] ∧ y.tag = 7 ∧
        ∀ p, (f p).sc = p.sc + 1 ∧ (f p).done = (p.done || decide (rep.toNat < p.sc + 1)) ∧
          (p.sc + 1 ≤ rep.toNat → (f p).pp = 0)) ∧
    (x.tag = 0 → v.p.group = [] → trapsDz v.h = false → trapsInv v.h = false → trapsOvf v.h = false →
      (u ≠ 0 →
        (∀ q ∈ ([(.rsum a u 8 0 0, (Claims.liveLanes x).foldl (· + ·) 0),
            (.rmax a u 8 0 0, (Claims.liveLanes x).foldl (fun m y => if m.slt y then y else m) 0x80000000),
            (.rmin a u 8 0 0, (Claims.liveLanes x).foldl (fun m y => if y.slt m then y else m) 0x7FFFFFFF)] : List (Instr × BitVec 32)),
          Claims.Fires q.1 v ins u [Claims.laneToken x (fun n => x.pred.getLsbD n) fun _ => q.2]) ∧
        (∀ e : BitVec 1, Claims.Fires (.scan a u 8 e) v ins u [Claims.laneToken x (fun n => x.pred.getLsbD n) fun n =>
          (((List.range (if e = 1 then n else n + 1)).filter fun k => x.pred.getLsbD k).map fun k => laneAt x.data k).foldl (· + ·) 0]) ∧
        (∀ n : BitVec 8, n.toNat < 192 → move (.rot a u n) (fun i => some ((i + 192 - n.toNat) % 192)) ∧
          move (.bcast a u n) fun _ => some n.toNat) ∧
        Claims.Fires (.stripHdr a u 0) v ins u [{ x with tag := 1 }]) ∧
      (∀ (t : BitVec 4) (n : BitVec 6), t.toNat ≤ 12 → keysFrom 0 v.c.collar.vreg = true → keysFrom 0 v.c.collar.vtag = true →
        ∃ c', exec (.vwr a t n) v.s = .next (setCell v.s v.id c') ∧ c'.mem = v.c.mem ∧ (stripAt c'.collar v.j).pp = nextWord v ∧
          peek 0 c'.collar.vtag n.toNat = t ∧
          (∀ i, i < 192 → laneAt (peek 0 c'.collar.vreg n.toNat) i =
            if x.pred.getLsbD i then laneAt x.data i else laneAt (peek 0 v.c.collar.vreg n.toNat) i) ∧
          (∀ k, k ≠ n.toNat → peek 0 c'.collar.vreg k = peek 0 v.c.collar.vreg k))) ∧
    (∀ y, operandTok v b = some y → x.tag = 0 → y.tag = 0 → a ≠ b → a.toNat < 4 → b.toNat < 4 → u ≠ 0 →
      let from_ (n : Nat) : Option Nat :=
        if y.pred.getLsbD n ∧ (laneAt y.data n).toNat % 256 ≤ 191 ∧ x.pred.getLsbD ((laneAt y.data n).toNat % 256) then
          some ((laneAt y.data n).toNat % 256)
        else none
      Claims.Fires (.perm a b u) v [a.toNat, b.toNat] u
        [Claims.laneToken x (fun n => (from_ n).isSome) fun n => laneAt x.data ((from_ n).getD 0)]) ∧
    (∀ (t : BitVec 4) (n : BitVec 6), t.toNat ≤ 12 →
      let held : BitVec 4 := peek 0 v.c.collar.vtag n.toNat
      (held = t ∨ held = 0 ∨ t = 0 →
        Claims.Fires (.vrd u t n) v [] u [{ data := peek 0 v.c.collar.vreg n.toNat, pred := BitVec.allOnes 192 }]) ∧
      (held ≠ t → held ≠ 0 → t ≠ 0 → exec (.vrd u t n) v.s = .next (stripFault v.s v.id v.c v.j { code := .format, unit := 4 }))) ∧
    (∀ n : BitVec 8, x.tag.toNat < 7 →
      ((∀ y ∈ v.p.fifo, y.tag = 0) → v.p.fifo.length < n.toNat + 1 → ∃ f : Strip → Strip, Claims.FiresAs (.dly a u n) v ins f 0 [] ∧
        ∀ p, (f p).fifo = p.fifo ++ [x] ∧ (f p).pp = p.pp) ∧
      (∀ y ys, v.p.fifo = y :: ys → n.toNat + 1 ≤ v.p.fifo.length → ∃ f : Strip → Strip, Claims.FiresAs (.dly a u n) v [] f u [y] ∧
        ∀ p, (f p).fifo = ys ∧ (f p).pp = p.pp))

/-- R215: element k of an N4X lane before its scale, zero where its quad is malformed. -/
def Claims.quadValue (z : Bool) (lane : BitVec 32) (k : Nat) : FV :=
  match decodeQuad z (lane.toNat / 2 ^ (16 * (k / 4)) % 65536) with
  | some vs => vs.getD (k % 4) .nan
  | none => .fin false 0 0

/-- R212, R213, R216, R217, R298: the firing of `quant` that ends a burst, without stochastic rounding, each block's maximum a
finite number that is not negative (what a block of another maximum comes to is left open), unless the block holds a NaN or an
infinity. The header token has one live lane a block with its scale, length, tag and LAST; the packed tokens hold the codes in
element order. Of the MX formats a code is the element over the scale, rounded once; of N4X a quad is `quantiseQuad`'s, by the
table of R217. A block with a NaN or an infinity has the scale 0xFF and zero codes. -/
def Claims.QuantBursts : Prop :=
  ∀ (v : Firing) (a b : BitVec 3) (u : BitVec 2) (t : BitVec 4) (r : BitVec 3) (l : BitVec 1) (x y : Tok) (ts : List Tok) (q : Burst),
    Claims.MayFire v → u ≠ 0 → outputsFree v.c.collar v.j u = true → operandTok v a = some x → x.tag = 0 →
    trapsDz v.h = false → trapsInv v.h = false → trapsOvf v.h = false → (Instr.quant a b u t r l).WellFormed → r ≠ 4 → r ≠ 6 →
    burstOf v.p.w[4] = some q → v.p.group = y :: ts → y.tag = 0 → ts.length + 1 = q.n →
    let z := flushes v
    let elem (e : Nat) : FV :=
      let k := ((ts ++ [x])[e / 192]?).getD {}
      if k.pred.getLsbD (e % 192) then readFp fp32 z (laneAt k.data (e % 192)).toNat else .fin false 0 0
    let blocks := 192 * q.n / q.len
    let special (i : Nat) : Bool := (List.range q.len).any fun e => isSpecial (elem (q.len * i + e))
    let most (i : Nat) : FV := readFp fp32 z (if y.pred.getLsbD i then laneAt y.data i else 0).toNat
    (∀ i, i < blocks → special i = true ∨ ∃ m e, most i = .fin false m e) →
    let down : Int := if t = 4 then 8 else if t = 5 then 15 else if t = 6 then 6 else 2 + (q.h : Int)
    let scale (i : Nat) : Nat :=
      if special i then 255
      else match most i with
        | .fin _ m e => if m = 0 then 127 else (max 0 (min 254 (e + Nat.log2 m - down + 127))).toNat
        | _ => 0
    let code (e : Nat) : Nat :=
      let i := e / q.len
      let part (e : Nat) : FV := scaleFV (127 - (scale i : Int)) (elem e)
      if special i then 0
      else if t = 7 then
        (quantiseQuad r z (scale i) ((List.range 4).map fun k => ⟨elem (e / 4 * 4 + k), 0, 0⟩)).1 / 2 ^ (4 * (e % 4)) % 16
      else if t = 6 then (toInt 6 (modeOf r 0) (part e)).1
      else (roundTo (fmtOf t) (narrowRule r) (modeOf r 0) z (part e)).1
    let n := perLane t
    ∃ (f : Strip → Strip) (hdr : Tok) (packed : List Tok),
      Claims.FiresAs (.quant a b u t r l) v (if a.toNat < 4 then [a.toNat] else []) f u (hdr :: packed) ∧
      (∀ p, (f p).group = [] ∧ (f p).pp = nextWord v) ∧ hdr.tag = 1 ∧
      (∀ i, i < 192 → hdr.pred.getLsbD i = decide (i < blocks)) ∧
      (∀ i, i < blocks → (laneAt hdr.data i).toNat =
        scale i + q.len * 2 ^ 8 + t.toNat * 2 ^ 16 + if l = 1 ∧ i + 1 = blocks then 2 ^ 20 else 0) ∧
      packed.length = (q.n + n - 1) / n ∧
      ∀ j k, packed[j]? = some k → k.tag = 0 ∧ ∀ i, i < 192 →
        k.pred.getLsbD i = decide (192 * n * j + n * i < 192 * q.n) ∧
        ∀ m, m < n → 192 * n * j + n * i + m < 192 * q.n → elemOf t (laneAt k.data i) m = code (192 * n * j + n * i + m)

/-- R210, R213-R215, R299: the data tokens of a burst of `dequant`. One that holds every element of its lanes and is not the last
joins those before it; with the last the burst gives for each of its tokens as many as a lane has elements, in element order,
each element its value times the scale of its block, rounded once, and the word goes on. A lane that lacks elements of the
burst, or a marker in it, faults FORMAT, and no element is consumed: the tokens that joined stand at the input again. (That the
word fires once for the whole burst is assumption 60.) -/
def Claims.DequantBursts : Prop :=
  ∀ (v : Firing) (a : BitVec 3) (u : BitVec 2) (t : BitVec 4) (r : BitVec 3) (x hdr : Tok) (ts : List Tok) (blocks len : Nat),
    Claims.MayFire v → u ≠ 0 → outputsFree v.c.collar v.j u = true → operandTok v a = some x → trapsDz v.h = false →
    trapsInv v.h = false → trapsOvf v.h = false → (Instr.dequant a u t r).WellFormed → v.p.group = hdr :: ts →
    acceptHeader t hdr = some (blocks, len) →
    let z := flushes v
    let n := perLane t
    let first := 192 * n * ts.length
    let total := blocks * len
    let value (e : Nat) : FV :=
      let lane := laneAt ((ts ++ [x])[e / (192 * n)]?.getD {}).data (e % (192 * n) / n)
      let v := if t = 7 then Claims.quadValue z lane (e % n)
        else if t = 6 then ofInt (intOf 6 (elemOf 6 lane (e % n))) else readFp (fmtOf t) z (elemOf t lane (e % n))
      applyScale ((laneAt hdr.data (e / len)).toNat % 256) v
    let ins : List Nat := if a.toNat < 4 then [a.toNat] else []
    let short : Prop := ∃ i, i < 192 ∧ first + n * i < total ∧ x.pred.getLsbD i = false
    let faults : Prop := ∃ c', exec (.dequant a u t r) v.s =
        .next (stripFault (setCell v.s v.id c') v.id c' v.j { code := .format, unit := 4 }) ∧ c'.mem = v.c.mem ∧ c'.core = v.c.core ∧
      (∀ j, j ≠ v.j → stripAt c'.collar j = stripAt v.c.collar j) ∧ c'.collar.links = v.c.collar.links ∧
      stripAt c'.collar v.j = { v.p with group := [hdr], skid := (ts.map fun y => (BitVec.ofNat 2 (ins.headD 0), y)) ++ v.p.skid }
    (x.tag = 0 → ¬ short → first + 192 * n < total → ∃ f : Strip → Strip, Claims.FiresAs (.dequant a u t r) v ins f 0 [] ∧
      ∀ p, (f p).group = p.group ++ [x] ∧ (f p).pp = p.pp) ∧
    (x.tag = 0 → ¬ short → total ≤ first + 192 * n → ∃ (f : Strip → Strip) (out : List Tok),
      Claims.FiresAs (.dequant a u t r) v ins f u out ∧ out.length = n * (ts.length + 1) ∧
      (∀ p, (f p).group = [] ∧ (f p).pp = nextWord v) ∧
      ∀ j y, out[j]? = some y → y.tag = 0 ∧ ∀ i, i < 192 →
        y.pred.getLsbD i = decide (192 * j + i < total) ∧
        (192 * j + i < total → (laneAt y.data i).toNat =
          (roundTo fp32 (narrowRule r) (exactMode r) z (value (192 * j + i))).1)) ∧
    (x.tag = 0 → short → faults) ∧ (1 ≤ x.tag.toNat → x.tag.toNat ≤ 7 → faults)

/-- R212-R215, R297-R301, R337: the converters on data: `cvt` between formats of one width converts element by element; `pk4`
keeps seven tokens, their elements clamped, and packs them with the eighth in element order; `upk4` sends eight tokens for
one, each quad decoded; `quant` begins a burst with the token of maxima; `dequant` accepts a header that fits and faults
FORMAT on another. -/
def Claims.ConverterWords : Prop :=
  ∀ (v : Firing) (a : BitVec 3) (u : BitVec 2) (t st : BitVec 4) (r : BitVec 3) (x : Tok), Claims.MayFire v → u ≠ 0 →
    outputsFree v.c.collar v.j u = true → operandTok v a = some x → trapsDz v.h = false → trapsInv v.h = false →
    trapsOvf v.h = false →
    let ins : List Nat := if a.toNat < 4 then [a.toNat] else []
    (x.tag = 0 → (Instr.cvt a u t r st).WellFormed → perLane t = perLane st → v.p.group = [] →
      Claims.Fires (.cvt a u t r st) v ins u [Claims.laneToken x (fun n => x.pred.getLsbD n) fun n =>
        laneOf t ((List.range (perLane t)).map fun k =>
          (convertElem st t r (flushes v) (randomBits v.p.lfsr n k) (elemOf st (laneAt x.data n) k)).1)]) ∧
    (x.tag = 0 → v.p.group.length < 7 → ∃ (f : Strip → Strip) (g : Tok), Claims.FiresAs (.pk4 a u) v ins f 0 [] ∧
      (∀ p, (f p).group = v.p.group ++ [g] ∧ (f p).pp = p.pp) ∧ g.pred = x.pred ∧
      ∀ n, n < 192 → x.pred.getLsbD n = true → elemOf 7 (laneAt g.data n) 0 =
        ((max (-7) (min 7 (laneAt x.data n).toInt)) % 16).toNat) ∧
    (x.tag = 0 → v.p.group.length = 7 →
      let elem (e : Nat) : Option Nat := match v.p.group[e / 192]? with
        | some g => if g.pred.getLsbD (e % 192) then some (elemOf 7 (laneAt g.data (e % 192)) 0) else none
        | none => if x.pred.getLsbD (e % 192) then some ((max (-7) (min 7 (laneAt x.data (e % 192)).toInt)) % 16).toNat else none
      ∃ (f : Strip → Strip) (y : Tok), Claims.FiresAs (.pk4 a u) v ins f u [y] ∧
        (∀ p, (f p).group = [] ∧ (f p).pp = nextWord v) ∧ y.tag = 0 ∧
        ∀ n, n < 192 → y.pred.getLsbD n = ((List.range 8).any fun k => (elem (8 * n + k)).isSome) ∧
          (y.pred.getLsbD n = true → ∀ k, k < 8 → elemOf 7 (laneAt y.data n) k = (elem (8 * n + k)).getD 0)) ∧
    (x.tag = 0 → ∃ (f : Strip → Strip) (ys : List Tok), Claims.FiresAs (.upk4 a u) v ins f u ys ∧ ys.length = 8 ∧
      (∀ p, (f p).pp = nextWord v) ∧
      ∀ j y, ys[j]? = some y → y.tag = 0 ∧ ∀ n, n < 192 →
        y.pred.getLsbD n = x.pred.getLsbD ((192 * j + n) / 8) ∧
        (y.pred.getLsbD n = true → (laneAt y.data n).toNat = (roundTo fp32 .ieee .rne (flushes v)
          (Claims.quadValue (flushes v) (laneAt x.data ((192 * j + n) / 8)) ((192 * j + n) % 8))).1)) ∧
    (∀ (b : BitVec 3) (l : BitVec 1) (y : Tok), (Instr.quant a b u t r l).WellFormed → burstOf v.p.w[4] ≠ none →
      v.p.group = [] → operandTok v b = some y → y.tag = 0 → ∃ f : Strip → Strip,
        Claims.FiresAs (.quant a b u t r l) v (if b.toNat < 4 then [b.toNat] else []) f 0 [] ∧
        ∀ p, (f p).group = [y] ∧ (f p).pp = p.pp) ∧
    (x.tag = 1 → (Instr.dequant a u t r).WellFormed → v.p.group = [] →
      (acceptHeader t x ≠ none → ∃ f : Strip → Strip, Claims.FiresAs (.dequant a u t r) v ins f 0 [] ∧
        ∀ p, (f p).group = [x] ∧ (f p).pp = p.pp) ∧
      (acceptHeader t x = none → exec (.dequant a u t r) v.s = .next (stripFault v.s v.id v.c v.j { code := .format, unit := 4 })))

/-- The inputs a port word reads. -/
def Claims.inputsOf (as : List (BitVec 3)) : List Nat := ((as.filter fun a => a.toNat < 4).map (·.toNat)).eraseDups

/-- A 32-bit word of a cell's scratch. -/
def Claims.scratchWord (c : Cell) (n : Nat) : BitVec 32 := BitVec.ofNat 32 (ofBytes (readBytes c.mem.scratch n 4))

/-- A lane of a port lies in scratch. -/
def Claims.inScratch (n : Int) : Prop := 0 ≤ n ∧ n + 4 ≤ 0xC0000

/-- A firing of a store port: it takes its inputs and goes on at the next word; each live lane is written at its place, the
last one where two meet, and no other byte changes. -/
def Claims.Stores (i : Instr) (v : Firing) (ins : List Nat) (live : Nat → Bool) (place : Nat → Nat) (val : Nat → BitVec 32) : Prop :=
  ∃ t c' f, exec i v.s = .next t ∧ look t.cells v.id = some c' ∧ t.mem = v.s.mem ∧ c'.collar = fireCollar v ins f 0 [] ∧
    (∀ p, (f p).pp = nextWord v) ∧
    (∀ n, n < 192 → live n = true → (∀ k, n < k → k < 192 → live k = true → place k ≠ place n) →
      Claims.scratchWord c' (place n) = val n) ∧
    (∀ m, (∀ n, n < 192 → live n = true → m < place n ∨ place n + 4 ≤ m) →
      readByte c'.mem.scratch m = readByte v.c.mem.scratch m)

/-- R306, R307, R309, R351: `lds` with an output free. From scratch, with constants in range and no word of its lanes empty, it
sends the lanes from the generator's address on; within a run of dimension 1 the generator steps and the word stays, an `eod`
follows the token that ends iterations of dimension 1, 2 or 3, and past the last token it goes to the next word; a run that ends during a snapshot records the strip. A first lane outside scratch faults
ACCESS, and constants out of range fault STRIPINV. From the landing buffer it sends the oldest beat, and an END beat ends the
stream. -/
def Claims.LoadPorts : Prop :=
  ∀ (v : Firing) (u : BitVec 2), Claims.MayFire v → outputsFree v.c.collar v.j u = true → debugs v.s v.c = false →
    let gen := v.p.gen
    (∀ g : GenPar, genPar v.p.w = some g →
      let at_ := genAddr g g.base gen
      let ends : Prop := g.n1 ≤ gen.i1 + 1
      ((∀ n, n ≤ g.lanes → Claims.inScratch (at_ + 4 * (n : Nat))) → v.c.core.sr.pgmode = 0 ∨ v.c.mem.empty = [] →
        (∀ x ∈ v.c.mem.served, x.reader ≠ .port v.j.toNat) → ∃ (f : Strip → Strip) (more : List Tok),
        (v.c.collar.snapping = false ∨ ¬ ends → Claims.FiresAs (.lds u 0) v [] f u
          (Claims.laneToken {} (fun n => decide (n ≤ g.lanes)) (fun n => Claims.scratchWord v.c (at_ + 4 * (n : Nat)).toNat) :: more)) ∧
        (v.c.collar.snapping = true → ends → ∃ c', exec (.lds u 0) v.s = .next (setCell v.s v.id c') ∧ c'.mem = v.c.mem ∧
          (stripAt c'.collar v.j).recorded = true) ∧
        (∀ k ∈ more, 2 ≤ k.tag.toNat ∧ k.tag.toNat ≤ 4) ∧ more.length ≤ 1 ∧
        (¬ ends → more = [] ∧ ∀ p, (f p).pp = p.pp ∧ (f p).gen = { gen with i1 := gen.i1 + 1, open_ := true }) ∧
        (ends → gen.i2 + 1 < g.n2 → more = [{ tag := 2 }] ∧
          ∀ p, (f p).pp = p.pp ∧ (f p).gen = { gen with i1 := 0, i2 := gen.i2 + 1, open_ := true }) ∧
        (ends → g.n2 ≤ gen.i2 + 1 → gen.i3 + 1 < g.n3 → more = [{ tag := 3 }] ∧
          ∀ p, (f p).pp = p.pp ∧ (f p).gen = { gen with i1 := 0, i2 := 0, i3 := gen.i3 + 1, open_ := true }) ∧
        (ends → g.n2 ≤ gen.i2 + 1 → g.n3 ≤ gen.i3 + 1 → gen.i4 + 1 < g.n4 → more = [{ tag := 4 }] ∧
          ∀ p, (f p).pp = p.pp ∧ (f p).gen = { gen with i1 := 0, i2 := 0, i3 := 0, i4 := gen.i4 + 1, open_ := true }) ∧
        (ends → g.n2 ≤ gen.i2 + 1 → g.n3 ≤ gen.i3 + 1 → g.n4 ≤ gen.i4 + 1 → more = [] ∧
          ∀ p, (f p).pp = nextWord v ∧ (f p).gen = {})) ∧
      (¬ Claims.inScratch at_ → exec (.lds u 0) v.s = .next (stripFault v.s v.id v.c v.j
        { code := .access, unit := 4, addr := BitVec.ofInt 64 at_, d6 := genDetail gen }))) ∧
    (genPar v.p.w = none → exec (.lds u 0) v.s = .next (stripFault v.s v.id v.c v.j { code := .stripinv, unit := 4, sub := 2 })) ∧
    (v.c.landing = [] → exec (.lds u 1) v.s = .next v.s) ∧
    (∀ b bs, v.c.landing = b :: bs → v.c.markers = [] → ∃ c', exec (.lds u 1) v.s = .next (setCell v.s v.id c') ∧
      c'.landing = bs ∧ c'.mem = v.c.mem ∧
      (b.fin = false → c'.collar = fireCollar v [] id u
        [Claims.laneToken {} (fun n => decide (n < 8)) fun n => b.data.extractLsb' (32 * n) 32]) ∧
      (b.fin = true → c'.collar = fireCollar v [] (fun p => { p with pp := nextWord v, gen := {} }) 0 []))

/-- R104, R306, R308, R309, R336: `sts`. On data into scratch with constants in range it writes the live lanes from the generator's
address on, the base moved by SIDE where the word says so; an `eod` is taken; an `eos` ends the stream and leads to the next `eos`
word. A lane outside scratch faults ACCESS, a live lane at a full word PRESENCE, and neither writes anything. To the circuit it
injects the token's first eight lanes for the next cycle, and an END beat at `eos`. That a second beat for the same cycle waits
(assumption 59), and that PP moves on behind an `eod` (assumptions 41 and 42), are the model's choices. -/
def Claims.StorePorts : Prop :=
  ∀ (v : Firing) (a : BitVec 3) (side : BitVec 1) (x : Tok), Claims.MayFire v → debugs v.s v.c = false →
    operandTok v a = some x →
    let gen := v.p.gen
    let ins := Claims.inputsOf [a]
    let injects (fin : Bool) : Prop := ∃ t c' b ins' f, exec (.sts a 1 0) v.s = .next t ∧ look t.cells v.id = some c' ∧
      t.flying = v.s.flying ++ [⟨b, BitVec.ofNat 2 (v.id / 128), v.id % 128 / 16, v.id % 16, 1, v.s.now + 1⟩] ∧ b.part = v.c.part ∧
      b.fin = fin ∧ c'.injected = some (v.s.now + 1) ∧ c'.collar = fireCollar v ins' f 0 [] ∧ c'.mem = v.c.mem ∧ t.mem = v.s.mem ∧
      (fin = false → ins' = ins ∧ (∀ p, (f p).pp = nextWord v) ∧ ∀ n, n < 8 → b.data.extractLsb' (32 * n) 32 =
        if x.pred.getLsbD n then laneAt x.data n else 0) ∧
      (fin = true → ins' = [] ∧ ∀ p, nextEos v = some (f p).pp ∧ (f p).gen = {})
    (∀ g : GenPar, genPar v.p.w = some g →
      let base : BitVec 20 := if side = 1 then
          gen.base.getD (BitVec.ofNat 20 g.base + BitVec.ofNat 20 x.side.toNat) else BitVec.ofNat 20 g.base
      let at_ := genAddr g base.toNat gen
      let inside : Prop := ∀ n, n ≤ g.lanes → Claims.inScratch (at_ + 4 * (n : Nat))
      let live (n : Nat) : Bool := x.pred.getLsbD n && decide (n ≤ g.lanes)
      (x.tag = 0 → gen.passed = false →
        (inside → v.c.core.sr.pgmode = 0 → Memory.wf v.c.mem.scratch = true →
          Claims.Stores (.sts a 0 side) v ins live (fun n => at_.toNat + 4 * n) (laneAt x.data)) ∧
        (¬ Claims.inScratch at_ → exec (.sts a 0 side) v.s = .next (stripFault v.s v.id v.c v.j
          { code := .access, unit := 4, addr := BitVec.ofInt 64 at_, d6 := genDetail gen })) ∧
        (∀ n, inside → live n = true → (∀ k, k < n → live k = false) → presenceMode v.c (at_.toNat + 4 * n) = true →
          (at_.toNat + 4 * n) / 32 ∉ v.c.mem.empty → exec (.sts a 0 side) v.s = .next (stripFault v.s v.id v.c v.j
            { code := .presence, unit := 4, addr := BitVec.ofInt 64 (at_ + 4 * (n : Nat)), d6 := genDetail gen }))) ∧
      (2 ≤ x.tag.toNat → x.tag.toNat ≤ 6 → ∃ f : Strip → Strip, Claims.FiresAs (.sts a 0 side) v ins f 0 [] ∧
        ∀ p, (f p).pp = nextWord v ∧ (x.tag = 2 → (f p).gen.base = none))) ∧
    (∀ n, x.tag = 7 → nextEos v = some n →
      Claims.FiresAs (.sts a 0 side) v [] (fun p => { p with pp := n, gen := {} }) 0 []) ∧
    (x.tag = 0 → gen.passed = true ∨ genPar v.p.w = none → exec (.sts a 0 side) v.s = .next (stripFault v.s v.id v.c v.j
      { code := .stripinv, unit := 4, sub := 2 })) ∧
    (v.c.injected ≠ some (v.s.now + 1) →
      (x.tag = 0 → injects false) ∧ (x.tag = 7 → (nextEos v).isSome = true → injects true)) ∧
    (v.c.injected = some (v.s.now + 1) → x.tag = 0 → exec (.sts a 1 0) v.s = .next v.s)

/-- R283, R310, R336: `gath` and `scat` with the base in range, outside presence mode and with every live lane aligned and in
scratch. Unordered, a `gath` sends the words at base + offset and a `scat` writes them, of two lanes at one place the later. An
ordered one that is next in wave order is performed too, and the sequencer goes on behind it; one that is not waits in the wave
buffer, and its strip goes on. The first lane that moves and is not aligned faults ALIGN, and with all of them aligned the first
one outside scratch faults ACCESS. Markers pass a `gath` and are taken by a
`scat`; `eos` leads to the next `eos` word. -/
def Claims.WavePorts : Prop :=
  ∀ (v : Firing) (a b : BitVec 3) (u : BitVec 2) (x y : Tok) (base : Nat), Claims.MayFire v → debugs v.s v.c = false →
    v.c.core.sr.pgmode = 0 → Memory.wf v.c.mem.scratch = true → (∀ z ∈ v.c.mem.served, z.reader ≠ .port v.j.toNat) →
    genBase v.p.w[0] = some base → operandTok v a = some x → operandTok v b = some y → outputsFree v.c.collar v.j u = true →
    let place (n : Nat) : Nat := base + (laneAt x.data n).toNat
    let both (n : Nat) : Bool := x.pred.getLsbD n && y.pred.getLsbD n
    let fits (live : Nat → Bool) : Prop := ∀ n, n < 192 → live n = true → (laneAt x.data n).toNat % 4 = 0 ∧ place n + 4 ≤ 0xC0000
    let token : Tok := Claims.laneToken x (fun n => x.pred.getLsbD n) fun n => Claims.scratchWord v.c (place n)
    let w := v.c.collar.wave
    let part (lo : Nat) : BitVec 8 := x.ord.extractLsb' lo 8
    let mine : Prop := part 24 = w.wave ∧ part 8 = w.last
    let taken : Prop := part 24 = w.wave ∧ part 0 ∈ w.seen ∨
      ∃ o ∈ w.buf, o.a.ord.extractLsb' 24 8 = part 24 ∧ o.a.ord.extractLsb' 0 8 = part 0
    let next : Wave := if part 16 = 0xFF then { w with wave := w.wave + 1, last := 0, seen := [] }
      else { w with last := part 0, seen := w.seen ++ [part 0] }
    let ordered (i : Instr) (o : WaveOp) : Prop :=
      (mine → ¬ taken → ∃ t c', exec i v.s = .next t ∧ look t.cells v.id = some c' ∧ c'.collar.wave = next ∧
        (stripAt c'.collar v.j).pp = nextWord v ∧ t.mem = v.s.mem) ∧
      (¬ mine → ¬ taken → w.buf.length < 15 → ∃ c', exec i v.s = .next (setCell v.s v.id c') ∧
        c'.collar.wave = { w with buf := w.buf ++ [o] } ∧ (stripAt c'.collar v.j).pp = nextWord v ∧ c'.mem = v.c.mem) ∧
      (taken → exec i v.s = .next (stripFault v.s v.id v.c v.j { code := .stripinv, unit := 4, sub := 2 }))
    (x.tag = 0 → fits (x.pred.getLsbD ·) →
      (x.ord = 0 → Claims.Fires (.gath a u) v (Claims.inputsOf [a]) u [token]) ∧
      (x.ord ≠ 0 → ordered (.gath a u) ⟨v.j.toNat, u, false, x, {}, false⟩)) ∧
    (x.tag = 0 → y.tag = 0 → fits both →
      (x.ord = 0 → Claims.Stores (.scat a b) v (Claims.inputsOf [a, b]) both place (laneAt y.data)) ∧
      (x.ord ≠ 0 → ordered (.scat a b) ⟨v.j.toNat, 0, true, x, y, false⟩)) ∧
    (∀ n, x.tag = 0 → x.ord = 0 → n < 192 → x.pred.getLsbD n = true → (laneAt x.data n).toNat % 4 ≠ 0 →
      (∀ k, k < n → x.pred.getLsbD k = true → (laneAt x.data k).toNat % 4 = 0) →
      exec (.gath a u) v.s = .next (stripFault v.s v.id v.c v.j
        { code := .align, unit := 4, addr := BitVec.ofNat 64 (place n), d6 := genDetail v.p.gen })) ∧
    (x.tag = 0 → y.tag = 0 → x.ord = 0 → ∀ n, n < 192 →
      ∀ q ∈ ([(.gath a u, fun k => x.pred.getLsbD k), (.scat a b, both)] : List (Instr × (Nat → Bool))), q.2 n = true →
      let faults (code : TrapCode) : Prop := exec q.1 v.s = .next (stripFault v.s v.id v.c v.j
        { code := code, unit := 4, addr := BitVec.ofNat 64 (place n), d6 := genDetail v.p.gen })
      ((laneAt x.data n).toNat % 4 ≠ 0 → (∀ k, k < n → q.2 k = true → (laneAt x.data k).toNat % 4 = 0) → faults .align) ∧
      (0xC0000 < place n + 4 → (∀ k, k < 192 → q.2 k = true → (laneAt x.data k).toNat % 4 = 0) →
        (∀ k, k < n → q.2 k = true → place k + 4 ≤ 0xC0000) → faults .access)) ∧
    (2 ≤ x.tag.toNat → x.tag.toNat ≤ 6 → Claims.FiresAs (.gath a u) v (Claims.inputsOf [a]) id u [x] ∧
      (a = b → ∃ f : Strip → Strip, Claims.FiresAs (.scat a b) v (Claims.inputsOf [a, b]) f 0 [] ∧ ∀ p, (f p).pp = nextWord v)) ∧
    (∀ n, x.tag = 7 → nextEos v = some n → Claims.FiresAs (.gath a u) v [] (fun p => { p with pp := n }) 0 [] ∧
      (y.tag = 7 ∨ 4 ≤ b.toNat → Claims.FiresAs (.scat a b) v [] (fun p => { p with pp := n, gen := {} }) 0 []))

/-- R104, R283, R306-R311, R336, R351: what the words of the load and store ports do on data and markers, from scratch and the
circuit, in and out of wave order, and where they fault (the model's choices in it: assumptions 41, 42 and 59). -/
def Obligations.PortWords : Prop := Claims.LoadPorts ∧ Claims.StorePorts ∧ Claims.WavePorts

/-! ### Work queues, launches and tasks -/

/-- R113-R116, R393-R398, R404: what the host, and firmware once its image runs, do to a queue. A TAIL that PF0 or the
queue's partition writes is taken unless it is over a lap ahead of HEAD, which stops the queue; writes of other
partitions, and in recovery of VFs, do nothing. NOTIFY wakes the head's task. A descriptor write with a value out of
range changes nothing and is reported; EN that rises zeroes HEAD and TAIL, and a launch that has its task keeps it; a
write changes nothing of doublewords 1 and 3. QERR_CLEAR clears QERR. A queue of a partition that is back takes its shadow; one given to a partition that is out is switched out. (That EN zeroes the shadow, LSIZE under 4 is refused, refusals are reported: assumption 25;
VF writes in recovery: assumption 47.) -/
def Claims.QueueWrites : Prop :=
  ∀ (q : BitVec 12) (w : Word) (s : State),
    let v := queueAt s q
    let tail : BitVec 32 := BitVec.ofNat 32 w.toNat
    let runs : Prop := s.fw.booted = true
    (∀ port : Option (BitVec 4), (port = none ∨ port = some v.part ∧ s.fw.recovery = false) →
      (v.switched = false → (tail - v.head).toNat ≤ 2 ^ v.lsize.toNat → ∃ t, exec (.tail q port w) s = .next t ∧
        (queueAt t q).tail = tail ∧ (queueAt t q).shTail = tail ∧ (queueAt t q).head = v.head ∧ (queueAt t q).err = v.err ∧
        t.mem = s.mem) ∧
      (v.switched = false → 2 ^ v.lsize.toNat < (tail - v.head).toNat → v.err = none → ∃ t, exec (.tail q port w) s = .next t ∧
        (queueAt t q).tail = v.tail ∧ (queueAt t q).err = some (3, 4)) ∧
      (v.switched = true → ∃ t, exec (.tail q port w) s = .next t ∧ (queueAt t q).tail = v.tail ∧ (queueAt t q).shTail = tail) ∧
      (v.switched = false → ∀ n k, v.task = some n → look s.tasks n = some k → ∃ t, exec (.notify q port) s = .next t ∧
        look t.tasks n = some { k with wake := true } ∧ t.cells = s.cells) ∧
      (v.switched = false → v.task = none → ∃ t, exec (.notify q port) s = .next t ∧ (queueAt t q).shNotify = false ∧
        t.tasks = s.tasks ∧ t.cells = s.cells) ∧
      (v.switched = true → ∃ t, exec (.notify q port) s = .next t ∧ (queueAt t q).shNotify = true ∧ t.tasks = s.tasks)) ∧
    (∀ p : BitVec 4, p ≠ v.part ∨ s.fw.recovery = true → exec (.tail q (some p) w) s = .next s ∧ exec (.notify q (some p)) s = .next s) ∧
    (let prio := w.toNat / 2 ^ 48 % 64
     let tickets := w.toNat / 2 ^ 32 % 2 ^ 13
     let part : BitVec 4 := BitVec.ofNat 4 (w.toNat / 2 ^ 56)
     let fits := w.toNat / 2 ^ 54 % 4 = 0 ∧ w.toNat / 2 ^ 45 % 8 = 0 ∧ w.toNat / 2 ^ 21 % 2 ^ 11 = 0 ∧ prio ≤ 47 ∧ 1 ≤ tickets ∧
       tickets ≤ 4096 ∧ (v.en = true → part = v.part)
     (runs → fits → ∃ t, exec (.queueDescriptorWrite q 0 w) s = .next t ∧ (queueAt t q).en = w.getLsbD 63 ∧ (queueAt t q).part = part ∧
       (queueAt t q).task = v.task ∧ (queueAt t q).restore = v.restore ∧
       (queueAt t q).prio.toNat = prio ∧ (queueAt t q).tickets.toNat = tickets ∧
       (queueAt t q).switched = (v.switched || (partOf s part).away) ∧
       (w.getLsbD 63 = true → v.en = false → (queueAt t q).head = 0 ∧ (queueAt t q).tail = 0 ∧ (queueAt t q).shTail = 0) ∧
       (v.en = true → (queueAt t q).head = v.head ∧ (queueAt t q).tail = v.tail)) ∧
     (runs → ¬ fits → ∃ t, exec (.queueDescriptorWrite q 0 w) s = .next t ∧ t.fw.reports = s.fw.reports ++ [.trap v.part .access] ∧
       (queueAt t q).en = v.en ∧ (queueAt t q).part = v.part ∧ (queueAt t q).prio = v.prio ∧ (queueAt t q).tickets = v.tickets)) ∧
    (runs → w.toNat / 2 % 128 = 0 → 4 ≤ w.toNat / 2 ^ 8 % 16 → ∃ t, exec (.queueDescriptorWrite q 2 w) s = .next t ∧
      (queueAt t q).base.toNat = w.toNat / 2 ^ 12 ∧ (queueAt t q).lsize.toNat = w.toNat / 2 ^ 8 % 16 ∧
      (queueAt t q).loc = w.getLsbD 0) ∧
    (runs → w.toNat / 2 % 128 ≠ 0 ∨ w.toNat / 2 ^ 8 % 16 < 4 → ∃ t, exec (.queueDescriptorWrite q 2 w) s = .next t ∧
      t.fw.reports = s.fw.reports ++ [.trap v.part .access] ∧ (queueAt t q).base = v.base ∧ (queueAt t q).lsize = v.lsize) ∧
    (runs → ∀ d ∈ [1, 3], ∃ t, exec (.queueDescriptorWrite q d w) s = .next t ∧ (queueAt t q).en = v.en ∧ (queueAt t q).head = v.head ∧
      (queueAt t q).tail = v.tail ∧ (queueAt t q).prio = v.prio ∧ (queueAt t q).base = v.base ∧ (queueAt t q).err = v.err ∧
      t.mem = s.mem ∧ t.fw.reports = if d = 1 ∧ 2 ^ 40 ≤ w.toNat then s.fw.reports ++ [.trap v.part .access] else s.fw.reports) ∧
    (runs → ∃ t, exec (.qerrClear q) s = .next t ∧ (queueAt t q).err = none ∧ (queueAt t q).head = v.head ∧
      (queueAt t q).tail = v.tail ∧ (queueAt t q).charged = v.charged) ∧
    (¬ runs → exec (.qerrClear q) s = .next s ∧ ∀ d, exec (.queueDescriptorWrite q d w) s = .next s) ∧
    (v.switched = true → (partOf s v.part).resident = true → (v.shTail - v.head).toNat ≤ 2 ^ v.lsize.toNat →
      ∃ t, exec (.queueSwitchIn q) s = .next t ∧ (queueAt t q).switched = false ∧ (queueAt t q).tail = v.shTail ∧
        (v.shNotify = true → (queueAt t q).shNotify = false))

/-- R116, R393, R396, R397: the read of the head command of a queue that wants it, in host memory (LOC 0) or in its
partition's virtual memory (LOC 1). A command whose STAMP fits is accepted, or stops it with BADCMD; another is
read again, and the ninth such read stops the queue with STALE. A read that traps stops the queue with
it; one of a page not resident is reported and made again (class 2 and the one report: assumption 25). -/
def Claims.CommandReads : Prop :=
  ∀ (q : BitVec 12) (s : State),
    let v := queueAt s q
    let at_ := v.base.toNat * 4096 + 64 * (v.head.toNat % 2 ^ v.lsize.toNat)
    let read := readSpan s (schedMaster v.part) .virt 2 at_ 64
    let wants : Prop := v.en = true ∧ v.err = none ∧ v.switched = false ∧ v.restore = false ∧ v.cmd = none ∧ v.head ≠ v.tail
    ∀ p ∈ [(Instr.commandFetch q, v.rereads = 0), (.commandRefetch q, v.rereads ≠ 0)],
      (wants → p.2 →
        (∀ bytes s', (v.loc = false ∧ bytes = readBytes s.mem (hostPa at_) 64 ∧ s' = s) ∨
            (v.loc = true ∧ read = .bytes bytes s' ∧ s'.queues = s.queues ∧ s'.counters = s.counters) →
          let c := commandOf bytes
          let fits := c.dw[7].toNat % 2 ^ 16 = v.head.toNat % 65535 + 1
          let foreign : Prop := c.dw[0].toNat / 2 ^ 60 = 0 ∧ cmdWaits c = true ∧ (counterAt s (cmdWaitCtr c)).part ≠ v.part
          (fits → badCommand c = false → ¬ foreign → ∃ t, exec p.1 s = .next t ∧ (queueAt t q).cmd = some c ∧
            (queueAt t q).rereads = 0 ∧ (queueAt t q).head = v.head ∧ t.mem = s'.mem) ∧
          (fits → badCommand c = true ∨ foreign → ∃ t, exec p.1 s = .next t ∧ (queueAt t q).err = some (3, 2) ∧
            (queueAt t q).cmd = none) ∧
          (¬ fits → v.rereads < 8 → ∃ t, exec p.1 s = .next t ∧ (queueAt t q).cmd = none ∧ (queueAt t q).rereads = v.rereads + 1 ∧
            (queueAt t q).err = none) ∧
          (¬ fits → 8 ≤ v.rereads → ∃ t, exec p.1 s = .next t ∧ (queueAt t q).err = some (3, 1))) ∧
        (∀ code n s', v.loc = true → read = .miss (.trap code n) s' → s'.queues = s.queues → ∃ t, exec p.1 s = .next t ∧
          (queueAt t q).err = some (2, BitVec.ofNat 8 code.num) ∧ (queueAt t q).head = v.head) ∧
        (∀ va s', v.loc = true → read = .miss (.page va) s' → .page v.part (BitVec.ofNat 57 va) ∉ s'.fw.reports →
          ∃ t, exec p.1 s = .next t ∧ t.fw.reports = s'.fw.reports ++ [.page v.part (BitVec.ofNat 57 va)] ∧ t.mem = s'.mem)) ∧
      (¬ wants → exec p.1 s = .next s)

/-- R115, R117, R118, R120: the dispatcher of a resident partition chooses among its READY queues of the highest level,
a restore first, else the queue whose PASS lies before every other's, unless its launch is under way or the dispatcher
is held at that level or above: by the queue chosen last, or by a launch waiting for cells. A LAUNCH chosen
first is charged its queue's stride, 2^20 / TICKETS. -/
def Claims.Dispatching : Prop :=
  ∀ (p : BitVec 4) (s : State) (n : Nat) (v : Queue), n < 4096 → (partOf s p).resident = true →
    let ready (y : Nat × Queue) : Prop := y ∈ s.queues ∧ y.2.part = p ∧ isReady s y.2 = true
    let rival (y : Nat × Queue) : Prop := ready y ∧ y.2.switched = false ∧ y ≠ (n, v)
    ready (n, v) → v.switched = false → (∀ y, rival y → y.2.prio.toNat ≤ v.prio.toNat) →
    (v.restore = true ∧ (∀ y, rival y → y.2.prio = v.prio → y.2.restore = false) ∨
      v.restore = false ∧ v.task = none ∧ ∀ y, rival y → y.2.prio = v.prio → y.2.restore = false ∧
        passBefore v.pass y.2.pass = true ∧ passBefore y.2.pass v.pass = false) →
    (∀ y, ready y → (partOf s p).chosen = some (BitVec.ofNat 12 y.1) ∨ waitsForCells s y.2 = true → y.2.prio.toNat < v.prio.toNat) →
    ∃ t v', exec (.dispatch p) s = .next t ∧ (partOf t p).chosen = some (BitVec.ofNat 12 n) ∧ look t.queues n = some v' ∧
      (v.restore = false → v.charged = false → v.wasReady = true → (∃ c, v.cmd = some c ∧ c.dw[0].toNat / 2 ^ 60 = 0) →
        v'.charged = true ∧ v'.pass = v.pass + BitVec.ofNat 40 (2 ^ 20 / v.tickets.toNat)) ∧
      v'.head = v.head ∧ t.mem = s.mem

/-- R115, R393: HEAD past a command that is done; one of the ring before EN fell and rose again is not counted in the new ring
(that HEAD stays then is the model's choice, assumption 25). -/
def Claims.headPast (v : Queue) : BitVec 32 := if v.earlier then v.head else v.head + 1

/-- R116, R121, R122, R128: ARM gives a FREE or FIRED counter of the partition its count, FIRED at once for 0, and else
stops its queue; FREE makes it FREE with the next generation; HEAD advances. A decrement of the counter's generation
takes 1 off, the last one fires it, one more makes it FAULTED and stops the queue that armed it; of another
generation, or at a FREE or FAULTED counter, none is taken. -/
def Claims.Counters : Prop :=
  ∀ (q : BitVec 12) (s : State) (cm : Command),
    let v := queueAt s q
    let n : BitVec 16 := BitVec.ofNat 16 cm.dw[1].toNat
    let count : BitVec 16 := BitVec.ofNat 16 (cm.dw[1].toNat / 2 ^ 16)
    let k := counterAt s n
    (v.cmd = some cm → isChosen s q = true → v.restore = false →
      (cm.dw[0].toNat / 2 ^ 60 = 1 →
        (k.part = v.part → k.state = .free ∨ k.state = .fired → ∃ t, exec (.arm q) s = .next t ∧
          counterAt t n = { k with state := if count = 0 then .fired else .armed, value := count, queue := q } ∧
          (queueAt t q).head = Claims.headPast v ∧ (queueAt t q).cmd = none ∧ (queueAt t q).err = v.err) ∧
        (k.part ≠ v.part ∨ k.state = .armed ∨ k.state = .faulted → v.err = none → ∃ t, exec (.arm q) s = .next t ∧
          counterAt t n = k ∧ (queueAt t q).err = some (3, 3) ∧ (queueAt t q).head = v.head)) ∧
      (cm.dw[0].toNat / 2 ^ 60 = 2 →
        (k.part = v.part → ∃ t, exec (.free q) s = .next t ∧
          counterAt t n = { k with state := .free, value := 0, gen := k.gen + 1 } ∧ (queueAt t q).head = Claims.headPast v) ∧
        (k.part ≠ v.part → v.err = none → ∃ t, exec (.free q) s = .next t ∧ counterAt t n = k ∧
          (queueAt t q).err = some (3, 2)))) ∧
    (∀ (d : Dec) (ds : List Dec), s.decs = d :: ds →
      let k := counterAt s d.ctr
      (d.gen = k.gen → k.state = .armed → 1 < k.value.toNat → ∃ t, exec (.counterDecrement d.ctr [0]) s = .next t ∧
        counterAt t d.ctr = { k with value := k.value - 1 } ∧ t.decs = ds) ∧
      (d.gen = k.gen → k.state = .armed → k.value = 1 → ∃ t, exec (.counterDecrement d.ctr [0]) s = .next t ∧
        counterAt t d.ctr = { k with state := .fired, value := 0 } ∧ t.decs = ds) ∧
      (d.gen = k.gen → k.state = .armed ∨ k.state = .fired → k.value = 0 → (queueAt s k.queue).err = none →
        ∃ t, exec (.counterDecrement d.ctr [0]) s = .next t ∧ counterAt t d.ctr = { k with state := .faulted, value := 0 } ∧
          t.decs = ds ∧ (queueAt t k.queue).err = some (2, BitVec.ofNat 8 TrapCode.ctrUnderflow.num)) ∧
      (d.gen ≠ k.gen ∨ k.state = .free ∨ k.state = .faulted → ∃ t, exec (.counterDecrement d.ctr [0]) s = .next t ∧
        counterAt t d.ctr = k ∧ t.decs = ds))

/-- R118, R120, R124, R125, R134, R135, R144, R146, R147, R399: a chosen LAUNCH whose image cannot be used ends as CFGGEN with HEAD
past it, one whose shape can never be placed as NOPLACE, one whose image fails its binding-time check as BTV. With cells, its uniform block
readable and its image checked, it has a task that goes straight to place-and-route with GROWTH 0, and else starts a Steep run
where the Caddy holds no entry of its key. Where no rectangle is free it waits for one, and LAUNCH_ALLOCATE takes it from there,
unless a READY queue of a higher level or a choice of the dispatcher goes first. (That a failed launch takes a TASKID, the BUSY
entry from the miss on, and the image that a launch keeps: assumption 26.) -/
def Claims.LaunchesStart : Prop :=
  ∀ (q : BitVec 12) (s : State) (c : Command),
    let v := queueAt s q
    v.cmd = some c → c.dw[0].toNat / 2 ^ 60 = 0 → v.restore = false →
    (isChosen s q = true → v.task = none →
      (∀ d, readImage s c = .error d → cmdRecord c = 0 → v.err = none → ∃ t, exec (.launch q) s = .next t ∧
        (queueAt t q).head = Claims.headPast v ∧ (queueAt t q).cmd = none ∧ (queueAt t q).err = some (1, 3) ∧ t.nextTask = s.nextTask + 1 ∧
        t.cells = s.cells) ∧
      (∀ m, readImage s c = .ok m →
        (allocate s v.part (imgW m) (imgH m) (imgBlocks m) = .never → cmdRecord c = 0 → v.err = none → ∃ t,
          exec (.launch q) s = .next t ∧ (queueAt t q).head = Claims.headPast v ∧ (queueAt t q).err = some (1, 4) ∧ t.cells = s.cells) ∧
        (allocate s v.part (imgW m) (imgH m) (imgBlocks m) = .wait → ∃ t k, exec (.launch q) s = .next t ∧
          (queueAt t q).task = some s.nextTask ∧ look t.tasks s.nextTask = some k ∧ k.stage = .allocate ∧ k.image = m ∧ k.q = q ∧
          k.part = v.part ∧ k.cells = [] ∧ (queueAt t q).head = v.head) ∧
        (∀ cells blocks bs t1, allocate s v.part (imgW m) (imgH m) (imgBlocks m) = .got cells blocks →
          readSpan { clearChosen s v.part with nextTask := s.nextTask + 1 } (schedMaster v.part) .virt 130 (cmdUniform c).toNat
            (cmdUniformLen c) = .bytes bs t1 →
          (∀ d, (checkImage t1 m).2 = some d → cmdRecord c = 0 → (queueAt t1 q).err = none → ∃ t, exec (.launch q) s = .next t ∧
            (queueAt t q).err = some (1, 1) ∧ (queueAt t q).head = Claims.headPast (queueAt t1 q)) ∧
          ((checkImage t1 m).2 = none → ∃ t k, exec (.launch q) s = .next t ∧ (queueAt t q).task = some s.nextTask ∧
            look t.tasks s.nextTask = some k ∧ k.cells = cells ∧ k.blocks = blocks ∧ k.uniform = bs ∧ k.image = m ∧
            (imgGrowth m = 0 → k.stage = .place ∧ k.steep = 8 ∧ k.residual = none) ∧
            (imgGrowth m ≠ 0 → m ∈ t1.images → t1.caddy = [] → k.stage = .steep ∧ ∃ e, t.caddy = [e] ∧ e.state = .busy ∧ e.run = s.nextTask ∧
              e.imgid = m.imgid ∧ e.uniform = bs))))) ∧
    (∀ n k, v.task = some n → look s.tasks n = some k → k.stage = .allocate → isReady s v = true →
      (partOf s v.part).resident = true → chooseQueue s v.part = none →
      (∀ x ∈ s.queues, x.2.part = v.part → x.2.switched = false → isReady s x.2 = true → x.2.prio.toNat ≤ v.prio.toNat) →
      ∀ cells blocks bs t1, allocate s v.part k.w k.h (imgBlocks k.image) = .got cells blocks →
        readSpan s (schedMaster k.part) .virt 130 (cmdUniform c).toNat (cmdUniformLen c) = .bytes bs t1 →
        (checkImage t1 k.image).2 = none → imgGrowth k.image = 0 → ∃ t k', exec (.launchAllocate q) s = .next t ∧
          look t.tasks n = some k' ∧ k'.stage = .place ∧ k'.cells = cells ∧ k'.blocks = blocks ∧ k'.uniform = bs)

/-- R139, R144, R146, R147, R168, R281, R282: a launch that waits on a BUSY Caddy entry takes its result when it has one, and
runs Steep itself where the entry is gone, or where another image stands under its IMGID: it then hits no entry and leaves none. A
Steep run ends with its outcome and residual, of which the Caddy keeps nothing while no HBM is handed out; place-and-route gives
every cell of the task fresh state and the packets of stage 6, or ends the launch as PNRFAIL. -/
def Claims.LaunchesPrepare : Prop :=
  ∀ (n : Nat) (s : State) (t : Task), look s.tasks n = some t →
    (t.stage = .caddyWait → (∀ e ∈ s.caddy, sameKey t s.fw.cgen e = true → e.state ≠ .busy) → imgGrowth t.image ≠ 0 →
      (∀ e, s.caddy.find? (sameKey t s.fw.cgen) = some e → (∃ m ∈ s.images, sameImage t.image m = true) →
        ∃ u, exec (.caddyBusyHit n) s = .next u ∧
        look u.tasks n = some { t with stage := .place, steep := 0, residual := e.residual, pinOf := some e.run } ∧
        { e with pin := e.pin + 1, lru := s.caddyClock } ∈ u.caddy) ∧
      (s.caddy.find? (sameKey t s.fw.cgen) = none → ∃ u, exec (.caddyBusyHit n) s = .next u ∧
        look u.tasks n = some { t with stage := .steep })) ∧
    (t.stage = .caddyWait → imgGrowth t.image ≠ 0 → (∀ m ∈ s.images, sameImage t.image m = false) →
      ∃ u, exec (.caddyBusyHit n) s = .next u ∧ look u.tasks n = some { t with stage := .steep } ∧ u.caddy = s.caddy) ∧
    (t.stage = .steep → ∃ u, exec (.steepSpecialise n) s = .next u ∧ u.cells = s.cells ∧
      (s.fw.retActive = none → ∀ e ∈ u.caddy, e ∈ s.caddy) ∧
      look u.tasks n = some { t with stage := .place, steep := (specialise t.image t.uniform).1
                                     residual := (specialise t.image t.uniform).2 }) ∧
    (t.stage = .place → (partOf s t.part).resident = true →
      (∀ ctxs, routeCells s t.image t.cells = .ok ctxs → ∃ u k, exec (.placeAndRoute n) s = .next u ∧ look u.tasks n = some k ∧
        k.stage = .config ∧ k.rows.length = t.h ∧
        (∀ id ∈ t.cells, ∃ c, look u.cells id = some c ∧ c.task = n ∧ c.part = t.part ∧ c.core.stopIssue = true ∧
          c.mem = Cell.fresh.mem ∧ c.collar = Cell.fresh.collar ∧ c.queues = Cell.fresh.queues ∧ c.acc = [])) ∧
      (∀ g r c, routeCells s t.image t.cells = .error (g, r) → (queueAt s t.q).cmd = some c → cmdRecord c = 0 →
        (queueAt s t.q).err = none → ∃ u, exec (.placeAndRoute n) s = .next u ∧ (queueAt u t.q).head = Claims.headPast (queueAt s t.q) ∧
          (queueAt u t.q).err = some (1, 2) ∧ u.cells = s.cells))

/-- R13, R14, R124, R126, R142, R174: each configuration packet puts its bytes where its KIND says, in the cell its TARGET
names; the last row's end lets the task start; a packet of a reserved KIND ends the launch (with ECC as the queue's code, HEAD
where it was and no completion record: assumption 49). At the start every member has PC 0, CYC 0 and its place in LCELL order. -/
def Claims.Configuration : Prop :=
  ∀ (n row : Nat) (s : State) (t : Task), look s.tasks n = some t →
    (∀ p ps id c, t.rows[row]? = some (p :: ps) → t.stage = .config → (partOf s t.part).resident = true →
      t.cells[p.target.toNat]? = some id → look s.cells id = some c →
      let does (i : Instr) (c' : Cell) : Prop := exec i s = .next (setCell
        { s with tasks := put s.tasks n { t with rows := t.rows.set row ps } } id c')
      (p.kind = 0 → ∃ m, does (.configCode n row) { c with mem := { c.mem with
          code := m, codeLen := (sectionLengths t).1, constLen := (sectionLengths t).2 } } ∧
        ∀ i, readByte m i = p.bytes.getD i 0) ∧
      (p.kind = 1 → ∃ m, does (.configContext n row) { c with collar := { c.collar with store := m } } ∧
        (∀ i, i < p.off ∨ p.off + 0x2000 ≤ i → readByte m i = readByte c.collar.store i) ∧
        ((∀ k, k < 16 → slotOn (uniformSlot (memOf p.bytes) k) = false) → ∀ i, i < 0x2000 →
          readByte m (p.off + i) = p.bytes.getD i 0) ∧
        (∀ k, k < 16 → slotOn (uniformSlot (memOf p.bytes) k) = true →
          (∀ o, o < 16 → o ≠ k → slotOn (uniformSlot (memOf p.bytes) o) = false) →
          let d := uniformSlot (memOf p.bytes) k
          slotOffset d + 4 ≤ t.uniform.length → ∀ i, i < 4 →
            readByte m (p.off + 0x100 + 32 * (d.toNat / 2 ^ 28) + 4 * (d.toNat / 2 ^ 25 % 8) + i) =
              t.uniform.getD (slotOffset d + i) 0)) ∧
      (p.kind = 2 → keysFrom 0 c.slotTable = true → t.blocks.Nodup → p.off / 8 + p.bytes.length / 8 ≤ 16 * t.blocks.length →
        let slot (i : Nat) : Nat := 16 * t.blocks.getD ((p.off / 8 + i) / 16) 0 + (p.off / 8 + i) % 16
        ∃ m, does (.configSlotTable n row) { c with slotTable := m } ∧
          (∀ i, i < p.bytes.length / 8 →
            peek 0 m (slot i) = BitVec.ofNat 64 ((wordOf ((p.bytes.drop (8 * i)).take 8)).toNat % 2 ^ 52)) ∧
          ∀ k, (∀ i, i < p.bytes.length / 8 → k ≠ slot i) → peek 0 m k = peek 0 c.slotTable k) ∧
      (p.kind = 3 → Memory.wf c.mem.scratch = true → ∃ m, does (.configDataBlock n row) { c with mem := { c.mem with scratch := m } } ∧
        ∀ a, readByte m a = if p.off ≤ a ∧ a < p.off + p.bytes.length then p.bytes.getD (a - p.off) 0 else readByte c.mem.scratch a) ∧
      (p.kind = 4 → ∃ m, does (.configUniform n row) { c with mem := { c.mem with uniform := m, ulen := p.bytes.length } } ∧
        ∀ i, readByte m i = p.bytes.getD i 0)) ∧
    (∀ p ps, t.rows[row]? = some (p :: ps) → t.stage = .config → (partOf s t.part).resident = true → p.kind = 5 →
      t.ended.length + 1 < t.h → exec (.configEnd n row) s = .next
        { s with tasks := put s.tasks n { t with rows := t.rows.set row ps, ended := t.ended ++ [row] } }) ∧
    (∀ p ps, t.rows[row]? = some (p :: ps) → t.stage = .config → (partOf s t.part).resident = true → p.kind = 5 →
      t.h ≤ t.ended.length + 1 → ∃ u k, exec (.configEnd n row) s = .next u ∧ look u.tasks n = some k ∧ k.stage = .start ∧
        u.cells = s.cells) ∧
    (∀ p ps (k : BitVec 4), t.rows[row]? = some (p :: ps) → t.stage = .config → 6 ≤ k.toNat → (queueAt s t.q).err = none →
      keysFrom 0 s.tasks = true → keysFrom 0 s.cells = true → ∃ u, exec (.configPacketCorruption n row k) s = .next u ∧
        look u.tasks n = none ∧ (queueAt u t.q).err = some (2, 14) ∧ (queueAt u t.q).task = none ∧
        (queueAt u t.q).head = (queueAt s t.q).head ∧ u.mem = s.mem ∧
        (∀ id ∈ t.cells, look u.cells id = none) ∧ u.fw.reports = s.fw.reports ++ [.trap t.part .ecc]) ∧
    (t.stage = .start → (partOf s t.part).resident = true → t.cells.Nodup → t.cells.length ≤ 64 →
      ∃ u k, exec (.taskStart n) s = .next u ∧ look u.tasks n = some k ∧ k.stage = .running ∧
        ∀ l id c, t.cells[l]? = some id → look s.cells id = some c → ∃ c', look u.cells id = some c' ∧ c'.core.pcE = 0 ∧
          c'.core.pcA = 0 ∧ c'.core.stopIssue = false ∧ c'.core.sr.cycBase = s.now ∧ c'.core.sr.lcell = BitVec.ofNat 6 l ∧
          c'.core.sr.cellid = BitVec.ofNat 9 id ∧ c'.core.sr.taskid = BitVec.ofNat 32 n ∧ c'.core.sr.maxk = s.fw.maxk ∧
          c'.mem = c.mem ∧ c'.collar = c.collar)

/-- R91, R110, R131, R331, R345, R346, R399: a running task whose members have halted with empty queues and performed writes ends:
the completion record is written, the cells are released, HEAD advances. A task that a trap has stopped ends once its members have
come to rest, for HANG at the latest when the watchdog's period has passed again (the model's choice, assumption 56), and its queue
stops with class 2 and the trap's code. The watchdog is fatal for every running task of its partition once its period has passed
with nothing completed while the partition is resident or its cells are still being halted, and does nothing else. (HANG stands in
the record of member 0, with NESTED as its HM, and a trap already fatal stands: assumption 28.) -/
def Claims.TasksEnd : Prop :=
  ∀ (n : Nat) (s : State) (t : Task), look s.tasks n = some t → keysFrom 0 s.tasks = true → keysFrom 0 s.cells = true →
    let v := queueAt s t.q
    (t.stage = .running → t.fatal = none →
      (∀ id ∈ t.cells, ∃ c, look s.cells id = some c ∧ c.core.halted = true ∧ c.core.trap = none ∧ c.owed = [] ∧ c.ends = [] ∧
        ∀ q : BitVec 2, (getQueue c q).entries = []) →
      (t.crec = 0 → t.ev = false → ∃ u, exec (.taskEnd n) s = .next u ∧ look u.tasks n = none ∧
        (∀ id ∈ t.cells, look u.cells id = none) ∧ (∀ id, id ∉ t.cells → look u.cells id = look s.cells id) ∧
        (queueAt u t.q).head = Claims.headPast v ∧ (queueAt u t.q).err = v.err ∧ u.mem = s.mem) ∧
      (∀ s1, writeCompletion s t.part t.crec (completionBytes (endHead s t false) n
          ((cellsAt s t.cells).flatMap fun x => memberBytes (endRecordOf t x.2) (stripStatus x.2))) = .ok s1 →
        t.ev = false → ∃ u, exec (.taskEnd n) s = .next u ∧ u.mem = s1.mem ∧ (queueAt u t.q).cmd = none)) ∧
    (∀ f, t.fatal = some f → t.crec = 0 → t.ev = false → v.err = none →
      (partOf s t.part).resident = true →
      (f.trap.code = .hang ∧ (partOf s t.part).lastDone + 2700000 * (partOf s t.part).watchdogMs ≤ s.now ∨ t.stage = .running ∧
        ∀ id ∈ t.cells, freezePending s t.part id = false ∧ ∀ c, look s.cells id = some c →
          (∀ w ∈ c.owed, w.refused = true) ∧ c.ends = [] ∧ (c.frozen ≠ none ∨ accessesDone s id c = true ∧ allAtStop c = true ∧
            (collarFaulted c.collar = false ∨ collarStill s id c = true))) →
      ∃ u, exec (.fatalTrap n) s = .next u ∧ look u.tasks n = none ∧ (∀ id ∈ t.cells, look u.cells id = none) ∧
        (queueAt u t.q).head = Claims.headPast v ∧ (queueAt u t.q).err = some (2, BitVec.ofNat 8 f.trap.code.num)) ∧
    let here := (partOf s t.part).resident = true ∨
      (partOf s t.part).away = false ∧ ∃ x ∈ s.cells, x.2.part = t.part ∧ x.2.paused = false
    (¬ here ∨ s.now < (partOf s t.part).lastDone + 2700000 * (partOf s t.part).watchdogMs → exec (.hang t.part) s = .next s) ∧
    (here → (partOf s t.part).lastDone + 2700000 * (partOf s t.part).watchdogMs ≤ s.now →
      t.stage = .running → ∃ u, exec (.hang t.part) s = .next u ∧ (partOf u t.part).lastDone = s.now ∧
      (∀ id c, t.cells.head? = some id → look s.cells id = some c → look u.tasks n =
        some { t with fatal := some (t.fatal.getD ⟨0, { code := .hang, unit := 7 }, c.core.hm⟩) }) ∧
      (∀ id ∈ t.cells, ∀ c, look u.cells id = some c → c.core.stopIssue = true) ∧
      ∀ k x, look s.tasks k = some x → x.part ≠ t.part → look u.tasks k = some x)

/-- R99, R127-R130, R157, R160, R174, R249, R356, R357, R359: a cell whose issue has stopped, whose accesses are over and whose queues
stand at stopping points with the exit bank empty counts as halted, unless a freeze holds it; a task all of whose cells have halted
is saved, its cells are free, its contexts whole, in frames of HBM where firmware has assigned them and there is room, and a `yield`
charges its queue and wakes it; a restored one takes a free rectangle, and each member goes on with the registers, memories and
accumulators it had, CYC going on from where it was, or from 0 where a barrier completed meanwhile. (Where a frame lies, and that
the rest of a context is kept beside it: assumption 29; that a Blender job is given up when its cell has halted: assumption 31;
frames with offlined or poisoned bytes: assumption 62.) -/
def Claims.SaveAndRestore : Prop :=
  (∀ (id : Nat) (s : State) (c : Cell), look s.cells id = some c → c.paused = false → halting s c = true →
    c.core.stopIssue = true → c.frozen = none → (∀ w ∈ c.owed, w.refused = true) → c.ends = [] → (∀ f ∈ (partOf s c.part).freezes, f.done = true) →
    (∀ b ∈ c.mem.bufs.toList, b = []) → requestsOf s id = [] →
    (∀ x ∈ s.resps, x.2.msg.cell = id → x.2.ready = false ∧ deferredInFrame s x.1 = true) →
    c.exitBank = [] → (∀ e, (getQueue c 0).entries.head? = some e → e.status = .running → e.retire = false) →
    atStop c 0 = true → atStop c 1 = true → atStop c 2 = true → ∃ u c', exec (.cellHalt id) s = .next u ∧
      look u.cells id = some c' ∧ c'.paused = true ∧ c'.core = c.core ∧ c'.mem = c.mem ∧ c'.collar = c.collar ∧
      (∀ j ∈ u.jobs, j.cell ≠ id) ∧ u.mem = s.mem) ∧
  (∀ (n : Nat) (y : Bool) (s : State) (t : Task), look s.tasks n = some t → t.stage = .saving y → keysFrom 0 s.cells = true →
    (∀ id ∈ t.cells, ∃ c, look s.cells id = some c ∧ c.paused = true) → ∃ u k, exec (.saveTask n) s = .next u ∧
      look u.tasks n = some k ∧ k.stage = .saved ∧ k.cells = [] ∧ k.savedAt = s.now ∧ k.wake = (t.wake || y) ∧
      (∀ id ∈ t.cells, look u.cells id = none) ∧ (queueAt u t.q).restore = true ∧ (queueAt u t.q).head = (queueAt s t.q).head ∧
      ((queueAt s t.q).wasReady = true → (queueAt u t.q).pass =
        if y then (queueAt s t.q).pass + BitVec.ofNat 40 (2 ^ 20 / (queueAt s t.q).tickets.toNat) else (queueAt s t.q).pass) ∧
      ((partOf s t.part).frameBase = none → u.mem = s.mem) ∧
      (∀ b, (partOf s t.part).frameBase = some b → (∀ no ∈ k.frameNos, frameUsable s (b.toNat + 0x11A000 * no) = true) ∧
        ∀ a, (∀ no ∈ k.frameNos, a < b.toNat + 0x11A000 * no ∨ b.toNat + 0x11A000 * no + 0x110000 ≤ a) →
          readByte u.mem a = readByte s.mem a) ∧
      ∀ (l id : Nat) (c : Cell), t.cells[l]? = some id → look s.cells id = some c → ∃ f, k.frames[l]? = some f ∧ f.core = c.core ∧
        f.mem = c.mem ∧ f.acc = c.acc ∧ f.queues = c.queues ∧ f.channels = c.channels ∧ f.collar = c.collar ∧ f.landing = c.landing ∧
        ∀ b, (partOf s t.part).frameBase = some b → (freeFrames s t.part b.toNat t.cells.length).length = t.cells.length →
          ∃ no, k.frameNos[l]? = some no ∧
          ∀ i, i < 0xC0000 → readByte u.mem (b.toNat + 0x11A000 * no + i) = readByte c.mem.scratch i) ∧
  (∀ (n : Nat) (s : State) (t : Task) (cells blocks : List Nat), look s.tasks n = some t → t.stage = .saved → t.fatal = none →
    (queueAt s t.q).restore = true → (queueAt s t.q).task = some n → isChosen s t.q = true → (partOf s t.part).resident = true →
    allocate s t.part t.w t.h t.blocks.length = .got cells blocks → cells.Nodup → t.frames.length = cells.length →
    (∀ f ∈ t.frames, f.core.trap = none ∧ f.core.held = []) →
    ((partOf s t.part).frameBase = none ∨ t.frameNos.length = t.frames.length) →
    (∀ b, (partOf s t.part).frameBase = some b → ∀ no ∈ t.frameNos, poisoned s (b.toNat + 0x11A000 * no) 0x110000 = false) →
    ∃ u k, exec (.restoreTask n) s = .next u ∧
      look u.tasks n = some k ∧ k.stage = .running ∧ k.cells = cells ∧ k.blocks = blocks ∧ k.frames = [] ∧ k.wake = false ∧
      (queueAt u t.q).restore = false ∧ (queueAt u t.q).task = some n ∧
      ∀ (l id : Nat) (f : Cell), cells[l]? = some id → t.frames[l]? = some f → ∃ c, look u.cells id = some c ∧
        c.core.regsE = f.core.regsE ∧ c.core.regsA = f.core.regsA ∧ c.core.pcE = f.core.pcE ∧ c.core.pcA = f.core.pcA ∧
        c.core.ldq = f.core.ldq ∧ c.core.eaq = f.core.eaq ∧ c.core.stopIssue = false ∧ c.paused = false ∧
        c.core.sr.cycBase = (if f.bar.restart then s.now else f.core.sr.cycBase + (s.now - t.savedAt)) ∧ c.bar.restart = false ∧
        c.core.sr.cellid = BitVec.ofNat 9 id ∧ c.core.sr.lcell = BitVec.ofNat 6 l ∧
        ((partOf s t.part).frameBase = none → c.mem.scratch = f.mem.scratch ∧ c.acc = f.acc ∧ c.collar.store = f.collar.store) ∧
        ∀ b no, (partOf s t.part).frameBase = some b → t.frameNos[l]? = some no →
          ∀ i, i < 0xC0000 → readByte c.mem.scratch i = readByte s.mem (b.toNat + 0x11A000 * no + i))

/-- R153, R346, R357, R358, R398: a partition whose cells have all halted is swapped for one that is out: its contexts go to shadow
storage, in the layout of a frame where that has room for it, and its queues are switched out; those of the other come back to the
cells they held, CYC and the watchdog going on from where they were. (Which place in a die's shadow storage a frame takes, and that
the rest of a context is kept beside it: assumption 29.) -/
def Claims.Swaps : Prop :=
  ∀ (out inn : BitVec 4) (s : State), out ≠ inn → (partOf s out).resident = false → (partOf s inn).resident = false →
    keysFrom 0 s.shadow = true → keysFrom 0 s.queues = true → keysFrom 0 s.cells = true →
    (∀ x ∈ s.cells, x.2.part = out → x.2.paused = true) →
    let theirs := peek [] s.shadow inn.toNat
    (∀ x ∈ theirs, ∀ y ∈ s.cells, y.1 = x.1 → y.2.part = out) → (theirs.map (·.1)).Nodup →
    (∀ x ∈ theirs, x.2.core.held = [] ∧ (∃ t, look s.tasks x.2.task = some t) ∧
      ∀ a, look (partOf s inn).shadowAt x.1 = some a → poisoned s a 0x110000 = false) →
    ∃ u, exec (.partitionSwap out inn) s = .next u ∧ (partOf u inn).resident = true ∧ (partOf u out).resident = false ∧
      (partOf u out).away = true ∧ (partOf u inn).away = false ∧
      (partOf u inn).lastDone = (partOf s inn).lastDone + (s.now - (partOf s inn).swappedAt) ∧ peek [] u.shadow out.toNat = s.cells.filter (fun x => x.2.part == out) ∧
      peek [] u.shadow inn.toNat = [] ∧ (s.fw.shadowMib = 0 → u.mem = s.mem) ∧ u.tasks = s.tasks ∧
      (∀ id c a, look s.cells id = some c → c.part = out → look (partOf u out).shadowAt id = some a →
        ∀ i, i < 0xC0000 → readByte u.mem (a + i) = readByte c.mem.scratch i) ∧
      (∀ q v, look s.queues q = some v → ∃ v', look u.queues q = some v' ∧ v'.switched = (v.switched || v.part == out)) ∧
      (∀ id c, look s.cells id = some c → id ∉ theirs.map (·.1) → look u.cells id = if c.part = out then none else some c) ∧
      (∀ id c, (id, c) ∈ theirs → ∃ c', look u.cells id = some c' ∧ c'.paused = false ∧ c'.core.regsE = c.core.regsE ∧
        c'.core.regsA = c.core.regsA ∧
        (look (partOf s inn).shadowAt id = none → c'.mem.scratch = c.mem.scratch ∧ c'.acc = c.acc) ∧
        (∀ a, look (partOf s inn).shadowAt id = some a → ∀ i, i < 0xC0000 →
          readByte c'.mem.scratch i = readByte s.mem (a + i)) ∧
        (c.bar.restart = false → c'.core.sr.cycBase = c.core.sr.cycBase + (s.now - (partOf s inn).swappedAt)))

/-- R128, R347-R349, R356, R359, R379, R404: a page that becomes resident, as firmware that runs reports it, wakes the tasks, resolves the freezes and lets the Blender jobs go
on that wait for it. A freeze comes no earlier than its cycle F, stops every cell of the faulting cell's domain at its level and no
other, and a save that halts one of them waits for the thaw; a thaw lies a whole multiple of 256 cycles after F, and the cells go
on with the CYC they held. (That a freeze comes at the later of F and now, stops engines and streams where they are, and is over
by the rule for the thaw's window: assumption 30.) -/
def Claims.Freezes : Prop :=
  ∀ (p : BitVec 4) (s : State), keysFrom 0 s.cells = true →
    (s.fw.booted = false → ∀ va, exec (.pageResident p va) s = .next s) ∧
    (∀ va : BitVec 57, s.fw.booted = true → ∃ u, exec (.pageResident p va) s = .next u ∧ u.cells = s.cells ∧ u.mem = s.mem ∧
      (∀ n t, look s.tasks n = some t → t.part = p → t.waitsPage = [va] →
        look u.tasks n = some { t with wake := true, waitsPage := [], saveAsked := none, saveBroken := false }) ∧
      (∀ n t, look s.tasks n = some t → t.part = p → va ∈ t.waitsPage → ∃ k, look u.tasks n = some k ∧ k.wake = true ∧
        va ∉ k.waitsPage) ∧
      (∀ j ∈ s.jobs, j.part = p → j.waits = some va → { j with waits := none } ∈ u.jobs) ∧
      (∀ n t, look s.tasks n = some t → t.part ≠ p ∨ t.waitsPage = [] → look u.tasks n = some t) ∧
      (∀ f ∈ (partOf s p).freezes, f.page = some va → f.resolved = none →
        { f with resolved := some s.now } ∈ (partOf u p).freezes) ∧
      (∀ f ∈ (partOf s p).freezes, f.page = none → f ∈ (partOf u p).freezes)) ∧
    (∀ (f : Freeze) (fs : List Freeze) (x : Cell), (partOf s p).freezes = f :: fs → f.done = false →
      look s.cells f.faulty = some x → ∃ u ids, exec (.freeze p) s = .next u ∧ u.now = max s.now f.at_ ∧
        (partOf u p).freezes = fs ++ [{ f with at_ := u.now, done := true, cells := ids }] ∧
        (∀ n t y, look s.tasks n = some t → t.stage = .saving y → (∃ id ∈ ids, ∃ c, look s.cells id = some c ∧ c.task = n) →
          look u.tasks n = some { t with stage := .running, saveAsked := some y, saveBroken := true }) ∧
        ∀ id c, look s.cells id = some c →
          let stands := takesPart c f.level = true ∧ cellBarrier id c f.level.toNat = cellBarrier f.faulty x f.level.toNat
          let faulty : Bool := c.frozenFault || (id == f.faulty && f.page.isNone)
          (id ∈ ids ↔ stands) ∧ ((partOf s p).resident = true → (∀ y ∈ s.tasks, ∀ b, y.2.stage ≠ .saving b) →
            (stands → c.frozen = none → look u.cells id = some { c with frozen := some u.now, frozenFault := faulty }) ∧
            (¬ stands ∨ c.frozen ≠ none → look u.cells id = some { c with frozenFault := faulty }))) ∧
    (∀ (f : Freeze) (r : Nat), (partOf s p).freezes = [f] → f.done = true → f.resolved = some r → f.page = none → f.cells.Nodup →
      (∀ y ∈ s.tasks, y.2.saveAsked = none) → (partOf s p).swapAsked = false → f.at_ ≤ max s.now (r + 40) → ∃ u, exec (.thaw p) s = .next u ∧ (partOf u p).freezes = [] ∧ (u.now - f.at_) % 256 = 0 ∧
        max s.now (r + 40) ≤ u.now ∧ u.now < max s.now (r + 40) + 256 ∧
        (∀ id ∈ f.cells, ∀ c k, look s.cells id = some c → c.frozen = some k → ∃ c', look u.cells id = some c' ∧
          c'.frozen = none ∧ c'.frozenFault = false ∧ c'.core.sr.cycBase = c.core.sr.cycBase + (u.now - k) ∧ c'.core.pcE = c.core.pcE ∧
          c'.core.pcA = c.core.pcA ∧ c'.core.regsE = c.core.regsE ∧ c'.mem.scratch = c.mem.scratch ∧ c'.queues = c.queues) ∧
        ∀ id, id ∉ f.cells → look u.cells id = look s.cells id)

/-- R18, R105, R148, R189, R308, R339, R343, R348: a read deferred for more than DEFER cycles is removed and its reader faults
DEFERTO: a stream at its instruction, with what the instruction had taken from the LDQ or the EAQ for its address put back; a load
of the LDQ late; a request of another cell by a refusal; a port at its word; a copy entry at its record. Before that the read waits
on. A cell whose trap stands enters its handler once it has come to rest, a frozen one only where the fault is its own: the record
holds the code and the address, HM is set, the queues between the streams are saved. (What DEFERTO puts back, and that a load of
the LDQ faults late: assumption 13.) -/
def Claims.TimeoutsAndEntries : Prop :=
  ∀ (id : Nat) (s : State) (c : Cell), look s.cells id = some c →
    (∀ (i : Nat) (d : Deferred), c.mem.deferred[i]? = some d →
      let gone : Cell := { c with mem := { c.mem with deferred := c.mem.deferred.eraseIdx i } }
      (c.frozen ≠ none ∨ s.now - d.since ≤ c.core.sr.defer.toNat → exec (.deferto id i) s = .next s) ∧
      (c.frozen = none → c.core.sr.defer.toNat < s.now - d.since →
        (∀ y r, d.reader = .stream y r →
          let k := setPlace gone.core y d.pc
          let last (e : LdqEntry) : Bool := decide (e.vals.length ≤ 1)
          let k1 := match d.ldqBack with
            | some e => { k with ldq := e :: (if last e then k.ldq else k.ldq.drop 1)
                                 slots := if last e && e.slot then k.slots + 1 else k.slots }
            | none => k
          let k2 := match d.eaqBack with
            | some v => { k1 with eaq := v :: k1.eaq }
            | none => k1
          exec (.deferto id i) s = .next (raise (setCell (setCell s id gone) id { gone with core := k2 }) id
            { code := .deferto, unit := if y then 1 else 0, word := codeWord c.mem d.pc.toNat })) ∧
        (∀ n, d.reader = .ldq n → exec (.deferto id i) s = .next
          (raise (setCell (setCell s id gone) id { gone with core := { gone.core with refusedLoads := c.core.refusedLoads ++ [n] } }) id
            { code := .deferto, unit := 1, late := true, addr := BitVec.ofNat 64 d.addr, d6 := d.pc })) ∧
        (∀ n r, d.reader = .msg n → look s.resps n = some r → r.msg.target = .cell id → ∃ u c', exec (.deferto id i) s = .next u ∧
          look u.cells id = some c' ∧ c'.mem.scratch = c.mem.scratch ∧ c'.core = c.core ∧
          (∀ x, x ∈ c'.mem.deferred ↔ x ∈ gone.mem.deferred ∧ x.reader ≠ .msg n) ∧
          look u.resps n = some { msg := r.msg, vals := [], refusal := some .deferto, ready := true, perf := s.nextPerf }) ∧
        (∀ j : BitVec 4, d.reader = .port j.toNat → exec (.deferto id i) s = .next (stripFault (setCell s id gone) id gone j
          { code := .deferto, unit := 4, addr := BitVec.ofNat 64 (d.addr / 4 * 4), d6 := genDetail (stripAt c.collar j).gen })) ∧
        (∀ n x e, d.reader = .copy n → n ≠ id → look s.cells n = some x → x.frozen = none → (getQueue x 2).entries.head? = some e →
          e.status = .running → exec (.deferto id i) s = .next (copyFault (setCell s id gone) n (staticLevel e)
            { code := .deferto, unit := 5, addr := BitVec.ofNat 64 d.addr })))) ∧
    (∀ t vec, c.core.trap = some t → t.code ≠ .hang → c.core.hm = false → c.core.sr.trapvec ≠ 0 →
      handlerPlace ((taskOf s c).bind (·.residual)) c.core.sr.trapvec = some vec → accessesDone s id c = true →
      (c.frozen = none ∧ allAtStop c = true ∨ c.frozen ≠ none ∧ c.frozenFault = true) →
      freezePending s c.part id = false → halting s c = false → ∃ c' v, exec (.trapEntry id) s = .next (setCell s id c') ∧
        c'.core.hm = true ∧ c'.core.trap = none ∧ c'.core.pcE = vec ∧ c'.core.pcA = vec ∧
        ((taskOf s c).bind (·.residual) = none → vec = c.core.sr.trapvec) ∧
        (c'.core.sr.trec[0]).toNat / 2 ^ 56 = t.code.num ∧ (c'.core.sr.trec[0]).toNat / 2 ^ 52 % 16 = t.unit.toNat ∧
        c'.core.sr.trec[1] = t.addr ∧ c'.core.ldq = [] ∧ c'.core.eaq = [] ∧ c'.core.boq = [] ∧ c'.core.save = some v ∧
        v.ldq = c.core.ldq ∧ v.eaq = c.core.eaq ∧ v.boq = c.core.boq ∧ c'.core.regsE = c.core.regsE ∧
        c'.core.regsA = c.core.regsA ∧ c'.mem = c.mem)

/-- R178-R180: firmware's write of one whole block of an owner map, all of its bytes of one V and one PART, waits for its frame's start;
a write of another size or place, of mixed bytes, or one that would take a block from a task that holds it, changes no byte and
is reported as ACCESS; a device that has not booted has no firmware to write (R404). At the frame start, the cycle of slot 0 after the write, the blocks written take effect, and not before.
(That slots count device cycles from 0, that any cycle may start an HBM frame, and that a granted block counts as held: the
model's choice, assumption 59; the partition that a report names: assumption 9.) -/
def Claims.OwnerMaps : Prop :=
  ∀ (frame : Option Nat) (die : BitVec 2) (s : State),
    let size := if frame.isNone then 16 else 8
    let limit := if frame.isNone then 256 else 64
    let key := ownerKey frame die
    let m := ownerMap s key
    (∀ (offset : Nat) (bs : List Byte),
      let b := bs.headD 0
      let stands := mapAt s key s.now
      let whole := bs.length = size ∧ offset % size = 0 ∧ offset < limit
      let onePart := ∀ x ∈ bs, x &&& 0x8F = b &&& 0x8F
      let taken := frame = none ∧ ∃ x ∈ s.tasks, offset / 16 ∈ x.2.blocks ∧ x.2.die = die ∧
        ¬ (b.getLsbD 7 = true ∧ b.toNat % 16 = x.2.part.toNat)
      (s.fw.booted = false → exec (.slotOwnerWrite frame die offset bs) s = .next s) ∧
      (s.fw.booted = true → whole → onePart → ¬ taken → ∃ t, exec (.slotOwnerWrite frame die offset bs) s = .next t ∧
        (ownerMap t key).dw = stands.dw ∧ (stands.pending = [] → (ownerMap t key).since = s.now) ∧
        (∀ i, i < size / 8 → look (ownerMap t key).pending (offset / 8 + i) =
          some (wordOf ((bs.drop (8 * i)).take 8) &&& 0x8F8F8F8F8F8F8F8F))) ∧
      (s.fw.booted = true → ¬ whole ∨ ¬ onePart ∨ taken → exec (.slotOwnerWrite frame die offset bs) s =
        .next { s with fw := { s.fw with reports := s.fw.reports ++ [.trap (BitVec.ofNat 4 b.toNat) .access] } })) ∧
    (m.pending ≠ [] → frame ≠ none ∨ m.since / 256 < s.now / 256 → keysFrom 0 m.pending = true → keysFrom 0 m.dw = true →
      ∃ t, exec (.slotOwnerApply frame die) s = .next t ∧ (ownerMap t key).pending = [] ∧
      ∀ k, peek 0 (ownerMap t key).dw k = (look m.pending k).getD (peek 0 m.dw k)) ∧
    (m.pending = [] ∨ frame = none ∧ s.now / 256 ≤ m.since / 256 → exec (.slotOwnerApply frame die) s = .next s)

/-- R170-R174: a beat that reaches a box in a slot its partition does not own is discarded and counted; at a slice site it goes
straight on; else it leaves on every output whose table entry selects its input: on a track it stands at the next box in the
next cycle, on LOC it joins the landing buffer, where a beat that finds 16 is discarded and counted; with no output it is
discarded. A beat whose cycle has not come stays where it is. -/
def Claims.Circuits : Prop :=
  ∀ (f : Flying) (fs : List Flying) (s : State), s.flying = f :: fs →
    let id := siteCell f.die f.row f.col
    let part := f.beat.part
    let slot := f.cyc % 256
    let owned := slotOwner (mapAt s f.die.toNat f.cyc) slot = some part
    let dropped (t : State) (more : List Flying) : Prop := t.flying = fs ++ more ∧ t.cells = s.cells ∧ (partOf t part).circdrop =
      if (partOf s part).circdrop = 0xFFFFFFFF then 0xFFFFFFFF else (partOf s part).circdrop + 1
    (s.now < f.cyc → exec (.circuitBeat 0) s = .next s) ∧
    (∀ code g, sendOn f code = some g → g.cyc = f.cyc + 1 ∧ g.beat = f.beat ∧ g.die = f.die ∧
      trackEnd f.row f.col code = some (g.row, g.col)) ∧
    (f.cyc ≤ s.now → (∀ g ∈ fs, f.cyc ≤ g.cyc) →
      (¬ owned → ∃ t, exec (.circuitBeat 0) s = .next t ∧ dropped t []) ∧
      (owned → Config.isSliceSite id = true → ∀ g, sendOn f (farCode f.input.toNat) = some g →
        exec (.circuitBeat 0) s = .next { s with flying := fs ++ [g] }) ∧
      (∀ c, owned → Config.isSliceSite id = false → look s.cells id = some c →
        let outs := selected (peek 0 c.slotTable slot) f.row f.col f.input
        (outs = [] → ∃ t, exec (.circuitBeat 0) s = .next t ∧ dropped t []) ∧
        (outs ≠ [] → 1 ∉ outs → exec (.circuitBeat 0) s = .next { s with flying := fs ++ outs.filterMap (sendOn f) }) ∧
        (∀ rest, outs = 1 :: rest →
          (c.landing.length < 16 → exec (.circuitBeat 0) s = .next
            { setCell s id { c with landing := c.landing ++ [f.beat] } with flying := fs ++ rest.filterMap (sendOn f) }) ∧
          (16 ≤ c.landing.length → ∃ t, exec (.circuitBeat 0) s = .next t ∧ dropped t (rest.filterMap (sendOn f))))))

/-- R365-R368, R370, R374, R376: a sender whose allowance, replay buffer and key counter permit sends one flit under its key:
the flit holds type, channel, KI, SEQ and CRC, joins the replay buffer, and the channel's total, SEQ and C rise by one; the
request of a stream or an engine or, on RSP, the response that is to leave goes with it, and without one the partial count that a
level-4 record owes;
without an allowance it sends nothing. The receiver opens the flit it expects, frees its slot and counts; a request in it joins the
channel to its window, a barrier message its level-4 record in the place of that package's last one, a response to a stream or
an engine has come. Any other
flit makes it ask again, once; a tag that fails takes the link down. (What a payload's bits mean, of which the manual gives no
text: assumption 1; that FREED is counted on acceptance: assumption 46.) -/
def Claims.DataFlits : Prop :=
  ∀ (l : Nat) (s : State), l < 12 → (linkOn s l).down = false →
    let k := linkOn s l
    (∀ (vc : BitVec 3) (payload : BitVec 384), vc.toNat < 6 → k.replay.length < 512 → k.txState = .active →
      (∀ key, (totalOf k.sent vc.toNat - totalOf k.freedLatest vc.toNat).toNat < 256 → k.txC.toNat ≠ 2 ^ 48 - 1 →
        keyAt k.txKeys k.txKi = some key → ∃ t flit, exec (.dataFlitSend l vc payload) s = .next t ∧
          (linkOn t l).wire = k.wire ++ [flit] ∧ (linkOn t l).replay = k.replay ++ [flit] ∧ (linkOn t l).seq = k.seq + 1 ∧
          (linkOn t l).txC = k.txC + 1 ∧ (∀ v, v < 6 → totalOf (linkOn t l).sent v =
            if v = vc.toNat then totalOf k.sent v + 1 else totalOf k.sent v) ∧ flitGood 0 flit = true ∧ flitSeq flit = k.seq ∧
          flitVc flit = vc ∧ flitKi flit = k.txKi ∧ t.mem = s.mem ∧
          (vc ≠ 5 → ∀ n m, carriedRequest s (l, vc) = some (n, m) →
            (look s.msgs n = some m → look t.msgs n = some { m with trip := .flit l k.seq }) ∧
            (∀ x, look s.asks n = some x → look t.asks n = some { x with msg := { x.msg with trip := .flit l k.seq } })) ∧
          (vc = 5 → ∀ n, carriedResponse s l = some n → t.resps = del s.resps n) ∧
          (vc = 5 → carriedResponse s l = none → ∀ n, reportDue s = some n → let b := barrierAt s n
            barrierAt t n = { b with told := some (b.gen, b.expect, b.arrived, (if b.gen then b.out1 else b.out0).toNat)
                                     toldBy := .flit l k.seq })) ∧
      (256 ≤ (totalOf k.sent vc.toNat - totalOf k.freedLatest vc.toNat).toNat →
        exec (.dataFlitSend l vc payload) s = .next s)) ∧
    (∀ (f : BitVec 512), flitGood 0 f = true → flitSeq f = k.expect → flitKi f = k.rxKi →
      ∀ key, keyAt k.rxKeys k.rxKi = some key →
        let opened := Config.sm4Open key.key (nonceOf key.salt k.rxC) (field f 32 32) (field f 64 384) (field f 448 64)
        (∀ p, opened = some p → ∃ t, exec (.dataFlit l f) s = .next t ∧ (linkOn t l).expect = k.expect + 1 ∧
          (linkOn t l).ackIn = k.expect ∧ (linkOn t l).received = k.received ++ [(flitVc f, p)] ∧ (linkOn t l).rxC = k.rxC + 1 ∧
          (∀ v, v < 6 → totalOf (linkOn t l).freed v =
            if v = (flitVc f).toNat then totalOf k.freed v + 1 else totalOf k.freed v) ∧
          (flitVc f ≠ 5 → ∀ q a, Config.farRequest p = some q → farAccess q = some a → ∃ m, look t.msgs s.nextMsg = some m ∧
            m.origin = some (q.pkg, q.part) ∧ m.target = .window s.fw.pkg q.wid ∧ m.addr = q.off ∧ m.size = q.size ∧ m.kind = a) ∧
          (flitVc f = 5 → t.msgs = s.msgs ∧ (∀ a, Config.farArrival p = some a → (barrierAt t (barrierKey a.part 4 0)).far =
              ((barrierAt s (barrierKey a.part 4 0)).far.filter fun x => !(x.pkg == a.pkg && x.gen == a.gen)) ++ [a]) ∧
            ∀ n, Config.farArrival p = none → Config.farResponse p = some n →
              (∀ r, look s.resps n = some r → look t.resps n = some { r with msg := { r.msg with trip := .here } }) ∧
              (∀ x, look s.resps n = none → look s.asks n = some x → x.msg.trip ≠ .here →
                look t.asks n = some { x with answer := x.answer.or (some true) }))) ∧
        (opened = none → ∃ t, exec (.dataFlit l f) s = .next t ∧ (linkOn t l).down = true ∧ (linkOn t l).replay = [] ∧
          (linkOn t l).received = k.received)) ∧
    (∀ (f : BitVec 512), flitGood 0 f = false ∨ flitSeq f ≠ k.expect →
      (k.askWait = false → k.askedHere < 15 → ∃ t flit, exec (.dataFlit l f) s = .next t ∧ (linkOn t l).wire = k.wire ++ [flit] ∧
        flitGood 2 flit = true ∧ field (flitDw flit 1) 0 16 = k.expect ∧ (linkOn t l).askWait = true ∧
        (linkOn t l).askedHere = k.askedHere + 1 ∧ (linkOn t l).expect = k.expect ∧ (linkOn t l).down = false) ∧
      (k.askWait = false → 15 ≤ k.askedHere → ∃ t, exec (.dataFlit l f) s = .next t ∧ (linkOn t l).down = true) ∧
      (k.askWait = true → exec (.dataFlit l f) s = .next s))

/-- R367-R369, R371, R403: totals flits carry SENT, FREED and ACK of every channel, and an intact one frees the replay buffer up to
the flit it acknowledges; a replay request resends from the SEQ it names, and the sixteenth for one SEQ takes the link down.
Keys go to the slot that is not current; a switch begins at C = 0; a sender ten ms without a key takes its link down, not
sooner: the requests in its replay buffer are refused with LINK, an engine's too, and a partial count in it is owed anew; a
retrained link begins at zero totals and keeps its keys, and training that fails, a free choice, leaves it down and is recorded
with cause 4. Firmware installs keys, switches and retrains, and only a device that has booted runs it (R404). (That both sides
count sixteen requests for one SEQ, and what retraining keeps: assumption 46.) -/
def Claims.LinkUpkeep : Prop :=
  ∀ (l : Nat) (s : State), l < 12 →
    let k := linkOn s l
    (k.down = false →
      (∃ t flit, exec (.totalsSend l) s = .next t ∧ (linkOn t l).wire = k.wire ++ [flit] ∧ flitGood 1 flit = true ∧
        (∀ v, v < 6 → flitDw flit (v + 1) = totalOf k.sent v ++ totalOf k.freed v) ∧ field (flitDw flit 7) 0 16 = k.ackIn ∧
        (linkOn t l).askWait = false ∧ (linkOn t l).sent = k.sent) ∧
      (∀ f, flitGood 1 f = true → ∃ t, exec (.totalsFlit l f) s = .next t ∧
        (∀ v, v < 6 → totalOf (linkOn t l).freedLatest v = field (flitDw f (v + 1)) 0 32) ∧
        (linkOn t l).replay = afterAck (field (flitDw f 7) 0 16) k.replay ∧ (linkOn t l).sent = k.sent ∧
        ∀ n m q, look s.msgs n = some m → m.trip = .flit l q → (∀ g ∈ afterAck (field (flitDw f 7) 0 16) k.replay, flitSeq g ≠ q) →
          look t.msgs n = some { m with trip := .away }) ∧
      (∀ f, flitGood 1 f = false → exec (.totalsFlit l f) s = .next s) ∧
      (∀ f, flitGood 2 f = true → ∃ t, exec (.replayRequest l f) s = .next t ∧
        (if field (flitDw f 1) 0 16 = k.askedSeq ∧ 15 ≤ k.askedThere then (linkOn t l).down = true ∧ (linkOn t l).wire = []
         else (linkOn t l).wire = k.wire ++ fromSeq (field (flitDw f 1) 0 16) k.replay ∧ (linkOn t l).down = false ∧
           (linkOn t l).replay = k.replay)) ∧
      (∀ f, flitGood 2 f = false → exec (.replayRequest l f) s = .next s) ∧
      (s.fw.booted = true → k.txState = .activeNext → ∃ t, exec (.keySwitch l) s = .next t ∧ (linkOn t l).txKi = ~~~k.txKi ∧ (linkOn t l).txC = 0 ∧
        (linkOn t l).txState = .active ∧ keyAt (linkOn t l).txKeys (~~~k.txKi) = keyAt k.txKeys (~~~k.txKi) ∧
        keyAt (linkOn t l).txKeys k.txKi = none) ∧
      (k.txState = .exhausted → s.now < k.exhausted + 27000000 → exec (.exhaustionTimeout l) s = .next s) ∧
      (k.txState = .exhausted → k.exhausted + 27000000 ≤ s.now → ∃ t, exec (.exhaustionTimeout l) s = .next t ∧
        (linkOn t l).down = true ∧ (linkOn t l).replay = [] ∧
        (∀ n m g, look s.msgs n = some m → g ∈ k.replay → m.trip = .flit l (flitSeq g) →
          ∃ r, look t.resps n = some r ∧ r.refusal = some .link) ∧
        (∀ n x g, look s.asks n = some x → g ∈ k.replay → x.msg.trip = .flit l (flitSeq g) → x.answer = none →
          ∃ y, look t.asks n = some y ∧ y.answer = some false) ∧
        (∀ n b g, look s.barriers n = some b → g ∈ k.replay → b.toldBy = .flit l (flitSeq g) →
          ∃ c, look t.barriers n = some c ∧ c.told = none))) ∧
    (s.fw.booted = false → exec (.keySwitch l) s = .next s ∧ exec (.linkRetrain l) s = .next s ∧
      ∀ rx key salt, exec (.keyInstall l rx key salt) s = .next s) ∧
    (s.fw.booted = true → ∀ (key : BitVec 128) (salt : BitVec 48),
      (∃ t, exec (.keyInstall l true key salt) s = .next t ∧ keyAt (linkOn t l).rxKeys (~~~k.rxKi) = some ⟨key, salt⟩ ∧
        keyAt (linkOn t l).rxKeys k.rxKi = keyAt k.rxKeys k.rxKi ∧ (linkOn t l).rxKi = k.rxKi) ∧
      (k.txState ≠ .exhausted → ∃ t, exec (.keyInstall l false key salt) s = .next t ∧
        keyAt (linkOn t l).txKeys (~~~k.txKi) = some ⟨key, salt⟩ ∧ keyAt (linkOn t l).txKeys k.txKi = keyAt k.txKeys k.txKi ∧
        (linkOn t l).txState = .activeNext ∧ (linkOn t l).txKi = k.txKi) ∧
      (k.txState = .exhausted → ∃ t, exec (.keyInstall l false key salt) s = .next t ∧ (linkOn t l).txKi = ~~~k.txKi ∧
        keyAt (linkOn t l).txKeys (~~~k.txKi) = some ⟨key, salt⟩ ∧ (linkOn t l).txC = 0 ∧ (linkOn t l).txState = .active)) ∧
    (s.fw.booted = true → k.down = true → Config.choice s.free = true → s.fw.kettle.length < 1024 → ∃ t r, exec (.linkRetrain l) s = .next t ∧
      linkOn t l = k ∧ t.fw.kettle = s.fw.kettle ++ [r] ∧ field r 56 8 = 1#8 ∧ field r 8 4 = 4#4 ∧ field r 0 4 = BitVec.ofNat 4 l ∧
      (field r 64 64 : Word).toNat = s.now * 10 / 27 % 2 ^ 64) ∧
    (s.fw.booted = true → k.down = true → Config.choice s.free = false → ∃ t, exec (.linkRetrain l) s = .next t ∧ (linkOn t l).down = false ∧ (linkOn t l).seq = 0 ∧
      (linkOn t l).expect = 0 ∧ (linkOn t l).replay = [] ∧ (∀ v, v < 6 → totalOf (linkOn t l).sent v = 0) ∧
      (linkOn t l).txKeys = k.txKeys ∧ (linkOn t l).rxKeys = k.rxKeys ∧ (linkOn t l).txC = k.txC ∧ (linkOn t l).rxC = k.rxC)

/-- R400, R401, R409: a power event goes to the partition's ring: one record at PROD, which rises by one, or, on a full
ring, OVERFLOW alone. After an overflow, with 17 records free, the summary and its map are posted and OVERFLOW is
cleared, by a device that has booted (R404). -/
def Claims.EventRings : Prop :=
  ∀ (p : BitVec 4) (s : State),
    let x := partOf s p
    (ringFull x = false → Memory.wf s.mem = true → x.ringBase.toNat + 64 + 32 * 2 ^ x.ringK ≤ 2 ^ 51 →
      ∃ t, exec (.powerEvent p) s = .next t ∧ (partOf t p).prod = x.prod + 1 ∧ (partOf t p).evSeq = x.evSeq + 1 ∧
        (partOf t p).overflow = x.overflow ∧
        readBytes t.mem (hostPa (x.ringBase.toNat + 64 + 32 * (x.prod.toNat % 2 ^ x.ringK))) 32 =
          bytesOf ((5 : BitVec 8) ++ p ++ (0 : BitVec 52)).toNat 8 ++ bytesOf x.evSeq.toNat 8 ++ List.replicate 16 0 ∧
        readBytes t.mem (hostPa x.ringBase.toNat) 8 = bytesOf (x.prod + 1).toNat 8) ∧
    (ringFull x = true → ∃ t, exec (.powerEvent p) s = .next t ∧ (partOf t p).prod = x.prod ∧ (partOf t p).evSeq = x.evSeq ∧
      (partOf t p).overflow = true) ∧
    (s.fw.booted = true → x.overflow = true → (x.prod - x.cons).toNat + 17 ≤ 2 ^ x.ringK → ∃ t, exec (.eventRingSummary p) s = .next t ∧
      (partOf t p).prod = x.prod + 17 ∧ (partOf t p).evSeq = x.evSeq + 1 ∧ (partOf t p).overflow = false) ∧
    (s.fw.booted = false ∨ x.overflow = false ∨ 2 ^ x.ringK < (x.prod - x.cons).toNat + 17 → exec (.eventRingSummary p) s = .next s)

/-- R133, R147, R404-R406: a change of the configuration generation empties the Caddy. An image replaces another under
its IMGID, whose Caddy entries go; the same image changes nothing. Boot goes as far as the checks allow: a signature
that fails or a list that is missing leaves the device in recovery; with all passed it runs, the retirement list applied: its entries of a reserved CAUSE are
skipped and reported, those with OFFL take their frames out. The configuration is extended into M3. An owner is enrolled in UNOWNED by the maker's signature over an
image that holds its key, and raises the epoch; a transfer needs the owner's, frees every counter under its next
generation and erases the window tables; a quote signs the measurements. (Which frames a row holds: assumption 11;
boot needs OWNED, that a transfer frees the counters, and the text of M3: assumption 47.) -/
def Claims.Trust : Prop :=
  ∀ (s : State),
    (s.fw.booted = true → ∃ t, exec .configGenerationChange s = .next t ∧ t.fw.cgen = s.fw.cgen + 1 ∧ t.caddy = [] ∧
      t.cells = s.cells) ∧
    (s.fw.booted = false → exec .configGenerationChange s = .next s ∧ ∀ bs : List Byte, exec (.imageLoad bs) s = .next s) ∧
    (s.fw.booted = true → ∀ bs : List Byte,
      let id := readWord (memOf bs) 0 8
      ((∀ m ∈ s.images, m.imgid ≠ id) → exec (.imageLoad bs) s =
        .next { s with images := s.images ++ [{ imgid := id, bytes := memOf bs, len := bs.length }] }) ∧
      (∀ m, s.images.find? (fun m => m.imgid == id) = some m → m.bytes = memOf bs → m.len = bs.length →
        exec (.imageLoad bs) s = .next s) ∧
      (∀ m, s.images.find? (fun m => m.imgid == id) = some m → m.bytes ≠ memOf bs ∨ m.len ≠ bs.length →
        ∃ t, exec (.imageLoad bs) s = .next t ∧ (∀ e, e ∈ t.caddy ↔ e ∈ s.caddy ∧ e.imgid ≠ id) ∧
          ∀ n ∈ t.images, n.imgid = id → n.bytes = memOf bs ∧ n.len = bs.length ∧ n.checked = none)) ∧
    (∀ b : BootImages, s.fw.booted = false →
      let signed (d : BitVec 256) (x y : BitVec 512) : Bool := Config.sm2Verify Config.makerKey d x && Config.sm2Verify s.fw.ownerKey d y
      (s.fw.owned = false ∨ signed (Config.sm3 b.kettle) b.makerSig b.ownerSig = false → ∃ t, exec (.boot b) s = .next t ∧
        t.fw.recovery = true ∧ t.fw.booted = false ∧ t.fw.m = s.fw.m) ∧
      (s.fw.owned = true → signed (Config.sm3 b.kettle) b.makerSig b.ownerSig = true →
        signed (Config.sm3 b.packetCores) b.pcMakerSig b.pcOwnerSig = false ∨ retirementList s.fw = none →
        ∃ t, exec (.boot b) s = .next t ∧ t.fw.recovery = true ∧ t.fw.booted = false) ∧
      (∀ seq es, s.fw.owned = true → signed (Config.sm3 b.kettle) b.makerSig b.ownerSig = true →
        signed (Config.sm3 b.packetCores) b.pcMakerSig b.pcOwnerSig = true → retirementList s.fw = some (seq, es) →
        let good := es.filter causeFits
        ∃ t, exec (.boot b) s = .next t ∧ t.fw.booted = true ∧ t.fw.recovery = false ∧ t.fw.retActive = some good ∧
          (b.config = [] → t.fw.reports = s.fw.reports ++ (es.filter fun e => !causeFits e).map .retirement) ∧
          (∀ f, f ∈ t.fw.offlined ↔ ∃ e ∈ good, e.getLsbD 0 = true ∧ f ∈ framesOf (rowOfEntry e)) ∧
          t.fw.m[0] = Config.sm3 (bytesOf s.fw.m[0].toNat 32 ++ bytesOf (Config.sm3 b.kettle).toNat 32) ∧
          t.fw.m[1] = Config.sm3 (bytesOf s.fw.m[1].toNat 32 ++ bytesOf (Config.sm3 b.packetCores).toNat 32) ∧
          t.fw.m[3] = Config.sm3 (bytesOf s.fw.m[3].toNat 32 ++ bytesOf (Config.sm3 (configText t)).toNat 32))) ∧
    (∀ (key : BitVec 512) (img : List Byte) (sig : BitVec 512),
      (s.fw.owned = false → key = Config.enrolledKey img → Config.sm2Verify Config.makerKey (Config.sm3 img) sig = true →
        exec (.ownerEnrolment key img sig) s = .next { s with fw := { s.fw with ownerKey := key, owned := true, epoch := s.fw.epoch + 1 } }) ∧
      (s.fw.owned = true ∨ key ≠ Config.enrolledKey img ∨ Config.sm2Verify Config.makerKey (Config.sm3 img) sig = false →
        exec (.ownerEnrolment key img sig) s = .next s)) ∧
    (∀ sig : BitVec 512,
      let signs (text : List Byte) : Bool :=
        Config.sm2Verify s.fw.ownerKey (Config.sm3 (Config.deviceId ++ bytesOf s.fw.epoch.toNat 4 ++ text)) sig
      (s.fw.owned = true → signs [] = true → ∃ t, exec (.ownershipTransfer sig) s = .next t ∧ t.fw.owned = false ∧
        t.fw.ownerKey = 0 ∧ t.parts = [] ∧ t.windows = [] ∧ t.fw.ret = s.fw.ret ∧ t.fw.epoch = s.fw.epoch ∧
        (∀ n, counterAt t n = { counterAt s n with state := .free, value := 0, gen := (counterAt s n).gen + 1 }) ∧
        (∀ a, readByte t.mem a = if s.fw.windowBase ≤ a ∧ a < s.fw.windowBase + 0x100000 then 0 else readByte s.mem a)) ∧
      (s.fw.owned = false ∨ signs [] = false → exec (.ownershipTransfer sig) s = .next s) ∧
      (s.fw.owned = true → signs acceptText = true → exec (.acceptEmpty sig) s = .next { s with fw := { s.fw with retAccepted := true } }) ∧
      (s.fw.owned = false ∨ signs acceptText = false → exec (.acceptEmpty sig) s = .next s)) ∧
    (∀ nonce : BitVec 256, exec (.attestationQuote nonce) s = .next { s with fw := { s.fw with
      quote := some (Config.sm2Sign (Config.sm3 (bytesOf nonce.toNat 32 ++ s.fw.m.toList.flatMap (fun d => bytesOf d.toNat 32) ++
        bytesOf s.fw.epoch.toNat 4))) } })

/-- R152, R166, R345, R400, R404, R407, R408, R410 and the chapters that name each write: once the device has booted,
firmware's configuration writes do what they name, and a value out of range changes nothing (assumption 33, with a new
ring's PROD, CONS and OVERFLOW: the model's choice); before that there are none. A memory write at an address that R152
leaves unpopulated is the one stop of the machine; one that an access table, or the port's, refuses changes no byte and
is reported (assumption 61). A partition is reset once the members of its tasks have come to rest, for which they stop
issue; one without them at once: its queues are disabled, its counters FREE in the next generation, its access
entries go (assumption 48). A loss of power keeps the board flash and host memory; the disabled cells and the
generation start anew (assumption 47). -/
def Claims.Upkeep : Prop :=
  ∀ (s : State),
    (s.fw.booted = false → ∀ w, exec (.configurationWrite w) s = .next s) ∧
    (s.fw.booted = true →
    (∀ (p : BitVec 4) (r : BitVec 52), ∃ t, exec (.configurationWrite (.pageRoot p r)) s = .next t ∧
      (partOf t p).root = if r.toNat % 256 = 0 ∧ regionOf r.toNat = some 1 ∧ populated s.fw r.toNat 256 = true ∧
        mayHandOut s r.toNat 256 = true then r.toNat else (partOf s p).root) ∧
    (∀ (p : BitVec 4) (ids : List (BitVec 9)), ∃ t, exec (.configurationWrite (.cells p ids)) s = .next t ∧
      (partOf t p).cells = ids.map (·.toNat)) ∧
    (∀ (p : BitVec 4) (m : BitVec 5), ∃ t, exec (.configurationWrite (.membership p m)) s = .next t ∧ (partOf t p).memb = m ||| 3) ∧
    (∀ (p : BitVec 4) (ms : Nat), ∃ t, exec (.configurationWrite (.watchdog p ms)) s = .next t ∧
      (partOf t p).watchdogMs = if 1 ≤ ms ∧ ms ≤ 10000 then ms else (partOf s p).watchdogMs) ∧
    (∀ (n : BitVec 16) (p : BitVec 4), ∃ t, exec (.configurationWrite (.counterPart n p)) s = .next t ∧
      counterAt t n = if (counterAt s n).state = .free then { counterAt s n with part := p } else counterAt s n) ∧
    (∀ (pkg : BitVec 9) (wid : BitVec 16) (e : WinEntry), pkg ≠ s.fw.pkg ∨ s.migrations = [] ∧ Memory.wf s.mem = true ∧
        firmwareAdmitted s (s.fw.windowBase + 16 * wid.toNat) 16 = true →
      ∃ t, exec (.configurationWrite (.window pkg wid e)) s = .next t ∧
        windowAt t pkg wid = if windowFits (maskWindow e) = true then maskWindow e else windowAt s pkg wid) ∧
    (∀ a : BitVec 52, ∃ t, exec (.configurationWrite (.windowBase a)) s = .next t ∧
      t.fw.windowBase = if a.toNat % 16 = 0 ∧ regionOf a.toNat = some 1 ∧ populated s.fw a.toNat 0x100000 = true ∧
        mayHandOut s a.toNat 0x100000 = true then a.toNat else s.fw.windowBase) ∧
    (∀ (vf : BitVec 5) (pa : BitVec 52) (bs : List Byte), ∃ t, exec (.configurationWrite (.hostWrite vf pa bs)) s = .next t ∧
      (hostReaches s vf 61 pa.toNat bs.length = false → t.mem = s.mem ∧ t.heatTick = s.heatTick) ∧
      (hostReaches s vf 61 pa.toNat bs.length = true → s.migrations = [] → t.mem = writeBytes s.mem pa.toNat bs)) ∧
    (∀ (vf : BitVec 5) (pa : BitVec 52) (n : Nat), ∃ t, exec (.configurationWrite (.hostRead vf pa n)) s = .next t ∧ t.mem = s.mem ∧
      (hostReaches s vf 62 pa.toNat n = true → s.migrations = [] → hostValue s vf pa.toNat n = some (readBytes s.mem pa.toNat n)) ∧
      (hostReaches s vf 62 pa.toNat n = false → hostValue s vf pa.toNat n = none)) ∧
    (∀ (u : AccessUnit) (i : BitVec 8) (a b : Word), ∃ t, exec (.configurationWrite (.access u i a b)) s = .next t ∧
      look t.access (unitKey u * 256 + i.toNat) = some (maskAccess (a, b))) ∧
    (∀ v : BitVec 16, ∃ t, exec (.configurationWrite (.maxk v)) s = .next t ∧ t.fw.maxk = if v = 0 then s.fw.maxk else v) ∧
    (∀ c : BitVec 9, ∃ t, exec (.configurationWrite (.disableCell c)) s = .next t ∧
      (c.toNat ∈ s.fw.disabled ∨ Config.isSliceSite c.toNat = true → t.fw = s.fw ∧ t.caddy = s.caddy) ∧
      (c.toNat ∉ s.fw.disabled → Config.isSliceSite c.toNat = false →
        c.toNat ∈ t.fw.disabled ∧ t.fw.cgen = s.fw.cgen + 1 ∧ t.caddy = [])) ∧
    (∀ (c : BitVec 9) (m : BitVec 18), ∃ t, exec (.configurationWrite (.strips c m)) s = .next t ∧ look t.fw.strips c.toNat = some m ∧
      (look s.fw.strips c.toNat = some m → t.fw = s.fw ∧ t.caddy = s.caddy) ∧
      (look s.fw.strips c.toNat ≠ some m → t.fw.cgen = s.fw.cgen + 1 ∧ t.caddy = [] ∧
        (m.getLsbD 15 = false → c.toNat ∈ t.fw.disabled))) ∧
    (∀ n : Nat, ∃ t, exec (.configurationWrite (.shadow n)) s = .next t ∧
      t.fw.shadowMib = (if n ≤ 240 then n else s.fw.shadowMib) ∧ t.fw.cgen = if n ≤ 240 then s.fw.cgen + 1 else s.fw.cgen) ∧
    (∀ (p : BitVec 1) (n : Nat), ∃ t, exec (.configurationWrite (.cxlCapacity p n)) s = .next t ∧
      t.fw.cxl0 = (if p = 0 then n else s.fw.cxl0) ∧ t.fw.cxl1 = if p = 0 then s.fw.cxl1 else n) ∧
    (∀ ms : Nat, ∃ t, exec (.configurationWrite (.decay ms)) s = .next t ∧
      t.fw.decayMs = if 1 ≤ ms ∧ ms ≤ 1000 then ms else s.fw.decayMs) ∧
    (∀ (p : BitVec 4) (n : Nat), ∃ t, exec (.configurationWrite (.freePages p n)) s = .next t ∧ (partOf t p).freePages = n) ∧
    (∀ (p : BitVec 4) (n : Nat), ∃ t, exec (.configurationWrite (.evictThreshold p n)) s = .next t ∧ (partOf t p).evictPages = n) ∧
    (∀ (f : Option Nat) (d : BitVec 2) (v : Bool), ∃ t, exec (.configurationWrite (.strict f d v)) s = .next t ∧
      ownerMap t (ownerKey f d) = { ownerMap s (ownerKey f d) with strict := v }) ∧
    (∀ (c : BitVec 9) (v : BitVec 16), ∃ t, exec (.configurationWrite (.lfsr c v)) s = .next t ∧ look t.fw.lfsr c.toNat = some v) ∧
    (∀ (x y z : BitVec 4) (p : BitVec 9), ∃ t, exec (.configurationWrite (.torus x y z p)) s = .next t ∧
      ((∀ n ∈ [x, y, z], 1 ≤ n.toNat ∧ n.toNat ≤ 8) → t.fw.torus = (x, y, z) ∧ t.fw.pkg = p) ∧
      (¬ (∀ n ∈ [x, y, z], 1 ≤ n.toNat ∧ n.toNat ≤ 8) → t.fw = s.fw)) ∧
    (∀ (p : BitVec 4) (b : BitVec 52) (k : Nat), b.toNat % 4096 = 0 → 6 ≤ k → k ≤ 16 → ∃ t,
      exec (.configurationWrite (.eventRing p b k)) s = .next t ∧ (partOf t p).ringBase = b ∧ (partOf t p).ringK = k ∧
      (partOf t p).prod = 0 ∧ (partOf t p).cons = 0 ∧ (partOf t p).overflow = false) ∧
    (∀ (p : BitVec 4) (n : Word), ∃ t, exec (.configurationWrite (.eventCons p n)) s = .next t ∧ (partOf t p).cons = n ∧
      (partOf t p).prod = (partOf s p).prod) ∧
    (∀ p : BitVec 4, (partOf s p).resident = true → ∃ t, exec (.configurationWrite (.swapOut p)) s = .next t ∧ t.mem = s.mem ∧
      let waits := (∃ f ∈ (partOf s p).freezes, f.done = false) ∨
        ∃ id ∈ cellsOfPart s p, ∃ c, look s.cells id = some c ∧ c.frozen ≠ none
      (¬ waits → (partOf t p).resident = false ∧ ∀ id c, look s.cells id = some c → c.part = p →
        ∃ c', look t.cells id = some c' ∧ c'.core.stopIssue = true) ∧
      (waits → (partOf t p).resident = true ∧ (partOf t p).swapAsked = true ∧ t.cells = s.cells)) ∧
    (∀ (n : Nat) (k : Task), look s.tasks n = some k → k.stage = .running → k.saveAsked = none →
      (partOf s k.part).resident = true → k.cells ≠ [] → (∀ id ∈ k.cells, memberWaits s id = true) →
      (∀ f ∈ (partOf s k.part).freezes, f.done = true) → (∀ id ∈ k.cells, ∀ c, look s.cells id = some c → c.frozen = none) →
      ∃ t, exec (.configurationWrite (.save n)) s = .next t ∧
        look t.tasks n = some { k with
          stage := .saving false, wake := k.wake && k.saveBroken, saveBroken := false, cellsAsked := true }) ∧
    (∀ (p : BitVec 4) (a : BitVec 52), ∃ t, exec (.configurationWrite (.frames p a)) s = .next t ∧
      (partOf t p).frameBase = if a.toNat % 0x1000 = 0 ∧ regionOf a.toNat = some 1 ∧ mayHandOut s a.toNat 0x11A000 = true then some a
        else (partOf s p).frameBase) ∧
    (∀ q : BitVec 12, ∃ t, exec (.configurationWrite (.queueOut q)) s = .next t ∧ (queueAt t q).switched = true) ∧
    (∀ r rs, s.fw.kettle = r :: rs → ∃ t, exec (.configurationWrite .kettleRead) s = .next t ∧
      t.fw.kettle = rs ++ s.fw.kettleOver.take 1 ∧ t.fw.kettleOver = s.fw.kettleOver.drop 1 ∧ t.fw.lost = false) ∧
    (∀ n : Nat, ∃ t, exec (.configurationWrite (.powerLimit n)) s = .next t ∧ t.fw.powerLimit = min n 2000) ∧
    (∀ (p : BitVec 4) (v : Bool), ∃ t, exec (.configurationWrite (.debug p v)) s = .next t ∧ (partOf t p).debug = v) ∧
    (∀ (p : BitVec 4) (f : BitVec 36), ∃ t, exec (.configurationWrite (.revoke p f)) s = .next t ∧
      (∀ e ∈ t.tlb, ¬ (e.part = p ∧ ptePfn e.pte = f)) ∧
      t.revocations = s.revocations ++ [⟨p, f, (s.cells.filter fun x => x.2.part == p).map (·.1)⟩]) ∧
    (∀ (pa : BitVec 52) (bs : List Byte),
      (bs = [] ∨ populated s.fw pa.toNat bs.length = true → ∃ t, exec (.configurationWrite (.memory pa bs)) s = .next t ∧
        (firmwareAdmitted s pa.toNat bs.length = true → s.migrations = [] → Memory.wf s.mem = true →
          readBytes t.mem pa.toNat bs.length = bs) ∧
        (firmwareAdmitted s pa.toNat bs.length = false → t.mem = s.mem ∧ t.fw.reports = s.fw.reports ++ [.trap 0 .access])) ∧
      (bs ≠ [] → populated s.fw pa.toNat bs.length = false → portAddress pa.toNat = false ∨ firmwareAdmitted s pa.toNat bs.length = true →
        exec (.configurationWrite (.memory pa bs)) s = .fault (.unpopulated pa.toNat)) ∧
      (portAddress pa.toNat = true → firmwareAdmitted s pa.toNat bs.length = false →
        ∃ t, exec (.configurationWrite (.memory pa bs)) s = .next t ∧ t.mem = s.mem ∧
          t.fw.reports = s.fw.reports ++ [.trap 0 .access]))) ∧
    (s.fw.booted = false → ∀ p : BitVec 4, exec (.partitionReset p) s = .next s) ∧
    (∀ p : BitVec 4, s.fw.booted = true → keysFrom 0 s.cells = true → (∃ id ∈ restingCells s p, atRest s id = false) → ∃ t, exec (.partitionReset p) s = .next t ∧
      (partOf t p).resetAsked = true ∧ t.tasks = s.tasks ∧ t.counters = s.counters ∧ t.access = s.access ∧
      ∀ id ∈ restingCells s p, ∀ c, look t.cells id = some c → c.core.stopIssue = true) ∧
    (∀ p : BitVec 4, s.fw.booted = true → (∀ x ∈ s.tasks, x.2.part ≠ p) → keysFrom 0 s.counters = true → (∀ n ∈ keys s.counters, n < 65536) →
      ∃ t, exec (.partitionReset p) s = .next t ∧ t.cells = s.cells ∧ t.mem = s.mem ∧
        (∀ q v, look s.queues q = some v → v.part = p → ∃ v', look t.queues q = some v' ∧ v'.en = false ∧ v'.cmd = none) ∧
        (∀ n k, look s.counters n = some k →
          look t.counters n = some (if k.part = p then { k with state := .free, value := 0, gen := k.gen + 1 } else k)) ∧
        (∀ x ∈ t.access, field x.2.1 53 4 ≠ p) ∧ (partOf t p).chosen = none) ∧
    (∃ t, exec (.powerLoss none) s = .next t ∧ t.cells = [] ∧ t.tasks = [] ∧ t.queues = [] ∧ t.parts = [] ∧ t.tlb = [] ∧
      t.fw.booted = false ∧ t.fw.ret = s.fw.ret ∧ t.fw.owned = s.fw.owned ∧ t.fw.ownerKey = s.fw.ownerKey ∧ t.fw.epoch = s.fw.epoch ∧
      t.fw.retActive = none ∧ t.fw.disabled = Config.spareSites ∧ t.fw.cgen = 0 ∧
      ∀ a, readByte t.mem a = if regionOf a = some 3 then readByte s.mem a else 0) ∧
    (∀ i : BitVec 1, ∃ t, exec (.powerLoss (some i)) s = .next t ∧ t.fw.booted = false ∧
      ∀ j : Fin 2, j.val ≠ i.toNat → t.fw.ret[j] = s.fw.ret[j])

/-! ### Reset, encoding, and the step -/

/-- R2, R8, R13, R15, R66, R121, R226, R233, R317, R419: what the spec gives a cell at task start, and the package at power-up: zero
registers and scratch, full masks, MAXK 4,096, DEFER 2^24, tokens and queue counters zero, channels idle; no cell holds a
task, every counter is FREE with generation 0, memory is in canonical form; of each die eight cell sites are disabled, which
ones is left open (R2, R419). (What the reset values of other registers are is
the model's choice; the statement does not rest on them.) -/
def Obligations.ResetState : Prop :=
  (let c := Cell.fresh
   (∀ y r, getReg c.core y r = 0) ∧ (∀ a, readByte c.mem.scratch a = 0) ∧
   (∀ m : Fin 8, c.core.masks[m.val]'m.isLt = BitVec.allOnes 192) ∧ c.core.sr.maxk = 4096 ∧ c.core.sr.defer = 2 ^ 24 ∧
   (∀ t, getToken c.core t = { pend := false, seq := 0 }) ∧
   (∀ q, (getQueue c q).iseq = 0 ∧ (getQueue c q).dseq = 0 ∧ (getQueue c q).entries = []) ∧
   (∀ n : Fin 4, c.channels[n.val]'n.isLt = { state := .idle, head := 0, cur := 0, map := 0 })) ∧
  State.reset.cells = [] ∧ State.reset.tasks = [] ∧
  (∀ n, (counterAt State.reset n).state = .free ∧ (counterAt State.reset n).gen = 0) ∧
  (∀ q, (queueAt State.reset q).en = false) ∧ MemoryCanonical State.reset ∧
  (∀ d, d < 4 → (State.reset.fw.disabled.filter fun id => id / 128 == d).length = 8) ∧
  (∀ id ∈ State.reset.fw.disabled, Config.isSliceSite id = false)

/-- No step breaks the canonical form of the memories, a form that is the model's own: keys stay strictly rising, and nothing is
listed that reads as an unlisted key does, in the package's memory, in what is known of the other packages', and in the
scratch, context store, accumulator and vector registers of every context, on a cell, saved or swapped out; whatever step is
taken in whatever state has the form. -/
def Obligations.MemoryCanonicalKept : Prop :=
  ∀ (s t : State), MemoryCanonical s → step s = .next t → MemoryCanonical t

/-- The rows of the opcode table that no word names: steps of the scheduler, the memory system, the networks, the engines and the
outside world. -/
def Claims.wordless : Instr → Bool
  | .tail .. | .notify .. | .commandFetch .. | .commandRefetch .. | .queueDescriptorWrite .. | .qerrClear .. | .queueSwitchIn .. |
    .dispatch .. | .arm .. | .free .. | .launch .. | .launchAllocate .. | .caddyBusyHit .. | .steepSpecialise .. | .placeAndRoute .. |
    .configCode .. | .configContext .. | .configSlotTable .. | .configDataBlock .. | .configUniform .. | .configEnd .. | .taskStart .. |
    .taskEnd .. | .saveTask .. | .restoreTask .. | .pageResident .. | .counterDecrement .. | .hang .. | .barrierArrival .. |
    .barrierComplete .. | .deferto .. | .storeRetire .. | .leaveBag .. | .deliver .. | .responseArrival .. | .writeAcknowledgement .. |
    .refusal .. | .translationWalk .. | .revocation .. | .revocationComplete .. | .heatDecay | .migrationArm .. | .migrationCopy .. |
    .migrationRecopy .. | .migrationHold .. | .migrationSwitch .. | .migrationForward .. | .eviction .. | .windowPublish .. |
    .rowRetirement .. | .retirementListUpdate .. | .slotOwnerWrite .. | .slotOwnerApply .. | .circuitBeat .. | .entryComplete .. |
    .matrixStep .. | .retirement .. | .exitBankEmit .. | .aeBeWrite .. | .cfgToken .. | .snapshotRequest .. | .snapMarker .. |
    .snapshotComplete .. | .strainerRelease .. | .copyRecord .. | .trapEntry .. | .fatalTrap .. | .freeze .. | .thaw .. | .cellHalt .. |
    .partitionSwap .. | .blenderChunk .. | .dataFlitSend .. | .dataFlit .. | .totalsFlit .. | .totalsSend .. | .replayRequest .. |
    .keyInstall .. | .keySwitch .. | .exhaustionTimeout .. | .linkRetrain .. | .eventRingSummary .. | .powerEvent .. | .boot .. |
    .ownerEnrolment .. | .ownershipTransfer .. | .acceptEmpty .. | .attestationQuote .. | .partitionReset .. |
    .configGenerationChange | .imageLoad .. | .configurationWrite .. | .memoryError .. | .powerLoss .. | .configPacketCorruption .. => true
  | _ => false

/-- R24-R44, R229, R230, R285-R288: the words of every well-formed instruction decode to it, with every operand at every value
its encoding admits; the steps that no word names, listed one by one, have no words, and every other instruction has one. -/
def Obligations.EncodingRoundTrip : Prop :=
  (∀ i : Instr, Laws.RoundTrip.Statement i) ∧ ∀ i : Instr, encode i = .none ↔ Claims.wordless i = true

/-- R25, R44, R285, R288: a word that the decoder accepts is the word of the instruction it gives, so no bit of an accepted
word goes unread and two words never mean one instruction. -/
def Obligations.DecodingDropsNoBit : Prop :=
  ∀ (w : BitVec 32) (i : Instr), (decodeCore w = .ok i → encode i = .core w) ∧ (decodeStrip w = .ok i → encode i = .strip w)

/-- R24-R44, R229, R285: words written out from the tables of the encoding chapters decode to the instructions they stand for,
and words with a reserved bit or major are rejected. -/
def Obligations.DecodeWords : Prop :=
  decodeCore 0x01297C00#32 = .ok (.add false false 5 5 30) ∧
  decodeCore 0x84500002#32 = .ok (.addi true false 10 0 2) ∧
  decodeCore 0x0A29880C#32 = .ok (.shiSrl false false 5 6 12) ∧
  decodeCore 0x4C500070#32 = .ok (.lui false true 10 0x70) ∧
  decodeCore 0x026B1800#32 = .ok (.mul false false 13 12 12) ∧
  decodeCore 0x1131FFFD#32 = .ok (.bne false false 6 7 0x3FFD) ∧
  decodeCore 0x162A3FFB#32 = .ok (.bbs false false 5 17 0x1FFB) ∧
  decodeCore 0x19000005#32 = .ok (.jal false 5) ∧
  decodeCore 0x1A004000#32 = .ok (.jalr false 0 1 0) ∧
  decodeCore 0x5B483FFC#32 = .ok (.loop false true 9 0x3FFC) ∧
  decodeCore 0x1E29A002#32 = .ok (.ldw false 5 6 2 2) ∧
  decodeCore 0xA2F18000#32 = .ok (.ldwn true 30 6 0 0) ∧
  decodeCore 0x25580080#32 = .ok (.stw false 11 0 0 0x80) ∧
  decodeCore 0x67480002#32 = .ok (.ldu false true 9 0 2) ∧
  decodeCore 0x38401C10#32 = .ok (.kset 2 7 1) ∧
  decodeCore 0x00281803#32 = .ok (.mfs false 5 3) ∧
  decodeCore 0x00031C07#32 = .ok (.mts 12 7) ∧
  decodeCore 0x00026140#32 = .ok (.chkb false 9 10) ∧
  decodeCore 0x00000400#32 = .ok .halt ∧
  decodeCore 0xAC250000#32 = .ok (.xlatR 4 20) ∧
  decodeCore 0xAB2999C0#32 = .ok (.hstnt 5 3 0 3 7 0) ∧
  decodeCore 0xAD212728#32 = .ok (.amo 4 2 1 7 2 1) ∧
  decodeCore 0xAEF31AA7#32 = .ok (.rldLine 12 13 1 1) ∧
  decodeCore 0xAF2B1A03#32 = .ok (.rst 5 12 13 0 0 3) ∧
  decodeCore 0xB0231B05#32 = .ok (.ramo 4 12 13 2 0 2 1) ∧
  decodeCore 0x310006A8#32 = .ok (.fence false 1 5 5) ∧
  decodeCore 0xB91D2A00#32 = .ok (.swopen 3 20 21) ∧
  decodeCore 0x32299880#32 = .ok (.barr 5 6 4 2) ∧
  decodeCore 0x3301D000#32 = .ok (.waitc 7) ∧
  decodeCore 0x34014C00#32 = .ok (.clrp 5 6) ∧
  decodeCore 0x35482000#32 = .ok (.enq 2 8 1) ∧
  decodeCore 0x36470070#32 = .ok (.enqi 2 7 0x70) ∧
  decodeCore 0x37481006#32 = .ok (.tokq 9 6) ∧
  decodeStrip 0x1C4A8800#32 = .ok (.ffma 0 4 5 1 1 0) ∧
  decodeStrip 0xD0008000#32 = .ok (.lds 1 0) ∧
  decodeStrip 0x08008003#32 = .ok (.stripEos 1 0 3) ∧
  decodeStrip 0x70009801#32 = .ok (.cvt 0 1 3 0 1) ∧
  decodeStrip 0xB0008800#32 = .ok (.rsum 0 1 1 0 0) ∧
  decodeStrip 0x94108800#32 = .ok (.stripDiv 0 1 1 1 0) ∧
  decodeLaunch 0xE020#16 = .ok .goMm ∧
  decodeLaunch 0xE042#16 = .ok .copy ∧
  (∀ i, decodeCore 0x0F000000#32 ≠ .ok i) ∧
  (∀ i, decodeCore 0x01000012#32 ≠ .ok i) ∧
  (∀ i, decodeCore 0x3100000F#32 ≠ .ok i)

/-- R10, R20, R76, R77, R242, R289: a step is the turn of a unit: of the one that the outside world has fixed, else of the unit
at `focus`, when its turn has come or no step is due. A stream passes over the other stream's words to its place; there it
runs exec of the instruction that the word decodes to, or traps ILLEGAL on a word that does not decode or a place outside its
code. A queue runs the word of its head entry, a strip the word at its program pointer. What a step adds to that changes the
time, the turn, the watchdog's last completion and the strips that are calm, and nothing of a cell's core, memory or queues.
A step that is due, and one that the outside world has fixed, is made in its turn. (That turns alternate is the model's
choice, assumption 4.) -/
def Obligations.StepRunsDecoded : Prop :=
  ∀ (s : State),
    (∀ (f : Focus) (ms : List Move),
      (s.agenda = [] ∧ ms = [] ∧ f = s.focus ∧ (s.unitNext = true ∨ dueMove s = none)) ∨ s.agenda = .run f :: ms →
      let id := f.cell
      let h : State := { s with agenda := ms, focus := f }
      let on := after fun t => endStep s (if s.agenda = [] then { passTurn t with unitNext := false } else t)
      (∀ (c : Cell) (y : Bool), look s.cells id = some c → f.unit = (if y then .access else .execute) → streamRuns c y = true →
        let p := nextPlace c y
        let here := setCell h id { c with core := setPlace c.core y p }
        let ran (r : Host.Outcome State Fault Refusal) := on (after (noteStream here id y) r)
        (p.toNat + 4 ≤ c.mem.codeLen → (codeWord c.mem p.toNat).getLsbD 31 = y →
          (∀ i, decodeCore (codeWord c.mem p.toNat) = .ok i → step s = ran (exec i here)) ∧
          (∀ r, decodeCore (codeWord c.mem p.toNat) = .reject r → step s = ran (.next (raise here id
            { code := .illegal, unit := if y then 1 else 0, word := codeWord c.mem p.toNat })))) ∧
        (c.mem.codeLen < p.toNat + 4 → step s = ran (.next (raise here id
          { code := .illegal, unit := if y then 1 else 0, sub := 1, addr := p })))) ∧
      (∀ (c : Cell) (q : BitVec 2) (i : Instr), look s.cells id = some c → f.unit = .queue q → queueWord h id c q = some i →
        step s = on (exec i h)) ∧
      (∀ (c : Cell) (j : BitVec 4) (i : Instr), look s.cells id = some c → f.unit = .strip j →
        stripWord c.collar j = some i → step s = on (after (noteCalm h id j) (exec i h)))) ∧
    (∀ (t : State) (id : Nat) (y : Bool) (j : BitVec 4), ∀ u ∈ [endStep s (noteStream s id y t), endStep s (noteCalm s id j t)],
      u.now = t.now + Config.elapsed t.free ∧ u.mem = t.mem ∧ u.tasks = t.tasks ∧ u.queues = t.queues ∧ u.counters = t.counters ∧
      u.barriers = t.barriers ∧ u.msgs = t.msgs ∧ u.resps = t.resps ∧ u.asks = t.asks ∧ u.fw = t.fw ∧
      ∀ n c, look t.cells n = some c → ∃ c', look u.cells n = some c' ∧ c'.core = c.core ∧ c'.mem = c.mem ∧
        c'.queues = c.queues ∧ c'.collar.strips = c.collar.strips) ∧
    (∀ t, s.agenda = [] → s.unitNext = false → dueMove s = some t → step s = .next (endStep s { t with unitNext := true })) ∧
    (∀ i ms, s.agenda = .event i :: ms → step s = after (endStep s) (exec i { s with agenda := ms }))

/-! ### The parts together -/

/-- How `bar`, `barr` and `barw` end, and how a waiting arrival is made: the two claims above together. -/
def Obligations.BarrierEnds : Prop := Claims.BarrierEnds ∧ Claims.WaitingArrival

/-- How a buffered store retires, and how a store leaves the non-temporal bag: the two claims above together. -/
def Obligations.StoreRetirement : Prop := Claims.StoreRetirement ∧ Claims.BagLeaves

/-- Accesses through handles, and where they trap: the two claims above together. -/
def Obligations.HandleAccesses : Prop := Claims.HandleAccesses ∧ Claims.HandleAccessTraps

/-- What comes back to a cell, a response or a refusal: the two claims above together. -/
def Obligations.Responses : Prop := Claims.Responses ∧ Claims.Refusals

/-- A migration from its start to its end: the two claims above together. -/
def Obligations.Migrations : Prop := Claims.MigrationStarts ∧ Claims.MigrationSteps

/-- What a walk binds, and how a revocation takes it back: the two claims above together. -/
def Obligations.BindingChanges : Prop := Claims.HandleWalk ∧ Claims.Revocations

/-- `nop`, `yield`, `chkb` and `halt`: the two claims above together. -/
def Obligations.SystemInstructions : Prop := Claims.NopYieldAndBounds ∧ Claims.Halt

/-- R62, R198: a local store inside scratch and aligned joins the buffer of its alias class, base read before the datum, with
what it took from the LDQ or the EAQ beside it (R18), whatever the presence of its word; no byte of scratch and no presence bit changes before it retires. -/
def Obligations.LocalStores : Prop :=
  ∀ (y : Bool) (r b : BitVec 5) (k : BitVec 2) (o : BitVec 12) (s : State) (c c1 c2 : Cell) (vb v : Word),
    Ready s y c → debugs s c = false → sourceOf y b c = some (vb, c1) → sourceOf y r c1 = some (v, c2) →
    ∀ p ∈ ([(.stb y r b k o, 1), (.sth y r b k o, 2), (.stw y r b k o, 4), (.std y r b k o, 8)] : List (Instr × Nat)),
      ∀ ea : Word, ea = vb + o.signExtend 64 * BitVec.ofNat 64 p.2 →
      ea.toNat < 0xC0000 → ea.toNat % p.2 = 0 →
      ∃ c', EndsAt p.1 s (advance y c') ∧ c'.core = c2.core ∧ c'.mem.scratch = c2.mem.scratch ∧ c'.mem.empty = c2.mem.empty ∧
        (∀ q : Fin 4, c'.mem.bufs[q] = if q.val = k.toNat then
            c2.mem.bufs[q] ++ [⟨y, ea.toNat, p.2, v, if y then c2.core.brA else c2.core.brE, getPlace c2.core y,
              if y = false then ([(b, c), (r, c1)].filterMap fun t => if t.1 = 30 then t.2.core.ldq.head? else none) else [],
              if y = true then ([(b, vb), (r, v)].filterMap fun t => if t.1 = 31 then some t.2 else none) else []⟩]
          else c2.mem.bufs[q])

/-- Atomics as they are issued, the values they leave, and how a target performs them: the three claims above together. -/
def Obligations.Atomics : Prop := Claims.Atomics ∧ Claims.AtomicValues ∧ Claims.AtomicDelivers

/-- Packets word by word, and the operands of their launch words: the two claims above together. -/
def Obligations.PacketWords : Prop := Claims.PacketWords ∧ Claims.LaunchOperands

/-- The matrix engine from the start of an entry to its retirements: the four claims above together. -/
def Obligations.MatrixEngine : Prop := Claims.MatrixStarts ∧ Claims.MatrixSteps ∧ Claims.PairSteps ∧ Claims.MatrixRetires

/-- The starts, records and bags of the copy engine, and how queue entries complete: the four claims above together. -/
def Obligations.CopyEngine : Prop := Claims.CopyStarts ∧ Claims.EntriesComplete ∧ Claims.CopyRecords ∧ Claims.BagDelivers

/-- The start and the chunks of a job of the Blender: the claim of that name above. -/
def Obligations.BlenderJobs : Prop := Claims.BlenderJobs

/-- Entry ports, constant updates and snapshots of the collar: the three claims above together. -/
def Obligations.CollarEvents : Prop := Claims.PortWrites ∧ Claims.ConstantUpdates ∧ Claims.Snapshots

/-- The strip words that are not lane by lane: the two claims above together. -/
def Obligations.OtherStripWords : Prop :=
  Claims.MovingWords ∧ Claims.ConverterWords ∧ Claims.QuantBursts ∧ Claims.DequantBursts

/-- Work queues, their commands and the dependence counters: the four claims above together. -/
def Obligations.WorkQueues : Prop := Claims.QueueWrites ∧ Claims.CommandReads ∧ Claims.Dispatching ∧ Claims.Counters

/-- A launch from its command to the start of its task: the three claims above together. -/
def Obligations.Launches : Prop := Claims.LaunchesStart ∧ Claims.LaunchesPrepare ∧ Claims.Configuration

/-- How a task ends: the claim of that name above. -/
def Obligations.TasksEnd : Prop := Claims.TasksEnd

/-- Saves, restores and swaps: the two claims above together. -/
def Obligations.Preemption : Prop := Claims.SaveAndRestore ∧ Claims.Swaps

/-- Freezes and thaws, reads that time out, handler entries: the two claims above together. -/
def Obligations.FreezesAndEntries : Prop := Claims.Freezes ∧ Claims.TimeoutsAndEntries

/-- The owner maps and the beats of the circuit plane: the two claims above together. -/
def Obligations.Networks : Prop := Claims.OwnerMaps ∧ Claims.Circuits

/-- Data flits and the upkeep of the links: the two claims above together. -/
def Obligations.Links : Prop := Claims.DataFlits ∧ Claims.LinkUpkeep

/-- Event rings, boot and ownership, configuration writes, resets and loss of power: the three claims above together. -/
def Obligations.FirmwareAndTrust : Prop := Claims.EventRings ∧ Claims.Trust ∧ Claims.Upkeep
end

