-- ==== Sys2Proof/Laws/Frames.lean ====
section
/-! SUPPORT. Ranges of byte memories and the frames of contexts: slicing, pasting and moving ranges, and writing a context to
its frame and reading it back, keep the canonical form. -/

namespace Sys2Proof.Laws

open Sys2Proof.Machine

variable {α : Type}

theorem keysFrom_append (m n : SMap α) {lo b : Nat} (h : lo ≤ b) (hm : keysFrom lo m = true) (hb : ∀ p ∈ m, p.1 < b)
    (hn : keysFrom b n = true) : keysFrom lo (m ++ n) = true := by
  induction m generalizing lo with
  | nil => exact keysFrom_le n h hn
  | cons p m ih =>
    obtain ⟨k, v⟩ := p
    simp only [keysFrom, Bool.and_eq_true, decide_eq_true_eq, List.cons_append] at hm ⊢
    have hk : k < b := hb (k, v) (by simp)
    exact ⟨hm.1, ih (by omega) hm.2 fun p hp => hb p (by simp [hp])⟩

/-- Keys of a range move together: each stays in its order. -/
theorem keysFrom_map (m : SMap α) (f : Nat → Nat) {lo lo' : Nat} (hf : ∀ j, lo ≤ j → lo' ≤ f j)
    (hs : ∀ i ∈ keys m, ∀ j, i < j → f i < f j) (h : keysFrom lo m = true) :
    keysFrom lo' (m.map fun p => (f p.1, p.2)) = true := by
  induction m generalizing lo lo' with
  | nil => rfl
  | cons p m ih =>
    obtain ⟨k, v⟩ := p
    simp only [keysFrom, Bool.and_eq_true, decide_eq_true_eq, List.map_cons] at h ⊢
    refine ⟨hf k h.1, ih (fun j hj => ?_) (fun i hi => hs i ?_) h.2⟩
    · have := hs k (by simp [keys]) j (by omega)
      omega
    · simp only [keys, List.map_cons, List.mem_cons] at hi ⊢
      exact .inr hi

theorem keys_le (m : SMap α) {lo : Nat} (h : keysFrom lo m = true) : ∀ k ∈ keys m, lo ≤ k := by
  induction m generalizing lo with
  | nil => simp [keys]
  | cons p m ih =>
    obtain ⟨k, v⟩ := p
    simp only [keysFrom, Bool.and_eq_true, decide_eq_true_eq] at h
    intro x hx
    simp only [keys, List.map_cons, List.mem_cons] at hx
    rcases hx with rfl | hx
    · exact h.1
    · have := ih h.2 x hx
      omega

theorem wf_of {m : Mem} (h : keysFrom 0 m = true) (hv : ∀ p ∈ m, p.2 ≠ 0) : Memory.wf m = true := by
  simp only [Memory.wf, canon, Bool.and_eq_true, List.all_eq_true, decide_eq_true_eq]
  exact ⟨h, hv⟩

theorem wf_keys {m : Mem} (h : Memory.wf m = true) : keysFrom 0 m = true := by
  simp only [Memory.wf, canon, Bool.and_eq_true] at h
  exact h.1

theorem wf_vals {m : Mem} (h : Memory.wf m = true) : ∀ p ∈ m, p.2 ≠ 0 := by
  simp only [Memory.wf, canon, Bool.and_eq_true, List.all_eq_true, decide_eq_true_eq] at h
  exact h.2

/-- A range of a memory, moved to address 0. -/
theorem sliceMem_wf (m : Mem) (a n : Nat) (h : Memory.wf m = true) : Memory.wf (sliceMem m a n) = true := by
  refine wf_of ?_ ?_
  · refine keysFrom_map _ (· - a) (lo := 0) (fun _ _ => Nat.zero_le _) ?_ (keysFrom_filter m _ (wf_keys h))
    intro i hi j hj
    simp only [keys, List.mem_map, List.mem_filter, Bool.and_eq_true, decide_eq_true_eq] at hi
    obtain ⟨p, ⟨-, hp⟩, rfl⟩ := hi
    have := hp.1
    show p.1 - a < j - a
    omega
  · intro p hp
    simp only [sliceMem, List.mem_map, List.mem_filter] at hp
    obtain ⟨q, ⟨hq, -⟩, rfl⟩ := hp
    exact wf_vals h q hq

/-- A range of one memory over another. -/
theorem pasteMem_wf (m : Mem) (a n : Nat) (src : Mem) (h : Memory.wf m = true) (hs : Memory.wf src = true) :
    Memory.wf (pasteMem m a n src) = true := by
  have moved : keysFrom a ((src.filter fun p => p.1 < n).map fun p => (p.1 + a, p.2)) = true :=
    keysFrom_map _ (· + a) (lo := 0) (fun j _ => by show a ≤ j + a; omega) (fun i _ j hj => by show i + a < j + a; omega)
      (keysFrom_filter src _ (wf_keys hs))
  have above : keysFrom (a + n) (m.filter fun p => a + n ≤ p.1) = true := by
    have : ∀ (m : Mem) (lo : Nat), keysFrom lo m = true → keysFrom (a + n) (m.filter fun p => decide (a + n ≤ p.1)) = true := by
      intro m
      induction m with
      | nil => intros; rfl
      | cons p m ih =>
        intro lo hk
        obtain ⟨k, v⟩ := p
        simp only [keysFrom, Bool.and_eq_true, decide_eq_true_eq] at hk
        by_cases hb : a + n ≤ k
        · simp only [List.filter_cons, hb, decide_true, if_true, keysFrom, Bool.and_eq_true, true_and]
          exact keysFrom_filter m _ hk.2
        · simpa [List.filter_cons, hb] using ih _ hk.2
    exact this m 0 (wf_keys h)
  refine wf_of ?_ ?_
  · show keysFrom 0 (m.filter (fun p => decide (p.1 < a)) ++ (src.filter fun p => p.1 < n).map (fun p => (p.1 + a, p.2)) ++
      m.filter fun p => decide (a + n ≤ p.1)) = true
    rw [List.append_assoc]
    refine keysFrom_append _ _ (Nat.zero_le a) (keysFrom_filter m _ (wf_keys h)) ?_ ?_
    · intro p hp
      simp only [List.mem_filter, decide_eq_true_eq] at hp
      exact hp.2
    · refine keysFrom_append _ _ (Nat.le_add_right a n) moved ?_ above
      intro p hp
      simp only [List.mem_map, List.mem_filter, decide_eq_true_eq] at hp
      obtain ⟨q, ⟨-, hq⟩, rfl⟩ := hp
      show q.1 + a < a + n
      omega
  · intro p hp
    simp only [pasteMem, List.mem_append, List.mem_map, List.mem_filter] at hp
    rcases hp with (⟨hp, -⟩ | ⟨q, ⟨hq, -⟩, rfl⟩) | ⟨hp, -⟩
    · exact wf_vals h p hp
    · exact wf_vals hs q hq
    · exact wf_vals h p hp

/-- A range of a memory copied to another place of it. -/
theorem copyRange_wf (m : Mem) (src dst n : Nat) (h : Memory.wf m = true) : Memory.wf (copyRange m src dst n) = true := by
  have : ∀ (ps m : Mem), Memory.wf m = true → Memory.wf (ps.foldl (fun m p => writeByte m p.1 p.2) m) = true := by
    intro ps
    induction ps with
    | nil => exact fun _ h => h
    | cons p ps ih => exact fun m h => ih _ (writeByte_wf m _ _ h)
  exact this _ _ (filter_wf m _ h)

theorem pokes_canon (f : Nat → Row) (ks : List Nat) (r : SMap Row) (h : canon 0 r = true) :
    canon 0 (ks.foldl (fun r k => poke 0 r k (f k)) r) = true := by
  induction ks generalizing r with
  | nil => exact h
  | cons k ks ih => exact ih _ (canon_poke 0 r k _ h)

/-- Rows read from a range of a frame. -/
theorem rowsOf_canon (m : Mem) (n : Nat) : canon 0 (rowsOf m n) = true := by
  unfold rowsOf
  exact pokes_canon (fun k => BitVec.ofNat 6144 (ofBytes (readBytes m (768 * k) 768))) _ [] rfl

/-- Stores of `n` bytes laid one behind the other, each at its key. -/
theorem rows_wf (m : SMap Row) (n a : Nat) (f : Row → Mem) (hf : ∀ v, Memory.wf (f v) = true) (hn : ∀ v, ∀ p ∈ f v, p.1 < n)
    (h : canon 0 m = true) : Memory.wf (m.flatMap fun p => (f p.2).map fun q => (a + n * p.1 + q.1, q.2)) = true := by
  simp only [canon, Bool.and_eq_true] at h
  have ordered : ∀ (m : SMap Row) (lo : Nat), keysFrom lo m = true →
      keysFrom (a + n * lo) (m.flatMap fun p => (f p.2).map fun q => (a + n * p.1 + q.1, q.2)) = true := by
    intro m
    induction m with
    | nil => intros; rfl
    | cons p m ih =>
      intro lo hk
      obtain ⟨k, v⟩ := p
      simp only [keysFrom, Bool.and_eq_true, decide_eq_true_eq] at hk
      have hlo : n * lo ≤ n * k := Nat.mul_le_mul_left n hk.1
      have hsucc : n * (k + 1) = n * k + n := Nat.mul_succ n k
      simp only [List.flatMap_cons]
      refine keysFrom_append _ _ (b := a + n * (k + 1)) (by omega) ?_ ?_ (ih (k + 1) hk.2)
      · exact keysFrom_map _ (a + n * k + ·) (lo := 0) (fun j _ => by show a + n * lo ≤ a + n * k + j; omega)
          (fun i _ j hj => by show a + n * k + i < a + n * k + j; omega) (wf_keys (hf v))
      · intro p hp
        simp only [List.mem_map] at hp
        obtain ⟨q, hq, rfl⟩ := hp
        have := hn v q hq
        show a + n * k + q.1 < a + n * (k + 1)
        omega
  refine wf_of (keysFrom_le _ (Nat.zero_le _) (ordered m 0 h.1)) ?_
  intro p hp
  simp only [List.mem_flatMap, List.mem_map] at hp
  obtain ⟨q, -, x, hx, rfl⟩ := hp
  exact wf_vals (hf q.2) x hx

theorem sliceMem_lt (m : Mem) (a n : Nat) : ∀ p ∈ sliceMem m a n, p.1 < n := by
  intro p hp
  simp only [sliceMem, List.mem_map, List.mem_filter, Bool.and_eq_true, decide_eq_true_eq] at hp
  obtain ⟨q, ⟨-, hq⟩, rfl⟩ := hp
  show q.1 - a < n
  omega

/-- The bytes of a context's frame are in canonical form where the context's own stores are. -/
theorem frameBytesOf_wf (c : Cell) (h : CellCanonical c) : Memory.wf (frameBytesOf c) = true := by
  obtain ⟨hs, hk, ha, hv⟩ := h
  have rows (m : SMap Row) (hm : canon 0 m = true) := rows_wf m 768 0 (fun v => sliceMem (writeBytes [] 0 (bytesOf v.toNat 768)) 0 768)
    (fun v => sliceMem_wf _ 0 768 (writeBytes_wf (bytesOf v.toNat 768) [] 0 wf_nil)) (fun v => sliceMem_lt _ 0 768) hm
  unfold frameBytesOf
  refine pasteMem_wf _ _ _ _ (pasteMem_wf _ _ _ _ (pasteMem_wf _ _ _ _ (pasteMem_wf _ _ _ _ wf_nil hs) ?_) hk) ?_
  · exact rows c.acc ha
  · exact rows c.collar.vreg hv

/-- A context read from a frame of a memory in canonical form has its stores in that form. -/
theorem withFrame_canonical (m : Mem) (c : Cell) (h : Memory.wf m = true) : CellCanonical (withFrame m c) := by
  refine ⟨?_, ?_, ?_, ?_⟩ <;> dsimp only [withFrame, modMem]
  · exact sliceMem_wf m 0 0xC0000 h
  · exact sliceMem_wf m 0xE4000 0x20000 h
  · exact rowsOf_canon (sliceMem m 0xC0000 0x24000) 192
  · exact rowsOf_canon (sliceMem m 0x104000 0xC000) 64

end Sys2Proof.Laws
end

