-- ==== Sys2Proof/Laws/Sched.lean ====
section
/-! SUPPORT. Laws of the scheduler's shared operations: reading what was set in a queue, a counter or a partition, what an
event and a sticky error can change, and that bringing READY up to date touches only PASS and its note. -/

namespace Sys2Proof.Laws

open Sys2Proof.Machine

/-! ### Numbered entries -/

@[simp] theorem peek_put_same {α : Type} (d : α) (m : SMap α) (n : Nat) (a : α) : peek d (put m n a) n = a := by
  simp [peek]

theorem peek_put_other {α : Type} (d : α) (m : SMap α) {n k : Nat} (a : α) (h : k ≠ n) : peek d (put m n a) k = peek d m k := by
  simp [peek, look_put_other m a h]

theorem toNat_ne {w : Nat} {a b : BitVec w} (h : a ≠ b) : a.toNat ≠ b.toNat := fun e => h (BitVec.eq_of_toNat_eq e)

@[simp] theorem queueAt_setQueueAt (s : State) (q : BitVec 12) (v : Queue) : queueAt (setQueueAt s q v) q = v := by
  simp [queueAt, setQueueAt]

theorem queueAt_setQueueAt_other (s : State) {q r : BitVec 12} (v : Queue) (h : r ≠ q) :
    queueAt (setQueueAt s q v) r = queueAt s r := peek_put_other _ _ _ (toNat_ne h)

@[simp] theorem counterAt_setCounter (s : State) (n : BitVec 16) (k : Counter) : counterAt (setCounter s n k) n = k := by
  simp [counterAt, setCounter]

theorem counterAt_setCounter_other (s : State) {n m : BitVec 16} (k : Counter) (h : m ≠ n) :
    counterAt (setCounter s n k) m = counterAt s m := peek_put_other _ _ _ (toNat_ne h)

@[simp] theorem partOf_modPart (s : State) (p : BitVec 4) (f : Partition → Partition) : partOf (modPart s p f) p = f (partOf s p) := by
  simp [partOf, modPart]

theorem partOf_modPart_other (s : State) {p r : BitVec 4} (f : Partition → Partition) (h : r ≠ p) :
    partOf (modPart s p f) r = partOf s r := peek_put_other _ _ _ (toNat_ne h)

theorem look_upd_same {α : Type} {m : SMap α} {n : Nat} {a : α} (f : α → α) (h : look m n = some a) :
    look (upd m n f) n = some (f a) := by
  simp [upd, h]

theorem look_upd_other {α : Type} (m : SMap α) {n k : Nat} (f : α → α) (h : k ≠ n) : look (upd m n f) k = look m k := by
  unfold upd
  split
  · rfl
  · exact look_put_other m _ h

/-- A change of every value, key by key. -/
theorem look_mapValues {α : Type} (m : SMap α) (f : Nat → α → α) (n : Nat) :
    look (m.map fun x => (x.1, f x.1 x.2)) n = (look m n).map (f n) := by
  induction m with
  | nil => rfl
  | cons x m ih =>
    obtain ⟨k, v⟩ := x
    by_cases h : k = n
    · subst h; simp [look]
    · simp [look, h, ih]

/-! ### Events and sticky errors -/

/-- Two partitions differ in PROD, the event number and OVERFLOW at most. -/
def SameButRing (p q : Partition) : Prop := ∃ prod ev o, q = { p with prod := prod, evSeq := ev, overflow := o }

theorem SameButRing.refl (p : Partition) : SameButRing p p := ⟨p.prod, p.evSeq, p.overflow, rfl⟩

theorem SameButRing.trans {p q r : Partition} (h : SameButRing p q) (k : SameButRing q r) : SameButRing p r := by
  obtain ⟨a, b, c, rfl⟩ := h
  obtain ⟨a', b', c', rfl⟩ := k
  exact ⟨a', b', c', rfl⟩

theorem SameButRing.away {p q : Partition} (h : SameButRing p q) : q.away = p.away := by
  obtain ⟨_, _, _, rfl⟩ := h
  rfl

/-- Two states differ in memory and, partition by partition, in the event ring's fields at most. -/
def RingOnly (s t : State) : Prop :=
  ∃ m ps, t = { s with mem := m, parts := ps } ∧ ∀ r, SameButRing (peek {} s.parts r) (peek {} ps r)

theorem RingOnly.trans {s t u : State} (h : RingOnly s t) (k : RingOnly t u) : RingOnly s u := by
  obtain ⟨m, ps, rfl, h⟩ := h
  obtain ⟨m', ps', rfl, k⟩ := k
  exact ⟨m', ps', rfl, fun r => (h r).trans (k r)⟩

theorem writeHost_ringOnly (s : State) (a : Nat) (bs : List Byte) : RingOnly s (writeHost s a bs) :=
  ⟨_, s.parts, rfl, fun _ => .refl _⟩

theorem modPart_ringOnly (s : State) (p : BitVec 4) (f : Partition → Partition) (h : ∀ v, SameButRing v (f v)) :
    RingOnly s (modPart s p f) := by
  refine ⟨s.mem, put s.parts p.toNat (f (partOf s p)), rfl, fun r => ?_⟩
  by_cases e : r = p.toNat
  · subst e; rw [peek_put_same]; exact h _
  · rw [peek_put_other _ _ _ e]; exact .refl _

theorem setOverflow_ringOnly (s : State) (p : BitVec 4) (v : Bool) : RingOnly s (setOverflow s p v) :=
  (writeHost_ringOnly s _ _).trans (modPart_ringOnly _ _ _ fun w => ⟨w.prod, w.evSeq, v, rfl⟩)

theorem putRecord_ringOnly (s : State) (p : BitVec 4) (bs : List Byte) : RingOnly s (putRecord s p bs) :=
  ((writeHost_ringOnly s _ _).trans (writeHost_ringOnly _ _ _)).trans
    (modPart_ringOnly _ _ _ fun w => ⟨w.prod + 1, w.evSeq, w.overflow, rfl⟩)

/-- What an event changes: the ring's numbers and overflow in a partition, and bytes of memory. -/
theorem postEvent_eq (s : State) (p : BitVec 4) (kind : BitVec 8) (q : BitVec 12) (d : BitVec 16) (d2 d3 : Word) :
    RingOnly s (postEvent s p kind q d d2 d3) := by
  unfold postEvent
  dsimp only
  split
  · exact setOverflow_ringOnly _ _ _
  · exact (putRecord_ringOnly _ _ _).trans (modPart_ringOnly _ _ _ fun w => ⟨w.prod, w.evSeq + 1, w.overflow, rfl⟩)

@[simp] theorem postEvent_queues (s : State) (p : BitVec 4) (kind : BitVec 8) (q : BitVec 12) (d : BitVec 16) (d2 d3 : Word) :
    (postEvent s p kind q d d2 d3).queues = s.queues := by
  obtain ⟨m, ps, h, -⟩ := postEvent_eq s p kind q d d2 d3; rw [h]
/-- No event swaps a partition out or in. -/
theorem postEvent_away (s : State) (p : BitVec 4) (kind : BitVec 8) (q : BitVec 12) (d : BitVec 16) (d2 d3 : Word) (r : BitVec 4) :
    (partOf (postEvent s p kind q d d2 d3) r).away = (partOf s r).away := by
  obtain ⟨m, ps, h, k⟩ := postEvent_eq s p kind q d d2 d3
  rw [h]
  exact (k r.toNat).away
@[simp] theorem postEvent_cells (s : State) (p : BitVec 4) (kind : BitVec 8) (q : BitVec 12) (d : BitVec 16) (d2 d3 : Word) :
    (postEvent s p kind q d d2 d3).cells = s.cells := by
  obtain ⟨m, ps, h, -⟩ := postEvent_eq s p kind q d d2 d3; rw [h]
@[simp] theorem postEvent_tasks (s : State) (p : BitVec 4) (kind : BitVec 8) (q : BitVec 12) (d : BitVec 16) (d2 d3 : Word) :
    (postEvent s p kind q d d2 d3).tasks = s.tasks := by
  obtain ⟨m, ps, h, -⟩ := postEvent_eq s p kind q d d2 d3; rw [h]
@[simp] theorem postEvent_counters (s : State) (p : BitVec 4) (kind : BitVec 8) (q : BitVec 12) (d : BitVec 16) (d2 d3 : Word) :
    (postEvent s p kind q d d2 d3).counters = s.counters := by
  obtain ⟨m, ps, h, -⟩ := postEvent_eq s p kind q d d2 d3; rw [h]
@[simp] theorem postEvent_fw (s : State) (p : BitVec 4) (kind : BitVec 8) (q : BitVec 12) (d : BitVec 16) (d2 d3 : Word) :
    (postEvent s p kind q d d2 d3).fw = s.fw := by
  obtain ⟨m, ps, h, -⟩ := postEvent_eq s p kind q d d2 d3; rw [h]
@[simp] theorem postEvent_decs (s : State) (p : BitVec 4) (kind : BitVec 8) (q : BitVec 12) (d : BitVec 16) (d2 d3 : Word) :
    (postEvent s p kind q d d2 d3).decs = s.decs := by
  obtain ⟨m, ps, h, -⟩ := postEvent_eq s p kind q d d2 d3; rw [h]
@[simp] theorem postEvent_nextTask (s : State) (p : BitVec 4) (kind : BitVec 8) (q : BitVec 12) (d : BitVec 16) (d2 d3 : Word) :
    (postEvent s p kind q d d2 d3).nextTask = s.nextTask := by
  obtain ⟨m, ps, h, -⟩ := postEvent_eq s p kind q d d2 d3; rw [h]

/-- A queue without an error takes the sticky error, and nothing else of a queue changes. -/
theorem stopQueue_queueAt (s : State) (q : BitVec 12) (c d : BitVec 8) (h : (queueAt s q).err = none) :
    queueAt (stopQueue s q c d) q = { queueAt s q with err := some (c, d) } := by
  have n : ¬ (queueAt s q).err.isSome = true := by rw [h]; simp
  unfold stopQueue
  dsimp only
  rw [if_neg n]
  simp only [queueAt, postEvent_queues, setQueueAt, peek_put_same]

theorem stopQueue_queueAt_other (s : State) {q r : BitVec 12} (c d : BitVec 8) (h : r ≠ q) :
    queueAt (stopQueue s q c d) r = queueAt s r := by
  unfold stopQueue
  simp only
  split
  · rfl
  · simp only [queueAt, postEvent_queues, postEvent_away, setQueueAt]
    exact peek_put_other _ _ _ (toNat_ne h)

@[simp] theorem stopQueue_cells (s : State) (q : BitVec 12) (c d : BitVec 8) : (stopQueue s q c d).cells = s.cells := by
  unfold stopQueue; simp only; split <;> simp [setQueueAt]
@[simp] theorem stopQueue_tasks (s : State) (q : BitVec 12) (c d : BitVec 8) : (stopQueue s q c d).tasks = s.tasks := by
  unfold stopQueue; simp only; split <;> simp [setQueueAt]
@[simp] theorem stopQueue_counters (s : State) (q : BitVec 12) (c d : BitVec 8) : (stopQueue s q c d).counters = s.counters := by
  unfold stopQueue; simp only; split <;> simp [setQueueAt]
@[simp] theorem stopQueue_fw (s : State) (q : BitVec 12) (c d : BitVec 8) : (stopQueue s q c d).fw = s.fw := by
  unfold stopQueue; simp only; split <;> simp [setQueueAt]
@[simp] theorem stopQueue_decs (s : State) (q : BitVec 12) (c d : BitVec 8) : (stopQueue s q c d).decs = s.decs := by
  unfold stopQueue; simp only; split <;> simp [setQueueAt]
@[simp] theorem stopQueue_nextTask (s : State) (q : BitVec 12) (c d : BitVec 8) : (stopQueue s q c d).nextTask = s.nextTask := by
  unfold stopQueue; simp only; split <;> simp [setQueueAt]

/-! ### READY brought up to date (R117) -/

/-- Two queues differ in PASS and the note of READY at most. -/
def SameButPass (v w : Queue) : Prop := ∃ p r, w = { v with pass := p, wasReady := r }

theorem SameButPass.refl (v : Queue) : SameButPass v v := ⟨v.pass, v.wasReady, rfl⟩

theorem SameButPass.trans {u v w : Queue} (h : SameButPass u v) (k : SameButPass v w) : SameButPass u w := by
  obtain ⟨p, r, rfl⟩ := h
  obtain ⟨p', r', rfl⟩ := k
  exact ⟨p', r', rfl⟩

theorem noteQueue_eq (s : State) (q : Nat) : ∃ qs, noteQueue s q = { s with queues := qs } ∧
    ∀ n, match look s.queues n with
      | none => look qs n = none
      | some v => ∃ w, look qs n = some w ∧ SameButPass v w := by
  have same : ∃ qs, s = { s with queues := qs } ∧ ∀ n, match look s.queues n with
      | none => look qs n = none
      | some v => ∃ w, look qs n = some w ∧ SameButPass v w :=
    ⟨s.queues, rfl, fun n => by split <;> [assumption; exact ⟨_, ‹_›, .refl _⟩]⟩
  have one (v : Queue) (h : look s.queues q = some v) (w : Queue) (hw : SameButPass v w) (n : Nat) :
      match look s.queues n with
      | none => look (put s.queues q w) n = none
      | some v => ∃ w', look (put s.queues q w) n = some w' ∧ SameButPass v w' := by
    by_cases e : n = q
    · subst e; rw [h]; exact ⟨w, look_put_same _ _ _, hw⟩
    · rw [look_put_other _ _ e]; split <;> [assumption; exact ⟨_, ‹_›, .refl _⟩]
  unfold noteQueue
  split
  · exact same
  · rename_i v h
    split
    · split
      · exact same
      · exact ⟨_, rfl, one v h _ ⟨_, _, rfl⟩⟩
    · split
      · exact ⟨_, rfl, one v h _ ⟨v.pass, _, rfl⟩⟩
      · exact same

/-- Nothing but PASS and the note of READY changes. -/
theorem noteReady_eq (s : State) : ∃ qs, noteReady s = { s with queues := qs } ∧
    ∀ n, match look s.queues n with
      | none => look qs n = none
      | some v => ∃ w, look qs n = some w ∧ SameButPass v w := by
  unfold noteReady
  generalize keys s.queues = ks
  induction ks generalizing s with
  | nil => exact ⟨s.queues, rfl, fun n => by split <;> [assumption; exact ⟨_, ‹_›, .refl _⟩]⟩
  | cons k ks ih =>
    obtain ⟨qs, h, hq⟩ := noteQueue_eq s k
    obtain ⟨qs', h', hq'⟩ := ih (noteQueue s k)
    refine ⟨qs', by rw [List.foldl_cons, h', h], fun n => ?_⟩
    have a := hq n
    have b := hq' n
    rw [h] at b
    cases e : look s.queues n with
    | none => simp only [e] at a; simp only [a] at b; exact b
    | some v =>
      simp only [e] at a
      obtain ⟨w, hw, vw⟩ := a
      simp only [hw] at b
      obtain ⟨w', hw', ww⟩ := b
      exact ⟨w', hw', vw.trans ww⟩

theorem noteReady_queueAt (s : State) (q : BitVec 12) : SameButPass (queueAt s q) (queueAt (noteReady s) q) := by
  obtain ⟨qs, h, hq⟩ := noteReady_eq s
  have a := hq q.toNat
  rw [h]
  simp only [queueAt, peek]
  cases e : look s.queues q.toNat with
  | none => simp only [e] at a; simp only [a]; exact .refl _
  | some v => simp only [e] at a; obtain ⟨w, hw, vw⟩ := a; simp only [hw]; exact vw

/-- A step of the scheduler answers a state that differs from what it makes in PASS and the note of READY at most. -/
theorem settleQueues_some (s t : State) : ∃ qs, settleQueues s (some t) = .next { t with queues := qs } ∧
    (∀ q : BitVec 12, SameButPass (queueAt t q) (queueAt { t with queues := qs } q)) ∧
    ∀ n, match look t.queues n with
      | none => look qs n = none
      | some v => ∃ w, look qs n = some w ∧ SameButPass v w := by
  obtain ⟨qs, h, hq⟩ := noteReady_eq t
  refine ⟨qs, by simp [settleQueues, settle, h], fun q => ?_, hq⟩
  have := noteReady_queueAt t q
  rwa [h] at this

@[simp] theorem settleQueues_none (s : State) : settleQueues s none = .next s := rfl

end Sys2Proof.Laws
end

