-- ==== Sys2Proof/Tests/Slice0.lean ====
section
/-! SUPPORT. Tests: decoding against words of the spec, ill-formed terms, single steps, and for each obligation a witness of
its hypotheses. -/

-- one proof after another: each that waits for the kernel would hold a thread and its stack
set_option Elab.async false

namespace Sys2Proof.Tests

open Sys2Proof

open Sys2Proof.Machine

/-! ### Decoding: words of the spec's encoding tables and worked programs -/

theorem test_decode_alu : decodeCore 0x01297C00#32 = .ok (.add false false 5 5 30) := by decide
theorem test_decode_mul : decodeCore 0x026B1800#32 = .ok (.mul false false 13 12 12) := by decide
theorem test_decode_shift : decodeCore 0x0A29880C#32 = .ok (.shiSrl false false 5 6 12) := by decide
theorem test_decode_immediate : decodeCore 0x84500002#32 = .ok (.addi true false 10 0 2) := by decide
theorem test_decode_constant : decodeCore 0x4C500070#32 = .ok (.lui false true 10 0x70) := by decide
theorem test_decode_branch : decodeCore 0x1131FFFD#32 = .ok (.bne false false 6 7 0x3FFD) := by decide
theorem test_decode_bit_branch : decodeCore 0x162A3FFB#32 = .ok (.bbs false false 5 17 0x1FFB) := by decide
theorem test_decode_jump : decodeCore 0x1A004000#32 = .ok (.jalr false 0 1 0) := by decide
theorem test_decode_load : decodeCore 0x1E29A002#32 = .ok (.ldw false 5 6 2 2) := by decide
theorem test_decode_store : decodeCore 0x25580080#32 = .ok (.stw false 11 0 0 0x80) := by decide
theorem test_decode_uniform : decodeCore 0x67480002#32 = .ok (.ldu false true 9 0 2) := by decide
theorem test_decode_mask : decodeCore 0x38401C10#32 = .ok (.kset 2 7 1) := by decide
theorem test_decode_special : decodeCore 0x00031C07#32 = .ok (.mts 12 7) := by decide
theorem test_decode_system : decodeCore 0x00026140#32 = .ok (.chkb false 9 10) := by decide
theorem test_decode_handle : decodeCore 0xAB2999C0#32 = .ok (.hstnt 5 3 0 3 7 0) := by decide
theorem test_decode_remote : decodeCore 0xAF2B1A03#32 = .ok (.rst 5 12 13 0 0 3) := by decide
theorem test_decode_atomic : decodeCore 0xB0231B05#32 = .ok (.ramo 4 12 13 2 0 2 1) := by decide
theorem test_decode_fence : decodeCore 0x310006A8#32 = .ok (.fence false 1 5 5) := by decide
theorem test_decode_window : decodeCore 0xB91D2A00#32 = .ok (.swopen 3 20 21) := by decide
theorem test_decode_barrier : decodeCore 0x32299880#32 = .ok (.barr 5 6 4 2) := by decide
theorem test_decode_counter : decodeCore 0x3301D000#32 = .ok (.waitc 7) := by decide
theorem test_decode_presence : decodeCore 0x34014C00#32 = .ok (.clrp 5 6) := by decide
theorem test_decode_engine : decodeCore 0x35482000#32 = .ok (.enq 2 8 1) := by decide
theorem test_decode_token : decodeCore 0x37481006#32 = .ok (.tokq 9 6) := by decide
theorem test_decode_launch : decodeLaunch 0xE042#16 = .ok .copy := by decide
theorem test_decode_strip_fp : decodeStrip 0x1C4A8800#32 = .ok (.ffma 0 4 5 1 1 0) := by decide
theorem test_decode_strip_port : decodeStrip 0xD0008000#32 = .ok (.lds 1 0) := by decide
theorem test_decode_strip_stream : decodeStrip 0x08008003#32 = .ok (.stripEos 1 0 3) := by decide
theorem test_decode_strip_convert : decodeStrip 0x70009801#32 = .ok (.cvt 0 1 3 0 1) := by decide
theorem test_decode_strip_reduce : decodeStrip 0xB0008800#32 = .ok (.rsum 0 1 1 0 0) := by decide
theorem test_decode_strip_special : decodeStrip 0x94108800#32 = .ok (.stripDiv 0 1 1 1 0) := by decide

/-- Why a word is refused. -/
def why (r : Except Reject Instr) : Option Reject :=
  match r with
  | .ok _ => none
  | .error e => some e

/-! ### Ill-formed terms, one for each check -/

theorem test_refuse_port : illegal (.add false false 30 1 2) = some .portMisuse := by decide
theorem test_refuse_source_port : illegal (.sel false false 1 2 3 31) = some .portMisuse := by decide
theorem test_refuse_read_write_port : illegal (.lic true false 31 0) = some .portMisuse := by decide
theorem test_refuse_function : illegal (.amo 4 0 0 1 10 1) = some .reservedFn := by decide
theorem test_refuse_cas_register : illegal (.amo 5 0 0 1 2 1) = some .casRegister := by decide
theorem test_refuse_routing : illegal (.rst 1 2 3 3 0 0) = some .routing := by decide
theorem test_refuse_size : illegal (.hldn 1 0 0 3 2 0) = some .size := by decide
theorem test_refuse_scope : illegal (.drain true 5) = some .scope := by decide
theorem test_refuse_empty_fence : illegal (.fence false 0 0 0) = some .emptyFence := by decide
theorem test_refuse_level : illegal (.bar 5) = some .level := by decide
theorem test_refuse_combine : illegal (.barr 1 2 0 5) = some .combine := by decide
theorem test_refuse_queue : illegal (.enqi 4 0 0) = some .queue := by decide
theorem test_refuse_enq_registers : illegal (.enq 0 27 3) = some .enqRegisters := by decide
theorem test_refuse_part : illegal (.kset 0 1 3) = some .part := by decide
theorem test_refuse_strip_tag : illegal (.fadd 0 1 1 4 0) = some .stripTag := by decide
theorem test_refuse_strip_rounding : illegal (.iadd 0 1 1 8 2) = some .stripRounding := by decide
theorem test_refuse_strip_immediate : illegal (.rot 0 1 192) = some .stripImmediate := by decide
theorem test_refuse_strip_output : illegal (.pk4 0 0) = some .stripOutput := by decide
theorem test_accept_last_enq_registers : illegal (.enq 3 26 3) = none := by decide
theorem test_refuse_major : decodeCore 0x0F000000#32 = .reject .reservedMajor := by decide
theorem test_refuse_zero_field : decodeCore 0x00001000#32 ≠ .ok (.nop false) := by decide
theorem test_refuse_stream : decodeCore 0x80000400#32 = .reject .stream := by decide
theorem test_refuse_line_destination : decodeCore 0xAE2B1A07#32 = .reject .lineDest := by decide
theorem test_refuse_launch_word : decodeLaunch 0xE022#16 = .reject .reservedWord := by decide

/-! ### Single steps -/

/-- A package whose cell 0 runs a task of one cell, at the start of an instruction. -/
def one (c : Cell) : State :=
  { cells := [(0, c)]
    tasks := [(0, { q := 0, part := 0, image := ⟨0, [], 0, none⟩, w := 1, h := 1, cells := [0], stage := .running })] }

/-- A cell with registers of the execute file set. -/
def withE (l : List (BitVec 5 × Word)) : Cell := { core := l.foldl (fun k r => setReg k false r.1 r.2) {} }

/-- A cell with registers of the access file set. -/
def withA (l : List (BitVec 5 × Word)) : Cell := { core := l.foldl (fun k r => setReg k true r.1 r.2) {} }

/-- What a step leaves of cell 0. -/
def left {α : Type} (o : Host.Outcome State Fault Refusal) (f : Cell → α) : Option α :=
  match o with
  | .next s => (look s.cells 0).map f
  | _ => none

def xE (r : BitVec 5) (c : Cell) : Word := getReg c.core false r
def xA (r : BitVec 5) (c : Cell) : Word := getReg c.core true r

/-- The trap that stands at the cell. -/
def code (c : Cell) : Option TrapCode := c.core.trap.map (·.code)

/-- Two operands at x6 and x7. -/
def two (a b : Word) : State := one (withE [(6, a), (7, b)])

theorem test_add_wraps : left (exec (.add false false 5 6 7) (two 0xFFFFFFFFFFFFFFFF 2)) (xE 5) = some 1 := by decide
theorem test_sub_same_register : left (exec (.sub false false 6 6 7) (two 1 2)) (xE 6) = some 0xFFFFFFFFFFFFFFFF := by decide
theorem test_x0_discards : left (exec (.add false false 0 6 7) (two 1 2)) (xE 0) = some 0 := by decide
theorem test_orn : left (exec (.orn false false 5 6 7) (two 1 0xFFFFFFFFFFFFFFF0)) (xE 5) = some 15 := by decide
theorem test_sll_takes_six_bits : left (exec (.sll false false 5 6 7) (two 1 65)) (xE 5) = some 2 := by decide
theorem test_sra_sign : left (exec (.sra false false 5 6 7) (two 0x8000000000000000 63)) (xE 5) = some 0xFFFFFFFFFFFFFFFF := by decide
theorem test_slt_signed : left (exec (.slt false false 5 6 7) (two 0xFFFFFFFFFFFFFFFF 1)) (xE 5) = some 1 := by decide
theorem test_sltn_unsigned : left (exec (.sltn false false 5 6 7) (two 0xFFFFFFFFFFFFFFFF 1)) (xE 5) = some 0 := by decide
theorem test_mulh_negative : left (exec (.mulh false false 5 6 7) (two 0xFFFFFFFFFFFFFFFF 1)) (xE 5) = some 0xFFFFFFFFFFFFFFFF := by decide
theorem test_mulhn : left (exec (.mulhn false false 5 6 7) (two 0xFFFFFFFFFFFFFFFF 2)) (xE 5) = some 1 := by decide
theorem test_div_truncates : left (exec (.div false false 5 6 7) (two (-7) 2)) (xE 5) = some (-3) := by decide
theorem test_div_by_zero : left (exec (.div false false 5 6 7) (two 9 0)) (xE 5) = some (-1) := by decide
theorem test_rem_sign : left (exec (.rem false false 5 6 7) (two (-7) 2)) (xE 5) = some (-1) := by decide
theorem test_rem_overflow : left (exec (.rem false false 5 6 7) (two 0x8000000000000000 (-1))) (xE 5) = some 0 := by decide
theorem test_bfx : left (exec (.bfx false false 5 6 7) (two 0x12345678 0xC04)) (xE 5) = some 0x567 := by decide
theorem test_bfi_keeps : left (exec (.bfi false false 5 6 7) (one (withE [(5, 0xFFFF), (6, 0), (7, 0x404)]))) (xE 5) = some 0xFF0F := by decide
theorem test_lic_appends : left (exec (.lic false false 5 3) (one (withE [(5, 1)]))) (xE 5) = some 0x80003 := by decide
theorem test_aui_scales : left (exec (.aui false false 5 0x7FFFF) (one (withE [(5, 0x4000)]))) (xE 5) = some 0 := by decide
theorem test_andi_zero_extends : left (exec (.andi false false 5 6 0x3FFF) (two (-1) 0)) (xE 5) = some 0x3FFF := by decide
theorem test_addi_sign_extends : left (exec (.addi false false 5 6 0x3FFF) (two 0 0)) (xE 5) = some (-1) := by decide
theorem test_sxh : left (exec (.sxh false false 5 6) (two 0x8000 0)) (xE 5) = some 0xFFFFFFFFFFFF8000 := by decide
theorem test_clz_of_zero : left (exec (.clz false false 5 6) (two 0 0)) (xE 5) = some 64 := by decide
theorem test_branch_back : left (exec (.bne false false 6 7 0x3FFF) (two 1 2)) (fun c => c.core.pcE) = some (-4) := by decide
theorem test_branch_falls : left (exec (.beq false false 6 7 8) (two 1 2)) (fun c => c.core.pcE) = some 4 := by decide
theorem test_loop_counts : left (exec (.loop false false 6 5) (two 1 0)) (fun c => (xE 6 c, c.core.pcE)) = some (0, 4) := by decide
theorem test_loop_taken_from_zero : left (exec (.loop false false 6 5) (two 0 0)) (fun c => (xE 6 c, c.core.pcE)) = some (-1, 20) := by decide
theorem test_jalr_links_after_read : left (exec (.jalr false 6 6 1) (two 0x40 0)) (fun c => (xE 6 c, c.core.pcE)) = some (4, 0x44) := by decide
theorem test_jalr_align : left (exec (.jalr false 1 6 0) (two 2 0)) (fun c => (code c, xE 1 c)) = some (some .align, 0) := by decide
theorem test_store_then_load : left (exec (.stb false 6 7 0 0) (two 0x1AB 0x100)) (fun c => loadBytes c false 0 0x100 2) = some [0xAB, 0] := by decide
theorem test_store_other_class_unseen : left (exec (.stb false 6 7 0 0) (two 0x1AB 0x100)) (fun c => loadBytes c false 1 0x100 1) = some [0] := by decide
theorem test_load_outside : left (exec (.ldd false 5 7 0 0) (two 0 0xC0000)) code = some (some .access) := by decide
theorem test_load_misaligned : left (exec (.ldw false 5 7 0 0) (two 0 0x102)) code = some (some .align) := by decide
theorem test_ldu_past_end : left (exec (.ldu false false 5 7 0) (two 0 0)) code = some (some .access) := by decide
theorem test_kset_part : left (exec (.kset 2 6 2) (two 0 0)) (fun c => (c.core.masks[2].getLsbD 127, c.core.masks[2].getLsbD 128)) = some (true, false) := by decide
theorem test_krange_clips : left (exec (.krange 1 6) (two 0xFFBE 0)) (fun c => (c.core.masks[1].getLsbD 189, c.core.masks[1].getLsbD 191)) = some (false, true) := by decide
theorem test_mts_trapvec_low_bits : left (exec (.mts 6 7) (two 0x1003 0)) (fun c => c.core.sr.trapvec) = some 0x1000 := by decide
theorem test_mts_defer_least : left (exec (.mts 6 8) (two 5 0)) (fun c => c.core.sr.defer) = some 256 := by decide
theorem test_mts_read_only : left (exec (.mts 6 0) (two 5 0)) code = some (some .access) := by decide
theorem test_chkb_passes : left (exec (.chkb false 6 7) (two 1 2)) (fun c => (code c, c.core.pcE)) = some (none, 4) := by decide
theorem test_chkb_equal_traps : left (exec (.chkb false 6 7) (two 2 2)) (fun c => c.core.trap.map (·.addr)) = some (some 2) := by decide
theorem test_trap_enters_handler :
    left (exec (.trap false 9) (one { core := { sr := { trapvec := 0x100 } } })) (fun c =>
      (c.core.hm, c.core.pcE, c.core.pcA, c.core.sr.trec[0].toNat / 2 ^ 56, c.core.sr.trec[1])) = some (true, 0x100, 0x100, 17, 0) := by
  decide
theorem test_tret_outside_handler : left (exec .tret (one {})) code = some (some .illegal) := by decide
theorem test_bara_clears_exit : left (exec (.bara 0) (one { core := { exitBit := true, sr := { domain := 1 } } })) (fun c => c.core.exitBit) = some false := by decide
theorem test_clrp_needs_presence_mode : left (exec (.clrp 6 7) (two 0x20 0x20)) code = some (some .access) := by decide
theorem test_clrp_empties : left (exec (.clrp 6 7)
    (one { (withE [(6, 0x20), (7, 0x40)]) with core := { (withE [(6, 0x20), (7, 0x40)]).core with sr := { pgmode := 1 } } }))
    (fun c => c.mem.empty) = some [1, 2] := by decide
theorem test_swadv_no_window : left (exec (.swadv 3 6) (one (withA [(6, 0x10000)]))) (fun c => (code c, c.core.pcA)) = some (none, 4) := by decide
theorem test_swopen_align : left (exec (.swopen 3 6 7) (one (withA [(6, 0x100), (7, 0x10000)]))) code = some (some .align) := by decide
theorem test_hld_unbound : left (exec (.hld 5 0 0 3 6 0) (one (withA []))) code = some (some .handle) := by decide
theorem test_xlat_wide : left (exec (.xlatR 0 6) (one (withA [(6, 0x200000000000000)]))) code = some (some .xlatfault) := by decide
theorem test_tokq : left (exec (.tokq 5 2) (one { core := { tokens := Vector.replicate 64 ⟨true, 3⟩ } })) (xE 5) = some 0x30001 := by decide

/-! ### What the step fetches -/

/-- The program of one `addi x5, x0, 7` at offset 0. -/
def program : Cell := { mem := { code := memOf [0x07, 0x00, 0x28, 0x04], codeLen := 4 } }

theorem test_step_runs_word : left (step (one program)) (fun c => (xE 5 c, c.core.pcE)) = some (7, 4) := by decide
theorem test_step_past_code : left (step (one { program with core := { pcE := 4 } })) code = some (some .illegal) := by decide

/-! ### Witnesses: states and operands that meet the hypotheses of each obligation, clause by clause -/

/-- Execute registers 6 and 7 hold 0x100 and 3, access registers 6 and 7 hold 0x100 and 8. -/
def cellA : Cell :=
  { core := setReg (setReg (setReg (setReg {} false 6 0x100) false 7 3) true 6 0x100) true 7 8 }

theorem witness_RegisterArithmetic :
    Ready (one cellA) false cellA ∧ Ready (one cellA) true cellA ∧ sourceOf false 6 cellA = some (0x100, cellA) ∧
    sourceOf false 7 cellA = some (3, cellA) ∧ sourceOf true 0 cellA = some (0, cellA) ∧
    (destOf false 5 3 cellA).isSome ∧ (destOf false 0 3 cellA).isSome ∧ (destOf false 31 3 cellA).isSome ∧
    (destOf true 30 3 cellA).isSome := ⟨⟨rfl, rfl⟩, ⟨rfl, rfl⟩, rfl, rfl, rfl, rfl, rfl, rfl, rfl⟩

/-- The LDQ holds one filled entry. -/
def cellQ : Cell := { core := { ldq := [⟨0, true, [9], false⟩], eaq := [4] } }

theorem witness_RegisterArithmetic_ports :
    Ready (one cellQ) false cellQ ∧ sourceOf false 30 cellQ = some (9, { core := { eaq := [4] } }) ∧
    sourceOf true 31 cellQ = some (4, { core := { ldq := [⟨0, true, [9], false⟩] } }) := ⟨⟨rfl, rfl⟩, rfl, rfl⟩

theorem witness_RegisterImmediate :
    Ready (one cellA) true cellA ∧ sourceOf true 6 cellA = some (0x100, cellA) ∧ (destOf true 7 1 cellA).isSome ∧
    ((0x0A000040#32).toNat / 2 ^ 24 % 64 = 0x0A ∧ (0x0A000040#32).toNat / 2 ^ 6 % 32 ≠ 0) ∧
    ((0x0A002800#32).toNat / 2 ^ 24 % 64 = 0x0A ∧ 5 ≤ (0x0A002800#32).toNat / 2 ^ 11 % 8) :=
  ⟨⟨rfl, rfl⟩, rfl, rfl, by decide, by decide⟩

theorem witness_ConstantsAndSelection :
    Ready (one cellA) false cellA ∧ (destOf false 29 1 cellA).isSome ∧ (29#5).toNat < 30 ∧
    sourceOf false 29 cellA = some (0, cellA) ∧ sourceOf false 6 cellA = some (0x100, cellA) ∧
    sourceOf false 0 cellA = some (0, cellA) := ⟨⟨rfl, rfl⟩, rfl, by decide, rfl, rfl, rfl⟩

theorem witness_Branches :
    Ready (one cellA) false cellA ∧ Ready (one cellA) true cellA ∧ sourceOf false 6 cellA = some (0x100, cellA) ∧
    sourceOf false 7 cellA = some (3, cellA) ∧ (decided false true 8 cellA).isSome ∧ (decided true false 8 cellA).isSome ∧
    (29#5).toNat < 30 ∧ (destOf false 29 0xFF cellA).isSome := ⟨⟨rfl, rfl⟩, ⟨rfl, rfl⟩, rfl, rfl, rfl, rfl, by decide, rfl⟩

theorem witness_JumpsAndCalls :
    Ready (one cellA) false cellA ∧ (decided false true 8 cellA).isSome ∧ (destOf false 1 4 cellA).isSome ∧
    sourceOf false 6 cellA = some (0x100, cellA) ∧ (0x100 : Word).toNat % 4 = 0 ∧
    sourceOf false 7 cellA = some (3, cellA) ∧ (3 : Word).toNat % 4 ≠ 0 := ⟨⟨rfl, rfl⟩, rfl, rfl, rfl, by decide, rfl, by decide⟩

theorem witness_LocalLoads :
    Ready (one cellA) false cellA ∧ debugs (one cellA) cellA = false ∧ sourceOf false 6 cellA = some (0x100, cellA) ∧
    isEmpty cellA 0x100 = false ∧ isEmpty cellA 0xBFFF8 = false ∧ 0xBFFF8 % 8 = 0 ∧ (destOf false 5 1 cellA).isSome :=
  ⟨⟨rfl, rfl⟩, rfl, rfl, by decide, by decide, by decide, rfl⟩

/-- Group 0 is in presence mode; word 8 of it is empty. -/
def cellP : Cell := { core := { (cellA.core) with sr := { pgmode := 1 } }, mem := { empty := [8] } }

theorem witness_LocalStores :
    Ready (one cellA) true cellA ∧ debugs (one cellA) cellA = false ∧ sourceOf true 6 cellA = some (0x100, cellA) ∧
    sourceOf true 7 cellA = some (8, cellA) ∧ presenceMode cellA 0x100 = false ∧
    Ready (one cellP) false cellP ∧ debugs (one cellP) cellP = false ∧ sourceOf false 6 cellP = some (0x100, cellP) ∧
    sourceOf false 7 cellP = some (3, cellP) ∧ isEmpty cellP 0x100 = true ∧ (0x100 : Word).toNat < 0xC0000 ∧
    (0x100 : Word).toNat % 8 = 0 := by
  refine ⟨⟨rfl, rfl⟩, ?_, ?_, ?_, ?_, ⟨rfl, rfl⟩, ?_, ?_, ?_, ?_, ?_, ?_⟩ <;> first | rfl | decide

/-- Registers with an address past scratch, its last byte, and a full presence word. -/
def cellB : Cell :=
  { core := { (setReg (setReg (setReg {} false 5 0xC0000) false 6 0xBFFFF) false 7 0x40) with sr := { pgmode := 1 } } }

theorem witness_LocalAccessTraps :
    Ready (one cellB) false cellB ∧ sourceOf false 5 cellB = some (0xC0000, cellB) ∧ 0xC0000 ≤ (0xC0000 : Word).toNat ∧
    sourceOf false 6 cellB = some (0xBFFFF, cellB) ∧ (0xBFFFF : Word).toNat < 0xC0000 ∧ (0xBFFFF : Word).toNat % 2 ≠ 0 ∧
    sourceOf false 7 cellB = some (0x40, cellB) := ⟨⟨rfl, rfl⟩, rfl, by decide, rfl, by decide, by decide, rfl⟩

/-- A uniform block of 16 bytes. -/
def cellU : Cell := { core := setReg (setReg {} false 6 8) false 7 9, mem := { ulen := 16 } }

theorem witness_UniformLoads :
    Ready (one cellU) false cellU ∧ sourceOf false 6 cellU = some (8, cellU) ∧ (8 + sx (0 : BitVec 12) * 8 : Word).toNat + 8 ≤ 16 ∧
    (8 + (1 : BitVec 12).signExtend 64 * 8 : Word).toNat + 8 > cellU.mem.ulen ∧
    sourceOf false 7 cellU = some (9, cellU) ∧ (9 + (0xFFF : BitVec 12).signExtend 64 * 8 : Word).toNat + 8 ≤ cellU.mem.ulen ∧
    (9 + (0xFFF : BitVec 12).signExtend 64 * 8 : Word).toNat % 8 ≠ 0 ∧ (destOf false 5 1 cellU).isSome :=
  ⟨⟨rfl, rfl⟩, rfl, by decide, by decide, rfl, by decide, by decide, rfl⟩

theorem witness_LaneMasks :
    Ready (one cellA) false cellA ∧ sourceOf false 6 cellA = some (0x100, cellA) ∧ (2 : BitVec 2) ≠ 3 ∧
    (destOf false 5 192 cellA).isSome := ⟨⟨rfl, rfl⟩, rfl, by decide, rfl⟩

theorem witness_SpecialRegisterReads :
    Ready (one cellA) true cellA ∧ (destOf true 5 1 cellA).isSome ∧ cellA.frozen = none ∧
    (9 < (10#8).toNat ∧ (15#8).toNat < 16) ∧ 23 < (24#8).toNat := ⟨⟨rfl, rfl⟩, rfl, rfl, by decide, by decide⟩

/-- A store of this cell is not yet performed. -/
def cellS : Cell := { mem := { bufs := #v[[⟨false, 0x100, 1, 5, 0, 0, [], []⟩], [], [], []] }, core := { pcE := 4 } }

/-- The access stream lags behind an `mts`. -/
def cellLag : Cell := { cellA with core := { cellA.core with pcE := 8 } }

theorem witness_SpecialRegisterWrites_waits :
    Ready (one cellLag) false cellLag ∧ sourceOf false 6 cellLag = some (0x100, cellLag) ∧ accessReached cellLag.core = false ∧
    accessReached cellA.core = true ∧ (∀ q : Fin 4, cellA.mem.bufs[q] = []) ∧ ∃ q : Fin 4, cellS.mem.bufs[q] ≠ [] :=
  ⟨⟨rfl, rfl⟩, rfl, by decide, by decide, by decide, 0, by decide⟩

theorem witness_SpecialRegisterWrites :
    Ready (one cellA) false cellA ∧ sourceOf false 6 cellA = some (0x100, cellA) ∧
    (0x17 : BitVec 8) ∈ ([0x00, 0x01, 0x02, 0x03, 0x04, 0x06, 0x10, 0x11, 0x12, 0x13, 0x14, 0x15, 0x16, 0x17] : List (BitVec 8)) ∧
    (9 < (10#8).toNat ∧ (15#8).toNat < 16) ∧ 23 < (24#8).toNat := ⟨⟨rfl, rfl⟩, rfl, by decide⟩

theorem witness_SystemInstructions :
    Ready (one cellA) false cellA ∧ sourceOf false 7 cellA = some (3, cellA) ∧ sourceOf false 6 cellA = some (0x100, cellA) ∧
    (3 : Word).toNat < (0x100 : Word).toNat ∧ cellA.core.hm = false ∧ earlierDone (one cellA) 0 cellA = true ∧
    clusterSize (one cellA) cellA ≤ 1 := ⟨⟨rfl, rfl⟩, rfl, rfl, by decide, rfl, by decide, by decide⟩

/-- A task of two cells. -/
def pair (c : Cell) : State :=
  { (one c) with tasks := [(0, { q := 0, part := 0, image := ⟨0, [], 0, none⟩, w := 2, h := 1, cells := [0, 1], stage := .running })] }

theorem witness_SystemInstructions_waits :
    Ready (one cellS) false cellS ∧ earlierDone (one cellS) 0 cellS = false ∧
    Ready (pair cellA) false cellA ∧ 1 < clusterSize (pair cellA) cellA ∧ cellA.core.exitBit = false ∧
    earlierDone (pair cellA) 0 cellA = true := ⟨⟨rfl, rfl⟩, by decide, ⟨rfl, rfl⟩, by decide, rfl, by decide⟩

/-- A cell with a handler. -/
def cellH : Cell := { core := { sr := { trapvec := 0x100 } } }

theorem witness_SoftwareTraps :
    Ready (one cellH) true cellH ∧ cellH.core.hm = false ∧ cellH.core.trap = none ∧ cellH.core.sr.trapvec ≠ 0 ∧
    (taskOf (one cellH) cellH).bind (·.residual) = none ∧ (taskOf (one cellH) cellH).bind (·.fatal) = none ∧
    accessesDone (one cellH) 0 cellH = true ∧ allAtStop cellH = true ∧ freezePending (one cellH) 0 0 = false ∧
    halting (one cellH) cellH = false := ⟨⟨rfl, rfl⟩, rfl, rfl, by decide, rfl, rfl, by decide⟩

/-- A cell in its handler. -/
def cellR : Cell := { core := { hm := true, save := some ⟨[], [], [], [], 8, 12, 0, 0, .idle, none⟩ } }

theorem witness_TrapReturn :
    Ready (one cellA) false cellA ∧ cellA.core.hm = false ∧ Ready (one cellR) false cellR ∧ cellR.core.hm = true ∧
    earlierDone (one cellR) 0 cellR = true ∧ cellR.core.save = some ⟨[], [], [], [], 8, 12, 0, 0, .idle, none⟩ ∧
    cellR.core.held = [] ∧ cellR.core.refusedLoads = [] := ⟨⟨rfl, rfl⟩, rfl, ⟨rfl, rfl⟩, rfl, by decide, rfl, rfl, rfl⟩

theorem witness_FatalTraps :
    Ready (one cellA) false cellA ∧ cellA.core.trap = none ∧ (look (one cellA).tasks cellA.task).isSome ∧
    (look (one cellA).tasks cellA.task).bind (·.fatal) = none ∧ cellA.core.sr.trapvec = 0 ∧
    Ready (one cellR) true cellR ∧ cellR.core.hm = true := ⟨⟨rfl, rfl⟩, rfl, rfl, rfl, rfl, ⟨rfl, rfl⟩, rfl⟩

/-- The package with a barrier record of level 0 at cell 0 that counts its member. -/
def counted (b : Barrier) (c : Cell) : State := { (one c) with barriers := [(0, b)] }

def cellL : Cell := { core := { sr := { domain := 31 } } }

theorem witness_BarrierArrivals :
    Ready (counted { expect := 1, counted := [0] } cellL) false cellL ∧ takesPart cellL 0 = true ∧ takesPart cellL 4 = true ∧
    takesPart cellL 5 = false ∧ cellL.core.barPhase = .idle ∧ levelBit cellL.bar.pending 0 = false ∧
    released (counted { expect := 1, counted := [0] } cellL) 0 cellL 0 = true ∧ cellBarrier 0 cellL 0 = 0 ∧
    (barrierAt (counted { expect := 1, counted := [0] } cellL) 0).counted.contains (memberOf cellL) = true ∧
    (barrierAt (one cellL) 0).counted.contains (memberOf cellL) = false :=
  ⟨⟨rfl, rfl⟩, rfl, rfl, rfl, rfl, rfl, by decide, rfl, rfl, rfl⟩

/-- Arrivals with a combine: the record holds none, the same one, or another one. -/
theorem witness_BarrierArrivals_combines :
    let b (op : Option (BitVec 3)) : State := counted { expect := 2, counted := [0], op := op, acc := 5 } cellL
    sourceOf false 0 cellL = some (0, cellL) ∧ (4#3).toNat ≤ 4 ∧
    (∀ op, (barrierAt (b op) 0).op = op ∧ (barrierAt (b op) 0).counted.contains (memberOf cellL) = true) ∧ (1#3) ≠ 4 ∧
    released (b none) 0 cellL 0 = true := ⟨rfl, by decide, fun _ => ⟨rfl, rfl⟩, by decide, by decide⟩

theorem test_barr_takes_the_greatest :
    (match exec (.barr 5 6 0 2) (counted { expect := 2, arrived := 1, counted := [0], op := some 2, acc := -1 }
        { cellL with core := setReg cellL.core false 6 3 }) with
      | .next t => (barrierAt t 0).acc
      | _ => 0) = 3 := by decide

/-- The arrival of level 0 is made, and its generation has turned. -/
def cellD : Cell := { core := { barPhase := .arrived 0, sr := { domain := 1 } }, bar := { pending := 1 } }

theorem witness_BarrierEnds :
    Ready (counted { gen := true } cellD) false cellD ∧ (0#3).toNat ≤ 4 ∧ (4#3).toNat ≤ 4 ∧ cellD.core.barPhase = .arrived 0 ∧
    barrierDone (counted { gen := true } cellD) cellD 0 = true ∧ (destOf false 5 1 cellD).isSome ∧
    Ready (one cellL) false cellL ∧ cellL.core.barPhase = .idle ∧ takesPart cellL 4 = true ∧ levelBit cellL.bar.pending 4 = false ∧
    Ready (one cellA) false cellA ∧ cellA.core.barPhase = .idle ∧ takesPart cellA 0 = false ∧
    (look (one { cellL with core := { cellL.core with barPhase := .arriving 0 none } }).cells 0).isSome ∧
    released (one { cellL with core := { cellL.core with barPhase := .arriving 0 none } }) 0
      { cellL with core := { cellL.core with barPhase := .arriving 0 none } } 0 = true :=
  ⟨⟨rfl, rfl⟩, by decide, by decide, rfl, rfl, rfl, ⟨rfl, rfl⟩, rfl, rfl, rfl, ⟨rfl, rfl⟩, rfl, rfl, rfl, by decide⟩

theorem witness_BarrierCompletion :
    let s := counted { expect := 1, arrived := 1, counted := [0], early := [(7, none)], placed := [7] } cellL
    let b := barrierAt s (barrierKey 0 0 0)
    0 < b.arrived ∧ b.arrived = b.expect ∧ (if b.gen then b.out1 else b.out0) = 0 ∧ look s.cells 0 = some cellL ∧
    inDomain (barrierKey 0 0 0) 0 0 cellL = true ∧ (b.early.map (·.1)).contains (memberOf cellL) = false ∧
    (barrierAt (counted { expect := 1, arrived := 1, out0 := 1 } cellL) 0).out0 ≠ 0 ∧
    (barrierAt (counted { expect := 2, arrived := 1 } cellL) 0).arrived ≠ 2 ∧ (barrierAt (one cellL) 0).arrived = 0 := by
  refine ⟨by decide, by decide, by decide, rfl, by decide⟩

/-- Counter 6 in a state; x6 names it under generation 2, x7 another partition's, x8 no counter. -/
def counters (k : CtrState) : State :=
  { (one { core := setReg (setReg (setReg {} false 6 0x20006) false 7 0x7) false 8 0x100000006 }) with
    counters := [(6, { state := k, gen := 2 }), (7, { part := 1 })] }

def cellC : Cell := { core := setReg (setReg (setReg {} false 6 0x20006) false 7 0x7) false 8 0x100000006 }

theorem witness_CounterInstructions :
    Ready (counters .fired) false cellC ∧ sourceOf false 6 cellC = some (0x20006, cellC) ∧
    sourceOf false 7 cellC = some (7, cellC) ∧ sourceOf false 8 cellC = some (0x100000006, cellC) ∧
    (0x20006 : Word).toNat / 2 ^ 32 = 0 ∧ (peek ({} : Counter) (counters .fired).counters 6).part = cellC.part ∧
    released (counters .fired) 0 cellC 3 = true ∧ (peek ({} : Counter) (counters .fired).counters 6).state = .fired ∧
    (peek ({} : Counter) (counters .fired).counters 6).gen.toNat = (0x20006 : Word).toNat / 2 ^ 16 ∧
    (peek ({} : Counter) (counters .armed).counters 6).state = .armed ∧
    (peek ({} : Counter) (counters .faulted).counters 6).state = .faulted ∧
    (peek ({} : Counter) (counters .fired).counters 7).part ≠ cellC.part ∧ (0x100000006 : Word).toNat / 2 ^ 32 ≠ 0 ∧
    { cellC with core := { cellC.core with fired := some 0x20006 } }.core.fired = some ((0x20006 : Word).setWidth 32) ∧
    cellC.core.fired = none := by
  refine ⟨⟨rfl, rfl⟩, rfl, rfl, rfl, ?_⟩
  decide

/-- Ranges of presence: x6, x7 the last word of group 0; x8 a misaligned base; x9 in a group that is not in presence mode. -/
def cellX : Cell :=
  { core := { (setReg (setReg (setReg (setReg {} false 6 0x1FFE0) false 7 0x20) false 8 0x10) false 9 0x20000) with
      sr := { pgmode := 1 } } }

theorem witness_PresenceRanges :
    Ready (one cellX) false cellX ∧ sourceOf false 6 cellX = some (0x1FFE0, cellX) ∧ sourceOf false 7 cellX = some (0x20, cellX) ∧
    (0x1FFE0 : Word).toNat % 32 = 0 ∧ (0x20 : Word).toNat % 32 = 0 ∧ (0x1FFE0 : Word).toNat + (0x20 : Word).toNat ≤ 0xC0000 ∧
    (∀ w, 0x1FFE0 / 32 ≤ w → w < (0x1FFE0 + 0x20) / 32 → cellX.core.sr.pgmode.getLsbD (w * 32 / 0x20000) = true) ∧
    sourceOf false 0 cellX = some (0, cellX) ∧ sourceOf false 8 cellX = some (0x10, cellX) ∧ (0x10 : Word).toNat % 32 ≠ 0 ∧
    sourceOf false 9 cellX = some (0x20000, cellX) ∧ cellX.core.sr.pgmode.getLsbD (0x20000 / 32 * 32 / 0x20000) = false := by
  refine ⟨⟨rfl, rfl⟩, rfl, rfl, by decide, by decide, by decide, ?_, rfl, rfl, by decide, rfl, by decide⟩
  intro w h1 h2
  have : w = 4095 := by omega
  subst this; decide

/-- Token 63 is bound; another cell waits on its production. -/
def cellT : Cell := { core := { tokens := (Vector.replicate 64 (Token.mk false 0)).set 63 ⟨true, 5⟩ } }

theorem witness_Tokens :
    Ready (one cellT) false cellT ∧ cellT.core.tokWait = none ∧ (cellT.core.tokens[0]).pend = false ∧ (cellT.core.tokens[63]).pend = true ∧
    Ready (one { cellT with core := { cellT.core with tokWait := some (63, 4) } }) false
      { cellT with core := { cellT.core with tokWait := some (63, 4) } } ∧ (cellT.core.tokens[63]).seq ≠ 4 ∧
    (destOf false 5 1 cellT).isSome := ⟨⟨rfl, rfl⟩, rfl, rfl, rfl, ⟨rfl, rfl⟩, by decide, rfl⟩

/-- Access registers with addresses of handles, offsets and places; handle 1 valid with write permission, handle 2 read-only,
handle 3 bound only. -/
def cellV : Cell :=
  { core := { (setReg (setReg (setReg (setReg (setReg {} true 5 0x200000000000000) true 6 0x1FFFFFFFFFFFFFF) true 7 0xFFF8) true 8 0x4000000000050000)
      true 9 0x80) with
      handles := #v[{}, { v := true, w := true, bound := true, pfn := 1 }, { v := true, bound := true, pfn := 1 }, { bound := true },
        {}, {}, {}, {}, {}, {}, {}, {}, {}, {}, {}, {}] } }

theorem witness_HandleBinding :
    Ready (one cellV) true cellV ∧ sourceOf true 5 cellV = some (0x200000000000000, cellV) ∧ 2 ^ 57 ≤ (0x200000000000000 : Word).toNat ∧
    sourceOf true 6 cellV = some (0x1FFFFFFFFFFFFFF, cellV) ∧ (0x1FFFFFFFFFFFFFF : Word).toNat < 2 ^ 57 ∧ (one cellV).tlb = [] :=
  ⟨⟨rfl, rfl⟩, rfl, by decide, rfl, by decide, rfl⟩

/-- Die 0 holds the translation of page 0, which an `xlat.rw` accepts, and that of page 1, which allows no write. -/
theorem witness_HandleBinding_hits :
    let e : TlbEntry := { die := 0, part := 0, vpage := 0, size := 0, pte := 0xE000000000010000 }
    let f : TlbEntry := { e with vpage := 1, pte := 0xC000000000020000 }
    let mine (va : Word) (e : TlbEntry) : Bool := e.die.toNat = dieOfCell 0 ∧ e.part = cellV.part ∧
      e.vpage.toNat = va.toNat / pageBytes e.size * (pageBytes e.size / 0x10000)
    [f, e].find? (mine 0xFFF8) = some e ∧ leafVerdict ({} : State).fw e.size e.pte true = .leaf e.size e.pte ∧
    [f, e].find? (mine 0x10000) = some f ∧ leafVerdict ({} : State).fw f.size f.pte true ≠ .leaf f.size f.pte := by decide +kernel

theorem witness_HandleAccesses :
    Ready (one cellV) true cellV ∧ debugs (one cellV) cellV = false ∧ sourceOf true 7 cellV = some (0xFFF8, cellV) ∧
    (0xFFF8 : Word).toNat + 8 ≤ pageBytes 0 ∧ (0x10000 + 0xFFF8) % 8 = 0 ∧ (Instr.hld 10 1 0 3 7 0).WellFormed ∧
    (Instr.hldn 10 1 0 2 7 0).WellFormed ∧ (Instr.hstnt 9 1 0 3 7 0).WellFormed ∧ (Claims.loadHeld 10 cellV).isSome ∧
    (Claims.loadHeld 30 cellV).isSome ∧ (cellV.core.handles[1]).w = true ∧ sourceOf true 9 cellV = some (0x80, cellV) ∧
    cellV.core.credits < 16 ∧ (cellV.core.handles[0]).bound = false ∧ (cellV.core.handles[3]).bound = true ∧
    (cellV.core.handles[3]).v = false ∧ pageBytes 0 < (0xFFF8 + 1 * 2 ^ 3) % 2 ^ 64 + 2 ^ 3 ∧ (0x10000 + (0x80 + 0) % 2 ^ 64 + 0xFF79) % 8 ≠ 0 ∧
    (cellV.core.handles[2]).w = false :=
  ⟨⟨rfl, rfl⟩, rfl, rfl, by decide, by decide, by decide, by decide, by decide, rfl, rfl, rfl, rfl, by decide, rfl, rfl, rfl, by decide,
    by decide, rfl⟩

theorem witness_PlaceTargets :
    (taskOf (pair cellA) cellA).map (fun k => (k.w, k.h)) = some (2, 1) ∧
    (1 : Word).toNat < 256 ∧ ((1 : Word).extractLsb' 0 4).toInt = 1 ∧ ((1 : Word).extractLsb' 4 4).toInt = 0 ∧
    ((0xFF : Word).extractLsb' 0 4).toInt = -1 ∧ (0xBFFFF : Word).toNat < 0xC0000 ∧ (0x100 : Word).toNat / 2 ^ 62 = 0 ∧
    (0x4000000000050000 : Word).toNat = 2 ^ 62 + (5 : BitVec 16).toNat * 2 ^ 16 ∧
    (0x8000000000050000 : Word).toNat = 2 ^ 63 + (5 : BitVec 16).toNat * 2 ^ 16 ∧ (one cellA).fw.torus.1 ≠ 0 ∧
    (one cellA).fw.torus.2.1 ≠ 0 ∧ (one cellA).fw.torus.2.2 ≠ 0 ∧ (one cellA).fw.pkg.toNat % 8 < (one cellA).fw.torus.1.toNat ∧
    3 * 2 ^ 62 ≤ (0xC000000000000000 : Word).toNat ∧
    (0x80008F1000050000 : Word).toNat =
      2 ^ 63 + (8 : BitVec 4).toNat * 2 ^ 44 + (0xF : BitVec 4).toNat * 2 ^ 40 + (1 : BitVec 4).toNat * 2 ^ 36 + (5 : BitVec 16).toNat * 2 ^ 16 ∧
    (1 ≤ (8 : BitVec 4).toNat ∧ (8 : BitVec 4).toNat ≤ 8) := by decide

/-- Handle values of kinds 01 and 10 with spare bits set name nothing. -/
theorem witness_PlaceTargets_spare :
    (∀ w : BitVec 16, (0x4000000000000001 : Word).toNat ≠ 2 ^ 62 + w.toNat * 2 ^ 16) ∧
    (∀ (w : BitVec 16) (dX dY dZ : BitVec 4), (0x8001000000000000 : Word).toNat ≠
      2 ^ 63 + dZ.toNat * 2 ^ 44 + dY.toNat * 2 ^ 40 + dX.toNat * 2 ^ 36 + w.toNat * 2 ^ 16) := by
  refine ⟨fun w => ?_, fun w dX dY dZ => ?_⟩
  · have : (0x4000000000000001 : Word).toNat = 2 ^ 62 + 1 := rfl
    omega
  · have : (0x8001000000000000 : Word).toNat = 2 ^ 63 + 2 ^ 48 := rfl
    have := w.isLt
    have := dX.isLt
    have := dY.isLt
    have := dZ.isLt
    omega

theorem witness_RemoteAccesses :
    Ready (one cellV) true cellV ∧ debugs (one cellV) cellV = false ∧ sourceOf true 0 cellV = some (0, cellV) ∧
    sourceOf true 9 cellV = some (0x80, cellV) ∧ sourceOf true 8 cellV = some (0x4000000000050000, cellV) ∧
    placeTarget (one cellV) cellV 0 0x80 = some (.cell 0) ∧ placeTarget (one cellV) cellV 0x4000000000050000 0x80 = some (.window 0 5) ∧
    (Instr.rld 10 0 9 0 0 3).WellFormed ∧ (Instr.rldLine 0 9 1 0).WellFormed ∧ (Instr.rst 9 0 9 0 0 2).WellFormed ∧
    (0x80 : Word).toNat % 128 = 0 ∧ cellV.core.slots < 8 ∧ cellV.core.ldq.length < 32 ∧ storesBuffered cellV true = false ∧
    cellV.core.credits < 16 ∧ placeTarget (one cellV) cellV 0x200000000000000 0x80 = none ∧
    placeTarget (one cellV) cellV 0 0xFFF8 ≠ none ∧ (0xFFF8 : Word).toNat % 128 ≠ 0 :=
  ⟨⟨rfl, rfl⟩, rfl, rfl, rfl, rfl, by decide⟩

theorem witness_Atomics :
    Ready (one cellV) true cellV ∧ debugs (one cellV) cellV = false ∧ sourceOf true 7 cellV = some (0xFFF8, cellV) ∧
    sourceOf true 10 cellV = some (0, cellV) ∧ sourceOf true 11 cellV = some (0, cellV) ∧ (Instr.amo 10 1 0 7 2 1).WellFormed ∧
    (cellV.core.handles[1]).bound = true ∧ (cellV.core.handles[1]).v = true ∧ (cellV.core.handles[1]).w = true ∧
    (cellV.core.handles[1]).kind ≠ 3 ∧ (0xFFF8 : Word).toNat + 8 ≤ pageBytes 0 ∧ (0x10000 + (0xFFF8 : Word).toNat) % 8 = 0 ∧
    cellV.core.slots < 8 ∧ (Instr.ramo 10 0 9 0 0 0 0).WellFormed ∧ placeTarget (one cellV) cellV 0 0x80 = some (.cell 0) ∧
    (0x80 : Word).toNat % 4 = 0 :=
  ⟨⟨rfl, rfl⟩, rfl, rfl, rfl, rfl, by decide, rfl, rfl, rfl, by decide⟩

/-- A message of this cell that is a store and non-temporal. -/
def msgStore (t : Target) (a : Nat) (nt : Bool) : Msg :=
  { cell := 0, task := 0, acc := true, br := 0, pc := 0, cls := 0, rc := 0, nt := nt, target := t, addr := a, size := 8, kind := .store 5 }

def msgLoad (t : Target) (a : Nat) : Msg := { msgStore t a false with kind := .load false (.reg 5) }

def sending (m : Msg) (c : Cell) : State := { (one c) with msgs := [(0, m)], nextMsg := 1 }

theorem witness_FencesAndDrains :
    Ready (one cellA) true cellA ∧ (Instr.fence true 4 7 15).WellFormed ∧ cellA.core.recent = [] ∧
    fenceWaits (one cellA) 0 cellA true 4 7 15 = false ∧ fenceWaits (sending (msgStore .pa 0 false) cellA) 0 cellA true 4 7 15 = true ∧
    (Instr.drain true 4).WellFormed ∧ debugs (one cellA) cellA = false ∧ drainWaits (one cellA) 0 cellA true 4 = false ∧
    drainWaits (sending (msgStore .pa 0 true) cellA) 0 cellA true 4 = true :=
  ⟨⟨rfl, rfl⟩, by decide, rfl, by decide, by decide, by decide, rfl, by decide, by decide⟩

/-- Window 15 is open; registers with a base, a length, a misaligned one, and the last base. -/
def cellW : Cell :=
  { core := { (setReg (setReg (setReg {} true 6 0x10000) true 7 0x100) true 8 0x1FFFFFFFFFF0000) with
      windows := (Vector.replicate 16 none).set 15 (some ⟨0x10000, 0x10000, 0x10000⟩) } }

theorem witness_StreamWindows :
    Ready (one cellW) true cellW ∧ sourceOf true 6 cellW = some (0x10000, cellW) ∧ cellW.core.windows[0] = none ∧
    (cellW.core.windows[15]).isSome ∧ sourceOf true 0 cellW = some (0, cellW) ∧ sourceOf true 7 cellW = some (0x100, cellW) ∧
    (0x100 : Word).toNat % 65536 ≠ 0 ∧ sourceOf true 8 cellW = some (0x1FFFFFFFFFF0000, cellW) ∧
    (0x1FFFFFFFFFF0000 : Word).toNat % 65536 = 0 ∧ 2 ^ 57 < (0x1FFFFFFFFFF0000 : Word).toNat + (0x20000 : Word).toNat ∧
    (0x1FFFFFFFFFF0000 : Word).toNat < 2 ^ 57 ∧ (0x1FFFFFFFFFF0000 : Word).toNat + (0x10000 : Word).toNat ≤ 2 ^ 57 :=
  ⟨⟨rfl, rfl⟩, rfl, rfl, rfl, rfl, rfl, by decide, rfl, by decide⟩

theorem witness_StoreRetirement :
    look (one cellS).cells 0 = some cellS ∧ cellS.mem.bufs[0] = [⟨false, 0x100, 1, 5, 0, 0, [], []⟩] ∧ Memory.wf cellS.mem.scratch = true ∧
    meetsFull cellS 0x100 = false ∧ meetsFull { cellS with core := { cellS.core with sr := { pgmode := 1 } } } 0x100 = true ∧
    look (sending (msgStore .pa 0 true) { bag := [0] }).cells 0 = some { bag := [0] } ∧
    ({ bag := [0] } : Cell).bag[0]? = some 0 ∧ look (sending (msgStore .pa 0 true) { bag := [0] }).msgs 0 = some (msgStore .pa 0 true) :=
  ⟨rfl, rfl, rfl, by decide, by decide, rfl, rfl, rfl⟩

/-- An access table that admits partition 0 to all of a unit, by every request. -/
def admitting (u : AccessUnit) : SMap (Word × Word) := [(unitKey u * 256, (0xF000000000000000, 0xFFFFFFFFF))]

def served (m : Msg) (c : Cell) (u : AccessUnit) : State := { (sending m c) with access := admitting u }

theorem witness_ScratchRequests :
    let m := msgStore (.cell 0) 0xBFFF8 false
    let s := served m {} (.cellRemote 0)
    look s.msgs 0 = some m ∧ deliverable s 0 m = true ∧ look s.cells 0 = some {} ∧ presenceMode {} m.addr = false ∧
    Memory.wf ({} : Cell).mem.scratch = true ∧ keysFrom 0 s.msgs = true ∧
    admits s (unitKey (.cellRemote 0)) 0 (issuerPart s m) 0 (permBit m.kind) m.addr (m.addr + m.size - 1) = true ∧
    admits (served (msgLoad (.cell 0) 0) {} (.cellRemote 0)) (unitKey (.cellRemote 0)) 0 0 0
      (permBit (msgLoad (.cell 0) 0).kind) 0 7 = true :=
  ⟨rfl, by decide, rfl, by decide, rfl, rfl, by decide, by decide⟩

theorem witness_PhysicalRequests :
    let m := msgStore .pa 0x100 false
    let s := served m {} (.hbm 0)
    look s.msgs 0 = some m ∧ deliverable s 0 m = true ∧ s.migrations = [] ∧ s.poison = [] ∧ Memory.wf s.mem = true ∧
    keysFrom 0 s.msgs = true ∧ admitsPhysical s 0 (issuerPart s m) 0 (permBit m.kind) m.addr m.size = true ∧
    admitsPhysical (served (msgLoad .pa 0x8000000000000) {} (.hbm 0)) 0 0 0 62 0x8000000000000 8 = true :=
  ⟨rfl, by decide, rfl, rfl, rfl, rfl, by decide, by decide⟩

theorem witness_HeatRowsAndErrors :
    keysFrom 0 ({ heat := [(3, 255)] } : State).heat = true ∧ peek 0 ({} : State).fw.spares (bankKey ⟨0, 0, 0, 0, 0, 0⟩) < 16 ∧
    16 ≤ peek 0 ({ fw := { spares := [(bankKey ⟨0, 0, 0, 0, 0, 0⟩, 16)] } } : State).fw.spares (bankKey ⟨0, 0, 0, 0, 0, 0⟩) ∧
    (List.replicate 8 (0 : Word)).length ≤ 4096 ∧ (∀ (n : Word) (es : List Word), es.length ≤ 4096 →
      (⟨n, es, slotSig n es, false⟩ : RetSlot).verifies = true) ∧ (3 : Word).toNat < (4 : Word).toNat ∧
    (∀ f, frameMapped {} f = false) ∧ (∀ fs : List (BitVec 36), 0 :: fs ≠ fs) ∧
    (4 : Word).toNat + 1 < 2 ^ 64 ∧ look (one cellW).cells 0 = some cellW ∧ cellW.core.windows[15] = some ⟨0x10000, 0x10000, 0x10000⟩ ∧
    cellW.core.windows[0] = none ∧ keysFrom 0 (one cellW).published = true :=
  ⟨rfl, by decide, by decide, by decide, fun n es h => by simp [RetSlot.verifies, h], by decide, fun _ => rfl, fun _ h => by simpa using congrArg List.length h, by decide, rfl, rfl,
    rfl, rfl⟩

/-- A response to a request of this cell. -/
def answered (r : Resp) : State := { (one { core := { slots := 1, credits := 1, busy := 32, ldq := [⟨0, false, [], false⟩] } }) with resps := [(0, r)] }

def cellY : Cell := { core := { slots := 1, credits := 1, busy := 32, ldq := [⟨0, false, [], false⟩] } }

theorem witness_Responses :
    look (answered { msg := msgLoad .pa 0, vals := [7], refusal := none }).resps 0 = some { msg := msgLoad .pa 0, vals := [7], refusal := none } ∧
    look (answered { msg := msgLoad .pa 0, vals := [7], refusal := none }).cells 0 = some cellY ∧ cellY.task = (msgLoad .pa 0).task ∧
    keysFrom 0 (answered { msg := msgLoad .pa 0, vals := [7], refusal := none }).resps = true ∧ (msgLoad .pa 0).kind = .load false (.reg 5) ∧
    ({ msgLoad .pa 0 with kind := .load true (.ldq 0) } : Msg).kind = .load true (.ldq 0) ∧ (msgStore .pa 0 false).kind = .store 5 ∧
    look (answered { msg := msgLoad .pa 0, vals := [], refusal := some .access }).resps 0 = some { msg := msgLoad .pa 0, vals := [], refusal := some .access } ∧
    look (answered { msg := msgStore .pa 0 false, vals := [], refusal := some .align }).resps 0 = some { msg := msgStore .pa 0 false, vals := [], refusal := some .align } :=
  ⟨rfl, rfl, rfl, rfl, rfl, rfl, rfl, rfl, rfl⟩

/-- A page table of partition 0 at 1 MiB: one page of 64 KiB at virtual address 0, frame 1, writable. -/
def pageTable : Mem :=
  writeWord (writeWord (writeWord (writeWord (writeWord [] 0x100000 8 0x8000000000101000) 0x101000 8 0x8000000000102000)
    0x102000 8 0x8000000000103000) 0x103000 8 0x8000000000104000) 0x104000 8 0xE000000000010000

def mapped (c : Cell) : State :=
  { (one c) with mem := pageTable, parts := [(0, { root := 0x100000, evictPages := 1 })], fw := { cxl0 := 0x10000 } }

def moving (st : MigStep) (dirty : List Nat) : Migration :=
  { part := 0, va := 0, bytes := 0x10000, src := 1, dst := 0x1000000, gen := 0, leafAt := 0x104000, step := st, dirty := dirty }

theorem witness_Migrations :
    look (mapped {}).migrations 0 = none ∧ walk (mapped {}) 0 0 false = .leaf 0 0xE000000000010000 ∧
    (0xE000000000010000 : Word).getLsbD 60 = false ∧ mayMove 0x10000 (0x1000000 * 0x10000) = true ∧
    populated (mapped {}).fw (0x1000000 * 0x10000) (pageBytes 0) = true ∧ 0x1000000 * 0x10000 % pageBytes 0 = 0 ∧
    underWindow (mapped {}) 0x10000 (pageBytes 0) = false ∧ (partOf (mapped {}) 0).evictPages ≠ 0 ∧ regionOf (0x1000000 * 0x10000) = some 2 ∧
    look ({ (mapped {}) with migrations := [(0, moving .arm [])] } : State).migrations 0 = some (moving .arm []) ∧
    Memory.wf (mapped {}).mem = true ∧ (moving .arm []).src.toNat * 0x10000 + 0x10000 ≤ (moving .arm []).dst.toNat * 0x10000 ∧
    4 < (moving .copy [0, 1, 2, 3, 4]).dirty.length ∧ (moving .copy [0, 1, 2, 3, 4]).rounds < 8 ∧
    (moving .recopy [0, 1, 2, 3]).dirty.length ≤ 4 ∧ (moving .hold []).step = .hold ∧ (moving .switched []).held = [] ∧
    keysFrom 0 [(0, moving .switched [])] = true := by
  refine ⟨rfl, by decide, by decide, by decide, ?_⟩
  refine ⟨by decide, by decide, by decide, by decide, by decide, rfl, ?_⟩
  decide

theorem witness_HeatRowsAndErrors_mapped : ∃ f ∈ [(1 : BitVec 36)], frameMapped (mapped {}) f = true :=
  ⟨1, by decide, by decide +kernel⟩

theorem readWord_unlisted (m : Mem) (a n : Nat) (h : ∀ k ∈ keys m, k < a ∨ a + n ≤ k) : readWord m a n = 0 := by
  have hb : readBytes m a n = List.replicate n 0 := by
    induction n generalizing a with
    | zero => rfl
    | succ n ih =>
      have hl : look m a = none := by
        have h' : ∀ k ∈ keys m, k ≠ a := fun k hk => by have := h k hk; omega
        clear h ih
        induction m with
        | nil => rfl
        | cons p m ih =>
          have := h' p.1 (by simp [keys])
          simp only [look, if_neg this]
          exact ih fun k hk => h' k (by simp only [keys, List.map_cons, List.mem_cons]; exact .inr hk)
      have hr : readByte m a = 0 := by simp [readByte, peek, hl]
      simp only [readBytes, hr, List.replicate_succ]
      rw [ih (a + 1) fun k hk => by have := h k hk; omega]
  have h0 : ofBytes (List.replicate n (0 : Byte)) = 0 := by
    clear hb h
    induction n with
    | zero => rfl
    | succ n ih => rw [List.replicate_succ, ofBytes, ih]; rfl
  rw [readWord, hb, wordOf, h0]
  rfl

/-- A node of which only the first entry can be valid. -/
theorem leavesFrom_first (s : State) (n node va : Nat) (hg : regionOf node = some 1) (hp : poisoned s node 8 = false)
    (h : ∀ i, 1 ≤ i → i < 512 → readWord s.mem (node + 8 * i) 8 = 0) :
    leavesFrom s (n + 1) node va =
      let level := 4 - n
      let pte := readWord s.mem node 8
      if bit pte 63 = false then []
      else if bit pte 62 then
        if level ≤ 1 || leafVerdict s.fw (BitVec.ofNat 2 (4 - level)) pte false != .leaf (BitVec.ofNat 2 (4 - level)) pte then []
        else [(va, BitVec.ofNat 2 (4 - level), pte)]
      else if level = 4 || field pte 52 10 != 0 || field pte 0 12 != 0 then []
      else leavesFrom s n ((field pte 12 40).toNat * 4096) va := by
  have hr (k : Nat) (f : Nat → List (Nat × BitVec 2 × Word)) (hf : ∀ i, 1 ≤ i → i < 512 → f i = []) (hk : k = 32 ∨ k = 512) :
      (List.range k).flatMap f = f 0 := by
    obtain ⟨j, rfl, hj⟩ : ∃ j, k = j + 1 ∧ j < 512 := ⟨k - 1, by omega, by omega⟩
    rw [List.range_succ_eq_map, List.flatMap_cons, List.flatMap_eq_nil_iff.2, List.append_nil]
    intro i hi
    obtain ⟨x, hx, rfl⟩ := List.mem_map.1 hi
    have := List.mem_range.1 hx
    exact hf _ (by omega) (by omega)
  simp only [leavesFrom, hg, ne_eq, not_true_eq_false, if_false]
  rw [hr]
  · simp [hp]
  · intro i h1 h2
    simp only [h i h1 h2]
    rfl
  · split <;> simp

theorem leavesFrom_next (s : State) (n node next va : Nat) (pte : Word) (hg : regionOf node = some 1) (hq : poisoned s node 8 = false)
    (h : ∀ i, 1 ≤ i → i < 512 → readWord s.mem (node + 8 * i) 8 = 0) (hp : readWord s.mem node 8 = pte) (hv : bit pte 63 = true)
    (hn : bit pte 62 = false) (hz : (decide (4 - n = 4) || field pte 52 10 != 0 || field pte 0 12 != 0) = false)
    (hx : (field pte 12 40).toNat * 4096 = next) : leavesFrom s (n + 1) node va = leavesFrom s n next va := by
  rw [leavesFrom_first _ _ _ _ hg hq h]
  simp only [hp, hv, hn, hz, hx]
  rfl

theorem pageTable_keys : keys pageTable = [0x100001, 0x100002, 0x100007, 0x101001, 0x101002, 0x101007, 0x102001, 0x102002, 0x102007,
    0x103001, 0x103002, 0x103007, 0x104002, 0x104007] := by decide

theorem mapped_mem (c : Cell) : (mapped c).mem = pageTable := rfl

theorem mapped_above (node k : Nat) (_ : k < 5) (hn : node = 0x100000 + 0x1000 * k) (i : Nat) (h1 : 1 ≤ i) (h2 : i < 512) :
    readWord (mapped {}).mem (node + 8 * i) 8 = 0 := by
  subst hn
  rw [mapped_mem]
  apply readWord_unlisted
  rw [pageTable_keys]
  simp only [List.mem_cons, List.not_mem_nil, or_false]
  omega

/-- A node of the table that leads to the next one. -/
theorem mapped_next (n k va : Nat) (hk : k < 4) (pte : Word) (hp : readWord pageTable (0x100000 + 0x1000 * k) 8 = pte)
    (hv : bit pte 63 = true) (hn : bit pte 62 = false)
    (hz : (decide (4 - n = 4) || field pte 52 10 != 0 || field pte 0 12 != 0) = false)
    (hx : (field pte 12 40).toNat * 4096 = 0x100000 + 0x1000 * (k + 1)) (hg : regionOf (0x100000 + 0x1000 * k) = some 1) :
    leavesFrom (mapped {}) (n + 1) (0x100000 + 0x1000 * k) va = leavesFrom (mapped {}) n (0x100000 + 0x1000 * (k + 1)) va :=
  leavesFrom_next _ n _ _ _ pte hg rfl (mapped_above _ k (by omega) rfl) (by rw [mapped_mem, hp]) hv hn hz hx

theorem witness_Migrations_evictor : evictChoice (mapped {}) 0 0 = some 0 := by
  have hl : leavesFrom (mapped {}) 5 0x100000 0 = [(0, 0, 0xE000000000010000)] := by
    have h0 := mapped_next 4 0 0 (by omega) 0x8000000000101000 (by decide) rfl rfl rfl rfl rfl
    have h1 := mapped_next 3 1 0 (by omega) 0x8000000000102000 (by decide) rfl rfl rfl rfl rfl
    have h2 := mapped_next 2 2 0 (by omega) 0x8000000000103000 (by decide) rfl rfl rfl rfl rfl
    have h3 := mapped_next 1 3 0 (by omega) 0x8000000000104000 (by decide) rfl rfl rfl rfl rfl
    have h4 := leavesFrom_first (mapped {}) 0 0x104000 0 rfl rfl (mapped_above _ 4 (by omega) rfl)
    rw [mapped_mem, show readWord pageTable 0x104000 8 = 0xE000000000010000 by decide] at h4
    exact (((h0.trans h1).trans h2).trans h3).trans (h4.trans (by decide +kernel))
  have hr : (partOf (mapped {}) 0).root = 0x100000 := rfl
  rw [evictChoice, hr, hl]
  decide +kernel

/-- The access stream stands at `hld x10, [h3 + x7]`; handle 3 is bound to the page at 0 and not valid. -/
def cellK : Cell :=
  { cellV with mem := { code := memOf (bytesOf (coreWord (.hld 10 3 0 3 7 0)).toNat 4), codeLen := 4 } }

theorem witness_BindingChanges :
    look (mapped cellK).cells 0 = some cellK ∧ streamRuns cellK true = true ∧ (cellK.core.handles[3]).bound = true ∧
    (cellK.core.handles[3]).v = false ∧ fetchOk cellK.mem (nextPlace cellK true) = true ∧
    usesHandle (codeWord cellK.mem (nextPlace cellK true).toNat) 3 = true ∧
    walk (mapped cellK) cellK.part ((cellK.core.handles[3]).vpage.toNat * 0x10000) (cellK.core.handles[3]).rwreq =
      .leaf 0 0xE000000000010000 ∧
    ({ (mapped cellK) with revocations := [⟨0, 1, [0]⟩] } : State).revocations = [⟨0, 1, [0]⟩] ∧ requestsOf (mapped cellK) 0 = [] :=
  ⟨rfl, by decide, rfl, rfl, by decide, by decide, by decide, rfl, rfl⟩

theorem witness_PacketWords :
    ({ shadow := [] } : Parse).launch = none ∧ ({ shadow := [], stack := List.replicate 8 0 } : Parse).stack.length ≤ 8 ∧
    (0x7FFF#16).toNat < 2 ^ 15 ∧
    (let p : Parse := { shadow := [], tok := some (0, 0), stack := [0xBE000, 31] }
     p.launch = none ∧ p.tok ≠ none ∧ p.stack = [0xBE000, 31] ∧ (0xBE000 : Word).toNat % 32 = 0 ∧ (0xBE000 : Word).toNat ≤ 0xBE000 ∧
     (31 : Word).toNat < 32 ∧ ¬ (32 : Word).toNat < 32) ∧
    ((15 : Word).toNat < 16 ∧ 16 ≤ (16 : Word).toNat) ∧
    ((0x1FFFFFFFFFFFFC0 : Word).toNat % 64 = 0 ∧ (0x1FFFFFFFFFFFFC0 : Word).toNat < 2 ^ 57 ∧ (3 : Word).toNat < 4) ∧
    ¬ ((32 : Word).toNat % 64 = 0) ∧ 4 ≤ (4 : Word).toNat ∧ (0xFFFFFFFF : Word).toNat < 2 ^ 32 ∧ ¬ (0x100000000 : Word).toNat < 2 ^ 32 ∧
    ((0x1FFFFFFFFFFFF80 : Word).toNat % 128 = 0 ∧ (0x1FFFFFFFFFFFF80 : Word).toNat < 2 ^ 57) ∧ ¬ ((64 : Word).toNat % 128 = 0) := by decide

/-- x6 holds the packet `tok 0, 0; 0; drop; go.mm`, x7 one that drops from an empty stack; the image holds the first. -/
def cellM : Cell :=
  { core := setReg (setReg {} false 6 0xE020E0010000C200) false 7 0xE020C2000000E001
    mem := { code := memOf (bytesOf 0 4 ++ bytesOf 0xE020E0010000C200 8), codeLen := 12 } }

def launchOf (p : Parsed) : Option (Launch × Option (BitVec 3)) :=
  match p with
  | .ok p => p.launch.bind fun l => if p.tok.isSome then some (l, p.phase) else none
  | .error _ => none

theorem witness_PacketIssue :
    Ready (one cellM) false cellM ∧ (getQueue cellM 0).entries.length < 16 ∧ (Instr.enq 0 6 0).WellFormed ∧
    launchOf (packetWords (one cellM) cellM 0 0 [0xC200, 0, 0xE001, 0xE020] { shadow := [] }) = some (.goMm, none) ∧
    (List.range 1).flatMap (fun j =>
      let v := getReg cellM.core false (6 + BitVec.ofNat 5 j)
      [BitVec.ofNat 16 v.toNat, BitVec.ofNat 16 (v.toNat / 2 ^ 16), BitVec.ofNat 16 (v.toNat / 2 ^ 32), BitVec.ofNat 16 (v.toNat / 2 ^ 48)]) =
      [0xC200#16, 0, 0xE001, 0xE020] ∧
    launchOf (packetWords (one cellM) cellM 0 0 [0xE001, 0, 0xC200, 0xE020] { shadow := [] }) = none ∧
    (0 : Int) ≤ cellM.core.pcE.toNat + 4 * (1#16).toInt ∧
    cellM.core.pcE.toNat + 4 * (1#16).toInt + 2 * ((3#5).toNat + 1) ≤ cellM.mem.codeLen + cellM.mem.constLen ∧
    (List.range 4).map (fun j => BitVec.ofNat 16 (ofBytes (readBytes cellM.mem.code (4 + 2 * j) 2))) = [0xC200#16, 0, 0xE001, 0xE020] ∧
    (cellM.core.pcE.toNat + 4 * (0xFFFF#16).toInt : Int) < 0 ∧
    ((cellM.mem.codeLen + cellM.mem.constLen : Nat) : Int) < cellM.core.pcE.toNat + 4 * (1#16).toInt + 2 * ((4#5).toNat + 1) ∧
    (getQueue { cellM with queues := cellM.queues.set 0 { entries := List.replicate 16 { seq := 0, launch := .goMm, tok := 0, scope := 0 } } } 0).entries.length = 16 :=
  ⟨⟨rfl, rfl⟩, by decide⟩

/-- An entry whose packet has no waits. -/
def entry (l : Launch) (cfg : SMap Word) (st : EntryStatus) : Entry :=
  { seq := 1, launch := l, tok := 0, prod := 1, scope := 0, cfg := cfg, km := BitVec.allOnes 192, kn := BitVec.allOnes 192
    kk := BitVec.allOnes 192, status := st, idx := [0, 0, 0, 0, 0, 0] }

/-- A cell with one entry at the head of queue q. -/
def queued (q : BitVec 2) (e : Entry) : Cell := { queues := (Vector.replicate 4 ({} : EQueue)).set q.toNat { entries := [e], iseq := 1 } }

theorem witness_CollarStarts :
    let e (l : Launch) := entry l [] .waiting
    let valid (c : Cell) : Cell := { c with collar := { c.collar with store := [(7, 0x80)] } }
    let k := valid (queued 1 (e (.arm 0)))
    Claims.HeadMayStart (one k) 1 k (e (.arm 0)) ∧ (e (.arm 0)).swapped = false ∧
    contextFault (healthyStrips (one k) 0) (loadContext k.collar 0) = none ∧
    (contextFault (healthyStrips (one k) 0) (loadContext k.collar 1)).isSome ∧ k.collar.shValid = false ∧
    halfEnded k.collar k.collar.actE false = true ∧ halfEnded k.collar k.collar.actX true = true ∧
    contextUse (loadContext k.collar 0) = activeUse k.collar ∧ k.collar.shE = none ∧ k.collar.shX = none ∧
    Claims.HeadMayStart (one (queued 1 (e .fire))) 1 (queued 1 (e .fire)) (e .fire) ∧
    Claims.HeadMayStart (one (queued 1 (e (.recfgX 0)))) 1 (queued 1 (e (.recfgX 0))) (e (.recfgX 0)) ∧
    Claims.HeadMayStart (one (queued 1 (e (.xctx 0xBE000 15 true)))) 1 (queued 1 (e (.xctx 0xBE000 15 true))) (e (.xctx 0xBE000 15 true)) ∧
    presenceMode (queued 1 (e .fire)) 0xBE000 = false ∧ presenceMode (queued 1 (e .fire)) (0xBE000 + 0x1FFF) = false ∧
    presenceMode { (queued 1 (e .fire)) with core := { sr := { pgmode := 32 } } } 0xBE000 = true ∧
    Claims.HeadMayStart (one (queued 1 (e .strain))) 1 (queued 1 (e .strain)) (e .strain) ∧ (queued 1 (e .strain)).core.hm = false :=
  ⟨⟨rfl, rfl, by decide⟩, rfl, by decide, by decide, rfl, by decide, by decide, by decide, rfl, rfl, ⟨rfl, rfl, by decide⟩,
    ⟨rfl, rfl, by decide⟩, ⟨rfl, rfl, by decide⟩, by decide, by decide, by decide, ⟨rfl, rfl, by decide⟩, rfl⟩

/-- Shadows that say more: the active half has a strip that has not ended; a context that uses a strip. -/
theorem witness_CollarStarts_running :
    let half : Half := ⟨0, [(0, 1), (7, 0x80)], false⟩
    let k : Collar := { actE := some half, shValid := true, store := [(7, 0x80), (0x2000, 1), (0x2007, 0x80)] }
    halfEnded k k.actE false = false ∧ k.shValid = true ∧ contextUse (loadContext k 0) ≠ activeUse k := by decide

/-- i8 operands of one active row and column. -/
def i8Entry (l : Launch) (st : EntryStatus) : Entry := { (entry l [(2, 0x20000), (9, 0xAA)] st) with km := 1, kn := 1 }

theorem witness_MatrixEngine :
    let c := queued 0 (i8Entry .goMm .waiting)
    let e := i8Entry .goMmacc .running
    let r := queued 0 e
    Claims.HeadMayStart (one c) 0 c (i8Entry .goMm .waiting) ∧ (peek (0 : Word) (i8Entry .goMm .waiting).cfg 0x0C).getLsbD 0 = false ∧
    (startFault c (i8Entry .goMm .waiting)).isNone = (pairing (fmtA (i8Entry .goMm .waiting)) (fmtB (i8Entry .goMm .waiting))).isSome ∧
    look (one r).cells 0 = some r ∧ (getQueue r 0).entries.head? = some e ∧ r.frozen = none ∧
    (getQueue r 0).stopped = false ∧ (∀ x ∈ r.mem.served, x.reader ≠ .matrix) ∧ paired e = false ∧ debugs (one r) r = false ∧
    stepFault r e = none ∧ (operandA e).scaled = false ∧
    (operandB e).scaled = false ∧ keysFrom 0 r.acc = true ∧ fmtA (i8Entry .goMm .waiting) = 10 ∧
    fmtB (i8Entry .goMm .waiting) = 10 :=
  ⟨⟨rfl, rfl, by decide⟩, by decide, by decide, rfl, rfl, rfl, rfl, by decide, by decide, rfl, by decide +kernel, by decide, by decide, rfl, by decide,
    by decide⟩

/-- The matrix entry stands at a retirement; the exit bank is empty. -/
theorem witness_MatrixEngine_retires :
    let e := { i8Entry .goMm .running with retire := true }
    let c := queued 0 e
    look (one c).cells 0 = some c ∧ c.frozen = none ∧ (getQueue c 0).entries.head? = some e ∧ e.status = .running ∧ e.retire = true ∧
    c.exitBank = [] ∧ (advanceLevels e (pointLevels e) e.idx).2 = true := ⟨rfl, rfl, rfl, rfl, rfl, rfl, by decide⟩

/-- A context that uses strip 0 on its exit side, with a route from the array exit into input 0. -/
def exitHalf : Half := ⟨0, [(0, 1), (4, 1), (7, 0x80), (16, 1), (0x303, 0x90)], false⟩

/-- The array exit has a token for strip 0. -/
def cellE : Cell := { exitBank := [{ tag := 2 }], collar := { actX := some exitHalf } }

theorem witness_MatrixEngine_exit :
    cellE.exitBank = [{ tag := 2 }] ∧ cellE.frozen = none ∧ cellE.collar.strainer = false ∧ sinksOf cellE.collar 16 false = [0] ∧
    (linkAt cellE.collar 0).length < linkCapacity (liveRoute cellE.collar 0) ∧ cellE.collar.snapping = false ∧
    (∀ j : Fin 16, cellE.collar.strips[j].outQ = []) ∧ sinksOf ({ cellE with collar := {} } : Cell).collar 16 false = [] := by
  decide +kernel

/-- A running copy launch on channel 0. -/
def copying (l : Launch) (cfg : SMap Word) (st : ChState) : Cell :=
  { (queued 2 (entry l cfg .running)) with channels := (Vector.replicate 4 ({} : Channel)).set 0 { state := st } }

theorem witness_CopyEngine :
    let w (l : Launch) := queued 2 (entry l [] .waiting)
    Claims.HeadMayStart (one (w (.chain 0x40 1))) 2 (w (.chain 0x40 1)) (entry (.chain 0x40 1) [] .waiting) ∧
    Claims.HeadMayStart (one (w (.kick 3))) 2 (w (.kick 3)) (entry (.kick 3) [] .waiting) ∧
    Claims.HeadMayStart (one (w (.fill 7 0))) 2 (w (.fill 7 0)) (entry (.fill 7 0) [] .waiting) ∧
    (w (.kick 3)).channels[3].state ≠ .faulted ∧ (w (.kick 3)).channels[3].state ≠ .parked ∧
    (copying (.kick 0) [] .parked).channels[0].state = .parked ∧ (copying (.kick 0) [] .faulted).channels[0].state = .faulted ∧
    (getQueue (queued 2 (entry (.kick 0) [] .finished)) 2).entries = [entry (.kick 0) [] .finished] ∧
    (entry (.kick 0) [] .finished).phase = none ∧ (queued 2 (entry (.kick 0) [] .finished)).frozen = none :=
  ⟨⟨rfl, rfl, by decide⟩, ⟨rfl, rfl, by decide⟩, ⟨rfl, rfl, by decide⟩, by decide, by decide, rfl, rfl, rfl, rfl, rfl⟩

theorem witness_CopyEngine_records :
    let c := copying (.kick 0) [] .walk
    let f := copying (.fill 7 0) [(4, 0x100), (6, 0x1000100010005)] .walk
    look (one c).cells 0 = some c ∧ (getQueue c 2).entries.head? = some (entry (.kick 0) [] .running) ∧ debugs (one c) c = false ∧
    c.core.sr.pgmode = 0 ∧ Memory.wf c.mem.scratch = true ∧ c.channels[0].head.toNat % 64 = 0 ∧ c.channels[0].head.toNat < 0xC0000 ∧
    (readWord c.mem.scratch 0 8).getLsbD 63 = false ∧ f.channels[0].cur = 0 ∧ f.channels[0].map = 0 ∧ f.channels[0].state = .walk ∧
    ((1 ≤ 5 ∧ 5 < 65536 ∧ 0 + 5 ≤ 0xC0000 ∧ 0x100 + 5 ≤ 0xC0000 ∧ 0 + 5 ≤ 0x100) ∧
      (∀ n ∈ [0, 1, 3, 5, 7], peek (0 : Word) [(4, 0x100), (6, 0x1000100010005)] n = 0) ∧
      peek (0 : Word) [(4, 0x100), (6, 0x1000100010005)] 2 = BitVec.ofNat 64 0 ∧
      peek (0 : Word) [(4, 0x100), (6, 0x1000100010005)] 4 = BitVec.ofNat 64 0x100 ∧
      peek (0 : Word) [(4, 0x100), (6, 0x1000100010005)] 6 = BitVec.ofNat 64 (5 + 0x1000100010000)) :=
  ⟨rfl, rfl, rfl, rfl, rfl, rfl, by decide, by decide, rfl, rfl, rfl, by decide⟩

/-- A layout of four bytes, replicated, in a window. -/
def layoutWords (wid : Nat) : List Word :=
  [0x2000000000000000, 1, 0, BitVec.ofNat 64 (wid * 2 ^ 48), 0x4F0000000, 0, 0, 0, 0, 0, 1, 0, 0, 0, 0, 0]

/-- Records of a job at virtual addresses 0, 0x80, 0x100 and 0x180, whose page is frame 1; windows 1 and 2 over frames 2 and 3;
the source bytes; the page table from 0x1000 on; `state` is the last byte of the first doubleword of the progress record. Bytes
that are not listed read as zero. -/
def blendState (state : Byte := 0) : State :=
  { (mapped (queued 3 (entry (.blend 0) [] .waiting))) with
    parts := [(0, { root := 0x1000, evictPages := 1 })]
    mem := [(0x12, 2), (0x17, 0xF0), (0x18, 1), (0x22, 3), (0x27, 0xF0), (0x28, 1), (0x1001, 0x20), (0x1007, 0x80), (0x2001, 0x30),
      (0x2007, 0x80), (0x3001, 0x40), (0x3007, 0x80), (0x4001, 0x50), (0x4007, 0x80), (0x5002, 1), (0x5007, 0xE0),
      (0x10000, 0x80), (0x10009, 1), (0x10010, 0x80), (0x10011, 1), (0x10087, 0x20), (0x10088, 1), (0x1009E, 1), (0x100A3, 0xF0),
      (0x100A4, 4), (0x100D0, 1), (0x10107, 0x20), (0x10108, 1), (0x1011E, 2), (0x10123, 0xF0), (0x10124, 4), (0x10150, 1)] ++
      (if state = 0 then [] else [(0x10187, state)]) ++ [(0x20000, 1), (0x20001, 2), (0x20002, 3), (0x20003, 4)]
    access := admitting (.hbm 0) }

def blendJob : Job := { die := 0, cell := 0, part := 0, addr := 0, no := 1 }

def blendQueued : Cell := queued 3 (entry (.blend 0) [] .waiting)

/-- The package with the job admitted. -/
def admittedIn (s : State) : State :=
  { setCell s 0 (begin_ blendQueued 3) with jobs := [blendJob], admitted := [(0, 0)], jobNo := 1 }

/-- Every record of the job is read and each check passes; a job that is not DONE makes its first commit. -/
def blendStarts (s1 : State) (j : Job) (state : Nat) : Bool :=
  match readRecord s1 j j.addr 128 with
  | .bytes b0 s2 =>
    let job := wordsOfBytes b0
    !jobReason1 job && (match readRecord s2 j (rw job 0) 128 with
    | .bytes b1 s3 =>
      (match readRecord s3 j (rw job 1) 128 with
      | .bytes b2 s4 =>
        (match progPlace s4 j (rw job 2) with
        | (.ok (), s5) =>
          (match readRecord s5 j (rw job 2) 64 with
          | .bytes b3 s6 =>
            let prog := wordsOfBytes b3
            let j' : Job := { j with
              prog := rw job 2, opts := rw job 3, src := wordsOfBytes b1, dst := wordsOfBytes b2, checked := true
              cursor := [0, 0, 0, 0, 0, 0], ck := 0, cdone := BitVec.ofNat 48 (rw prog 1).toNat, err := BitVec.ofNat 8 (rw prog 6).toNat }
            !progReason1 prog && (layoutReason s6 (wordsOfBytes b1) (wordsOfBytes b2)).isNone && (rw prog 0).toNat / 2 ^ 62 == state &&
            decide ((rw prog 0).toNat / 2 ^ 7 % 2 ^ 50 = j.addr.toNat / 2 ^ 7 % 2 ^ 50) && s6.jobs.all (fun x => x.cell == j.cell) &&
            (state == 2 || match writeProgress s6 j' (progressBytes j' 1) with
            | .done s7 => !(ownCoords s7 (layoutOf (wordsOfBytes b2))).isEmpty
            | _ => false)
          | _ => false)
        | _ => false)
      | _ => false)
    | _ => false)
  | _ => false

theorem witness_BlenderJobs :
    Claims.HeadMayStart (blendState 0) 3 blendQueued (entry (.blend 0) [] .waiting) ∧
    ((blendState 0).jobs.filter fun j => j.die.toNat = 0).length < 8 ∧ nextBlend (blendState 0) 0 = some 0 ∧
    blendStarts (admittedIn (blendState 0)) blendJob 0 = true ∧ blendStarts (admittedIn (blendState 0x80)) blendJob 2 = true :=
  ⟨⟨rfl, rfl, by decide⟩, by decide +kernel⟩

/-- The job record's page is the destination of a migration that still defers; or no page is mapped there. -/
theorem witness_BlenderJobs_waits :
    (startJob { admittedIn (blendState 0) with migrations := [(0, { moving .switched [] with src := 5, dst := 1 })] } blendJob).isNone = true ∧
    (match placeOfVa (admittedIn { (one blendQueued) with parts := [(0, { root := 0x100000 })] }) (masterOf blendJob) 0 false with
      | (.error (.page va), _) => va == 0
      | _ => false) = true := by decide +kernel

/-- The job as it runs after its checks. -/
def blendRunning : Job :=
  { blendJob with prog := 0x180, src := layoutWords 1, dst := layoutWords 2, checked := true
                  cursor := [0, 0, 0, 0, 0, 0] }

def chunkState (j : Job) : State := { (blendState 0) with jobs := [j] }

/-- A quiet step of the job's cell. -/
def blendQuiet (t : State) (j : Job) : Bool := (look t.cells j.cell).map (debugs t) == some false

/-- The job's next chunk: its one piece is read, then written; then its cursor is committed, and no chunk is left. -/
def blendMoves (s : State) (j : Job) : Bool :=
  let own := ownCoords s (layoutOf j.dst)
  let sl := layoutOf j.src
  let dl := layoutOf j.dst
  let plan := planOf sl dl (own.headD [])
  !own.isEmpty && (match nextChunk sl.esz plan (2 ^ (j.opts.toNat / 2 ^ 8 % 4)) (j.opts.toNat / 2 ^ 12 % 4) j.cursor j.ck with
  | some (n, q) =>
    let run := runOf plan n
    let past := cursorPast sl.esz plan (2 ^ (j.opts.toNat / 2 ^ 8 % 4)) n q
    (match chunkPieces sl (·.slocal) run q, chunkPieces dl (·.dlocal) run q with
    | [(a, k)], [(b, l)] =>
      (match readPlace s { masterOf j with rc := if j.opts.getLsbD 2 then BitVec.ofNat 2 j.opts.toNat else 2 }
          (.window (sourcePackage s sl dl (own.headD []) run) sl.wid) a k with
      | .bytes bs t =>
        bs == [1, 2, 3, 4] && blendQuiet t j && (match writePlace t (masterOf j) (.window t.fw.pkg dl.wid) b (bs.take l) with
        | .done u =>
          readBytes u.mem 0x30000 4 == [1, 2, 3, 4] && blendQuiet u j && (match commit u { j with cursor := past.1, ck := past.2, cdone := j.cdone + 1 } 1 with
          | .done _ => (nextChunk sl.esz plan 1 0 past.1 past.2).isNone
          | _ => false)
        | _ => false)
      | _ => false)
    | _, _ => false)
  | none => false)

def commits (s : State) (j : Job) (st : BitVec 2) : Bool :=
  match commit s j st with
  | .done _ => true
  | _ => false

theorem witness_BlenderJobs_chunk :
    let f : JobFault := ⟨.illegal, 1, 1⟩
    (serviceOrder (chunkState blendRunning) 0).filter (jobRuns (chunkState blendRunning)) = blendRunning :: [] ∧
    blendRunning.checked = true ∧ blendRunning.fault = none ∧ blendMoves (chunkState blendRunning) blendRunning = true ∧
    commits (chunkState blendRunning) blendRunning 2 = true ∧
    { blendRunning with fault := some f }.fault = some f ∧ f.commits = 1 ∧ { f with commits := 0 }.commits = 0 ∧
    commits (chunkState { blendRunning with fault := some f }) { blendRunning with fault := some f, err := BitVec.ofNat 8 f.code.num } 3 = true :=
  ⟨by decide +kernel, rfl, rfl, by decide +kernel, by decide +kernel, rfl, rfl, rfl, by decide +kernel⟩

/-- The first step of the chunk reads; it writes nothing yet. -/
theorem test_blend_reads_first :
    (match exec (.blenderChunk 0) (chunkState blendRunning) with
      | .next t => (t.jobs.map (·.data), readBytes t.mem 0x30000 4)
      | _ => ([], [])) = ([[1, 2, 3, 4]], [0, 0, 0, 0]) := by decide +kernel

/-- A live half that uses every strip on the entry side; the array entry ports write rows of 768 bytes from 0 on. Strip 5 has the
words `fadd` and `eos`. -/
def fullHalf : Half :=
  ⟨0, writeWord (writeWord [(0, 0xFF), (1, 0xFF), (7, 0x80), (21, 2), (0x45, 3), (0x55, 3)] 0xD70 4 (0x10000000 + 0x8800))
    0xD74 4 0x08008003, false⟩

/-- A cell that runs the half, with tokens on links and one strip given. -/
def collarCell (j : BitVec 4) (links : SMap (List Tok)) (p : Strip) : Cell :=
  { collar := { actE := some fullHalf, links := links, strips := (Vector.replicate 16 ({} : Strip)).set j.toNat p } }

/-- Every lane live and zero. -/
def zeros : Tok := { pred := BitVec.allOnes 192 }

theorem witness_CollarEvents_ports :
    let c (t : Tok) := collarCell 0 [(64, [t])] {}
    look (one (c zeros)).cells 0 = some (c zeros) ∧ (c zeros).collar.actE = some fullHalf ∧ linkAt (c zeros).collar 64 = [zeros] ∧
    linkAt (collarCell 0 [(65, [zeros])] {}).collar 65 = [zeros] ∧ (c zeros).frozen = none ∧ (c zeros).collar.strainer = false ∧
    (c zeros).collar.snapping = false ∧ (∀ j : Fin 16, (c zeros).collar.strips[j].outQ = []) ∧ (c zeros).collar.aeFault = none ∧
    (c zeros).collar.aeMarked = false ∧ Memory.wf (c zeros).mem.scratch = true ∧ keysFrom 0 (c zeros).collar.links = true ∧
    (c zeros).core.sr.pgmode = 0 ∧ debugs (one (c zeros)) (c zeros) = false ∧
    (let d := readWord fullHalf.bytes 0x40 8
     d.toNat % 2 ^ 20 + 0 * (d.toNat / 2 ^ 32 % 2 ^ 20) + 768 ≤ 0xC0000) ∧
    linkAt (c { tag := 7 }).collar 64 = [{ tag := 7 }] ∧ linkAt (c { tag := 6 }).collar 64 = [{ tag := 6 }] :=
  ⟨rfl, rfl, rfl, rfl, rfl, rfl, rfl, by decide, rfl, rfl, rfl, rfl, rfl, rfl, by decide, rfl, rfl⟩

theorem witness_CollarEvents_constants :
    let t : Tok := { zeros with tag := 8 }
    let c (p : Strip) := collarCell 15 [(63, [t])] p
    look (one (c {})).cells 0 = some (c {}) ∧ headToken (c {}).collar 15 3 = some t ∧ t.tag = 8 ∧ stripLive (c {}) 15 = true ∧
    (stripAt (c {}).collar 15).opened.getLsbD 3 = false ∧ (stripAt (c { opened := 8 }).collar 15).opened.getLsbD 3 = true ∧
    stripLive (c { opened := 8, holder := List.replicate 8 (0, t) }) 15 = true ∧
    (stripAt (c { opened := 8, holder := List.replicate 8 (0, t) }).collar 15).holder.length = 8 :=
  ⟨rfl, rfl, rfl, by decide⟩

/-- A cell whose collar entry runs and is to stop. -/
def cutting (cx : Bool) : Cell :=
  { queues := (Vector.replicate 4 ({} : EQueue)).set 1 { entries := [entry .fire [] .running], stopped := true }
    collar := { actX := if cx then some exitHalf else none } }

theorem witness_CollarEvents_snapshots :
    look (one (cutting true)).cells 0 = some (cutting true) ∧
    (getQueue (cutting true) 1).entries.head? = some (entry .fire [] .running) ∧ (cutting true).frozen = none ∧
    (getQueue (cutting true) 1).stopped = true ∧ (cutting true).collar.snapping = false ∧ (cutting true).collar.strainer = false ∧
    sinksOf (cutting false).collar 16 false = [] ∧ sinksOf (cutting true).collar 16 false ≠ [] ∧
    headToken (collarCell 0 [(0, [{ tag := 9 }])] {}).collar 0 0 = some { tag := 9 } ∧
    (∀ i ∈ routedInputs (collarCell 0 [(0, [{ tag := 9 }])] {}).collar 0,
      ((stripAt (collarCell 0 [(0, [{ tag := 9 }])] {}).collar 0).marked ||| (1#4 <<< (0#2).toNat)).getLsbD i = true) ∧
    (let k : Collar := { snapping := true, cxSnapped := true, aeMarked := true, beMarked := true }
     k.snapping = true ∧ k.snapDone = false ∧ ∀ j : BitVec 4, (halfOfStrip k j.toNat).isSome = true → (stripAt k j).recorded = true) ∧
    (let c : Cell := { collar := { strainer := true } }
     c.collar.strainer = true ∧ c.exitBank = [] ∧ (getQueue c 0).entries = [] ∧ (getQueue c 1).entries = []) := by
  refine ⟨rfl, rfl, rfl, rfl, rfl, rfl, by decide +kernel, by decide +kernel, rfl, by decide +kernel, ⟨rfl, rfl, ?_⟩, ⟨rfl, rfl, rfl, rfl⟩⟩
  intro j h
  cases h

/-- A strip that has its turn, with tokens at its inputs. -/
def firing (j : BitVec 4) (links : SMap (List Tok)) (p : Strip) : Firing :=
  ⟨{ (one (collarCell j links p)) with focus := ⟨0, .strip j⟩ }, 0, collarCell j links p, j, fullHalf, p⟩

theorem witness_LaneWords :
    let v (x y : Tok) := firing 5 [(20, [x]), (21, [y])] {}
    Claims.MayFire (v zeros zeros) ∧ (Instr.fadd 0 1 1 1 0).WellFormed ∧
    operandToks (v zeros zeros) (stripOperands (.fadd 0 1 1 1 0)) = some [zeros, zeros] ∧ readHeads [zeros, zeros] = .data ∧
    outputsFree (v zeros zeros).c.collar 5 1 = true ∧ trapsDz fullHalf = false ∧ trapsInv fullHalf = false ∧ trapsOvf fullHalf = false ∧
    Claims.MayFire (v { tag := 2 } { tag := 2 }) ∧ readHeads [({ tag := 2 } : Tok), { tag := 2 }] = .marker ∧
    readHeads [({ tag := 7 } : Tok), { tag := 7 }] = .eos ∧ nextEos (v { tag := 7 } { tag := 7 }) = some 1 ∧
    readHeads [zeros, { tag := 7 }] = .mix :=
  ⟨⟨rfl, rfl, rfl, by decide +kernel, rfl, by decide +kernel, by decide⟩, by decide, rfl, rfl, by decide +kernel, by decide, by decide, by decide,
    ⟨rfl, rfl, rfl, by decide +kernel, rfl, by decide +kernel, by decide⟩, rfl, rfl, by decide +kernel, rfl⟩

theorem witness_OtherStripWords :
    let v := firing 11 [(44, [zeros]), (45, [zeros])] {}
    Claims.MayFire v ∧ outputsFree v.c.collar 11 1 = true ∧ operandTok v 0 = some zeros ∧ zeros.tag.toNat < 7 ∧ zeros.tag = 0 ∧
    v.p.group = [] ∧ operandTok v 1 = some zeros ∧ (191#8).toNat < 192 ∧ (12#4).toNat ≤ 12 ∧ keysFrom 0 v.c.collar.vreg = true ∧
    keysFrom 0 v.c.collar.vtag = true ∧ peek (0 : BitVec 4) v.c.collar.vtag 63 = 0 ∧ v.p.fifo.length < (0#8).toNat + 1 ∧
    (let e := firing 11 [(44, [{ tag := 7 }]), (45, [{ tag := 7 }])] {}
     Claims.MayFire e ∧ headToken e.c.collar 11 0 = some { tag := 7 } ∧ headToken e.c.collar 11 1 = some { tag := 7 }) ∧
    ({ fifo := [zeros] } : Strip).fifo = [zeros] ∧ (0#8).toNat + 1 ≤ ({ fifo := [zeros] } : Strip).fifo.length :=
  ⟨⟨rfl, rfl, rfl, by decide +kernel, rfl, by decide +kernel, by decide⟩, by decide +kernel, rfl, by decide, rfl, rfl, rfl, by decide, by decide,
    rfl, rfl, rfl, by decide, ⟨⟨rfl, rfl, rfl, by decide +kernel, rfl, by decide +kernel, by decide⟩, rfl, rfl⟩, rfl, by decide⟩

/-- A header of one block of 32 elements of tag 4. -/
def header1 : Tok := { data := 0x42000, pred := 1, tag := 1 }

theorem witness_OtherStripWords_converters :
    let p : Strip := { w := #v[0, 0, 0, 0, 1, 0, 0, 0] }
    let v := firing 12 [(48, [zeros]), (49, [zeros])] p
    Claims.MayFire v ∧ outputsFree v.c.collar 12 1 = true ∧ operandTok v 0 = some zeros ∧ (Instr.cvt 0 1 3 0 2).WellFormed ∧
    perLane 3 = perLane 2 ∧ v.p.group.length < 7 ∧ (List.replicate 7 zeros).length = 7 ∧ (Instr.quant 0 1 1 4 0 0).WellFormed ∧
    burstOf v.p.w[4] ≠ none ∧ operandTok v 1 = some zeros ∧ (Instr.dequant 0 1 4 0).WellFormed ∧
    operandTok (firing 12 [(48, [header1])] p) 0 = some header1 ∧ header1.tag = 1 ∧ acceptHeader 4 header1 ≠ none ∧
    acceptHeader 5 header1 = none :=
  ⟨⟨rfl, rfl, rfl, by decide +kernel, rfl, by decide +kernel, by decide⟩, by decide +kernel, rfl, by decide, by decide, by decide, by decide,
    by decide, by simp [burstOf, firing]; decide, rfl, by decide, rfl, rfl, by decide +kernel, by decide +kernel⟩

/-- Constants of a generator: base 0, two tokens of dimension 1 a word down, 192 lanes. -/
def genStrip (g : GenState) : Strip := { w := #v[0, 0x10002, 0x10001, 0xFFFF, 0, 191, 0, 0], gen := g }

theorem witness_PortWords :
    let v (x : Tok) (g : GenState) := firing 1 [(4, [x]), (5, [zeros])] (genStrip g)
    let par : GenPar := ⟨0, 2, 1, 1, 1, -1, 0, 0, 0, 191⟩
    Claims.MayFire (v zeros {}) ∧ (v zeros {}).c.core.sr.pgmode = 0 ∧ debugs (v zeros {}).s (v zeros {}).c = false ∧
    Memory.wf (v zeros {}).c.mem.scratch = true ∧ (genPar (genStrip {}).w).map (fun g => (g.base, g.n1, g.s1, g.lanes)) = some (0, 2, -1, 191) ∧
    genPar (genStrip {}).w = some par ∧ (v zeros {}).p.gen.passed = false ∧ operandTok (v zeros {}) 0 = some zeros ∧
    operandTok (v zeros {}) 1 = some zeros ∧ (∀ n, n ≤ 191 → 0 ≤ genAddr par 0 {} + 4 * (n : Nat) ∧ genAddr par 0 {} + 4 * (n : Nat) + 4 ≤ 0xC0000) ∧
    outputsFree (v zeros {}).c.collar 1 1 = true ∧ genAddr par 0 { i1 := 1 } < 0 ∧
    (∀ n, n < 192 → (laneAt zeros.data n).toNat % 4 = 0 ∧ 0 + (laneAt zeros.data n).toNat + 4 ≤ 0xC0000) ∧ zeros.ord = 0 ∧
    operandTok (v { zeros with data := 1 } {}) 0 = some { zeros with data := 1 } ∧ (laneAt (1 : Row) 0).toNat % 4 ≠ 0 := by
  refine ⟨⟨rfl, rfl, rfl, by decide +kernel, rfl, by decide +kernel, by decide⟩, rfl, rfl, rfl, by decide +kernel, rfl, rfl, rfl, rfl, ?_,
    by decide +kernel, by decide, ?_, rfl, rfl, by decide +kernel⟩
  · intro n hn
    have : genAddr ⟨0, 2, 1, 1, 1, -1, 0, 0, 0, 191⟩ 0 {} = 0 := by decide
    omega
  · intro n _
    have : laneAt zeros.data n = 0 := by
      apply BitVec.eq_of_getLsbD_eq
      intro i hi
      simp [laneAt, field, zeros]
    simp [this]

/-! ### Witnesses: queues, launches, tasks -/

/-- Commands: a LAUNCH of image 1 with a uniform block of 8 bytes, ARM of counter 6 with count 2, FREE of counter 6. -/
def launchCmd : Command := ⟨#v[0, 1, 0, 8, 0, 0, 0, 1]⟩
def armCmd : Command := ⟨#v[0x1000000000000000, 0x20006, 0, 0, 0, 0, 0, 1]⟩
def freeCmd : Command := ⟨#v[0x2000000000000000, 6, 0, 0, 0, 0, 0, 1]⟩

/-- Queue 5 with one command in its ring, chosen by the dispatcher of partition 0. -/
def queueOf (c : Option Command) : Queue := { en := true, tail := 1, cmd := c }
def hosted (v : Queue) : State :=
  { queues := [(5, v)], parts := [(0, { chosen := some 5, cells := [0] })], fw := { cxl0 := 0x10000 } }

/-- A command at byte 0 of the ring in host memory. -/
def ringOf (stamp dw6 : Nat) : Mem := writeWord (writeWord [] (hostPa 56) 8 (BitVec.ofNat 64 stamp)) (hostPa 48) 8 (BitVec.ofNat 64 dw6)
def ring (v : Queue) (m : Mem) : State := { (hosted v) with mem := m }
def headOf (s : State) : Command := commandOf (readBytes s.mem (hostPa ((queueAt s 5).base.toNat * 4096 + 64 * ((queueAt s 5).head.toNat % 2 ^ (queueAt s 5).lsize.toNat))) 64)
def stamped (s : State) : Prop := (headOf s).dw[7].toNat % 2 ^ 16 = (queueAt s 5).head.toNat % 65535 + 1

theorem witness_WorkQueues_writes :
    let s := hosted (queueOf none)
    let w := hosted { queueOf none with switched := true, shTail := 2, shNotify := true }
    let k := { (one {}) with queues := [(5, { queueOf none with task := some 0 })] }
    (queueAt s 5).part = 0 ∧ s.fw.recovery = false ∧ (queueAt s 5).switched = false ∧
    ((16 : BitVec 32) - (queueAt s 5).head).toNat ≤ 2 ^ (queueAt s 5).lsize.toNat ∧
    2 ^ (queueAt s 5).lsize.toNat < ((17 : BitVec 32) - (queueAt s 5).head).toNat ∧ (queueAt s 5).err = none ∧
    (queueAt w 5).switched = true ∧ (partOf w 0).resident = true ∧
    ((queueAt w 5).shTail - (queueAt w 5).head).toNat ≤ 2 ^ (queueAt w 5).lsize.toNat ∧
    (queueAt k 5).task = some 0 ∧ (look k.tasks 0).isSome ∧ (15 : BitVec 4) ≠ (queueAt s 5).part ∧
    (let w : Word := 0x802F100000000000
     w.toNat / 2 ^ 54 % 4 = 0 ∧ w.toNat / 2 ^ 45 % 8 = 0 ∧ w.toNat / 2 ^ 21 % 2 ^ 11 = 0 ∧ w.toNat / 2 ^ 48 % 64 ≤ 47 ∧
     1 ≤ w.toNat / 2 ^ 32 % 2 ^ 13 ∧ w.toNat / 2 ^ 32 % 2 ^ 13 ≤ 4096 ∧ w.getLsbD 63 = true ∧
     ((queueAt s 5).en = true → BitVec.ofNat 4 (w.toNat / 2 ^ 56) = (queueAt s 5).part)) ∧
    ¬ (1 ≤ (0 : Word).toNat / 2 ^ 32 % 2 ^ 13) ∧ (0x400 : Word).toNat / 2 % 128 = 0 ∧ 4 ≤ (0x400 : Word).toNat / 2 ^ 8 % 16 := by
  refine ⟨rfl, rfl, rfl, by decide, by decide, rfl, rfl, rfl, by decide, rfl, rfl, by decide⟩

theorem witness_WorkQueues_reads :
    let v := queueOf none
    wantsHead v = true ∧ v.loc = false ∧ v.rereads = 0 ∧ stamped (ring v (ringOf 1 0)) ∧ badCommand (headOf (ring v (ringOf 1 0))) = false ∧
    foreignWait (ring v (ringOf 1 0)) v (headOf (ring v (ringOf 1 0))) = false ∧ badCommand (headOf (ring v (ringOf 1 1))) = true ∧
    stamped (ring v (ringOf 1 1)) ∧ ¬ stamped (ring v (ringOf 2 0)) ∧ ¬ stamped (ring { v with rereads := 7 } (ringOf 2 0)) ∧
    ¬ stamped (ring { v with rereads := 8 } (ringOf 2 0)) ∧ wantsHead { v with rereads := 8 } = true := by
  refine ⟨by decide, rfl, rfl, ?_, by decide +kernel, by decide +kernel, by decide +kernel, ?_, ?_, ?_, ?_, by decide⟩ <;>
    (simp only [stamped]; decide +kernel)

theorem witness_WorkQueues_dispatching :
    let s : State := { queues := [(5, { queueOf (some launchCmd) with wasReady := true })] }
    (5 : Nat) < 4096 ∧ (partOf s 0).resident = true ∧
    (candidates s 0).filter (fun x => ∀ y ∈ candidates s 0, y.2.prio.toNat ≤ x.2.prio.toNat) =
      [(5, { queueOf (some launchCmd) with wasReady := true })] ∧ launchCmd.dw[0].toNat / 2 ^ 60 = 0 := by decide

theorem witness_WorkQueues_counters :
    let s (c : Command) (k : Counter) : State := { (hosted (queueOf (some c))) with counters := [(6, k)] }
    (queueAt (s armCmd {}) 5).cmd = some armCmd ∧ isChosen (s armCmd {}) 5 = true ∧ (queueAt (s armCmd {}) 5).restore = false ∧
    armCmd.dw[0].toNat / 2 ^ 60 = 1 ∧ (counterAt (s armCmd {}) (BitVec.ofNat 16 armCmd.dw[1].toNat)).part = (queueAt (s armCmd {}) 5).part ∧
    (counterAt (s armCmd {}) 6).state = .free ∧ (counterAt (s armCmd { state := .armed }) 6).state = .armed ∧
    (queueAt (s armCmd {}) 5).err = none ∧ isChosen (s freeCmd {}) 5 = true ∧ freeCmd.dw[0].toNat / 2 ^ 60 = 2 ∧
    (counterAt (s freeCmd { part := 1 }) 6).part ≠ (queueAt (s freeCmd { part := 1 }) 5).part ∧
    (let d (v : BitVec 16) : State := { decs := [⟨0, 0, 6, 1⟩], counters := [(6, { state := .armed, gen := 1, value := v })] }
     (d 2).decs = [⟨0, 0, 6, 1⟩] ∧ (counterAt (d 2) 6).gen = 1 ∧ (counterAt (d 2) 6).state = .armed ∧
     1 < (counterAt (d 2) 6).value.toNat ∧ (counterAt (d 1) 6).value = 1) := by
  refine ⟨rfl, by decide, rfl, by decide, rfl, rfl, rfl, rfl, by decide, by decide, by decide, rfl, rfl, rfl, by decide, rfl⟩

theorem test_last_decrement_fires :
    (match exec (.counterDecrement 6 [0]) { decs := [⟨0, 0, 6, 1⟩], counters := [(6, { state := .armed, gen := 1, value := 1 })] } with
     | .next t => counterAt t 6 == { state := .fired, gen := 1 }
     | _ => false) = true := by decide

/-- An image of one word of code and 8 bytes of uniform block, of one cell. -/
def tinyBytes (growth : Word) (dw2 dw3 : Word) : Mem :=
  writeWord (writeWord (writeWord (writeWord (writeWord [] 0 8 1) 8 8 (growth + 0x20000000100)) 16 8 dw2) 24 8 dw3) 64 4 0x400
def tiny (growth : Word) : Image := { imgid := 1, bytes := tinyBytes growth 0 0, len := 68 }

/-- A package that holds the image and whose queue 5 has launched it; virtual page 0 is mapped. -/
def imaged (v : Queue) (c : Cell) (t : SMap Task) : State :=
  { (mapped c) with
    queues := [(5, v)], images := [tiny 0], cells := [], tasks := t
    parts := [(0, { root := 0x100000, cells := [0], chosen := some 5 })], access := admitting (.hbm 0) }

def isOk (r : Except (BitVec 32) Image) (m : Image) : Bool :=
  match r with
  | .ok x => x == m
  | .error _ => false

def isWait (a : Alloc) : Bool :=
  match a with
  | .wait => true
  | _ => false

def gets (a : Alloc) (cs bs : List Nat) : Bool :=
  match a with
  | .got x y => x == cs && y == bs
  | _ => false

/-- The uniform block can be read, and the image passes its check. -/
def stage4 (g : Got) (m : Image) : Bool :=
  match g with
  | .bytes _ t => (checkImage t m).2 == none
  | _ => false

/-- A task that holds cell 0. -/
def holder : Task := { q := 6, part := 0, image := tiny 0, w := 1, h := 1, cells := [0], stage := .running }
/-- A launch that waits for cells. -/
def waiter : Task := { q := 5, part := 0, image := tiny 0, w := 1, h := 1 }

theorem witness_Launches_start :
    let s := imaged (queueOf (some launchCmd)) {} []
    (queueAt s 5).cmd = some launchCmd ∧ launchCmd.dw[0].toNat / 2 ^ 60 = 0 ∧ (queueAt s 5).restore = false ∧ isChosen s 5 = true ∧
    (queueAt s 5).task = none ∧ readImage (hosted (queueOf (some launchCmd))) launchCmd = .error 2 ∧ cmdRecord launchCmd = 0 ∧
    (queueAt s 5).err = none ∧ isOk (readImage s launchCmd) (tiny 0) = true ∧
    isWait (allocate (imaged (queueOf (some launchCmd)) {} [(9, holder)]) 0 (imgW (tiny 0)) (imgH (tiny 0)) (imgBlocks (tiny 0))) = true ∧
    gets (allocate s 0 (imgW (tiny 0)) (imgH (tiny 0)) (imgBlocks (tiny 0))) [0] [] = true ∧
    stage4 (readSpan { clearChosen s 0 with nextTask := s.nextTask + 1 } (schedMaster 0) .virt 130 (cmdUniform launchCmd).toNat
      (cmdUniformLen launchCmd)) (tiny 0) = true ∧ imgGrowth (tiny 0) = 0 := by
  refine ⟨rfl, by decide, rfl, by decide +kernel, rfl, rfl, by decide, rfl, by decide +kernel⟩

theorem witness_Launches_waiting :
    let s : State := { (imaged { queueOf (some launchCmd) with task := some 0 } {} [(0, waiter)]) with
      parts := [(0, { root := 0x100000, cells := [0] })] }
    (queueAt s 5).task = some 0 ∧ look s.tasks 0 = some waiter ∧ waiter.stage = .allocate ∧ isReady s (queueAt s 5) = true ∧
    (partOf s 0).resident = true ∧ chooseQueue s 0 = none ∧
    gets (allocate s 0 waiter.w waiter.h (imgBlocks waiter.image)) [0] [] = true ∧
    stage4 (readSpan s (schedMaster 0) .virt 130 (cmdUniform launchCmd).toNat (cmdUniformLen launchCmd)) waiter.image = true := by
  refine ⟨rfl, rfl, rfl, by decide +kernel, rfl, by decide +kernel⟩

/-- A launch that waits for the Caddy, and the entry it finds. -/
def caddyTask : Task := { q := 5, part := 0, image := tiny 0x1000000000000000, w := 1, h := 1, cells := [0], stage := .caddyWait }
def caddyEntry : CaddyEntry :=
  { imgid := 1, hash := hashOf [], state := .fallback, part := 0, w := 0, h := 0, cgen := 0, unit := 0, nunit := 1, uniform := [] }

/-- An image of one graph whose strip map is not zero, as no abstract context has it. -/
def badGraph : Image := { imgid := 1, bytes := writeByte (tinyBytes 0 0x10000 128) (128 + 64 + 0xC0) 1, len := 8512 }

def routesTo (r : Except (Nat × BitVec 8) (List (List (BitVec 4 × Mem)))) : Option (Option (Nat × BitVec 8)) :=
  match r with
  | .ok _ => some none
  | .error e => some (some e)

theorem witness_Launches_prepare :
    let s (t : Task) : State := { (imaged { queueOf (some launchCmd) with task := some 0 } {} [(0, t)]) with caddy := [caddyEntry] }
    look (s caddyTask).tasks 0 = some caddyTask ∧ caddyTask.stage = .caddyWait ∧ (∀ e ∈ (s caddyTask).caddy, e.state ≠ .busy) ∧
    imgGrowth caddyTask.image ≠ 0 ∧ (s caddyTask).caddy.find? (sameKey caddyTask (s caddyTask).fw.cgen) = some caddyEntry ∧
    look (s { waiter with stage := .steep }).tasks 0 = some { waiter with stage := .steep } ∧
    look (s { waiter with stage := .place, cells := [0] }).tasks 0 = some { waiter with stage := .place, cells := [0] } ∧
    (partOf (s caddyTask) 0).resident = true ∧ routesTo (routeCells (s waiter) (tiny 0) [0]) = some none ∧
    routesTo (routeCells (s waiter) badGraph [0]) = some (some (0, 6)) ∧ cmdRecord launchCmd = 0 := by
  refine ⟨rfl, rfl, by decide, by decide +kernel, ?_, rfl, rfl, rfl, by decide +kernel⟩
  simp [imaged, sameKey, caddyEntry, caddyTask, tiny, mapped]

/-- A task at stage 6 with one packet before the end of its row. -/
def configTask (kind : BitVec 4) (bs : List Byte) : Task :=
  { q := 5, part := 0, image := tiny 0, w := 1, h := 1, cells := [0], blocks := [1], stage := .config, uniform := [1, 2, 3, 4, 5, 6, 7, 8]
    rows := [[⟨kind, 0, 0, bs⟩, ⟨5, 0, 0, []⟩]] }
def configured (t : Task) : State := { (one {}) with tasks := [(0, t)], queues := [(5, { queueOf (some launchCmd) with task := some 0 })] }

/-- An abstract context whose uniform slot 0 fills register 1 of strip 2 from byte 4 of the uniform block. -/
def slotContext : List Byte := List.replicate 0x80 0 ++ [1, 0, 0, 0x23]

theorem witness_Launches_configuration :
    (∀ kind : BitVec 4, let t := configTask kind (List.replicate 8 7)
      look (configured t).tasks 0 = some t ∧ t.rows[0]? = some (⟨kind, 0, 0, List.replicate 8 7⟩ :: [⟨5, 0, 0, []⟩]) ∧ t.stage = .config ∧
      (partOf (configured t) t.part).resident = true ∧ t.cells[(0 : BitVec 6).toNat]? = some 0 ∧
      look (configured t).cells 0 = some ({} : Cell) ∧ (queueAt (configured t) t.q).err = none ∧ keysFrom 0 (configured t).tasks = true ∧
      keysFrom 0 (configured t).cells = true) ∧
    (∀ k, k < 16 → slotOn (uniformSlot (memOf []) k) = false) ∧
    slotOn (uniformSlot (memOf slotContext) 0) = true ∧ (∀ o, o < 16 → o ≠ 0 → slotOn (uniformSlot (memOf slotContext) o) = false) ∧
    slotOffset (uniformSlot (memOf slotContext) 0) + 4 ≤ (configTask 1 slotContext).uniform.length ∧
    (List.replicate 8 (7 : Byte)).length = 8 ∧ keysFrom 0 ({} : Cell).slotTable = true ∧ Memory.wf ({} : Cell).mem.scratch = true ∧
    (let t : Task := { configTask 0 [] with rows := [[⟨5, 0, 0, []⟩]], h := 2 }
     t.rows[0]? = some (⟨5, 0, 0, []⟩ :: []) ∧ t.ended.length + 1 < t.h) ∧
    (let t : Task := { configTask 0 [] with rows := [[⟨5, 0, 0, []⟩]] }
     t.h ≤ t.ended.length + 1) ∧ 6 ≤ (6#4).toNat ∧
    (let t : Task := { configTask 0 [] with stage := .start, rows := [] }
     look (configured t).tasks 0 = some t ∧ t.cells.Nodup ∧ t.cells.length ≤ 64) := by
  refine ⟨fun _ => ⟨rfl, rfl, rfl, rfl, rfl, rfl, rfl, rfl, rfl⟩, by decide, by decide +kernel, by decide +kernel, by decide +kernel, rfl, rfl, rfl,
    ⟨rfl, by decide⟩, by decide, by decide, rfl, by decide, by decide⟩

/-- The only member of a task has halted. -/
def ended : State := one { core := { halted := true } }
def fatalTask (f : Fatal) : Task :=
  { q := 0, part := 0, image := ⟨0, [], 0, none⟩, w := 1, h := 1, cells := [0], stage := .running, fatal := some f }

theorem witness_TasksEnd :
    let t : Task := { q := 0, part := 0, image := ⟨0, [], 0, none⟩, w := 1, h := 1, cells := [0], stage := .running }
    look ended.tasks 0 = some t ∧ keysFrom 0 ended.tasks = true ∧ keysFrom 0 ended.cells = true ∧ t.fatal = none ∧
    (∀ id ∈ t.cells, ∃ c, look ended.cells id = some c ∧ c.core.halted = true ∧ c.core.trap = none ∧
      ∀ q : BitVec 2, (getQueue c q).entries = []) ∧ t.crec = 0 ∧ t.ev = false ∧
    (let f : Fatal := ⟨0, { code := .illegal, unit := 0 }, false⟩
     let s : State := { ended with tasks := [(0, fatalTask f)] }
     look s.tasks 0 = some (fatalTask f) ∧ (fatalTask f).fatal = some f ∧ (queueAt s 0).err = none ∧ (partOf s 0).resident = true ∧
     (∀ id ∈ (fatalTask f).cells, freezePending s (fatalTask f).part id = false ∧ ∃ c, look s.cells id = some c ∧
       accessesDone s id c = true ∧ allAtStop c = true)) := by
  refine ⟨rfl, rfl, rfl, rfl, ?_, rfl, rfl, rfl, rfl, rfl, rfl, ?_⟩
  · intro id h
    simp only [List.mem_singleton] at h
    subst h
    exact ⟨_, rfl, rfl, rfl, by decide⟩
  · intro id h
    simp only [fatalTask, List.mem_singleton] at h
    subst h
    exact ⟨by decide, _, rfl, by decide, by decide⟩

/-! ### Witnesses: preemption, freezes, the circuit plane -/

/-- A task that is being saved; its member has stopped. -/
def savingTask : Task :=
  { q := 0, part := 0, image := ⟨0, [], 0, none⟩, w := 1, h := 1, cells := [0], stage := .saving true }
def stoppedCell : Cell := { core := { stopIssue := true } }
def savedTask : Task := { savingTask with cells := [], stage := .saved, frames := [stoppedCell], wake := true }
def restoring : State :=
  { tasks := [(0, savedTask)], parts := [(0, { chosen := some 5, cells := [0] })], queues := [(5, { queueOf none with restore := true, task := some 0 })] }

theorem witness_Preemption :
    let s : State := { (one stoppedCell) with tasks := [(0, savingTask)] }
    let p : State := { (one { stoppedCell with paused := true }) with tasks := [(0, savingTask)], queues := [(0, { wasReady := true })] }
    let k := { savedTask with q := 5 }
    let r : State := { restoring with tasks := [(0, k)] }
    look s.cells 0 = some stoppedCell ∧ stoppedCell.paused = false ∧ halting s stoppedCell = true ∧ stoppedCell.core.stopIssue = true ∧
    stoppedCell.frozen = none ∧ (∀ f ∈ (partOf s stoppedCell.part).freezes, f.done = true) ∧ accessesDone s 0 stoppedCell = true ∧
    (∀ q : BitVec 2, atStop stoppedCell q = true) ∧
    look p.tasks 0 = some savingTask ∧ savingTask.stage = .saving true ∧ keysFrom 0 p.cells = true ∧
    (∀ id ∈ savingTask.cells, ∃ c, look p.cells id = some c ∧ c.paused = true) ∧ (queueAt p savingTask.q).wasReady = true ∧
    look r.tasks 0 = some k ∧ k.stage = .saved ∧ k.fatal = none ∧ (queueAt r k.q).restore = true ∧ (queueAt r k.q).task = some 0 ∧
    isChosen r k.q = true ∧ (partOf r k.part).resident = true ∧ gets (allocate r k.part k.w k.h k.blocks.length) [0] [] = true ∧
    [0].Nodup ∧ k.frames.length = [0].length ∧ (∀ f ∈ k.frames, f.core.trap = none ∧ f.core.held = []) := by
  refine ⟨rfl, rfl, by decide, rfl, rfl, by decide, by decide, by decide, rfl, rfl, rfl, ?_, rfl, rfl, rfl, rfl, rfl, rfl, by decide +kernel, rfl,
    by decide +kernel, by decide, rfl, by decide⟩
  intro id h
  simp only [savingTask, List.mem_singleton] at h
  subst h
  exact ⟨_, rfl, rfl⟩

theorem witness_Preemption_swaps :
    let mine : Cell := { stoppedCell with paused := true }
    let theirs : Cell := { stoppedCell with part := 1, paused := true }
    let s : State := { (one mine) with parts := [(0, { resident := false }), (1, { resident := false })], shadow := [(1, [(0, theirs)])] }
    (0 : BitVec 4) ≠ 1 ∧ (partOf s 0).resident = false ∧ (partOf s 1).resident = false ∧ keysFrom 0 s.shadow = true ∧
    keysFrom 0 s.queues = true ∧ keysFrom 0 s.cells = true ∧ (∀ x ∈ s.cells, x.2.part = 0 → x.2.paused = true) ∧
    peek [] s.shadow (1 : BitVec 4).toNat = [(0, theirs)] ∧ (∀ x ∈ [((0 : Nat), theirs)], ∀ y ∈ s.cells, y.1 = x.1 → y.2.part = 0) ∧
    (([((0 : Nat), theirs)]).map (·.1)).Nodup ∧ theirs.core.held = [] ∧ (look s.tasks theirs.task).isSome := by
  refine ⟨by decide, rfl, rfl, rfl, rfl, rfl, ?_, rfl, ?_, by decide, rfl, rfl⟩
  · intro x h _
    simp only [one, List.mem_singleton] at h
    subst h
    rfl
  · intro x h y h' _
    simp only [one, List.mem_singleton] at h h'
    subst h h'
    rfl

/-- A cell whose domain of level 1 is its task. -/
def domainCell : Cell := { core := { sr := { domain := 3 } } }

theorem witness_FreezesAndEntries_freezes :
    let f : Freeze := { at_ := 10, level := 1, faulty := 0 }
    let g : Freeze := { f with done := true, cells := [0], resolved := some 20 }
    let s (x : Freeze) (c : Cell) : State := { (one c) with parts := [(0, { freezes := [x] })] }
    keysFrom 0 (s f domainCell).cells = true ∧ (partOf (s f domainCell) 0).freezes = f :: [] ∧ f.done = false ∧
    look (s f domainCell).cells f.faulty = some domainCell ∧ takesPart domainCell f.level = true ∧ domainCell.frozen = none ∧
    (partOf (s g { domainCell with frozen := some 10 }) 0).freezes = [g] ∧ g.done = true ∧ g.resolved = some 20 ∧ g.page = none ∧
    g.cells.Nodup ∧ g.at_ ≤ max (s g domainCell).now (20 + 40) ∧
    look (s g { domainCell with frozen := some 10 }).cells 0 = some { domainCell with frozen := some 10 } ∧
    (let t : Task := { fatalTask ⟨0, { code := .xlatfault, unit := 1 }, false⟩ with waitsPage := [0] }
     look ({ (one {}) with tasks := [(0, t)] } : State).tasks 0 = some t ∧ t.part = 0 ∧ t.waitsPage = [0] ∧ 0 ∈ t.waitsPage) :=
  ⟨rfl, rfl, rfl, rfl, by decide, rfl, rfl, rfl, rfl, rfl, by decide, by decide, rfl, rfl, rfl, rfl, .head _⟩

/-- A cell with one deferred read, its time-out at 10 cycles. -/
def deferring (r : Reader) : Cell :=
  { core := { sr := { defer := 10 } }, mem := { deferred := [{ addr := 8, size := 8, signed := false, reader := r, since := 5, pc := 4 }] } }

theorem witness_FreezesAndEntries_timeouts :
    let s (r : Reader) (now : Nat) : State := { (one (deferring r)) with now := now, resps := [(3, { msg := msgLoad .pa 0, vals := [], refusal := none, ready := false })] }
    (∀ (r : Reader) (n : Nat), look (s r n).cells 0 = some (deferring r) ∧
      (deferring r).mem.deferred[0]? = some { addr := 8, size := 8, signed := false, reader := r, since := 5, pc := 4 }) ∧
    (deferring (.stream true 5)).frozen = none ∧
    (s (.stream true 5) 15).now - 5 ≤ (deferring (.stream true 5)).core.sr.defer.toNat ∧
    (deferring (.ldq 0)).core.sr.defer.toNat < (s (.ldq 0) 16).now - 5 ∧
    look (s (.msg 3) 16).resps 3 = some { msg := msgLoad .pa 0, vals := [], refusal := none, ready := false } :=
  ⟨fun _ _ => ⟨rfl, rfl⟩, rfl, by decide, by decide, rfl⟩

theorem witness_FreezesAndEntries_entries :
    let t : Trap := { code := .illegal, unit := 1, addr := 0x44 }
    let c : Cell := { cellH with core := { cellH.core with trap := some t, ldq := [⟨0, true, [9], false⟩] } }
    look (one c).cells 0 = some c ∧ c.core.trap = some t ∧ t.code ≠ .hang ∧ c.core.hm = false ∧ c.core.sr.trapvec ≠ 0 ∧
    (taskOf (one c) c).bind (·.residual) = none ∧ accessesDone (one c) 0 c = true ∧ allAtStop c = true ∧
    freezePending (one c) c.part 0 = false ∧ halting (one c) c = false :=
  ⟨rfl, rfl, by decide, rfl, by decide, rfl, by decide⟩

theorem test_entry_writes_record :
    left (exec (.trapEntry 0) (one { cellH with core := { cellH.core with trap := some { code := .illegal, unit := 1, addr := 0x44 } } }))
      (fun c => (c.core.hm, c.core.pcE, c.core.sr.trec[1])) = some (true, 0x100, 0x44) := by decide

theorem witness_Networks_owner_maps :
    let s : State := { (one {}) with tasks := [(0, { savingTask with blocks := [1] })] }
    let bs : List Byte := List.replicate 16 0x81
    (bs.length = 16 ∧ 240 % 16 = 0 ∧ 240 < 256) ∧ (∀ x ∈ bs, x &&& 0x8F = bs.headD 0 &&& 0x8F) ∧
    (¬ ∃ x ∈ s.tasks, 240 / 16 ∈ x.2.blocks ∧ x.2.die = 0 ∧ ¬ ((bs.headD 0).getLsbD 7 = true ∧ (bs.headD 0).toNat % 16 = x.2.part.toNat)) ∧
    (∃ x ∈ s.tasks, 16 / 16 ∈ x.2.blocks ∧ x.2.die = 0 ∧ ¬ ((bs.headD 0).getLsbD 7 = true ∧ (bs.headD 0).toNat % 16 = x.2.part.toNat)) ∧
    (let m : OwnerMap := { pending := [(2, 0x8181818181818181), (3, 0x8181818181818181)] }
     m.pending ≠ [] ∧ keysFrom 0 m.pending = true ∧ keysFrom 0 m.dw = true) ∧ (ownerMap s (ownerKey (some 63) 0)).pending = [] := by
  refine ⟨by decide, by decide, ?_, ⟨_, .head _, by decide, rfl, by decide⟩, by decide, rfl⟩
  rintro ⟨x, h, h', -, -⟩
  simp only [List.mem_singleton] at h
  subst h
  revert h'
  decide

/-- A beat at the box of cell 17 on the LOC input in slot 0, which partition 0 owns. -/
def beatAt (row col : Nat) (input : BitVec 4) (table : Word) (l : List Beat) : State :=
  { (one {}) with
    flying := [⟨⟨0, 0, false⟩, 0, row, col, input, 0⟩], owners := [(0, { dw := [(0, 0x8080808080808080)] })]
    cells := [(17, { slotTable := [(0, table)], landing := l })] }

theorem witness_Networks_circuits :
    slotOwner (ownerMap (beatAt 1 1 1 0 []) 0) 0 = some 0 ∧ slotOwner (ownerMap (one {}) 0) 0 ≠ some 0 ∧
    (∃ site, site < 16 ∧ Config.isSliceSite (siteCell 0 1 site) = true) ∧ Config.isSliceSite (siteCell 0 1 1) = false ∧
    selected 0 1 1 1 = [] ∧ selected 1 1 1 1 = [1] ∧ selected 0x10 1 1 1 = [2] ∧
    (sendOn ⟨⟨0, 0, false⟩, 0, 1, 1, 1, 0⟩ 2).isSome ∧ ([] : List Beat).length < 16 ∧
    16 ≤ (List.replicate 16 (⟨0, 0, false⟩ : Beat)).length ∧
    look (beatAt 1 1 1 0x10 []).cells (siteCell 0 1 1) = some { slotTable := [(0, 0x10)] } := by
  refine ⟨by decide, by decide, by decide, by decide, by decide, by decide, by decide, by decide, by decide, by decide, rfl⟩

theorem test_beat_lands :
    (match exec (.circuitBeat 0) (beatAt 1 1 1 1 []) with
     | .next t => (look t.cells 17).map (·.landing.length) == some 1
     | _ => false) = true := by decide

/-! ### Witnesses: links, firmware, the step -/

/-- An active link whose key slot 0 holds a key in both directions. -/
def keyed : Link := { txKeys := #v[some ⟨1, 2⟩, none], rxKeys := #v[some ⟨3, 4⟩, none] }
def linked (k : Link) : State := { links := [(0, k)] }

theorem field_sealed (b : BitVec 480) (lo n : Nat) : field (sealFlit b) (32 + lo) n = field b lo n := by
  unfold field sealFlit
  apply BitVec.eq_of_getLsbD_eq
  intro i hi
  have h1 : ¬ 32 + lo + i < 32 := by omega
  simp only [BitVec.getLsbD_extractLsb', BitVec.getLsbD_append, h1, hi, decide_true, Bool.true_and, if_false]
  congr 1
  omega

theorem field_all (b : BitVec 480) : field b 0 480 = b := by simp [field]

theorem sealed_crc (b : BitVec 480) : flitCrc (sealFlit b) = field (sealFlit b) 0 32 := by
  have h : field (sealFlit b) 0 32 = Config.crc32 b := by
    unfold field sealFlit
    apply BitVec.eq_of_getLsbD_eq
    intro i hi
    simp only [BitVec.getLsbD_extractLsb', BitVec.getLsbD_append, hi, decide_true, Bool.true_and, Nat.zero_add, if_true]
  have h' := field_sealed b 0 480
  simp only [Nat.add_zero, field_all] at h'
  rw [h, flitCrc, h']

/-- A body whose type is `t` and whose other bits are zero. -/
def body (t : Nat) : BitVec 480 := BitVec.ofNat 480 (t * 2 ^ 28)

theorem good_body (t : Nat) (h : t < 3) : flitGood t (sealFlit (body t)) = true := by
  have ht : t = 0 ∨ t = 1 ∨ t = 2 := by omega
  have e (lo n : Nat) (hl : 32 ≤ lo) (hn : lo + n ≤ 512) : field (sealFlit (body t)) lo n = field (body t) (lo - 32) n := by
    have := field_sealed (body t) (lo - 32) n
    rwa [show 32 + (lo - 32) = lo from by omega] at this
  unfold flitGood
  rw [sealed_crc, BEq.rfl, Bool.true_and]
  simp only [flitType, flitVc, e 60 4 (by omega) (by omega), e 48 8 (by omega) (by omega), e 57 3 (by omega) (by omega),
    e 32 25 (by omega) (by omega), e 464 48 (by omega) (by omega), e 80 432 (by omega) (by omega)]
  rcases ht with rfl | rfl | rfl <;> decide +kernel

/-- Whether the opener accepts a flit is a free value of the model: each of the two clauses on it is met under one of its
values, and no state decides which. -/
theorem witness_Links_data :
    (0 : Nat) < 12 ∧ (linkOn (linked keyed) 0).down = false ∧ (5#3).toNat < 6 ∧ keyed.replay.length < 512 ∧ keyed.txState = .active ∧
    (totalOf keyed.sent (5#3).toNat - totalOf keyed.freedLatest (5#3).toNat).toNat < 256 ∧ keyed.txC.toNat ≠ 2 ^ 48 - 1 ∧
    keyAt keyed.txKeys keyed.txKi = some ⟨1, 2⟩ ∧
    256 ≤ (totalOf { keyed with sent := Vector.replicate 6 256 }.sent (5#3).toNat - totalOf keyed.freedLatest (5#3).toNat).toNat ∧
    flitGood 0 (sealFlit (body 0)) = true ∧ flitSeq (sealFlit (body 0)) = keyed.expect ∧ flitKi (sealFlit (body 0)) = keyed.rxKi ∧
    keyAt keyed.rxKeys keyed.rxKi = some ⟨3, 4⟩ ∧ flitSeq (sealFlit (body 0)) ≠ { keyed with expect := 1 }.expect ∧
    { keyed with expect := 1 }.askWait = false ∧ { keyed with expect := 1, askedHere := 14 }.askedHere < 15 ∧
    15 ≤ { keyed with expect := 1, askedHere := 15 }.askedHere := by
  have hs : flitSeq (sealFlit (body 0)) = 0 := by
    have := field_sealed (body 0) 0 16
    rw [flitSeq, this]
    decide +kernel
  have hk : flitKi (sealFlit (body 0)) = 0 := by
    have := field_sealed (body 0) 24 1
    rw [flitKi, this]
    decide +kernel
  refine ⟨by decide, rfl, by decide, by decide, rfl, by decide, by decide, rfl, by decide, good_body 0 (by decide), hs, hk, rfl, ?_, rfl,
    by decide, by decide⟩
  rw [hs]
  decide

theorem witness_Links_upkeep :
    (linkOn (linked keyed) 11).down = false ∧ flitGood 1 (sealFlit (body 1)) = true ∧ flitGood 1 (0 : BitVec 512) = false ∧
    flitGood 2 (sealFlit (body 2)) = true ∧ flitGood 2 (0 : BitVec 512) = false ∧
    ({ keyed with txState := .activeNext } : Link).txState = .activeNext ∧ ({ keyed with txState := .exhausted } : Link).txState = .exhausted ∧
    keyed.txState ≠ .exhausted ∧ (linkOn (linked { keyed with down := true }) 0).down = true := by
  refine ⟨rfl, good_body 1 (by decide), ?_, good_body 2 (by decide), ?_, rfl, rfl, by decide, rfl⟩
  · have h : (flitType (0 : BitVec 512) == 1) = false := by decide +kernel
    rw [flitGood, h, Bool.and_false, Bool.false_and, Bool.false_and]
  · have h : (flitType (0 : BitVec 512) == 2) = false := by decide +kernel
    rw [flitGood, h, Bool.and_false, Bool.false_and, Bool.false_and]
    all_goals decide

theorem witness_FirmwareAndTrust_rings :
    let s (x : Partition) : State := { parts := [(0, x)] }
    ringFull (partOf (s {}) 0) = false ∧ ringFull (partOf (s { prod := 63 }) 0) = false ∧ Memory.wf (s {}).mem = true ∧
    (partOf (s {}) 0).ringBase.toNat + 64 + 32 * 2 ^ (partOf (s {}) 0).ringK ≤ 2 ^ 51 ∧ ringFull (partOf (s { prod := 64 }) 0) = true ∧
    (partOf (s { overflow := true, prod := 47 }) 0).overflow = true ∧
    ((partOf (s { overflow := true, prod := 47 }) 0).prod - (partOf (s { overflow := true, prod := 47 }) 0).cons).toNat + 17 ≤
      2 ^ (partOf (s { overflow := true, prod := 47 }) 0).ringK ∧
    2 ^ (partOf (s { overflow := true, prod := 48 }) 0).ringK <
      ((partOf (s { overflow := true, prod := 48 }) 0).prod - (partOf (s { overflow := true, prod := 48 }) 0).cons).toNat + 17 := by decide

/-- What the signature check answers is a free value, so that no state decides between its two clauses; what they ask of the
state beside it is met here. -/
theorem witness_FirmwareAndTrust_trust :
    let bs : List Byte := bytesOf 1 8
    let m : Image := { imgid := 1, bytes := memOf bs, len := 8 }
    readWord (memOf bs) 0 8 = 1 ∧ (∀ m ∈ ({} : State).images, m.imgid ≠ 1) ∧
    ({ images := [m] } : State).images.find? (fun m => m.imgid == 1) = some m ∧ m.bytes = memOf bs ∧ m.len = bs.length ∧
    { m with len := 9 }.len ≠ bs.length ∧ ({} : State).fw.booted = false ∧ ({} : State).fw.owned = false ∧
    ({ fw := { owned := true } } : State).fw.owned = true ∧ retirementList { owned := true, retAccepted := true } = some (0, []) :=
  ⟨by decide, by decide, by decide, rfl, rfl, by decide, rfl, rfl, rfl, by decide⟩

theorem witness_FirmwareAndTrust_upkeep :
    let queueing : State := { queues := [(5, { en := true })], counters := [(6, { state := .armed })] }
    (0x2000 : BitVec 52).toNat % 4096 = 0 ∧ (counterAt queueing 7).state = .free ∧ look (one {}).cells 0 = some ({} : Cell) ∧
    ({} : Cell).part = 0 ∧ populated ({} : Firmware) 0 1 = true ∧ populated ({} : Firmware) 0x8080000000 1 = false ∧
    ({ fw := { kettle := [0, 1] } } : State).fw.kettle = 0 :: [1] ∧
    (∀ x ∈ queueing.tasks, x.2.part ≠ 0) ∧ keysFrom 0 queueing.counters = true ∧ (∀ n ∈ keys queueing.counters, n < 65536) ∧
    look queueing.queues 5 = some { en := true } ∧
    (let c : Cell := { mem := { code := memOf [0, 0xD0, 1, 0x33], codeLen := 4 } }
     let k : Task := { q := 0, part := 0, image := ⟨0, [], 0, none⟩, w := 1, h := 1, cells := [0], stage := .running }
     let s : State := { (one { c with core := setReg c.core false 7 0x10006 }) with counters := [(6, { state := .armed, gen := 1, value := 1 })] }
     look s.tasks 0 = some k ∧ k.stage = .running ∧ (partOf s k.part).resident = true ∧ k.cells ≠ [] ∧
     decodeCore (codeWord c.mem 0) = .ok (.waitc 7) ∧ ∀ id ∈ k.cells, memberWaits s id = true) := by
  refine ⟨by decide, rfl, rfl, rfl, by decide, by decide, rfl, by decide, rfl, by decide, rfl, rfl, rfl, rfl, by decide, by decide, ?_⟩
  intro id h
  simp only [List.mem_singleton] at h
  subst h
  decide

theorem witness_StepRunsDecoded :
    let s := one program
    let q := queued 0 (entry .goMm [] .waiting)
    s.agenda = [] ∧ dueMove s = none ∧ look s.cells s.focus.cell = some program ∧ s.focus.unit = .execute ∧
    streamRuns program false = true ∧ (nextPlace program false).toNat + 4 ≤ program.mem.codeLen ∧
    (codeWord program.mem (nextPlace program false).toNat).getLsbD 31 = false ∧
    decodeCore (codeWord program.mem (nextPlace program false).toNat) = .ok (.addi false false 5 0 7) ∧
    (let c : Cell := { mem := { code := memOf [0, 0, 0, 0x0F], codeLen := 4 } }
     decodeCore (codeWord c.mem 0) = .reject .reservedMajor ∧ streamRuns c false = true) ∧
    ({} : Cell).mem.codeLen < (nextPlace {} false).toNat + 4 ∧
    queueWord { (one q) with focus := ⟨0, .queue 0⟩ } 0 q 0 = some .goMm ∧
    stripWord (collarCell 5 [] {}).collar 5 = some (.fadd 0 0 1 1 0) ∧
    ({ agenda := [.event .configGenerationChange] } : State).agenda = .event .configGenerationChange :: [] := by
  refine ⟨rfl, by decide +kernel, rfl, rfl, by decide, by decide, by decide, by decide, ⟨by decide, by decide⟩, by decide, by decide, by decide +kernel, rfl⟩

theorem test_step_runs_program : left (step (one program)) (xE 5) = some 7 := by decide +kernel

theorem test_withFetchWord_runs : left (step (State.reset.withFetchWord 32 0x04280007)) (xE 5) = some 7 := by decide +kernel

theorem witness_DecodingDropsNoBit :
    decodeCore 0x01297C00#32 = .ok (.add false false 5 5 30) ∧ decodeStrip 0x1C4A8800#32 = .ok (.ffma 0 4 5 1 1 0) := by decide

theorem witness_MemoryCanonicalKept :
    MemoryCanonical (one program) ∧ (match step (one program) with
      | .next _ => true
      | _ => false) = true := by
  refine ⟨?_, by decide +kernel⟩
  unfold MemoryCanonical CellCanonical
  decide

theorem witness_EncodingRoundTrip : (Instr.add false false 5 6 7).WellFormed := by decide

/-! ### Witnesses of further clauses -/

theorem witness_LocalLoads_waits :
    Ready (one cellP) true cellP ∧ Ready (one cellP) false cellP ∧ debugs (one cellP) cellP = false ∧
    sourceOf true 6 cellP = some (0x100, cellP) ∧ sourceOf false 6 cellP = some (0x100, cellP) ∧ isEmpty cellP 0x100 = true ∧
    cellP.mem.bufs[0] = [] ∧ (29#5).toNat < 30 ∧ bit cellP.core.busy 29 = false ∧ cellP.core.eaq.length < 16 ∧
    storesBuffered cellP false = false ∧ cellP.core.ldq.length < 32 ∧ storesBuffered cellP true = false :=
  ⟨⟨rfl, rfl⟩, ⟨rfl, rfl⟩, rfl, rfl, rfl, by decide, rfl, by decide⟩

/-- A store to a full word of group 0 in presence mode, that took a value from the LDQ. -/
def cellPS (pc : Word) : Cell :=
  { core := { sr := { pgmode := 1 }, pcE := pc }, mem := { bufs := #v[[⟨false, 0x100, 8, 5, 0, 0, [{ id := 3, filled := true, vals := [5] }], []⟩], [], [], []] } }

theorem witness_StoreRetirement_faults :
    look (one (cellPS 8)).cells 0 = some (cellPS 8) ∧
    (cellPS 8).mem.bufs[(0 : BitVec 2).toNat] = [⟨false, 0x100, 8, 5, 0, 0, [{ id := 3, filled := true, vals := [5] }], []⟩] ∧
    meetsFull (cellPS 8) 0x100 = true ∧ (cellPS 8).core.trap = none := ⟨rfl, rfl, by decide, rfl⟩

/-- R18, R104: the store stands at its place again, the value it took is back, and the trap is PRESENCE. -/
theorem test_store_fault_is_precise :
    left (exec (.storeRetire 0 0) (one (cellPS 8))) (·.core.pcE) = some 0 ∧
    left (exec (.storeRetire 0 0) (one (cellPS 8))) (fun c => c.core.ldq.map (·.vals)) = some [[5]] := by
  decide +kernel

theorem test_store_waits_for_retirement :
    left (exec (.std false 6 7 0 0) (one { cellB with core := setReg (setReg cellB.core false 7 0x100) false 6 9 }))
      (fun c => (code c, c.mem.bufs[0].length, readByte c.mem.scratch 0x100)) = some (none, 1, 0) := by decide

theorem witness_SystemInstructions_handler :
    Ready (one cellR) false cellR ∧ earlierDone (one cellR) 0 cellR = true ∧ clusterSize (one cellR) cellR ≤ 1 ∧ cellR.core.hm = true :=
  ⟨⟨rfl, rfl⟩, by decide, by decide, rfl⟩

theorem witness_BarrierCompletion_more :
    let h : State := { (counted { expect := 1, arrived := 1 } cellL) with
      tasks := [(0, { q := 0, part := 0, image := ⟨0, [], 0, none⟩, w := 1, h := 1, cells := [0], stage := .saving false })] }
    let f (torus : BitVec 4 × BitVec 4 × BitVec 4) : State :=
      { (one cellL) with barriers := [(barrierKey 0 4 0, { expect := 1, arrived := 1 })], fw := { torus := torus } }
    (inDomain (barrierKey 0 0 0) 0 0 cellL = true ∧ halting h cellL = true) ∧ halting (one cellL) cellL = false ∧
    0 < (barrierAt (f (1, 1, 1)) (barrierKey 0 4 0)).arrived ∧
    1 * 1 * 1 ≤ ((barrierAt (f (1, 1, 1)) (barrierKey 0 4 0)).far.filter fun a => a.gen == false).length + 1 ∧
    ((barrierAt (f (2, 1, 1)) (barrierKey 0 4 0)).far.filter fun a => a.gen == false).length + 1 < 2 * 1 * 1 ∧
    inDomain (barrierKey 0 4 0) 4 0 cellL = true ∧
    (let c : Cell := { cellL with bar := { pending := 1 } }
     c.bar.pending.getLsbD 0 = true ∧ c.bar.record.toList.getD 0 0 = barrierKey 0 0 0 ∧ c.bar.mygen.getLsbD 0 = false) := by decide

/-- The other package of a level-4 domain of two has sent its partial count; this one's has gone up the tree, or has still to. -/
def farBarrier (told : Option (Bool × Nat × Nat × Nat)) : State :=
  { (one cellL) with
    barriers := [(barrierKey 0 4 0, { expect := 1, arrived := 1, told := told, far := [⟨1, 0, false, 2, 2, 0, none, false⟩] })]
    fw := { torus := (2, 1, 1) } }

theorem witness_BarrierCompletion_far :
    let b := barrierAt (farBarrier (some (false, 1, 1, 0))) (barrierKey 0 4 0)
    let others := b.far.filter fun a => a.gen == b.gen
    b.arrived + (others.map (·.arrived)).sum = b.expect + (others.map (·.expect)).sum ∧ (others.map (·.open_)).sum = 0 ∧
    2 ≤ others.length + 1 ∧ b.told = some (b.gen, b.expect, b.arrived, 0) ∧
    (barrierAt (farBarrier none) (barrierKey 0 4 0)).told = none ∧ keysFrom 0 (farBarrier none).fw.clocks = true := by decide

theorem witness_RemoteAccesses_two :
    (Instr.rld 10 0 9 2 0 3).WellFormed ∧ placeTarget (one cellV) cellV 0 0x80 = some (.cell 0) ∧ (2#2 : BitVec 2) = 2 := by decide

/-- Remote stores that trap: at a place that names nothing, and at a misaligned offset. -/
theorem witness_RemoteAccesses_stores :
    (Instr.rst 0 0 9 0 0 3).WellFormed ∧ sourceOf true 0 cellV = some (0, cellV) ∧ placeTarget (one cellV) cellV 0x100 0x80 = none ∧
    placeTarget (one cellV) cellV 0 0x84 ≠ none ∧ (0x84 : Word).toNat % 2 ^ ((3#5).toNat % 4) ≠ 0 :=
  ⟨by decide, rfl, by decide⟩

/-- A read of the LDQ of cell 0 waits at its own bank. -/
def cellLdq : Cell :=
  { mem := { deferred := [{ addr := 8, size := 8, signed := false, reader := .ldq 0, since := 0, pc := 0 }] } }

theorem witness_FencesAndDrains_each :
    ((∀ q : Fin 4, cellA.mem.bufs[q] = []) ∧ cellA.mem.deferred = [] ∧ (one cellA).msgs = [] ∧ (one cellA).resps = []) ∧
    (∃ (q : Fin 4) (b : BufStore), b ∈ cellS.mem.bufs[q] ∧ b.acc = false ∧ ((0 : BitVec 3) = 0) ∧ ((0 : BitVec 4) = 0)) ∧
    (∃ d n, d ∈ cellLdq.mem.deferred ∧ d.reader = .ldq n ∧ ((0 : BitVec 3) = 0) ∧ (15#4).getLsbD d.cls.toNat = true) ∧
    (let m := msgStore .pa 0 false
     (0, m) ∈ (sending m cellA).msgs ∧ m.cell = 0 ∧ m.acc = true ∧ m.nt = false ∧ insideScope (sending m cellA) m 4 = true) ∧
    (let r : Resp := { msg := msgLoad (.cell 1) 0, vals := [], refusal := none, ready := false }
     let s : State := { (one cellA) with resps := [(3, r)] }
     (3, r) ∈ s.resps ∧ r.ready = false ∧ insideScope s r.msg 4 = true) ∧
    (let c : Cell := { core := { pcE := 4 } }
     Ready (one c) false c ∧ c.core.brA = c.core.brE ∧ c.core.pcA.toNat < c.core.pcE.toNat) ∧
    (let m := msgStore .pa 0 true
     (0, m) ∈ (sending m cellA).msgs ∧ m.cell = 0 ∧ m.nt = true ∧ insideScope (sending m cellA) m 4 = true) := by
  refine ⟨by decide, ⟨0, _, .head _, rfl, rfl, rfl⟩, ⟨_, 0, .head _, rfl, rfl, by decide⟩, ⟨.head _, rfl, rfl, rfl, by decide⟩,
    ⟨.head _, rfl, by decide⟩, ⟨⟨rfl, rfl⟩, rfl, by decide⟩, .head _, rfl, rfl, by decide⟩

theorem arrives_alone (r : Resp) (h1 : r.ready = true) (h2 : r.msg.origin = none) (h3 : hasCome (answered r) r.msg = true) :
    Claims.Arrives (answered r) 0 r := by
  refine ⟨rfl, h1, h2, h3, fun k x h hk => ?_⟩
  simp only [answered, List.mem_singleton, Prod.mk.injEq] at h
  exact absurd h.1 hk

/-- Two responses of one target: the one performed first arrives first. -/
theorem witness_Responses_order :
    let r (p : Nat) : Resp := { msg := msgLoad .pa 0, vals := [7], refusal := none, perf := p }
    Claims.Arrives { (answered (r 5)) with resps := [(0, r 5), (1, r 6)] } 0 (r 5) := by
  refine ⟨rfl, rfl, rfl, by decide, fun k x h hk _ _ _ => ?_⟩
  simp only [List.mem_cons, List.not_mem_nil, or_false, Prod.mk.injEq] at h
  obtain ⟨rfl, -⟩ | ⟨-, rfl⟩ := h
  · exact absurd rfl hk
  · decide

theorem witness_Responses_kinds :
    let at_ (k : Access) (vals : List Word) (f : Option TrapCode) : Resp := { msg := { msgLoad .pa 0 with kind := k }, vals := vals, refusal := f }
    (∀ k ∈ [(Access.amo 0 1 0 5), .load true (.reg 5), .load true (.ldq 0), .line 0, .store 5], ∀ vals f,
      Claims.Arrives (answered (at_ k vals f)) 0 (at_ k vals f)) ∧ cellY.task = (msgLoad .pa 0).task ∧
    (at_ (.load true (.ldq 0)) [7] none).vals.length = 1 :=
  ⟨fun _ _ _ _ => arrives_alone _ rfl rfl rfl, rfl, rfl⟩

theorem witness_BindingChanges_flies :
    let m : Msg := { msgStore .pa 0 false with frame := some 1 }
    let s : State := { (sending m {}) with revocations := [⟨0, 1, [0]⟩] }
    (0, m) ∈ s.msgs ∧ m.cell = 0 ∧ m.frame = some 1 ∧ s.revocations = [⟨0, 1, [0]⟩] ∧ 0 ∈ [0] ∧
    ({ s with revocations := [⟨0, 1, []⟩] } : State).revocations = [⟨0, 1, []⟩] := ⟨.head _, rfl, rfl, rfl, .head _, rfl⟩

/-- The packet `0; phase; tok 0, 0; go.mm` counts an item at level 0. -/
def phaseCell : Cell := { core := setReg {} false 6 0xE020C200E0110000 }

theorem witness_PacketIssue_phase :
    Ready (one phaseCell) false phaseCell ∧
    launchOf (packetWords (one phaseCell) phaseCell 0 0 [0, 0xE011, 0xC200, 0xE020] { shadow := [] }) = some (.goMm, some 0) ∧
    (barrierAt (one phaseCell) (cellBarrier 0 phaseCell 0)).out0 ≠ 0xFFFF ∧
    (barrierAt { (one phaseCell) with barriers := [(0, { out0 := 0xFFFF })] } (cellBarrier 0 phaseCell 0)).out0 = 0xFFFF :=
  ⟨⟨rfl, rfl⟩, by decide⟩

/-- Word 8 of cell 0 in presence mode, and the same word empty. -/
def cellFull : Cell := { core := { sr := { pgmode := 1 } } }

def cellEmpty : Cell := { cellFull with mem := { empty := [8] } }

def stWord : Msg := msgStore (.cell 0) 0x100 false

def ldWord : Msg := msgLoad (.cell 0) 0x100

theorem witness_ScratchRequests_more :
    (∀ x ∈ [(stWord, cellFull), (ldWord, cellEmpty), (stWord, cellEmpty)],
      admits (served x.1 x.2 (.cellRemote 0)) (unitKey (.cellRemote 0)) 0 (issuerPart (served x.1 x.2 (.cellRemote 0)) x.1) 0
        (permBit x.1.kind) x.1.addr (x.1.addr + x.1.size - 1) = true) ∧
    meetsFull cellFull 0x100 = true ∧ meetsFull cellEmpty 0x100 = false ∧ isEmpty cellEmpty 0x100 = true ∧ isEmpty cellFull 0x100 = false ∧
    (∀ x ∈ [(stWord, cellFull), (ldWord, cellEmpty)], deliverable (served x.1 x.2 (.cellRemote 0)) 0 x.1 = true) ∧
    admits (sending stWord cellFull) (unitKey (.cellRemote 0)) 0 (issuerPart (sending stWord cellFull) stWord) 0 (permBit stWord.kind)
      0x100 0x107 = false ∧
    deliverable (sending stWord cellFull) 0 stWord = true := by decide +kernel

/-- A load of physical bytes of which one is uncorrectable. -/
theorem witness_PhysicalRequests_more :
    let m := msgLoad .pa 0x100
    let s : State := { (served m {} (.hbm 0)) with poison := [0x103] }
    admitsPhysical s 0 (issuerPart s m) 0 (permBit m.kind) m.addr m.size = true ∧ (¬ ∀ a ∈ s.poison, a < m.addr ∨ m.addr + m.size ≤ a) ∧
    deliverable s 0 m = true ∧ admitsPhysical (sending m {}) 0 (issuerPart (sending m {}) m) 0 (permBit m.kind) m.addr m.size = false ∧
    deliverable (sending m {}) 0 m = true := by decide +kernel

/-- The page's frame lies in the CXL tier. Another die's engine moves frame 7; frame 5 is offlined, a retirement list stands. -/
def crowded : State :=
  { (mapped {}) with
    mem := writeWord pageTable 0x104000 8 0xE000010000000000, fw := { cxl0 := 0x100000, retActive := some [], offlined := [5] }
    migrations := [(1, { moving .arm [] with src := 7, dst := 0x1000008 })] }

theorem witness_Migrations_more :
    look crowded.migrations 0 = none ∧ walk crowded 0 0 false = .leaf 0 0xE000010000000000 ∧
    (∀ f ∈ crowded.fw.offlined, f.toNat * 0x10000 + 0x10000 ≤ 2 * 0x10000 ∨ 2 * 0x10000 + 0x10000 ≤ f.toNat * 0x10000) ∧
    regionOf (2 * 0x10000) = some 1 ∧ crowded.fw.retActive ≠ none ∧
    (∀ x ∈ crowded.migrations, ∀ a ∈ [x.2.src.toNat * 0x10000, x.2.dst.toNat * 0x10000],
      (a + x.2.bytes ≤ 0x10000000000 ∨ 0x10000000000 + 0x10000 ≤ a) ∧ (a + x.2.bytes ≤ 2 * 0x10000 ∨ 2 * 0x10000 + 0x10000 ≤ a)) ∧
    mayMove 0x10000000000 (2 * 0x10000) = true ∧ populated crowded.fw (2 * 0x10000) 0x10000 = true ∧ pageBytes 0 = 0x10000 ∧
    underWindow crowded 0x10000000000 0x10000 = false ∧ (partOf (mapped {}) 0).freePages < (partOf (mapped {}) 0).evictPages ∧
    8 ≤ { moving .copy [0, 1, 2, 3, 4] with rounds := 8 }.rounds :=
  ⟨rfl, by decide +kernel, fun f hf => by obtain rfl : f = 5 := List.mem_singleton.mp hf; simp, rfl, by decide, by decide, by decide, by decide +kernel, rfl, by decide +kernel⟩

/-- A collar over which its `fire` has made the swap and whose LD ports are DONE. -/
def swappedCell : Cell :=
  { queues := (Vector.replicate 4 ({} : EQueue)).set 1 { entries := [{ entry .fire [] .running with swapped := true }] }
    collar := { actE := some fullHalf, strips := Vector.replicate 16 { done := true } } }

def nothingHeld (c : Cell) : Prop :=
  c.exitBank = [] ∧ (∀ key, linkAt c.collar key = []) ∧ c.collar.wave.buf = [] ∧
    ∀ p ∈ c.collar.strips.toList, p.group = [] ∧ p.fifo = [] ∧ p.outQ = [] ∧ p.skid = []

theorem swapped_done : ∀ j : Fin 16, swappedCell.collar.strips[j].done = true := by decide

theorem witness_CopyEngine_completes :
    (let e := { entry .goMm [] .finished with phase := some ⟨1, false, 0⟩, sigs := [6] }
     (getQueue (queued 0 e) 0).entries = [e] ∧ e.status = .finished ∧ nothingHeld (queued 0 e) ∧ e.phase = some ⟨1, false, 0⟩) ∧
    (getQueue swappedCell 1).entries = [{ entry .fire [] .running with swapped := true }] ∧ nothingHeld swappedCell ∧
    (∀ j : Fin 16, j.val < 3 → (halfOfStrip swappedCell.collar j).isSome = true → swappedCell.collar.strips[j].done = true) ∧
    (halfOfStrip swappedCell.collar 0).isSome = true := by
  refine ⟨⟨rfl, rfl, ⟨rfl, fun _ => rfl, rfl, by decide⟩, rfl⟩, rfl, ⟨rfl, fun _ => rfl, rfl, by decide⟩, fun j _ _ => ?_, by decide⟩
  exact swapped_done j

/-- A record that copies 5 bytes from 0 to 0x100, the last of its chain. -/
def copyRec : Vector Word 8 := #v[0, 0, 0, 0, 0x100, 0, 0x1000100010005, 0]

/-- A channel that performs that record. -/
def performing (l : Launch) (h : Channel) : Cell :=
  { (queued 2 (entry l [] .running)) with channels := (Vector.replicate 4 ({} : Channel)).set 0 h }

theorem witness_CopyEngine_moves :
    let h (cur : Nat) : Channel := { state := .walk, atHand := some copyRec, cur := cur }
    let c (l : Launch) (cur : Nat) := performing l (h cur)
    (∀ x ∈ (c (.copy 0) 0).mem.served, x.reader ≠ .copy 0) ∧ (entry (.copy 0) [] .running).counted = none ∧
    (∀ f ∈ [0, 1, 3, 5, 7], copyRec[f]! = 0) ∧ copyRec[2] = BitVec.ofNat 64 0 ∧ copyRec[4] = BitVec.ofNat 64 0x100 ∧
    copyRec[6] = BitVec.ofNat 64 (5 + 0x1000100010000) ∧ (c (.copy 0) 0).channels[0].atHand = some copyRec ∧
    (c (.copy 0) 0).channels[0].map.getLsbD 0 = false ∧ keysFrom 0 (c (.copy 0) 0).channels[0].got = true ∧
    (∀ i b, look (c (.copy 0) 0).channels[0].got i = some b → b = readByte (c (.copy 0) 0).mem.scratch (0 + i)) ∧
    5 ≤ (c (.fill 7 0) 5).channels[0].cur ∧
    (∀ f ∈ [2, 4], (copyRec[f]!).toNat < 0xC0000) ∧ copyRec[0].getLsbD 60 = false ∧
    ((List.range 4).map fun d => copyRec[6].toNat / 2 ^ (16 * d) % 2 ^ 16).foldl (· * ·) 1 ≤ (c (.kick 0) 5).channels[0].cur := by
  refine ⟨by decide, rfl, by decide, rfl, rfl, rfl, rfl, by decide +kernel, rfl, fun i b h => ?_, by decide +kernel⟩
  cases h

/-- A collar that takes a snapshot; CX has room. -/
def snapCell : Cell := { collar := { actX := some exitHalf, snapping := true } }

/-- A queue whose head stands at a fault, and behind it the `strain` of a handler. -/
def faultedCell : Cell :=
  { core := { hm := true }
    queues := (Vector.replicate 4 ({} : EQueue)).set 1
      { entries := [entry .fire [] (.faulted { code := .stripinv, unit := 3 } false), { entry .strain [] .waiting with hm := true }], stopped := true } }

theorem witness_CollarEvents_more :
    (snapCell.exitBank = [] ∧ snapCell.collar.snapping = true ∧ snapCell.collar.cxSnapped = false ∧ hasRoom snapCell.collar 16 false = true ∧
      (getQueue snapCell 0).entries = []) ∧
    (faultedCell.core.hm = true ∧ (getQueue faultedCell 1).entries =
      (entry .fire [] (.faulted { code := .stripinv, unit := 3 } false) :: []) ++ { entry .strain [] .waiting with hm := true } :: [] ∧
      (entry .fire [] .waiting).phase = none ∧ (Launch.fire = Launch.strain → False)) ∧
    (let c := { (collarCell 0 [(0, [{ tag := 9 }])] {}) with
       collar := { (collarCell 0 [(0, [{ tag := 9 }])] {}).collar with snapping := true } }
     headToken c.collar 0 0 = some { tag := 9 } ∧ c.frozen = none ∧ c.collar.snapping = true) :=
  ⟨⟨rfl, rfl, rfl, by decide +kernel, rfl⟩, ⟨rfl, rfl, rfl, nofun⟩, rfl, rfl, rfl⟩

/-- A load or store port of strip j, its words at the generator's constants, over a cell changed as `f` says. -/
def porting (j : BitVec 4) (links : SMap (List Tok)) (p : Strip) (f : Cell → Cell) : Firing :=
  let c := f (collarCell j links p)
  ⟨{ (one c) with focus := ⟨0, .strip j⟩ }, 0, c, j, fullHalf, p⟩

def snappingCell (c : Cell) : Cell := { c with collar := { c.collar with snapping := true } }

/-- Eight lanes from 0x100 on, one token. -/
def lineStrip : Strip := { w := #v[0x100, 0x10001, 0x10001, 0, 0, 7, 0, 0] }

theorem witness_PortWords_loads :
    let g : GenPar := ⟨0x100, 1, 1, 1, 1, 0, 0, 0, 0, 7⟩
    let v := porting 1 [] lineStrip id
    let w := porting 1 [] lineStrip snappingCell
    let far := porting 1 [] { lineStrip with w := #v[0xFFFFC, 0x10001, 0x10001, 0, 0, 7, 0, 0] } id
    Claims.MayFire v ∧ Claims.MayFire w ∧ outputsFree w.c.collar 1 1 = true ∧ genPar v.p.w = some g ∧ genAddr g g.base v.p.gen = 0x100 ∧
    (∀ n, n ≤ g.lanes → Claims.inScratch (0x100 + 4 * (n : Nat))) ∧ (∀ x ∈ v.c.mem.served, x.reader ≠ .port 1) ∧
    g.n1 ≤ v.p.gen.i1 + 1 ∧ w.c.collar.snapping = true ∧ Claims.MayFire far ∧
    ¬ Claims.inScratch 0xFFFFC ∧ genPar ({} : Strip).w = none ∧ Claims.MayFire (porting 1 [] {} id) := by
  refine ⟨⟨rfl, rfl, rfl, by decide +kernel, rfl, by decide +kernel, by decide⟩, ⟨rfl, rfl, rfl, by decide +kernel, rfl, by decide +kernel, by decide⟩,
    by decide +kernel, rfl, by decide +kernel, ?_, by decide, by decide, rfl,
    ⟨rfl, rfl, rfl, by decide +kernel, rfl, by decide +kernel, by decide⟩, ?_, by decide +kernel,
    ⟨rfl, rfl, rfl, by decide +kernel, rfl, by decide +kernel, by decide⟩⟩
  · intro n hn
    have : n ≤ 7 := hn
    unfold Claims.inScratch
    omega
  · unfold Claims.inScratch
    omega

/-- A beat of the circuit plane, and one that ends its stream. -/
def landingCell (fin : Bool) (c : Cell) : Cell := { c with landing := [⟨0, 0, fin⟩] }

theorem witness_PortWords_landing :
    Claims.MayFire (porting 1 [] {} (landingCell true)) ∧ (porting 1 [] {} id).c.landing = [] ∧
    (∀ fin, (porting 1 [] {} (landingCell fin)).c.landing = ⟨0, 0, fin⟩ :: [] ∧ (porting 1 [] {} (landingCell fin)).c.markers = []) :=
  ⟨⟨rfl, rfl, rfl, by decide +kernel, rfl, by decide +kernel, by decide⟩, rfl, fun _ => ⟨rfl, rfl⟩⟩

/-- A cell whose every group is in presence mode, or that has injected a beat for cycle 1 already. -/
def presentCell (c : Cell) : Cell := { c with core := { c.core with sr := { c.core.sr with pgmode := 0xFFFFFFFFFFFFFFFF } } }

def injectedCell (c : Cell) : Cell := { c with injected := some 1 }

theorem witness_PortWords_stores :
    let g : GenPar := ⟨0x100, 1, 1, 1, 1, 0, 0, 0, 0, 7⟩
    let v (x : Tok) := porting 3 [(12, [x])] lineStrip
    (∀ x ∈ [zeros, { tag := 2 }, { tag := 7 }], operandTok (v x id) 0 = some x ∧ stripLive (v x id).c 3 = true) ∧
    Claims.MayFire (v zeros presentCell) ∧ genPar (v zeros id).p.w = some g ∧ (v zeros id).p.gen.passed = false ∧
    zeros.pred.getLsbD 0 = true ∧ presenceMode (v zeros presentCell).c 0x100 = true ∧ 0x100 / 32 ∉ (v zeros presentCell).c.mem.empty ∧
    ({ lineStrip with gen := { passed := true } } : Strip).gen.passed = true ∧ (v zeros id).c.injected ≠ some ((v zeros id).s.now + 1) ∧
    (v zeros injectedCell).c.injected = some ((v zeros injectedCell).s.now + 1) ∧ Claims.MayFire (v zeros injectedCell) ∧
    (nextEos (porting 5 [(20, [{ tag := 7 }])] lineStrip id)).isSome = true ∧
    operandTok (porting 5 [(20, [{ tag := 7 }])] lineStrip id) 0 = some { tag := 7 } ∧
    Claims.MayFire (porting 5 [(20, [{ tag := 7 }])] lineStrip id) := by
  refine ⟨by decide +kernel, ⟨rfl, rfl, rfl, by decide +kernel, rfl, by decide +kernel, by decide⟩, rfl, rfl, by decide +kernel,
    by decide +kernel, by decide, rfl, by decide, rfl, ⟨rfl, rfl, rfl, by decide +kernel, rfl, by decide +kernel, by decide⟩,
    by decide +kernel, rfl, ⟨rfl, rfl, rfl, by decide +kernel, rfl, by decide +kernel, by decide⟩⟩

/-- Ordered tokens of wave 0: the first of it, and the third with the second before it. -/
def first : Tok := { zeros with ord := 1 }

def third : Tok := { zeros with ord := 0x203 }

theorem witness_PortWords_waves :
    let v (x y : Tok) := porting 3 [(12, [x]), (13, [y])] lineStrip
    let part (x : Tok) (lo : Nat) : BitVec 8 := x.ord.extractLsb' lo 8
    let w : Wave := {}
    Claims.MayFire (v first zeros id) ∧ genBase lineStrip.w[0] = some 0x100 ∧ first.ord ≠ 0 ∧ third.ord ≠ 0 ∧
    (part first 24 = w.wave ∧ part first 8 = w.last) ∧ ¬ (part third 24 = w.wave ∧ part third 8 = w.last) ∧
    part first 0 ∉ w.seen ∧ w.buf = [] ∧ (let x : Wave := { seen := [1] }
      part first 24 = x.wave ∧ part first 0 ∈ x.seen) ∧
    (∀ n, n < 192 → (laneAt zeros.data n).toNat % 4 = 0 ∧ 0x100 + (laneAt zeros.data n).toNat + 4 ≤ 0xC0000) ∧
    (let x : Tok := { zeros with data := 1 }
     operandTok (v x zeros id) 0 = some x ∧ x.ord = 0 ∧ x.pred.getLsbD 0 = true ∧ (laneAt x.data 0).toNat % 4 ≠ 0) ∧
    operandTok (v { tag := 3 } zeros id) 0 = some { tag := 3 } ∧ outputsFree (v first zeros id).c.collar 3 1 = true ∧
    (let e := porting 5 [(20, [{ tag := 7 }]), (21, [{ tag := 7 }])] lineStrip id
     operandTok e 0 = some { tag := 7 } ∧ operandTok e 1 = some { tag := 7 } ∧ (nextEos e).isSome = true ∧ Claims.MayFire e) := by
  refine ⟨⟨rfl, rfl, rfl, by decide +kernel, rfl, by decide +kernel, by decide⟩, by decide, by decide, by decide, by decide, by decide, by decide,
    rfl, by decide, ?_, by decide +kernel, rfl, by decide +kernel, rfl, rfl, by decide +kernel,
    ⟨rfl, rfl, rfl, by decide +kernel, rfl, by decide +kernel, by decide⟩⟩
  intro n _
  have : laneAt zeros.data n = 0 := by
    apply BitVec.eq_of_getLsbD_eq
    intro i hi
    simp [laneAt, field, zeros]
  simp [this]

theorem witness_WorkQueues_writes_more :
    (queueAt (hosted (queueOf none)) 5).task = none ∧ (0x402 : Word).toNat / 2 % 128 ≠ 0 ∧ (0x300 : Word).toNat / 2 ^ 8 % 16 < 4 ∧
    ¬ (2 ^ 40 ≤ (7 : Word).toNat) ∧ 2 ^ 40 ≤ (0x10000000000 : Word).toNat := by decide

/-- Queue 5 with its ring at virtual address 0 of its partition, which is frame 1. -/
def ringInVm (access : SMap (Word × Word)) (root : Nat) : State :=
  { (mapped {}) with
    mem := writeWord pageTable 0x10038 8 1, access := access, queues := [(5, { queueOf none with loc := true })], parts := [(0, { root := root })] }

def gotRing (s : State) : Option (List Byte) :=
  match readSpan s (schedMaster 0) .virt 2 0 64 with
  | .bytes b t => if t.queues = s.queues ∧ t.counters = s.counters then some b else none
  | _ => none

def missRing (s : State) : Option (Option Nat) :=
  match readSpan s (schedMaster 0) .virt 2 0 64 with
  | .miss (.trap c _) t => if t.queues = s.queues then some (some c.num) else none
  | .miss (.page va) t => if va = 0 ∧ .page 0 0 ∉ t.fw.reports then some none else none
  | _ => none

theorem witness_WorkQueues_reads_more :
    ((gotRing (ringInVm (admitting (.hbm 0)) 0x100000)).map fun b => ((commandOf b).dw[7].toNat % 2 ^ 16, badCommand (commandOf b))) =
      some (1, false) ∧
    missRing (ringInVm [] 0x100000) = some (some TrapCode.access.num) ∧ missRing (ringInVm (admitting (.hbm 0)) 0) = some none ∧
    (queueOf none).head ≠ (queueOf none).tail ∧ ({ queueOf none with switched := true } : Queue).switched ≠ false ∧
    ({ queueOf none with rereads := 8 } : Queue).rereads ≠ 0 := by
  decide +kernel

/-- Queue 5 is READY with a launch; a rival, queue 6, lies behind it; queue 7 holds the dispatcher at a lower level. -/
def contended (restore : Bool) : State :=
  let v : Queue := { queueOf (some launchCmd) with prio := 2, wasReady := true }
  { queues := [(5, if restore then { v with restore := true, cmd := none, task := some 0 } else v), (6, { v with pass := 9 }), (7, { v with prio := 1 })]
    parts := [(0, { chosen := some 7 })], tasks := [(0, { savingTask with stage := .saved, q := 5, cells := [], wake := true })] }

theorem witness_WorkQueues_dispatching_more :
    (∀ r, let s := contended r
      let v := queueAt s 5
      (partOf s 0).resident = true ∧ (5, v) ∈ s.queues ∧ v.part = 0 ∧ isReady s v = true ∧ v.switched = false ∧
      (∀ y ∈ s.queues, y ≠ (5, v) → y.2.prio.toNat ≤ v.prio.toNat) ∧
      (∀ y ∈ s.queues, (partOf s 0).chosen = some (BitVec.ofNat 12 y.1) ∨ waitsForCells s y.2 = true → y.2.prio.toNat < v.prio.toNat)) ∧
    (let v := queueAt (contended false) 5
     v.restore = false ∧ v.task = none ∧ v.charged = false ∧ v.wasReady = true ∧ v.cmd = some launchCmd ∧
     ∀ y ∈ (contended false).queues, y ≠ (5, v) → y.2.prio = v.prio →
       y.2.restore = false ∧ passBefore v.pass y.2.pass = true ∧ passBefore y.2.pass v.pass = false) ∧
    (let v := queueAt (contended true) 5
     v.restore = true ∧ ∀ y ∈ (contended true).queues, y ≠ (5, v) → y.2.prio = v.prio → y.2.restore = false) := by
  decide +kernel

theorem witness_WorkQueues_counters_more :
    let d (k : Counter) : State := { decs := [⟨0, 0, 6, 1⟩], counters := [(6, k)] }
    let fired : Counter := { state := .fired, gen := 1 }
    (d fired).decs = [⟨0, 0, 6, 1⟩] ∧ (counterAt (d fired) 6).gen = 1 ∧ (counterAt (d fired) 6).state = .fired ∧
    (counterAt (d fired) 6).value = 0 ∧ (queueAt (d fired) fired.queue).err = none ∧
    (counterAt (d { gen := 2 }) 6).gen ≠ 1 ∧ (counterAt (d { state := .faulted, gen := 1 }) 6).state = .faulted := by decide

def isNever (a : Alloc) : Bool :=
  match a with
  | .never => true
  | _ => false

/-- The uniform block can be read, and the image fails its check. -/
def failsCheck (g : Got) (m : Image) (q : BitVec 12) : Bool :=
  match g with
  | .bytes _ t => (checkImage t m).2.isSome && (queueAt t q).err.isNone
  | _ => false

/-- The uniform block can be read, and the Caddy holds nothing. -/
def caddyFree (g : Got) (m : Image) : Bool :=
  match g with
  | .bytes _ t => (checkImage t m).2 == none && t.caddy.isEmpty
  | _ => false

theorem witness_Launches_start_more :
    let s (m : Image) : State := { (imaged (queueOf (some launchCmd)) {} []) with images := [m] }
    let uniform (m : Image) := readSpan { clearChosen (s m) 0 with nextTask := (s m).nextTask + 1 } (schedMaster 0) .virt 130
      (cmdUniform launchCmd).toNat (cmdUniformLen launchCmd)
    let bad : Image := { tiny 0 with checked := some (some 5) }
    let grows := tiny 0x1000000000000000
    let none_ : State := { (s (tiny 0)) with parts := [(0, { root := 0x100000, chosen := some 5 })] }
    isOk (readImage none_ launchCmd) (tiny 0) = true ∧ isNever (allocate none_ 0 1 1 0) = true ∧ imgW (tiny 0) = 1 ∧ imgH (tiny 0) = 1 ∧
    imgBlocks (tiny 0) = 0 ∧ isOk (readImage (s bad) launchCmd) bad = true ∧ gets (allocate (s bad) 0 1 1 0) [0] [] = true ∧
    failsCheck (uniform bad) bad 5 = true ∧ isOk (readImage (s grows) launchCmd) grows = true ∧ imgGrowth grows ≠ 0 ∧
    caddyFree (uniform grows) grows = true := by
  decide +kernel

theorem witness_Launches_waiting_more :
    let s : State := { (imaged { queueOf (some launchCmd) with task := some 0 } {} [(0, waiter)]) with
      parts := [(0, { root := 0x100000, cells := [0] })] }
    (∀ x ∈ s.queues, x.2.part = 0 → x.2.switched = false → isReady s x.2 = true → x.2.prio.toNat ≤ (queueAt s 5).prio.toNat) ∧
    (let u : State := { (imaged { queueOf (some launchCmd) with task := some 0 } {} [(0, caddyTask)]) with caddy := [] }
     (∀ e ∈ u.caddy, e.state ≠ .busy) ∧ u.caddy.find? (sameKey caddyTask u.fw.cgen) = none) := by
  refine ⟨by decide +kernel, by decide, rfl⟩

theorem witness_Launches_configuration_more :
    let t := configTask 2 (List.replicate 8 7)
    t.blocks.Nodup ∧ 0 / 8 + (List.replicate 8 (7 : Byte)).length / 8 ≤ 16 * t.blocks.length := by decide

/-! ### Further witnesses: ends, saves, freezes, time-outs, the circuit plane -/

def okWrite (r : Reached) : Bool :=
  match r with
  | .ok _ => true
  | _ => false

theorem witness_TasksEnd_more :
    let f : Fatal := ⟨0, { code := .hang, unit := 7 }, false⟩
    let late (t : Task) (c : Cell) : State := { (one c) with tasks := [(0, t)], now := 270000000 }
    let plain : Task := { savingTask with stage := .running }
    let calm : Cell := { collar := { aeFault := some { code := .access, unit := 3 }, calm := BitVec.allOnes 16 } }
    okWrite (writeCompletion (mapped {}) 0 0x40 (completionBytes (endHead (one {}) plain false) 0 [])) = true ∧
    f.trap.code = .hang ∧ (partOf (late (fatalTask f) {}) 0).watchdogMs = 100 ∧
    (partOf (late plain {}) 0).lastDone + 2700000 * (partOf (late plain {}) 0).watchdogMs ≤ (late plain {}).now ∧
    (partOf (late plain {}) 0).resident = true ∧ plain.stage = .running ∧ plain.cells.head? = some 0 ∧ look (late plain {}).cells 0 = some {} ∧
    (one {}).now < (partOf (one {}) 0).lastDone + 2700000 * (partOf (one {}) 0).watchdogMs ∧
    ({ resident := false } : Partition).resident = false ∧
    (accessesDone (late plain calm) 0 calm = true ∧ allAtStop calm = true ∧ collarFaulted calm.collar = true ∧
      calm.collar.calm = BitVec.allOnes 16 ∧ calm.mem.deferred = []) ∧ ({ calm with frozen := some 5 } : Cell).frozen ≠ none := by
  refine ⟨by decide +kernel, rfl, rfl, by decide, rfl, rfl, rfl, rfl, by decide, rfl, ⟨by decide, by decide, by decide, rfl, rfl⟩, by decide⟩

/-- A read that waits at a bank of another cell which is halted too. -/
def sharedHalt : State :=
  let c : Cell := { stoppedCell with mem := { deferred := [{ addr := 8, size := 8, signed := false, reader := .msg 3, since := 0, pc := 0 }] } }
  { (one c) with tasks := [(0, savingTask)], resps := [(3, { msg := msgLoad (.cell 0) 8, vals := [], refusal := none, ready := false })] }

/-- The context of a task that stood in frame 2 at 0x200000, and a barrier that completed while it was away. -/
def framed : State :=
  let t : Task := { savedTask with q := 5, frames := [{ stoppedCell with bar := { restart := true } }], frameNos := [2] }
  { restoring with tasks := [(0, t)], parts := [(0, { chosen := some 5, cells := [0], frameBase := some 0x200000 })] }

theorem witness_Preemption_more :
    (∀ x ∈ sharedHalt.resps, x.2.ready = false ∧ deferredInFrame sharedHalt x.1 = true) ∧ requestsOf sharedHalt 0 = [] ∧
    (∀ b ∈ stoppedCell.mem.bufs.toList, b = []) ∧ stoppedCell.exitBank = [] ∧ (getQueue stoppedCell 0).entries.head? = none ∧
    (partOf sharedHalt 0).frameBase = none ∧ (partOf framed 0).frameBase = some 0x200000 ∧
    (∀ t, look framed.tasks 0 = some t → t.frameNos.length = t.frames.length ∧ t.frameNos[0]? = some 2) ∧
    (look framed.tasks 0).isSome ∧ isChosen framed 5 = true ∧ gets (allocate framed 0 1 1 0) [0] [] = true := by
  refine ⟨by decide, by decide, by decide, rfl, rfl, rfl, rfl, ?_, rfl, by decide, by decide +kernel⟩
  intro t h
  cases h
  exact ⟨rfl, rfl⟩

theorem witness_FreezesAndEntries_freezes_more :
    let j : Job := { blendJob with waits := some 0x10000 }
    let saving : State := { (one domainCell) with tasks := [(0, savingTask)] }
    let g : Freeze := { at_ := 10, level := 1, faulty := 0, done := true, cells := [0], resolved := some 20 }
    let s : State := { (one { domainCell with frozen := some 10 }) with parts := [(0, { freezes := [g] })] }
    j.part = 0 ∧ j.waits = some 0x10000 ∧ savingTask.stage = .saving true ∧ look saving.cells 0 = some domainCell ∧ domainCell.task = 0 ∧
    (∀ y ∈ s.tasks, y.2.saveAsked = none) ∧ (partOf s 0).swapAsked = false ∧ (∀ y ∈ s.tasks, ∀ b, y.2.stage ≠ .saving b) ∧
    (partOf s 0).resident = true ∧ ({ g with page := some 0x10000, resolved := none } : Freeze).page = some 0x10000 ∧
    (fatalTask ⟨0, { code := .xlatfault, unit := 1 }, false⟩).waitsPage = [] := by
  refine ⟨rfl, rfl, rfl, rfl, rfl, by decide, rfl, ?_, rfl, rfl, rfl⟩
  intro y h b
  simp only [one, List.mem_singleton] at h
  subst h
  nofun

/-- A cell, and one that reads another's word for its copy engine. -/
def copyReader : State :=
  { cells := [(0, { deferring (.copy 1) with task := 0 }), (1, queued 2 (entry (.kick 0) [] .running))]
    tasks := [(0, { savingTask with cells := [0, 1], stage := .running })], now := 16 }

theorem witness_FreezesAndEntries_timeouts_more :
    let d (a : Option LdqEntry) (b : Option Word) : Deferred :=
      { addr := 8, size := 8, signed := false, reader := .stream true 5, since := 5, pc := 4, ldqBack := a, eaqBack := b }
    (d (some ⟨0, true, [9], true⟩) none).ldqBack = some ⟨0, true, [9], true⟩ ∧ (d none (some 9)).eaqBack = some 9 ∧
    (d none none).ldqBack = none ∧ (deferring (.port 5)).mem.deferred[0]?.map (·.reader) = some (.port (5#4).toNat) ∧
    (copyReader.cells.head?.bind fun x => x.2.mem.deferred[0]?).map (·.reader) = some (.copy 1) ∧ (1 : Nat) ≠ 0 ∧
    look copyReader.cells 1 = some (queued 2 (entry (.kick 0) [] .running)) ∧ (queued 2 (entry (.kick 0) [] .running)).frozen = none ∧
    (getQueue (queued 2 (entry (.kick 0) [] .running)) 2).entries.head? = some (entry (.kick 0) [] .running) ∧
    (let r : Resp := { msg := msgLoad (.cell 0) 8, vals := [], refusal := none, ready := false }
     r.msg.target = .cell 0) :=
  ⟨rfl, rfl, rfl, rfl, rfl, by decide, rfl, rfl, rfl, rfl⟩

/-- The faulting cell of a freeze takes its trap at once; its task runs a residual whose handler lies at offset 8. -/
theorem witness_FreezesAndEntries_entries_more :
    let t : Trap := { code := .illegal, unit := 1, addr := 0x44 }
    let c : Cell := { cellH with frozen := some 3, frozenFault := true, core := { cellH.core with trap := some t } }
    let r : Residual := { code := [], pool := [], map := [⟨8, 1, 0x100, 0, 0, false, 0⟩] }
    let s : State := { (one c) with tasks := [(0, { savingTask with stage := .running, residual := some r })] }
    c.core.trap = some t ∧ accessesDone s 0 c = true ∧ c.frozen ≠ none ∧ c.frozenFault = true ∧ halting s c = false ∧
    freezePending s c.part 0 = false ∧ handlerPlace ((taskOf s c).bind (·.residual)) c.core.sr.trapvec = some 8 := by
  refine ⟨rfl, by decide, by decide, rfl, by decide⟩

theorem witness_Networks_owner_maps_more :
    let m : OwnerMap := { pending := [(2, 0x8181818181818181)], since := 255 }
    m.pending ≠ [] ∧ m.since / 256 < 256 / 256 ∧ (some 63 : Option Nat) ≠ none ∧ 255 / 256 ≤ m.since / 256 ∧
    ¬ ([1, 2] : List Byte).length = 16 ∧ ¬ ∀ x ∈ ([0x81, 0x82] : List Byte), x &&& 0x8F = 0x81 &&& 0x8F := by decide

theorem witness_Networks_circuits_more :
    let f (cyc : Nat) : Flying := ⟨⟨0, 0, false⟩, 0, 1, 1, 1, cyc⟩
    (one {}).now < (f 1).cyc ∧ (f 0).cyc ≤ (one {}).now ∧ (∀ g ∈ [f 1], (f 0).cyc ≤ g.cyc) ∧
    selected 0x11 1 1 1 = [1, 2] ∧ slotOwner (mapAt (beatAt 1 1 1 0x11 []) 0 0) 0 = some 0 ∧
    (sendOn ⟨⟨0, 0, false⟩, 0, 0, 1, 3, 0⟩ (farCode 3)).isSome := by
  decide

/-! ### Further witnesses: links, trust, upkeep, the step -/

/-- A ring of two packages; a load to a window of the other one, and a response to it that is to leave. -/
def farMsg : Msg := msgLoad (.window 1 0) 0

def twoPackages : State :=
  { (linked keyed) with
    fw := { torus := (2, 1, 1) }, msgs := [(0, farMsg)], nextMsg := 1, cells := [(0, {})]
    resps := [(3, { msg := { msgLoad (.window 0 0) 0 with origin := some (1, 0) }, vals := [7], refusal := none })] }

/-- What the payload of a flit says is a free value, so that no state decides which request or arrival it carries. -/
theorem witness_Links_data_more :
    carriedRequest twoPackages (0, 0) = some (0, farMsg) ∧ carriedResponse twoPackages 0 = some 3 ∧
    farAccess { pkg := 1, part := 0, cell := 0, rc := 0, wid := 0, off := 8, size := 8, kind := 3, op := 0, v := 5, v2 := 0 } = some (.store 5) := by
  decide +kernel

/-- A request in the flit with SEQ 5, which is acknowledged (the replay buffer then holds no flit with it), or lost with its link. -/
theorem witness_Links_upkeep_more :
    let s : State := { twoPackages with msgs := [(0, { farMsg with trip := .flit 0 5 })] }
    look s.msgs 0 = some { farMsg with trip := .flit 0 5 } ∧ (∀ g ∈ afterAck (5 : BitVec 16) [], flitSeq g ≠ 5) ∧
    (let s : State := { s with msgs := [(0, { farMsg with trip := .flit 0 0 })] }
     look s.msgs 0 = some { farMsg with trip := .flit 0 (flitSeq (sealFlit (body 0))) } ∧ sealFlit (body 0) ∈ [sealFlit (body 0)]) := by
  have hs : flitSeq (sealFlit (body 0)) = 0 := by
    rw [flitSeq, field_sealed (body 0) 0 16]
    decide +kernel
  refine ⟨rfl, fun g h => ?_, ?_, .head _⟩
  · exact absurd h (List.not_mem_nil)
  · rw [hs]
    rfl

/-- A slot whose signature is the device's verifies, whatever that signature is. -/
theorem witness_FirmwareAndTrust_lists (e : Word) :
    let r : RetSlot := ⟨1#64, [e], slotSig 1#64 [e], false⟩
    r.verifies = true ∧ retirementList { ret := #v[some r, none] } = some (1#64, [e]) ∧ retirementList {} = none := by
  have h : RetSlot.verifies ⟨1#64, [e], slotSig 1#64 [e], false⟩ = true := by simp [RetSlot.verifies]
  refine ⟨h, ?_, rfl⟩
  simp only [retirementList, bestSlot, slotSeq, goodSlot, Option.filter, Vector.getElem_mk, List.getElem_toArray, List.getElem_cons_zero,
    List.getElem_cons_succ, h]
  rfl

theorem witness_FirmwareAndTrust_upkeep_more :
    let f : Firmware := { retActive := some [] }
    let s : State := { (mapped {}) with fw := f, access := [(unitKey (.hbm 0) * 256, (0xF400000000000000, 0xFFFFFFFFF))] }
    (0x100 % 256 = 0 ∧ regionOf 0x100 = some 1 ∧ populated f 0x100 256 = true ∧ mayHandOut s 0x100 256 = true) ∧
    (regionOf 0x10 = some 1 ∧ populated f 0x10 0x100000 = true ∧ mayHandOut s 0x10 0x100000 = true) ∧
    (1 : BitVec 9) ≠ s.fw.pkg ∧ s.migrations = [] ∧ Memory.wf ({} : State).mem = true ∧
    windowFits (maskWindow ⟨0xF000000000020000, 1⟩) = true ∧ windowFits (maskWindow ⟨0xF000000000020000, 0xFFFFFF⟩) = false ∧
    hostReaches s 1 61 0x100 8 = true ∧ hostReaches s 1 62 0x100 8 = true ∧ hostReaches s 2 61 0x10000000000 8 = false ∧
    (∃ c : BitVec 9, c.toNat ∈ ({ disabled := [5] } : Firmware).disabled) ∧ (6 : Nat) ∉ ({ disabled := [5] } : Firmware).disabled ∧
    Config.isSliceSite 6 = false ∧ look ({ strips := [(6, 3)] } : Firmware).strips 6 = some 3 ∧ look ({} : Firmware).strips 6 = none ∧
    (0x7FFF : BitVec 18).getLsbD 15 = false ∧ (∀ n ∈ [(8 : BitVec 4), 1, 1], 1 ≤ n.toNat ∧ n.toNat ≤ 8) ∧
    ¬ (∀ n ∈ [(9 : BitVec 4), 1, 1], 1 ≤ n.toNat ∧ n.toNat ≤ 8) ∧ (0x200000 : BitVec 52).toNat % 0x1000 = 0 := by
  refine ⟨⟨by decide, by decide, by decide +kernel, by decide +kernel⟩, ⟨by decide, by decide +kernel, by decide +kernel⟩, by decide, rfl, rfl,
    by decide +kernel, by decide +kernel, by decide +kernel, by decide +kernel, by decide +kernel, ⟨5, .head _⟩, by decide, by decide, rfl, rfl,
    by decide⟩

/-- A partition that firmware swaps out, at once or after the freeze that holds it. -/
theorem witness_FirmwareAndTrust_swap :
    let s (l : List Freeze) (c : Cell) : State := { (one c) with parts := [(0, { freezes := l })] }
    (partOf (s [] {}) 0).resident = true ∧ (∀ f ∈ (partOf (s [] {}) 0).freezes, f.done = true) ∧
    (∀ id ∈ cellsOfPart (s [] {}) 0, ∀ c, look (s [] {}).cells id = some c → c.frozen = none) ∧
    (∃ f ∈ (partOf (s [{ at_ := 5, level := 1, faulty := 0 }] {}) 0).freezes, f.done = false) ∧
    ((savingTask.saveAsked = none ∧ ∀ id c, look (s [] {}).cells id = some c → c.frozen = none)) := by
  have h0 (l : List Freeze) (id : Nat) (c : Cell) (h : look ({ (one {}) with parts := [(0, { freezes := l })] } : State).cells id = some c) :
      c.frozen = none := by
    have : id = 0 ∧ c = {} := by
      simp only [one, look] at h
      split at h <;> simp_all
    rw [this.2]
  exact ⟨rfl, by decide, fun id _ c h => h0 _ id c h, ⟨_, .head _, rfl⟩, rfl, fun id c h => h0 _ id c h⟩

/-- A unit's turn with a step due, a fixed turn, and a step that is due. -/
theorem witness_StepRunsDecoded_more :
    let s : State := { (one program) with unitNext := true }
    let due : State := { (one cellE) with unitNext := false }
    s.agenda = [] ∧ s.unitNext = true ∧
    ({ s with agenda := [.run ⟨0, .execute⟩] } : State).agenda = .run ⟨0, .execute⟩ :: [] ∧ due.agenda = [] ∧ due.unitNext = false ∧
    (dueMove due).isSome = true :=
  ⟨rfl, rfl, rfl, rfl, rfl, by decide +kernel⟩

theorem test_turns_alternate :
    (match step { (one cellE) with unitNext := false } with
      | .next t => t.unitNext
      | _ => false) = true := by decide +kernel

theorem witness_BindingChanges_free :
    let m : Msg := { msgStore .pa 0 false with frame := some 1 }
    heldBack { (sending m {}) with revocations := [⟨0, 1, [0]⟩] } 0 m = false := by decide

/-- The page moves; the tables of HBM and of the CXL tier admit the engine. -/
def admittedMove (st : MigStep) (dirty : List Nat) : State :=
  { (mapped {}) with
    access := ([0, 1, 2, 3, 4, 5, 6, 7, 72, 73] : List Nat).map fun u => (u * 256, (0xF600000000000000, 0xFFFFFFFFF))
    migrations := [(0, { moving st dirty with held := if st = .switched then [(0x10008, [1, 2])] else [] })] }

theorem witness_Migrations_admitted :
    let copyable (i : Nat) : Bool :=
      admitsPhysical (admittedMove .arm []) 3 0 0 62 (0x10000 + i) 1 && admitsPhysical (admittedMove .arm []) 3 0 0 61 (0x10000000000 + i) 1
    ((List.range 16).all fun i => copyable (i * 4096)) = true ∧
    ([256, 257, 258, 259, 511].all fun k => copyable (k * 256 - 0x10000)) = true := by decide +kernel

theorem witness_Migrations_carries :
    (∀ k ∈ (moving .copy [256, 257, 258, 259, 511]).dirty, 0x10000 ≤ k * 256 ∧ k * 256 + 256 ≤ 0x10000 + 0x10000) ∧
    4 < (moving .copy [256, 257, 258, 259, 511]).dirty.length ∧ (moving .recopy [256]).dirty.length ≤ 4 ∧
    admitsPhysical (admittedMove .hold []) 3 0 0 61 0x104000 8 = true ∧
    admitsPhysical (admittedMove .switched []) 3 0 0 61 (0x10008 - 0x10000 + 0x10000000000) 2 = true ∧
    (admittedMove .switched []).revocations = [] ∧ keysFrom 0 (admittedMove .switched []).migrations = true ∧
    keysFrom 0 (admittedMove .switched []).heat = true := by decide +kernel

theorem halves : Claims.floatPair 3 3 := .inr (.inl (by decide))

/-- One active row and column of fp16 elements. -/
def floatEntry (l : Launch) (st : EntryStatus) (pair : Word) : Entry :=
  { (entry l [(2, 0x20000), (9, 0x33), (12, pair)] st) with km := 1, kn := 1 }

theorem witness_MatrixEngine_floats :
    let e := floatEntry .goMm .running 0
    stepFault (queued 0 e) e = none ∧ emptyScale (queued 0 e) (operandA e) (blockK e) (actRows e) = none ∧
    emptyScale (queued 0 e) (operandB e) (blockK e) (actCols e) = none ∧ paired e = false ∧ Claims.floatPair (fmtA e) (fmtB e) :=
  ⟨by decide +kernel, by decide, by decide, by decide, halves⟩

/-- Scaled fp8 operands of a K-block of 32, the scales in the upper half of the banks' words. -/
theorem witness_MatrixEngine_scaled :
    let e := entry .goMm [(1, 32), (2, 0x20000), (3, 32), (4, 0x40000), (5, 1), (6, 0x60000), (7, 1), (9, 0x344), (10, 0x1F0000)] .running
    stepFault (queued 0 e) e = none ∧ (operandA e).scaled = true ∧ emptyScale (queued 0 e) (operandA e) (blockK e) (actRows e) = none ∧
    emptyScale (queued 0 e) (operandB e) (blockK e) (actCols e) = none ∧ Claims.floatPair (fmtA e) (fmtB e) :=
  ⟨by decide +kernel, by decide, by decide +kernel, by decide +kernel, .inl (by decide)⟩

/-- Cells 0 and 1 of a task of two hold the halves of a pair, the leader to the left. -/
def pairOf : State :=
  let f := queued 0 (floatEntry .goMm .running 0x3F)
  { cells := [(0, queued 0 (floatEntry .goMm .running 5)), (1, { f with core := { sr := { lcell := 1 } } })]
    tasks := [(0, { q := 0, part := 0, image := ⟨0, [], 0, none⟩, w := 2, h := 1, cells := [0, 1], stage := .running })] }

theorem witness_MatrixEngine_pairs :
    let e := floatEntry .goMm .running 5
    let f := floatEntry .goMm .running 0x3F
    let c := queued 0 e
    let d : Cell := { (queued 0 f) with core := { sr := { lcell := 1 } } }
    (look pairOf.cells 0 = some c ∧ look pairOf.cells 1 = some d ∧ stepsNow c = some e ∧ stepsNow d = some f) ∧
    (paired e = true ∧ partnerOf pairOf c e = .ok 1 ∧ namesBack e f = true ∧ e.idx = f.idx ∧ follower e = false ∧ follower f = true) ∧
    (stepFault c e = none ∧ stepFault d f = none ∧ debugs pairOf c = false ∧ debugs pairOf d = false) ∧
    (emptyScale c (operandA e) (blockK e) (actRows e) = none ∧ emptyScale c (operandB e) (blockK e) (actCols e) = none ∧
      emptyScale d (operandB f) (blockK f) (actCols f) = none) ∧
    Claims.floatPair (fmtA e) (fmtB e) ∧ Claims.floatPair (fmtA f) (fmtB f) ∧ Claims.floatPair (fmtA e) (fmtB f) := by
  refine ⟨⟨rfl, rfl, rfl, rfl⟩, ⟨by decide, rfl, by decide, rfl, by decide, by decide⟩, ?_, ?_, halves, halves, halves⟩ <;> decide +kernel

/-- A finished copy entry of which a write to the scratch of cell 1 is left in the bag, for a scope of the cell or the package. -/
def owingCell (scope : BitVec 3) : Cell :=
  { (queued 2 { (entry (.kick 0) [] .finished) with scope := scope }) with owed := [⟨1, .cluster 1, 0x100, [1, 2], 0, 0, [], false⟩] }

theorem witness_CopyEngine_owes :
    placeInside (one (owingCell 3)) { id := 0, part := 0 } (.cluster 1) 0x100 3 = true ∧
    placeInside (one (owingCell 0)) { id := 0, part := 0 } (.cluster 1) 0x100 0 = false ∧
    (∃ w ∈ (owingCell 3).owed, w.seq = (entry (.kick 0) [] .finished).seq) ∧ (owingCell 0).frozen = none ∧
    (copying (.kick 0) [] .walk).owed = [] := ⟨by decide, by decide, ⟨_, .head _, rfl⟩, rfl, rfl⟩

/-- Cell 0 owes a write to cell 1, whose table admits it; no entry runs. -/
def bagState : State :=
  { cells := [(0, { owed := [⟨1, .cluster 1, 0x100, [1, 2], 0, 0, [], false⟩] }), (1, {})], access := admitting (.cellRemote 1) }

theorem witness_CopyEngine_bag :
    look bagState.cells 0 = some { owed := [⟨1, .cluster 1, 0x100, [1, 2], 0, 0, [], false⟩] } ∧ look bagState.cells 1 = some {} ∧
    runningHead { owed := [⟨1, .cluster 1, 0x100, [1, 2], 0, 0, [], false⟩] } 2 = none ∧ Memory.wf ({} : Cell).mem.scratch = true ∧
    admits bagState (unitKey (.cellRemote 1)) 0 0 0 61 0x100 (0x100 + 2 - 1) = true ∧ meetsFull {} 0x100 = false ∧ (0 : BitVec 2) ≠ 2 :=
  ⟨rfl, rfl, rfl, rfl, by decide⟩

/-- The burst of one token: six blocks of 32. -/
def burst1 : Strip := { w := #v[0, 0, 0, 0, 1, 0, 0, 0] }

theorem witness_OtherStripWords_bursts :
    let v := firing 12 [(48, [zeros]), (49, [zeros])] { burst1 with group := [zeros] }
    let most (i : Nat) : FV := readFp fp32 (flushes v) (if zeros.pred.getLsbD i then laneAt zeros.data i else 0).toNat
    Claims.MayFire v ∧ burstOf v.p.w[4] = some ⟨1, 32, 0⟩ ∧ v.p.group = zeros :: [] ∧ (Instr.quant 0 1 1 7 0 1).WellFormed ∧
    (∀ i, i < 192 * 1 / 32 → ∃ m e, most i = .fin false m e) ∧
    (let d := firing 12 [(48, [zeros]), (49, [zeros])] { burst1 with group := [header1] }
     Claims.MayFire d ∧ d.p.group = header1 :: [] ∧ acceptHeader 4 header1 = some (1, 32) ∧ operandTok d 0 = some zeros) ∧
    ({} : Tok).pred.getLsbD 0 = false := by
  refine ⟨⟨rfl, rfl, rfl, by decide +kernel, rfl, by decide +kernel, by decide⟩, rfl, rfl, by decide, fun i _ => ?_,
    ⟨⟨rfl, rfl, rfl, by decide +kernel, rfl, by decide +kernel, by decide⟩, rfl, by decide +kernel, rfl⟩, by decide⟩
  have hz : (if zeros.pred.getLsbD i then laneAt zeros.data i else 0) = 0 := by
    split
    · exact BitVec.eq_of_getLsbD_eq fun k hk => by simp [laneAt, field, zeros]
    · rfl
  have hr : ∀ z, ∃ m e, readFp fp32 z (BitVec.toNat (0 : BitVec 32)) = .fin false m e := fun z => by cases z <;> exact ⟨_, _, rfl⟩
  simpa only [hz] using hr _

theorem witness_OtherStripWords_packs :
    let v := firing 12 [(48, [zeros])] { group := List.replicate 7 zeros }
    Claims.MayFire v ∧ v.p.group.length = 7 ∧ operandTok v 0 = some zeros ∧ outputsFree v.c.collar 12 1 = true ∧
    (Instr.pk4 0 1).WellFormed ∧ (Instr.upk4 0 1).WellFormed :=
  ⟨⟨rfl, rfl, rfl, by decide +kernel, rfl, by decide +kernel, by decide⟩, rfl, rfl, by decide +kernel⟩

/-- A lane whose place lies past scratch. -/
def farTok : Tok := { zeros with data := 0xC0000 }

theorem witness_PortWords_faults :
    let v := porting 3 [(12, [farTok]), (13, [zeros])] lineStrip id
    Claims.MayFire v ∧ operandTok v 0 = some farTok ∧ operandTok v 1 = some zeros ∧ 0xC0000 < 0x100 + (laneAt farTok.data 0).toNat + 4 ∧
    (∀ k, k < 192 → (laneAt farTok.data k).toNat % 4 = 0) ∧ ¬ (laneAt (1 : Row) 0).toNat % 4 = 0 ∧
    (farTok.pred.getLsbD 0 && zeros.pred.getLsbD 0) = true := by
  refine ⟨⟨rfl, rfl, rfl, by decide +kernel, rfl, by decide +kernel, by decide⟩, rfl, rfl, by decide +kernel⟩

/-- The `strain` that runs, with the Strainer on. -/
def straining : Cell :=
  { queues := (Vector.replicate 4 ({} : EQueue)).set 1 { entries := [entry .strain [] .running] }, collar := { strainer := true } }

theorem witness_CollarEvents_strains :
    (straining.collar.strainer = true ∧ straining.exitBank = [] ∧ (getQueue straining 0).entries = [] ∧ straining.frozen = none ∧
      (getQueue straining 1).entries.head? = some (entry .strain [] .running)) ∧
    ({ straining with frozen := some 9 } : Cell).frozen ≠ none ∧ collarFaulted (cutting true).collar = false ∧
    collarFaulted { (cutting true).collar with aeFault := some { code := .access, unit := 3 } } = true :=
  ⟨⟨rfl, rfl, rfl, rfl, rfl⟩, nofun, by decide +kernel, by decide +kernel⟩

/-! ### Further witnesses: launches, saves, swaps, links, firmware -/

/-- A launch that waits for the Caddy while its image stands in the device, or has given its IMGID to another one. -/
def waitsCaddy (m : Image) : State :=
  { (imaged { queueOf (some launchCmd) with task := some 0 } {} [(0, caddyTask)]) with images := [m], caddy := [caddyEntry] }

theorem witness_Launches_prepare_more :
    (∃ m ∈ (waitsCaddy caddyTask.image).images, sameImage caddyTask.image m = true) ∧
    (∀ m ∈ (waitsCaddy (tiny 0)).images, sameImage caddyTask.image m = false) ∧ (waitsCaddy (tiny 0)).fw.retActive = none :=
  ⟨⟨_, .head _, by decide +kernel⟩, by decide +kernel, rfl⟩

/-- The uniform block of the launch is read and the image still stands. -/
def keepsImage (g : Got) (m : Image) : Bool :=
  match g with
  | .bytes _ t => t.images.contains m
  | _ => false

theorem witness_Launches_start_kept :
    let grows := tiny 0x1000000000000000
    let s : State := { (imaged (queueOf (some launchCmd)) {} []) with images := [grows] }
    keepsImage (readSpan { clearChosen s 0 with nextTask := s.nextTask + 1 } (schedMaster 0) .virt 130 (cmdUniform launchCmd).toNat
      (cmdUniformLen launchCmd)) grows = true := by decide +kernel

/-- Neither member of a task owes a write; a partition that is not resident, of which a cell is still to halt. -/
theorem witness_TasksEnd_here :
    ({ core := { halted := true } } : Cell).owed = [] ∧
    (let s : State := { (one {}) with parts := [(0, { resident := false })] }
     (partOf s 0).resident = false ∧ (partOf s 0).away = false ∧ ∃ x ∈ s.cells, x.2.part = 0 ∧ x.2.paused = false) ∧
    (let s : State := { (one { paused := true }) with parts := [(0, { resident := false })] }
     ¬ ((partOf s 0).resident = true ∨ (partOf s 0).away = false ∧ ∃ x ∈ s.cells, x.2.part = 0 ∧ x.2.paused = false)) := by
  refine ⟨rfl, ⟨rfl, rfl, _, .head _, rfl, rfl⟩, by decide⟩

/-- Frames of HBM from 2 MiB on, which a retirement list allows. -/
def framing : State :=
  { (one { stoppedCell with paused := true }) with
    tasks := [(0, savingTask)], parts := [(0, { frameBase := some 0x200000 })], fw := { retActive := some [] } }

theorem witness_Preemption_frames :
    (freeFrames framing 0 0x200000 1).length = [(0 : Nat)].length ∧ (partOf framing 0).frameBase = some 0x200000 ∧
    poisoned framed (0x200000 + 0x11A000 * 2) 0x110000 = false ∧ stoppedCell.owed = [] :=
  ⟨by decide +kernel, rfl, by decide, rfl⟩

theorem witness_Preemption_shadows :
    let s : State := { (one stoppedCell) with parts := [(1, { resident := false, shadowAt := [(0, 0x8001000000)] })] }
    look (partOf s 1).shadowAt 0 = some 0x8001000000 ∧ poisoned s 0x8001000000 0x110000 = false ∧ look (partOf s 0).shadowAt 0 = none ∧
    s.fw.shadowMib = 0 := by
  refine ⟨rfl, rfl, rfl, rfl⟩

/-- A record of level 4 at which a cell has arrived, of which the next flit on RSP tells. -/
def reporting : State := { twoPackages with resps := [], barriers := [(barrierKey 0 4 0, { expect := 1, arrived := 1 })] }

/-- The record of an event of a link that fails to train goes into the ring where it has room; whether it trains is free. -/
theorem witness_Links_reports :
    carriedResponse reporting 0 = none ∧ reportDue reporting = some (barrierKey 0 4 0) ∧ ({} : State).fw.kettle.length < 1024 := by decide +kernel

/-- A booted device whose tables admit firmware to HBM, for partition 0; one whose partition 0 still runs. -/
def bootedDevice : State :=
  { (mapped {}) with
    fw := { booted := true, retActive := some [] }, access := [(unitKey (.hbm 0) * 256, (0xE800000000000000, 0xFFFFFFFFF))] }

theorem witness_FirmwareAndTrust_booted :
    bootedDevice.fw.booted = true ∧ firmwareAdmitted bootedDevice 0x100 8 = true ∧ firmwareAdmitted (one {}) 0x100 8 = false ∧
    bootedDevice.migrations = [] ∧ firmwareAdmitted bootedDevice (bootedDevice.fw.windowBase + 16 * (3#16).toNat) 16 = true ∧
    mayHandOut bootedDevice 0x200000 0x11A000 = true ∧ ({} : State).fw.booted = false ∧ ({ kettle := [], makerSig := 0, ownerSig := 0, packetCores := [], pcMakerSig := 0, pcOwnerSig := 0, config := [] } : BootImages).config = [] ∧
    keysFrom 0 (one cellM).cells = true ∧ (∃ id ∈ restingCells (one (owingCell 0)) 0, atRest (one (owingCell 0)) id = false) := by
  refine ⟨rfl, by decide +kernel, by decide +kernel, by decide +kernel, by decide +kernel, by decide +kernel, rfl, rfl, rfl, ⟨0, by decide, by decide⟩⟩

/-! ### Further witnesses: traps of handles, atomics at their targets, engine requests, links -/

/-- Handle 1 valid, handle 2 read-only, handle 3 not valid, handle 4 of host memory; 0x81 is misaligned. -/
def cellHandles : Cell :=
  { core := { (setReg (setReg cellV.core true 12 0x81) true 13 0x80) with
      handles := cellV.core.handles.set 4 { v := true, w := true, bound := true, pfn := 1, kind := 3 } } }

theorem witness_HandleAccesses_traps :
    Ready (one cellHandles) true cellHandles ∧ sourceOf true 13 cellHandles = some (0x80, cellHandles) ∧
    sourceOf true 12 cellHandles = some (0x81, cellHandles) ∧ sourceOf true 10 cellHandles = some (0, cellHandles) ∧
    (∀ i ∈ [Instr.hld 10 0 0 3 13 0, .hldn 10 0 0 2 13 0, .hst 10 0 0 3 13 0, .hstnt 10 0 0 3 13 0, .amo 10 0 0 13 2 1, .amo 10 0 0 13 0 0],
      i.WellFormed) ∧
    (∃ v2 c3, sourceOf true (10 + 1) cellHandles = some (v2, c3)) ∧ (cellHandles.core.handles[0]).bound = false ∧
    (cellHandles.core.handles[3]).v = false ∧ pageBytes (cellHandles.core.handles[1]).size < 0x1FFFFFFFFFFFFFF + 4 ∧
    0x81 + 8 ≤ pageBytes (cellHandles.core.handles[1]).size ∧ (1 * 0x10000 + 0x81) % 8 ≠ 0 ∧ (1 * 0x10000 + 0x80) % 8 = 0 ∧
    (cellHandles.core.handles[2]).w = false ∧ (cellHandles.core.handles[4]).kind = 3 := by
  refine ⟨⟨rfl, rfl⟩, rfl, rfl, rfl, by decide, ⟨_, _, rfl⟩, ?_⟩
  decide

/-- An atomic of four bytes. -/
def msgAmo (t : Target) (op : BitVec 4) : Msg := { msgStore t 0x100 false with size := 4, kind := .amo op 5 0 6 }

theorem witness_Atomics_delivers :
    (let s := served (msgAmo (.cell 0) 3) {} (.cellRemote 0)
     deliverable s 0 (msgAmo (.cell 0) 3) = true ∧ keysFrom 0 s.msgs = true ∧ ({} : Cell).core.sr.pgmode.getLsbD (0x100 / 0x20000) = false ∧
     admits s (unitKey (.cellRemote 0)) 0 (issuerPart s (msgAmo (.cell 0) 3)) 0 (permBit (msgAmo (.cell 0) 3).kind) 0x100 0x103 = true) ∧
    (let s := served (msgAmo (.cell 0) 3) cellFull (.cellRemote 0)
     deliverable s 0 (msgAmo (.cell 0) 3) = true ∧ cellFull.core.sr.pgmode.getLsbD (0x100 / 0x20000) = true ∧
     admits s (unitKey (.cellRemote 0)) 0 (issuerPart s (msgAmo (.cell 0) 3)) 0 (permBit (msgAmo (.cell 0) 3).kind) 0x100 0x103 = true) ∧
    (let s := served (msgAmo .pa 9) {} (.hbm 0)
     deliverable s 0 (msgAmo .pa 9) = true ∧ s.migrations = [] ∧ s.poison = [] ∧
     admitsPhysical s 0 (issuerPart s (msgAmo .pa 9)) 0 (permBit (msgAmo .pa 9).kind) 0x100 4 = true) := by decide +kernel

/-- R185: the smaller of 5 and what the four bytes hold, as signed numbers, stays; the old value comes back sign-extended. -/
theorem test_amo_min_delivers :
    let c : Cell := { mem := { scratch := memOf (List.replicate 0x100 0 ++ [0xFE, 0xFF, 0xFF, 0xFF]) } }
    let s := served (msgAmo (.cell 0) 3) c (.cellRemote 0)
    left (exec (.deliver 0) s) (fun c => readBytes c.mem.scratch 0x100 4) = some [0xFE, 0xFF, 0xFF, 0xFF] ∧
    (match exec (.deliver 0) s with
      | .next t => (look t.resps 0).map (·.vals)
      | _ => none) = some [0xFFFFFFFFFFFFFFFE] := by decide +kernel

/-- A cell that owes the signal of an entry whose write has left the bag, or has not. -/
def endingCell (owed : List OwedWrite) : Cell := { owed := owed, ends := [⟨1, [0x10002], none⟩] }

theorem witness_CopyEngine_ends :
    (∀ l, (endingCell l).ends = [⟨1, [0x10002], none⟩]) ∧ ([0x10002#32] : List (BitVec 32)) ≠ [] ∧
    ((⟨1, .window 0 0, 0x100, [1], 0, 0, [], false⟩ : OwedWrite).seq = 1) ∧
    (∃ w ∈ (endingCell [⟨1, .cluster 1, 0x100, [1], 0, 0, [], false⟩]).owed, w.seq = 1 ∧
      placeInside (one {}) { id := 0, part := 0, ch := some w.ch } w.place w.addr 3 = true) :=
  ⟨fun _ => rfl, by decide, rfl, _, .head _, rfl, by decide⟩

theorem witness_CopyEngine_left : ({ left := true } : Channel).left = true ∧ (entry (.kick 0) [] .finished).ended = false := ⟨rfl, rfl⟩

/-- The next flit on a channel of an `ord` request takes an engine's, which no stream's precedes. -/
def asking (t : Trip) : State :=
  { twoPackages with msgs := [], resps := [], asks := [(4, { msg := { farMsg with trip := t } })] }

theorem witness_Links_asks :
    carriedRequest (asking .here) (0, 0) = some (4, farMsg) ∧ look (asking .here).asks 4 = some { msg := farMsg } ∧
    look (asking .away).resps 4 = none ∧ look (asking .away).asks 4 = some { msg := { farMsg with trip := .away } } ∧ Trip.away ≠ .here := by
  decide +kernel

/-- An exhausted sender whose replay buffer holds an engine's request and a partial count; ten ms are over, or not. -/
theorem witness_Links_exhaustion :
    let g := sealFlit (body 0)
    let s (now : Nat) : State := { (asking (.flit 0 (flitSeq g))) with
      now := now, links := [(0, { keyed with txState := .exhausted, exhausted := 5, replay := [g] })]
      barriers := [(barrierKey 0 4 0, { expect := 1, toldBy := .flit 0 (flitSeq g) })] }
    (∀ n, (linkOn (s n) 0).txState = .exhausted ∧ (linkOn (s n) 0).exhausted = 5 ∧ (linkOn (s n) 0).down = false ∧ g ∈ (linkOn (s n) 0).replay ∧
      look (s n).asks 4 = some { msg := { farMsg with trip := .flit 0 (flitSeq g) } } ∧
      (look (s n).barriers (barrierKey 0 4 0)).map (·.toldBy) = some (.flit 0 (flitSeq g))) ∧
    (s 27000004).now < 5 + 27000000 ∧ 5 + 27000000 ≤ (s 27000005).now :=
  ⟨fun _ => ⟨rfl, rfl, rfl, .head _, rfl, rfl⟩, by decide⟩

theorem witness_FirmwareAndTrust_port :
    portAddress 0x050000000000 = true ∧ firmwareAdmitted bootedDevice 0x050000000000 8 = false ∧ portAddress 0x100 = false ∧
    (let s : State := { bootedDevice with access := [(unitKey .config * 256, (0xE800000000000000, 0xFFFFFFFFF))] }
     firmwareAdmitted s 0x100 8 = false ∧ populated s.fw 0x100 8 = true) := by decide +kernel

/-- Of a ring that fell and rose again, HEAD stays; else it goes on. -/
theorem witness_WorkQueues_rings :
    Claims.headPast { earlier := true, head := 3 } = 3 ∧ Claims.headPast { head := 3 } = 4 ∧ bootedDevice.fw.booted = true ∧
    ({} : State).fw.booted = false := by decide

/-- A header of seven blocks of 32 elements of tag 4: two tokens of one element a lane. -/
theorem witness_OtherStripWords_short :
    let h : Tok := { data := 0x42000#32 ++ (0x42000#32 ++ (0x42000#32 ++ (0x42000#32 ++ (0x42000#32 ++ (0x42000#32 ++ 0x42000#32))))) |>.setWidth _, pred := 0x7F, tag := 1 }
    acceptHeader 4 h = some (7, 32) ∧ 192 < 7 * 32 ∧ (0 < 7 * 32 ∧ ({} : Tok).pred.getLsbD 0 = false) := by decide +kernel

end Sys2Proof.Tests
end

section
/-! The words of scalar instructions (R25): a word written field by field is its base word with the fields laid in. -/

namespace Sys2Proof.Proofs

open Sys2Proof.Machine

/-- A field laid in below a number: the number moves up by the field's width. -/
theorem push_ofNat {k : Nat} (n : Nat) (v : BitVec k) :
    push (BitVec.ofNat 32 n) v = BitVec.ofNat 32 (n * 2 ^ k + v.toNat) := by
  have disjoint : BitVec.ofNat 32 n <<< k &&& v.setWidth 32 = 0#32 := by
    ext i hi
    by_cases h : i < k
    · simp [h]
    · simp [BitVec.getLsbD_of_ge v i (by omega)]
  have moved : BitVec.ofNat 32 n <<< k = BitVec.ofNat 32 (n * 2 ^ k) := by
    apply BitVec.eq_of_toNat_eq
    simp [Nat.shiftLeft_eq]
  rw [push, ← BitVec.add_eq_or_of_and_eq_zero _ _ disjoint, moved, BitVec.ofNat_add, BitVec.ofNat_toNat]

theorem laid_nil (base : Nat) : Claims.laid base [] = .core (BitVec.ofNat 32 base) := rfl

theorem laid_cons (base v lo : Nat) (fs : List (Nat × Nat)) :
    Claims.laid base ((v, lo) :: fs) = Claims.laid (base + v * 2 ^ lo) fs := by
  simp only [Claims.laid, List.map_cons, List.sum_cons, Nat.add_assoc]

section
variable (y s : Bool) (m : BitVec 6) (d a b : BitVec 5) {base : Nat}

/-- Two sources and a destination above a function code (R50, R53, R55). -/
theorem registerWord (f : BitVec 9) (h : base = m.toNat * 2 ^ 24 + f.toNat) :
    .core (push (push (push (push (push (push (push 0#32 (BitVec.ofBool y)) (BitVec.ofBool s)) m) d) a) b) f) =
      Claims.laid base [(y.toNat, 31), (s.toNat, 30), (d.toNat, 19), (a.toNat, 14), (b.toNat, 9)] := by
  simp only [push_ofNat, laid_cons, laid_nil, h, BitVec.toNat_ofBool]
  ring_nf

/-- A destination above a constant of 19 bits (R52). -/
theorem constantWord (i : BitVec 19) (h : base = m.toNat * 2 ^ 24) :
    .core (push (push (push (push (push 0#32 (BitVec.ofBool y)) (BitVec.ofBool s)) m) d) i) =
      Claims.laid base [(y.toNat, 31), (s.toNat, 30), (d.toNat, 19), (i.toNat, 0)] := by
  simp only [push_ofNat, laid_cons, laid_nil, h, BitVec.toNat_ofBool]
  ring_nf

/-- Two sources above an offset (R57). -/
theorem branchWord (o : BitVec 14) (h : base = m.toNat * 2 ^ 24) :
    .core (push (push (push (push (push (push 0#32 (BitVec.ofBool y)) (BitVec.ofBool s)) m) a) b) o) =
      Claims.laid base [(y.toNat, 31), (s.toNat, 30), (a.toNat, 19), (b.toNat, 14), (o.toNat, 0)] := by
  simp only [push_ofNat, laid_cons, laid_nil, h, BitVec.toNat_ofBool]
  ring_nf

/-- A source and the number of a bit above an offset (R58). -/
theorem bitBranchWord (n : BitVec 6) (o : BitVec 13) (h : base = m.toNat * 2 ^ 24) :
    .core (push (push (push (push (push (push 0#32 (BitVec.ofBool y)) (BitVec.ofBool s)) m) a) n) o) =
      Claims.laid base [(y.toNat, 31), (s.toNat, 30), (a.toNat, 19), (n.toNat, 13), (o.toNat, 0)] := by
  simp only [push_ofNat, laid_cons, laid_nil, h, BitVec.toNat_ofBool]
  ring_nf

/-- A counter above an offset (R61). -/
theorem loopWord (o : BitVec 14) (h : base = m.toNat * 2 ^ 24) :
    .core (push (push (push (push (push (push 0#32 (BitVec.ofBool y)) (BitVec.ofBool s)) m) a) 0#5) o) =
      Claims.laid base [(y.toNat, 31), (s.toNat, 30), (a.toNat, 19), (o.toNat, 0)] := by
  simp only [push_ofNat, laid_cons, laid_nil, h, BitVec.toNat_ofBool, BitVec.toNat_ofNat]
  ring_nf

/-- An offset of 24 bits (R59). -/
theorem jumpWord (o : BitVec 24) (h : base = m.toNat * 2 ^ 24) :
    .core (push (push (push (push 0#32 (BitVec.ofBool y)) (BitVec.ofBool s)) m) o) =
      Claims.laid base [(y.toNat, 31), (s.toNat, 30), (o.toNat, 0)] := by
  simp only [push_ofNat, laid_cons, laid_nil, h, BitVec.toNat_ofBool]
  ring_nf

/-- An offset of 24 bits, S clear (R59). -/
theorem callWord (o : BitVec 24) (h : base = m.toNat * 2 ^ 24) :
    .core (push (push (push (push 0#32 (BitVec.ofBool y)) 0#1) m) o) = Claims.laid base [(y.toNat, 31), (o.toNat, 0)] := by
  simp only [push_ofNat, laid_cons, laid_nil, h, BitVec.toNat_ofBool, BitVec.toNat_ofNat]
  ring_nf

/-- A destination and a source above an immediate, S clear (R60). -/
theorem indirectJumpWord (i : BitVec 14) (h : base = m.toNat * 2 ^ 24) :
    .core (push (push (push (push (push (push 0#32 (BitVec.ofBool y)) 0#1) m) d) a) i) =
      Claims.laid base [(y.toNat, 31), (d.toNat, 19), (a.toNat, 14), (i.toNat, 0)] := by
  simp only [push_ofNat, laid_cons, laid_nil, h, BitVec.toNat_ofBool, BitVec.toNat_ofNat]
  ring_nf

/-- A destination and a base above an offset of 12 bits, with ac = 0 (R65). -/
theorem uniformLoadWord (o : BitVec 12) (h : base = m.toNat * 2 ^ 24) :
    .core (push (push (push (push (push (push (push 0#32 (BitVec.ofBool y)) (BitVec.ofBool s)) m) d) b) 0#2) o) =
      Claims.laid base [(y.toNat, 31), (s.toNat, 30), (d.toNat, 19), (b.toNat, 14), (o.toNat, 0)] := by
  simp only [push_ofNat, laid_cons, laid_nil, h, BitVec.toNat_ofBool, BitVec.toNat_ofNat]
  ring_nf

/-- The two sources of `chkb` (R73). -/
theorem boundsWord :
    .core (push (push (push (push (push (push (push (push 0#32 (BitVec.ofBool y)) 0#1) 0#6) 0#5) a) 8#4) b) 0#5) =
      Claims.laid 0x00002000 [(y.toNat, 31), (a.toNat, 14), (b.toNat, 5)] := by
  simp only [push_ofNat, laid_cons, laid_nil, BitVec.toNat_ofBool, BitVec.toNat_ofNat]
  ring_nf

end

end Sys2Proof.Proofs
end

section
/-! The values of scalar instructions (R50-R56): the model's pure operations in the terms of the rules. -/

namespace Sys2Proof.Proofs

open Sys2Proof.Machine

/-! ### Fields and shifts -/

theorem field_toNat {n : Nat} (w : BitVec n) (lo len : Nat) : (field w lo len).toNat = w.toNat / 2 ^ lo % 2 ^ len := by
  simp [field, Nat.shiftRight_eq_div_pow]

theorem amount_eq (b : Word) : amount b = b.toNat % 64 := by
  simp [amount, field_toNat]

theorem amount_lt (b : Word) : amount b < 64 := (field b 0 6).isLt

theorem fieldWidth_eq (b : Word) : fieldWidth b = if b.toNat / 256 % 64 = 0 then 64 else b.toNat / 256 % 64 := by
  have zero : field b 8 6 = 0#6 ↔ b.toNat / 256 % 64 = 0 := by
    simp [← BitVec.toNat_inj, field_toNat]
  simp [fieldWidth, zero, field_toNat]

theorem bit_eq_getLsbD (v : Word) (i : Nat) : bit v i = v.getLsbD i := by
  have one : field v i 1 = BitVec.ofBool (v.getLsbD i) := by
    ext j hj
    obtain rfl : j = 0 := by omega
    simp [field]
  rw [bit, one, Laws.ofBool_beq_one]

theorem rotl_eq (a : Word) {n : Nat} (h : n < 64) : rotl a n = a.rotateLeft n := by
  rw [BitVec.rotateLeft_def, Nat.mod_eq_of_lt h, rotl]
  split
  · next h0 => subst h0; simp [BitVec.ushiftRight_eq_zero]
  · rfl

theorem rotr_eq (a : Word) {n : Nat} (h : n < 64) : rotr a n = a.rotateRight n := by
  rw [BitVec.rotateRight_def, Nat.mod_eq_of_lt h, rotr]
  split
  · next h0 => subst h0; simp
  · rfl

theorem shiftLeft_two (v : Word) : v <<< 2 = v * 4 := by
  rw [BitVec.shiftLeft_eq_mul_twoPow]; rfl

theorem shiftLeft_fourteen (v : Word) : v <<< 14 = v * 2 ^ 14 := by
  rw [BitVec.shiftLeft_eq_mul_twoPow]; rfl

/-- A word offset keeps the two low bits of a byte address (R60). -/
theorem low_two_bits_ne_zero_iff (v : Word) (i : BitVec 14) : field (v + (sx i <<< 2)) 0 2 ≠ 0 ↔ v.toNat % 4 ≠ 0 := by
  rw [Ne, ← BitVec.toNat_inj, field_toNat, shiftLeft_two, BitVec.toNat_add, BitVec.toNat_mul]
  simp

/-- `lic`: a constant moved in below a value (R52). -/
theorem shiftIn_eq (v : Word) (i : BitVec 19) : (v <<< 19) ||| zx i = BitVec.ofNat 64 (v.toNat * 2 ^ 19 + i.toNat) := by
  have disjoint : v <<< 19 &&& i.setWidth 64 = 0#64 := by
    ext n hn
    by_cases h : n < 19
    · simp [h]
    · simp [BitVec.getLsbD_of_ge i n (by omega)]
  rw [zx, ← BitVec.add_eq_or_of_and_eq_zero _ _ disjoint, BitVec.ofNat_add, BitVec.ofNat_toNat, BitVec.ofNat_mul,
    BitVec.ofNat_toNat, BitVec.setWidth_eq, BitVec.shiftLeft_eq_mul_twoPow]
  rfl

/-! ### Comparisons -/

theorem truth_decide (p : Prop) [Decidable p] : truth (decide p) = if p then 1 else 0 := by
  simp [truth]

/-- Equal keys name equal values, so a choice by `<` is the choice by `≤`. -/
theorem ite_lt_eq_ite_le {α β : Type} [LinearOrder α] {n m : α} {x y : β} (h : n = m → x = y) :
    (if n < m then x else y) = if n ≤ m then x else y := by
  rcases lt_trichotomy n m with lt | eq | gt
  · rw [if_pos lt, if_pos lt.le]
  · rw [if_neg eq.not_lt, if_pos eq.le, h eq]
  · rw [if_neg gt.not_gt, if_neg gt.not_ge]

theorem ite_slt {α : Type} (a b : Word) (x y : α) (h : a = b → x = y) :
    (if a.slt b then x else y) = if a.toInt ≤ b.toInt then x else y := by
  simp only [BitVec.slt_eq_decide, decide_eq_true_eq]
  exact ite_lt_eq_ite_le fun e => h (BitVec.eq_of_toInt_eq e)

theorem ite_ult {α : Type} (a b : Word) (x y : α) (h : a = b → x = y) :
    (if a.ult b then x else y) = if a.toNat ≤ b.toNat then x else y := by
  simp only [BitVec.ult_eq_decide, decide_eq_true_eq]
  exact ite_lt_eq_ite_le fun e => h (BitVec.eq_of_toNat_eq e)

/-! ### Multiplication and division (R53) -/

theorem mulHigh_eq (a b : Int) : mulHigh a b = BitVec.ofInt 64 (a * b / 2 ^ 64) := by
  apply BitVec.eq_of_toNat_eq
  rw [mulHigh, field_toNat, BitVec.toNat_ofInt, BitVec.toNat_ofInt]
  generalize a * b = x
  omega

theorem mulHigh_natCast (a b : Nat) : mulHigh a b = BitVec.ofNat 64 (a * b / 2 ^ 64) := by
  rw [mulHigh_eq, ← BitVec.ofInt_natCast]
  norm_cast

theorem eq_intMin_iff (a : Word) : a = BitVec.intMin 64 ↔ a.toInt = -2 ^ 63 := by
  rw [← BitVec.toInt_inj]; rfl

theorem eq_allOnes_iff (b : Word) : b = BitVec.allOnes 64 ↔ b.toInt = -1 := by
  rw [← BitVec.toInt_inj]; rfl

theorem divSigned_eq (a b : Word) : divSigned a b = if b = 0 then BitVec.allOnes 64
    else if a.toInt = -2 ^ 63 ∧ b.toInt = -1 then a else BitVec.ofInt 64 (a.toInt.tdiv b.toInt) := by
  simp only [divSigned, eq_intMin_iff, eq_allOnes_iff]
  split
  · rfl
  · split
    · next h => exact ((eq_intMin_iff a).mpr h.1).symm
    · rfl

theorem remSigned_eq (a b : Word) : remSigned a b = if b = 0 then a
    else if a.toInt = -2 ^ 63 ∧ b.toInt = -1 then 0 else BitVec.ofInt 64 (a.toInt - b.toInt * a.toInt.tdiv b.toInt) := by
  simp only [remSigned, eq_intMin_iff, eq_allOnes_iff, Int.tmod_def]

/-! ### Bit fields (R55) -/

theorem extractField_eq (a b : Word) : extractField a b = (a >>> (b.toNat % 64)) &&&
    BitVec.ofNat 64 (2 ^ (if b.toNat / 256 % 64 = 0 then 64 else b.toNat / 256 % 64) - 1) := by
  rw [extractField, lowOnes, amount_eq, fieldWidth_eq]

theorem getLsbD_lowOnes (w i : Nat) : (lowOnes w).getLsbD i = (decide (i < w) && decide (i < 64)) := by
  simp [lowOnes, BitVec.getLsbD_ofNat, Nat.testBit_two_pow_sub_one, Bool.and_comm]

/-- `bfi` bit by bit: the bits of the field come from a, the others stay. -/
theorem getLsbD_insertField (old a b : Word) {i : Nat} (hi : i < 64) : (insertField old a b).getLsbD i =
    if amount b ≤ i ∧ i < amount b + fieldWidth b then a.getLsbD (i - amount b) else old.getLsbD i := by
  simp only [insertField, BitVec.getLsbD_or, BitVec.getLsbD_and, BitVec.getLsbD_not, BitVec.getLsbD_shiftLeft,
    getLsbD_lowOnes]
  by_cases above : amount b ≤ i
  · have inside : i < amount b + fieldWidth b ↔ i - amount b < fieldWidth b := by omega
    by_cases h : i - amount b < fieldWidth b
    · simp [hi, above, inside, h, Nat.not_lt.mpr above, Nat.lt_of_le_of_lt (Nat.sub_le i _) hi]
    · simp [hi, inside, h]
  · simp [hi, above, Nat.lt_of_not_le above]

theorem insertField_eq (old a b : Word) : insertField old a b = BitVec.ofFnLE fun n : Fin 64 =>
    if b.toNat % 64 ≤ n ∧ n < b.toNat % 64 + (if b.toNat / 256 % 64 = 0 then 64 else b.toNat / 256 % 64)
    then a.getLsbD (n - b.toNat % 64) else old.getLsbD n := by
  rw [← fieldWidth_eq, ← amount_eq]
  apply BitVec.eq_of_getLsbD_eq
  intro i hi
  rw [getLsbD_insertField _ _ _ hi]
  simp [hi]

end Sys2Proof.Proofs
end

section
/-! What the scalar instructions of a stream do (R50-R61, R65): each ends at the cell that its reads and its write leave. -/

namespace Sys2Proof.Proofs

open Sys2Proof.Machine Sys2Proof.Laws

section
variable {s : State} {y : Bool} {c : Cell}

/-! ### An instruction from its meaning -/

/-- An instruction whose meaning completes with a cell ends at that cell. -/
theorem endsAt_of_finish (h : Ready s y c) {i : Instr} {body : State → Nat → Cell → Res} {c' : Cell}
    (he : exec i s = runCore i y body s) (hb : body s s.focus.cell c = finish s s.focus.cell c') : EndsAt i s c' :=
  he.trans (runCore_done h hb)

/-- An instruction whose meaning waits leaves the state as it is. -/
theorem exec_of_wait (h : Ready s y c) {i : Instr} {body : State → Nat → Cell → Res}
    (he : exec i s = runCore i y body s) (hb : body s s.focus.cell c = .wait) : exec i s = .next s := by
  rw [he, runCore_eq h, hb]

/-- An instruction whose meaning traps only raises the trap, with its unit and its word (R18). -/
theorem exec_of_trap (h : Ready s y c) {i : Instr} {body : State → Nat → Cell → Res} {t : Trap}
    (he : exec i s = runCore i y body s) (hb : body s s.focus.cell c = .trap t) :
    exec i s = .next (raise s s.focus.cell { t with unit := if y then 1 else 0, word := coreWord i }) := by
  rw [he, runCore_eq h, hb]; rfl

theorem decide_some {taken : Bool} {target : Word} {c' : Cell} (k : Cell → Res) (h : decided y taken target c = some c') :
    decide_ y taken target c k = k c' := by
  rw [decide_eq', h]

theorem rmwOk_of_lt {d : BitVec 5} (h : d.toNat < 30) : rmwOk d = true := by
  have h30 : d ≠ 30#5 := fun e => by simp [e] at h
  have h31 : d ≠ 31#5 := fun e => by simp [e] at h
  simp [rmwOk, h30, h31]

theorem wordTarget_eq {n : Nat} (o : BitVec n) : wordTarget c y o = getPlace c.core y + o.signExtend 64 * 4 := by
  rw [wordTarget, shiftLeft_two]; rfl

/-! ### Operand forms -/

/-- Two sources, one destination, the value in the terms of a rule. -/
theorem register_endsAt (h : Ready s y c) {c1 c2 : Cell} {d a b : BitVec 5} {va vb v : Word}
    (ha : sourceOf y a c = some (va, c1)) (hb : sourceOf y b c1 = some (vb, c2)) {i : Instr} {f : Word → Word → Word}
    (he : exec i s = regForm2 i y d a b f s) (hv : f va vb = v) :
    ∀ c3, destOf y d v c2 = some c3 → EndsAt i s (advance y c3) := by
  subst hv
  exact fun _ hd => he.trans (regForm2_ends h i f ha hb hd)

/-- A destination that is a source too. -/
theorem update_endsAt (h : Ready s y c) {c1 : Cell} {d : BitVec 5} {vd v : Word} (hr : d.toNat < 30)
    (hd : sourceOf y d c = some (vd, c1)) {i : Instr} {f : Word → Word} (he : exec i s = updateForm i y d f s)
    (hv : f vd = v) : ∀ c', destOf y d v c1 = some c' → EndsAt i s (advance y c') := by
  subst hv
  intro c' hw
  refine endsAt_of_finish h he ?_
  rw [if_pos (rmwOk_of_lt hr), readReg_some _ hd, writeReg_some _ hw]

/-- A branch on two sources (R57). -/
theorem branch_endsAt (h : Ready s y c) {c1 c2 : Cell} {a b : BitVec 5} {va vb : Word} {o : BitVec 14}
    (ha : sourceOf y a c = some (va, c1)) (hb : sourceOf y b c1 = some (vb, c2)) {i : Instr} {f : Word → Word → Bool}
    {taken : Bool} (he : exec i s = branchForm i y a b o f s) (hv : f va vb = taken) :
    ∀ c', decided y taken (getPlace c2.core y + o.signExtend 64 * 4) c2 = some c' → EndsAt i s c' := by
  subst hv
  intro c' hc
  refine endsAt_of_finish h he ?_
  rw [readReg_some _ ha, readReg_some _ hb, wordTarget_eq, decide_some _ hc]

/-- A branch on one bit of a source (R58). -/
theorem bitBranch_endsAt (h : Ready s y c) {c1 : Cell} {a : BitVec 5} {va : Word} {o : BitVec 13}
    (ha : sourceOf y a c = some (va, c1)) {i : Instr} {f : Word → Bool} {taken : Bool}
    (he : exec i s = bitBranchForm i y a o f s) (hv : f va = taken) :
    ∀ c', decided y taken (getPlace c1.core y + o.signExtend 64 * 4) c1 = some c' → EndsAt i s c' := by
  subst hv
  intro c' hc
  refine endsAt_of_finish h he ?_
  rw [readReg_some _ ha, wordTarget_eq, decide_some _ hc]

end

/-! ### The obligations -/

/-- Settles O1: the words field by field, each value by the lemma about its pure operation. -/
theorem registerArithmetic : Obligations.RegisterArithmetic := by
  unfold Obligations.RegisterArithmetic
  refine ⟨fun y z d a b => ?_, fun y z d a b s c c1 c2 va vb h ha hb => ?_⟩
  · simp only [List.forall_mem_cons, List.not_mem_nil, false_imp_iff, implies_true, and_true]
    and_intros <;> exact registerWord _ _ _ _ _ _ _ rfl
  · have ends {i : Instr} {f : Word → Word → Word} {v : Word} := @register_endsAt s y c h c1 c2 d a b va vb v ha hb i f
    simp only [List.forall_mem_cons, List.not_mem_nil, false_imp_iff, implies_true, and_true]
    exact ⟨ends rfl rfl, ends rfl rfl, ends rfl rfl, ends rfl rfl, ends rfl rfl, ends rfl rfl, ends rfl rfl,
      ends rfl (by rw [amount_eq]), ends rfl (by rw [amount_eq]), ends rfl (by rw [amount_eq]),
      ends rfl (by rw [rotl_eq _ (amount_lt vb), amount_eq]), ends rfl (by rw [rotr_eq _ (amount_lt vb), amount_eq]),
      ends rfl (truth_decide _), ends rfl (truth_decide _),
      ends rfl (ite_slt _ _ _ _ id), ends rfl (ite_slt _ _ _ _ Eq.symm),
      ends rfl (ite_ult _ _ _ _ id), ends rfl (ite_ult _ _ _ _ Eq.symm),
      ends rfl rfl, ends rfl (mulHigh_eq _ _), ends rfl (mulHigh_natCast _ _),
      ends rfl (divSigned_eq _ _), ends rfl rfl, ends rfl (remSigned_eq _ _), ends rfl rfl,
      ends rfl (extractField_eq _ _)⟩

/-- Settles O3: `aui`, `lic` and `bfi` read their destination after their other sources, which x30 and x31 do not allow. -/
theorem constantsAndSelection : Obligations.ConstantsAndSelection := by
  unfold Obligations.ConstantsAndSelection
  intro y z d a b e i s c h
  refine ⟨?_, fun c' hd => constForm_ends h _ hd, fun hr vd c1 hd => ⟨?_, ?_⟩, fun va c1 vb c2 ha hb => ⟨?_, ?_⟩⟩
  · simp only [List.forall_mem_cons, List.not_mem_nil, false_imp_iff, implies_true, and_true]
    and_intros <;> exact constantWord _ _ _ _ _ rfl
  · exact update_endsAt h hr hd rfl (by rw [shiftLeft_fourteen]; rfl)
  · exact update_endsAt h hr hd rfl (shiftIn_eq vd i)
  · intro hr vd c3 hd c' hw
    refine endsAt_of_finish h (show execBfi y z d a b s = _ from rfl) ?_
    rw [← insertField_eq] at hw
    rw [if_pos (rmwOk_of_lt hr), readReg_some _ ha, readReg_some _ hb, readReg_some _ hd, writeReg_some _ hw]
  · intro ve c3 he c' hw
    refine endsAt_of_finish h (show execSel y z d a b e s = _ from rfl) ?_
    rw [readReg_some _ ha, readReg_some _ hb, readReg_some _ he, writeReg_some _ hw]

/-- Settles O4: the comparisons of the model are those of the rules, and a branch counts its offset from its own place. -/
theorem branches : Obligations.Branches := by
  unfold Obligations.Branches
  intro y z a b o o' n s c h
  refine ⟨?_, ?_, loopWord _ _ _ _ _ rfl, fun va c1 vb c2 ha hb => ?_, fun va c1 ha => ?_, ?_⟩
  · simp only [List.forall_mem_cons, List.not_mem_nil, false_imp_iff, implies_true, and_true]
    and_intros <;> exact branchWord _ _ _ _ _ _ rfl
  · simp only [List.forall_mem_cons, List.not_mem_nil, false_imp_iff, implies_true, and_true]
    and_intros <;> exact bitBranchWord _ _ _ _ _ _ rfl
  · simp only [List.forall_mem_cons, List.not_mem_nil, false_imp_iff, implies_true, and_true]
    refine ⟨branch_endsAt h ha hb rfl ?_, branch_endsAt h ha hb rfl ?_, branch_endsAt h ha hb rfl ?_,
      branch_endsAt h ha hb rfl ?_, branch_endsAt h ha hb rfl ?_, branch_endsAt h ha hb rfl ?_⟩
    · exact beq_eq_decide va vb
    · simp [bne, beq_eq_decide]
    · exact BitVec.slt_eq_decide
    · rw [BitVec.slt_eq_decide, ← decide_not, decide_eq_decide, not_lt]
    · exact BitVec.ult_eq_decide
    · rw [BitVec.ult_eq_decide, ← decide_not, decide_eq_decide, not_lt]
  · simp only [List.forall_mem_cons, List.not_mem_nil, false_imp_iff, implies_true, and_true]
    exact ⟨bitBranch_endsAt h ha rfl (bit_eq_getLsbD _ _), bitBranch_endsAt h ha rfl (by rw [bit_eq_getLsbD])⟩
  · intro hr va c1 c2 ha hw c' hc
    have goesOn : (va - 1 != 0) = decide (va ≠ 1) := by
      rw [bne, beq_eq_decide, ← decide_not, decide_eq_decide]
      exact sub_ne_zero
    refine endsAt_of_finish h (show execLoop y z a o s = _ from rfl) ?_
    rw [if_pos (rmwOk_of_lt hr), readReg_some _ ha, writeReg_some _ hw, goesOn, wordTarget_eq, decide_some _ hc]

/-- Settles O5: `jalr` reads its source first, and a misaligned target traps before the link is written. -/
theorem jumpsAndCalls : Obligations.JumpsAndCalls := by
  unfold Obligations.JumpsAndCalls
  intro y z d a i o s c h
  refine ⟨jumpWord _ _ _ _ rfl, callWord _ _ _ rfl, indirectJumpWord _ _ _ _ _ rfl, fun c' hc => ?_, fun c1 c' hl hc => ?_,
    fun va c1 ha => ?_⟩
  · refine endsAt_of_finish h (show execJ y z o s = _ from rfl) ?_
    rw [wordTarget_eq, decide_some _ hc]
  · refine endsAt_of_finish h (show execJal y o s = _ from rfl) ?_
    rw [writeReg_some _ hl, wordTarget_eq, decide_some _ hc]
  · have misaligned := low_two_bits_ne_zero_iff va i
    refine ⟨fun hv c2 c' hl hc => endsAt_of_finish h (show execJalr y d a i s = _ from rfl) ?_,
      fun hv => exec_of_trap (t := coreTrap .align 0) h (show execJalr y d a i s = _ from rfl) ?_⟩
    · rw [readReg_some _ ha]
      dsimp only
      rw [if_neg (mt misaligned.mp (not_not.mpr hv)), writeReg_some _ hl, shiftLeft_two]
      exact decide_some _ hc
    · rw [readReg_some _ ha]
      exact if_pos (misaligned.mpr hv)

/-- Settles O8: the bound at ULEN is checked before the alignment. -/
theorem uniformLoads : Obligations.UniformLoads := by
  unfold Obligations.UniformLoads
  rintro y z d b o s c c1 vb ua h hb rfl
  have he : exec (.ldu y z d b o) s = execLdu y z d b o s := rfl
  refine ⟨uniformLoadWord _ _ _ _ _ _ rfl, fun inside aligned c' hd => endsAt_of_finish h he ?_,
    fun outside => exec_of_trap (t := coreTrap .access 0) h he ?_,
    fun inside misaligned => exec_of_trap (t := coreTrap .align 0) h he ?_⟩
  · rw [readReg_some _ hb]
    exact (if_neg inside.not_gt).trans ((if_neg (not_not.mpr aligned)).trans (writeReg_some _ hd))
  · rw [readReg_some _ hb]
    exact if_pos outside
  · rw [readReg_some _ hb]
    exact (if_neg inside.not_gt).trans (if_pos misaligned)

end Sys2Proof.Proofs
end

section
/-! `nop`, `yield`, `chkb` and `halt` (R67, R68, R71, R73, R110, R344): what asking for a save and discarding the entries of
the queues leave of a cell. -/

namespace Sys2Proof.Proofs

open Sys2Proof.Machine Sys2Proof.Laws

/-! ### Stopping cells (R127, R356) -/

/-- Two cells differ in the stop of issue, of the core and of the queues, and in nothing else of core and local memory. -/
def SameButStop (c c' : Cell) : Prop := (∃ b, c'.core = { c.core with stopIssue := b }) ∧ c'.mem = c.mem

theorem SameButStop.refl (c : Cell) : SameButStop c c := ⟨⟨c.core.stopIssue, rfl⟩, rfl⟩

theorem SameButStop.stopCell {c c' : Cell} (h : SameButStop c c') : SameButStop c (stopCell c') := by
  obtain ⟨⟨b, hcore⟩, hmem⟩ := h
  exact ⟨⟨true, by simp only [Machine.stopCell, hcore]⟩, hmem⟩

/-- A change of listed cells that keeps a property leaves it with the cell at `n`. -/
theorem look_foldl_upd {α : Type} {P : α → Prop} {f : α → α} (hf : ∀ a, P a → P (f a)) (ids : List Nat) {m : SMap α} {n : Nat}
    (h : ∃ a, look m n = some a ∧ P a) : ∃ a, look (ids.foldl (fun m id => upd m id f) m) n = some a ∧ P a := by
  induction ids generalizing m with
  | nil => exact h
  | cons id ids ih =>
    obtain ⟨a, hl, ha⟩ := h
    refine ih ?_
    by_cases e : n = id
    · subst e; exact ⟨f a, look_upd_same f hl, hf a ha⟩
    · exact ⟨a, by rw [look_upd_other m f e, hl], ha⟩

theorem forCells_stops {s : State} {id : Nat} {c : Cell} (ids : List Nat)
    (h : ∃ c', look s.cells id = some c' ∧ SameButStop c c') :
    ∃ c', look (forCells s ids stopCell).cells id = some c' ∧ SameButStop c c' :=
  look_foldl_upd (P := SameButStop c) (fun _ => SameButStop.stopCell) ids h

/-- Asking for a save stops cells and writes no memory. -/
theorem askSave_stops (s : State) (n : Nat) (yields : Bool) {id : Nat} {c : Cell} (h : look s.cells id = some c) :
    (∃ c', look (askSave s n yields).cells id = some c' ∧ SameButStop c c') ∧ (askSave s n yields).mem = s.mem := by
  have same : ∃ c', look s.cells id = some c' ∧ SameButStop c c' := ⟨c, h, .refl c⟩
  unfold askSave beginSave
  dsimp only
  split
  · exact ⟨same, rfl⟩
  · split
    · exact ⟨same, rfl⟩
    · simp only [modTask_cells, modTask_mem, forCells_mem, and_true]
      exact forCells_stops _ same

/-- `yield` goes on at the next instruction; whether it is taken or not shows in the cell's stops alone (R71, R130). -/
theorem exec_yield {s : State} {c : Cell} (h : Ready s false c) : ∃ t, exec .yield s = .next t ∧
    (∃ c', look t.cells s.focus.cell = some c' ∧ SameButStop (advance false c) c') ∧ t.mem = s.mem := by
  have here : look (setCell s s.focus.cell (advance false c)).cells s.focus.cell = some (advance false c) := look_put_same ..
  have untaken : ∃ c', look (setCell s s.focus.cell (advance false c)).cells s.focus.cell = some c' ∧
    SameButStop (advance false c) c' := ⟨_, here, .refl _⟩
  refine ⟨_, (show exec .yield s = execYield s from rfl).trans (runCore_done h rfl), ?_⟩
  split
  · split
    · exact askSave_stops _ c.task true here
    · exact ⟨untaken, rfl⟩
  · exact ⟨untaken, rfl⟩

/-! ### Discarding the entries of a cell (R344) -/

/-- Counting phase items changes barrier records only. -/
theorem countPhases_eq (ps : List PhaseItem) (up : Bool) (s : State) :
    ∃ bs, ps.foldl (fun s p => countPhase s p up) s = { s with barriers := bs } := by
  induction ps generalizing s with
  | nil => exact ⟨s.barriers, rfl⟩
  | cons p ps ih => exact ih (countPhase s p up)

/-- A cell at whose banks no read of the copy engine of cell `id` stands any more. -/
def withoutCopyReads (id : Nat) (c : Cell) : Cell :=
  modMem c fun m => { m with
    deferred := m.deferred.filter (·.reader != .copy id), served := m.served.filter (·.reader != .copy id) }

/-- The queues hold no entry any more, and scratch and the package's memory stay as they are. -/
theorem discardEntries_eq {s : State} {id : Nat} {c : Cell} (h : look s.cells id = some c) :
    (∃ c', look (discardEntries s id).cells id = some c' ∧ (∀ q, (getQueue c' q).entries = []) ∧
      c'.mem.scratch = c.mem.scratch) ∧ (discardEntries s id).mem = s.mem := by
  unfold discardEntries
  rw [h]
  dsimp only
  obtain ⟨bs, hb⟩ := countPhases_eq ((c.queues.toList.flatMap (·.entries)).flatMap fun e => e.phase.toList ++ e.counted.toList) false s
  rw [hb]
  have kept : look (s.cells.map fun x => (x.1, withoutCopyReads id x.2)) id = some (withoutCopyReads id c) := by
    rw [look_mapValues s.cells (fun _ => withoutCopyReads id), h]; rfl
  refine ⟨⟨_, look_upd_same _ kept, fun q => ?_, rfl⟩, rfl⟩
  exact congrArg EQueue.entries (mapAll_get _ c.queues q.toNat q.isLt)

/-- A `halt` in a handler halts the cell, discards its entries and loads the Strainer (R344). -/
theorem exec_halt_handler {s : State} {c : Cell} (h : Ready s false c) (hd : earlierDone s s.focus.cell c = true)
    (hx : ¬(1 < clusterSize s c ∧ c.core.exitBit = false)) (hm : c.core.hm = true) :
    ∃ t c', exec .halt s = .next t ∧ look t.cells s.focus.cell = some c' ∧ c'.core.halted = true ∧
      c'.collar.strainer = true ∧ (∀ q : BitVec 2, (getQueue c' q).entries = []) ∧ c'.mem.scratch = c.mem.scratch ∧
      t.mem = s.mem := by
  obtain ⟨⟨c', hl, hq, hs⟩, hmem⟩ := discardEntries_eq h.1
  have body : exec .halt s = .next _ := (show exec .halt s = execHalt s from rfl).trans
    (runCore_done h ((if_neg (by simp [hd])).trans ((if_neg hx).trans (if_pos hm))))
  exact ⟨_, _, body, look_upd_same _ hl, rfl, rfl, hq, hs, hmem⟩

/-! ### The obligation and its two claims -/

/-- The claim on `nop`, `yield` and `chkb` (R67, R71, R73), one instruction after the other. -/
theorem nopYieldAndBounds : Claims.NopYieldAndBounds := by
  intro y a b s c h
  refine ⟨boundsWord _ _ _, endsAt_of_finish h (show execNop y s = _ from rfl) rfl, ?_, fun va c1 vb c2 ha hb => ⟨?_, ?_⟩⟩
  · rintro rfl
    obtain ⟨t, he, ⟨c', hl, ⟨stop, hcore⟩, hmem⟩, hm⟩ := exec_yield h
    exact ⟨t, c', he, hl, by rw [hcore]; rfl, by rw [hcore]; rfl, by rw [hcore]; rfl, by rw [hmem]; rfl, hm⟩
  · intro below
    refine endsAt_of_finish h (show execChkb y a b s = _ from rfl) ?_
    rw [readReg_some _ ha, readReg_some _ hb, if_pos (by simpa [BitVec.ult_eq_decide] using below)]
  · intro beyond
    refine exec_of_trap (t := coreTrap .chk va) h (show execChkb y a b s = _ from rfl) ?_
    rw [readReg_some _ ha, readReg_some _ hb, if_neg (by simpa [BitVec.ult_eq_decide] using beyond)]

/-- The claim on `halt` (R68, R110, R344), along the conditions that it checks in turn. -/
theorem haltEnds : Claims.Halt := by
  intro s c h
  have he : exec .halt s = execHalt s := rfl
  refine ⟨fun hd => exec_of_wait h he (if_pos hd), fun hd hx => ?_, fun hd hw hx => ?_⟩
  · have allowed : ¬(1 < clusterSize s c ∧ c.core.exitBit = false) := by
      rintro ⟨several, clear⟩
      rcases hx with one | set
      · omega
      · rw [clear] at set; cases set
    refine ⟨fun hm => endsAt_of_finish h he ?_, exec_halt_handler h hd allowed⟩
    rw [if_neg (by simp [hd]), if_neg allowed, if_neg (by simp [hm])]
    rfl
  · refine exec_of_trap (t := illegalTrap) h he ?_
    rw [if_neg (by simp [hd]), if_pos ⟨hw, hx⟩]

/-- Settles O44, from its two claims. -/
theorem systemInstructions : Obligations.SystemInstructions := ⟨nopYieldAndBounds, haltEnds⟩

end Sys2Proof.Proofs
end

section
/-! `sig` and `waitc` (R100-R102, R123, R359): the counter that an operand names, and the cases of the two instructions. -/

namespace Sys2Proof.Proofs

open Sys2Proof.Machine Sys2Proof.Laws

/-- A source above a function code, no destination (R40, R100). -/
theorem counterWord (m : BitVec 6) (f : BitVec 2) (a : BitVec 5) {base : Nat}
    (h : base = m.toNat * 2 ^ 24 + f.toNat * 2 ^ 12) :
    .core (push (push (push (push (push (push (push 0#32 0#1) 0#1) m) 0#5) a) f) 0#12) =
      Claims.laid base [(a.toNat, 14)] := by
  simp only [push_ofNat, laid_cons, laid_nil, h, BitVec.toNat_ofNat]
  ring_nf

/-! ### The operand (R100) -/

theorem field_eq_ofNat {n : Nat} (w : BitVec n) (lo len : Nat) : field w lo len = BitVec.ofNat len (w.toNat / 2 ^ lo) := by
  apply BitVec.eq_of_toNat_eq
  rw [field_toNat, BitVec.toNat_ofNat]

/-- Generation above number is the low half of the operand. -/
theorem generation_append_number (v : Word) : field v 16 16 ++ field v 0 16 = v.setWidth 32 := by
  rw [BitVec.setWidth_eq_extractLsb' (by decide)]
  exact BitVec.extractLsb'_append_extractLsb'_eq_extractLsb' rfl

theorem high_half_eq_zero_iff (v : Word) : field v 32 32 = 0#32 ↔ v.toNat / 2 ^ 32 = 0 := by
  rw [← BitVec.toNat_inj, field_toNat, BitVec.toNat_ofNat]
  omega

/-- With the high half zero, the generation is all that stands above the number. -/
theorem eq_generation_iff {v : Word} (hv : v.toNat / 2 ^ 32 = 0) (g : BitVec 16) :
    g = field v 16 16 ↔ g.toNat = v.toNat / 2 ^ 16 := by
  rw [← BitVec.toNat_inj, field_toNat]
  omega

/-- The counter that an operand names. -/
theorem counterAt_number (s : State) (v : Word) : counterAt s (field v 0 16) = peek {} s.counters (v.toNat % 2 ^ 16) := by
  rw [counterAt, field_toNat, pow_zero, Nat.div_one]

/-- An operand names its number and generation where its high half is zero and the counter is the partition's. -/
theorem counterOperand_eq (s : State) (p : BitVec 4) (v : Word) : counterOperand s p v =
    if v.toNat / 2 ^ 32 = 0 ∧ (peek {} s.counters (v.toNat % 2 ^ 16)).part = p then some (field v 0 16, field v 16 16)
    else none := by
  simp only [← counterAt_number, ← high_half_eq_zero_iff, counterOperand, counterAt, Bool.and_eq_true, beq_iff_eq]

/-! ### The two instructions -/

section
variable {s : State} {c c1 : Cell} {a : BitVec 5} {v : Word} {n g : BitVec 16}
variable (h : Ready s false c) (ha : sourceOf false a c = some (v, c1))
include h ha

/-- `sig` and `waitc` trap on an operand that names no counter of the partition (R100). -/
theorem exec_counter_traps (hv : counterOperand s c1.part v = none) : ∀ i ∈ [Instr.sig a, Instr.waitc a],
    exec i s = .next (raise s s.focus.cell { code := .access, unit := 0, word := coreWord i, addr := v }) := by
  simp only [List.forall_mem_cons, List.not_mem_nil, false_imp_iff, implies_true, and_true]
  constructor
  · refine exec_of_trap (t := coreTrap .access v) h (show execSig a s = _ from rfl) ?_
    rw [readReg_some _ ha, hv]
  · refine exec_of_trap (t := coreTrap .access v) h (show execWaitc a s = _ from rfl) ?_
    rw [readReg_some _ ha, hv]

variable (hv : counterOperand s c1.part v = some (n, g))
include hv

/-- `sig` sends its decrement behind all others (R101). -/
theorem exec_sig_sends (hr : released s s.focus.cell c1 3 = true) : exec (.sig a) s =
      .next (setCell { s with decs := s.decs ++ [⟨s.focus.cell, c1.part, n, g⟩] } s.focus.cell (advance false c1)) := by
  refine (show exec (.sig a) s = execSig a s from rfl).trans (runCore_done h ?_)
  rw [readReg_some _ ha, hv]
  exact if_pos hr

/-- A FIRED event of the counter and the generation that was recorded ends `waitc`, and is used up (R359). -/
theorem exec_waitc_noted (hf : c1.core.fired = some (g ++ n)) :
    EndsAt (.waitc a) s (advance false { c1 with core := { c1.core with
      fired := none, path := c1.core.path ++ [.pass] } }) := by
  refine endsAt_of_finish h (show execWaitc a s = _ from rfl) ?_
  rw [readReg_some _ ha, hv]
  exact if_pos hf

variable (hf : c1.core.fired ≠ some (g ++ n))
include hf

/-- A FIRED or FREE counter of the generation ends `waitc` (R102, R123). -/
theorem exec_waitc_ends (hg : (counterAt s n).gen = g)
    (hs : (counterAt s n).state = .fired ∨ (counterAt s n).state = .free) :
    EndsAt (.waitc a) s (advance false { c1 with core := { c1.core with path := c1.core.path ++ [.pass] } }) := by
  refine endsAt_of_finish h (show execWaitc a s = _ from rfl) ?_
  rw [readReg_some _ ha, hv]
  refine (if_neg hf).trans ((if_neg (not_not.mpr hg)).trans ?_)
  rcases hs with fired | free
  · rw [fired]; rfl
  · rw [free]; rfl

/-- An ARMED counter of the generation holds `waitc` (R123). -/
theorem exec_waitc_waits (hg : (counterAt s n).gen = g) (hs : (counterAt s n).state = .armed) :
    exec (.waitc a) s = .next s := by
  refine exec_of_wait h (show execWaitc a s = _ from rfl) ?_
  rw [readReg_some _ ha, hv]
  refine (if_neg hf).trans ((if_neg (not_not.mpr hg)).trans ?_)
  rw [hs]

/-- Another generation, or a FAULTED counter, traps `waitc` (R102, R123). -/
theorem exec_waitc_traps (hs : (counterAt s n).gen ≠ g ∨ (counterAt s n).state = .faulted) :
    exec (.waitc a) s = .next (raise s s.focus.cell { code := .access, unit := 0, word := coreWord (.waitc a), addr := v }) := by
  refine exec_of_trap (t := coreTrap .access v) h (show execWaitc a s = _ from rfl) ?_
  rw [readReg_some _ ha, hv]
  refine (if_neg hf).trans ?_
  by_cases hg : (counterAt s n).gen = g
  · refine (if_neg (not_not.mpr hg)).trans ?_
    rw [hs.resolve_left (not_not.mpr hg)]
  · exact if_pos hg

end

/-- Settles O17: the operand in the terms of R100, then one case of `sig` or `waitc` after the other. -/
theorem counterInstructions : Obligations.CounterInstructions := by
  unfold Obligations.CounterInstructions
  intro a s c c1 v h ha k mine
  have named (hm : mine) : counterOperand s c1.part v = some (field v 0 16, field v 16 16) :=
    (counterOperand_eq s c1.part v).trans (if_pos hm)
  have unnamed (hm : ¬ mine) : counterOperand s c1.part v = none := (counterOperand_eq s c1.part v).trans (if_neg hm)
  have counter : counterAt s (field v 0 16) = k := counterAt_number s v
  have generation (hm : mine) : (counterAt s (field v 0 16)).gen = field v 16 16 ↔ k.gen.toNat = v.toNat / 2 ^ 16 := by
    rw [counter]; exact eq_generation_iff hm.1 k.gen
  refine ⟨counterWord _ _ _ rfl, counterWord _ _ _ rfl, fun hm hr => ?_, ?_⟩
  · have sent := exec_sig_sends h ha (named hm) hr
    rwa [field_eq_ofNat v 0, field_eq_ofNat v 16, pow_zero, Nat.div_one] at sent
  · rw [← generation_append_number, ← counter]
    exact ⟨fun hm hf => exec_waitc_noted h ha (named hm) hf,
      fun hm hf hg hs => exec_waitc_ends h ha (named hm) hf ((generation hm).mpr hg) hs,
      fun hm hf hg hs => exec_waitc_waits h ha (named hm) hf ((generation hm).mpr hg) hs,
      fun hm => exec_counter_traps h ha (unnamed hm),
      fun hm hf hs => exec_waitc_traps h ha (named hm) hf (hs.imp_left (mt (generation hm).mp))⟩

end Sys2Proof.Proofs
end

section
/-! `swopen`, `swadv` and `swclose` (R197): their words, and the cases of each. -/

namespace Sys2Proof.Proofs

open Sys2Proof.Machine Sys2Proof.Laws

/-! ### The words -/

section
variable (w : BitVec 4) (a b : BitVec 5)

/-- A window above a base and a length. -/
theorem windowOpenWord :
    .core (push (push (push (push (push (push (push (push 0#32 1#1) 0#1) 57#6) 0#1) w) a) b) 0#9) =
      Claims.laid 0xB9000000 [(w.toNat, 19), (a.toNat, 14), (b.toNat, 9)] := by
  simp only [push_ofNat, laid_cons, laid_nil, BitVec.toNat_ofNat]
  ring_nf

/-- A window above a mark. -/
theorem windowAdvanceWord :
    .core (push (push (push (push (push (push (push (push 0#32 1#1) 0#1) 57#6) 0#1) w) a) 0#5) 1#9) =
      Claims.laid 0xB9000001 [(w.toNat, 19), (a.toNat, 14)] := by
  simp only [push_ofNat, laid_cons, laid_nil, BitVec.toNat_ofNat]
  ring_nf

/-- A window alone. -/
theorem windowCloseWord :
    .core (push (push (push (push (push (push (push 0#32 1#1) 0#1) 57#6) 0#1) w) 0#10) 2#9) =
      Claims.laid 0xB9000002 [(w.toNat, 19)] := by
  simp only [push_ofNat, laid_cons, laid_nil, BitVec.toNat_ofNat]
  ring_nf

end

/-! ### The three instructions -/

/-- The bits above a virtual address are clear below 2^57, and only there. -/
theorem field_top_ne_zero_iff (v : Word) : field v 57 7 ≠ 0#7 ↔ 2 ^ 57 ≤ v.toNat := by
  rw [Ne, ← BitVec.toNat_inj, field_toNat, BitVec.toNat_ofNat]
  omega

section
variable {s : State} {c c1 c2 : Cell} {w : BitVec 4} {a b : BitVec 5} {va vb : Word}
variable (h : Ready s true c)
include h

theorem exec_swclose : EndsAt (.swclose w) s (advance true (setWindow c w none)) :=
  endsAt_of_finish h (show execSwclose w s = _ from rfl) rfl

variable (ha : sourceOf true a c = some (va, c1))
include ha

/-- A closed window stays closed. -/
theorem exec_swadv_closed (hw : c1.core.windows[w.toNat]'w.isLt = none) : EndsAt (.swadv w a) s (advance true c1) := by
  refine endsAt_of_finish h (show execSwadv w a s = _ from rfl) ?_
  rw [readReg_some _ ha, hw]

/-- The mark of an open window rises, at most to the window's end. -/
theorem exec_swadv_open {x : StreamWindow} (hw : c1.core.windows[w.toNat]'w.isLt = some x) :
    EndsAt (.swadv w a) s (advance true (setWindow c1 w (some { x with
      mark := BitVec.ofNat 64 (max x.mark.toNat (min va.toNat (x.base.toNat + x.len.toNat))) }))) := by
  refine endsAt_of_finish h (show execSwadv w a s = _ from rfl) ?_
  rw [readReg_some _ ha, hw]

variable (hb : sourceOf true b c1 = some (vb, c2))
include hb

/-- A zero length closes the window, whatever the base is. -/
theorem exec_swopen_zero (h0 : vb = 0) : EndsAt (.swopen w a b) s (advance true (setWindow c2 w none)) := by
  refine endsAt_of_finish h (show execSwopen w a b s = _ from rfl) ?_
  rw [readReg_some _ ha, readReg_some _ hb]
  exact if_pos h0

variable (h0 : vb ≠ 0)
include h0

theorem exec_swopen_misaligned (hm : va.toNat % 65536 ≠ 0 ∨ vb.toNat % 65536 ≠ 0) :
    exec (.swopen w a b) s =
      .next (raise s s.focus.cell { code := .align, unit := 1, word := coreWord (.swopen w a b) }) := by
  refine exec_of_trap (t := coreTrap .align 0) h (show execSwopen w a b s = _ from rfl) ?_
  rw [readReg_some _ ha, readReg_some _ hb]
  exact (if_neg h0).trans (if_pos hm)

variable (hm : ¬ (va.toNat % 65536 ≠ 0 ∨ vb.toNat % 65536 ≠ 0))
include hm

theorem exec_swopen_outside (ho : 2 ^ 57 ≤ va.toNat ∨ 2 ^ 57 < va.toNat + vb.toNat) :
    exec (.swopen w a b) s =
      .next (raise s s.focus.cell { code := .access, unit := 1, word := coreWord (.swopen w a b) }) := by
  refine exec_of_trap (t := coreTrap .access 0) h (show execSwopen w a b s = _ from rfl) ?_
  rw [readReg_some _ ha, readReg_some _ hb]
  exact (if_neg h0).trans ((if_neg hm).trans (if_pos (ho.imp_left (field_top_ne_zero_iff va).mpr)))

/-- A window opens with its mark at its base. -/
theorem exec_swopen_opens (hi : ¬ (2 ^ 57 ≤ va.toNat ∨ 2 ^ 57 < va.toNat + vb.toNat)) :
    EndsAt (.swopen w a b) s (advance true (setWindow c2 w (some ⟨va, vb, va⟩))) := by
  refine endsAt_of_finish h (show execSwopen w a b s = _ from rfl) ?_
  rw [readReg_some _ ha, readReg_some _ hb]
  exact (if_neg h0).trans ((if_neg hm).trans (if_neg (mt (Or.imp_left (field_top_ne_zero_iff va).mp) hi)))

end

/-- Settles O24: the three words, then the cases of each instruction in the order in which it checks them. -/
theorem streamWindows : Obligations.StreamWindows := by
  unfold Obligations.StreamWindows
  intro w a b s c h set_
  refine ⟨windowOpenWord _ _ _, windowAdvanceWord _ _, windowCloseWord _, exec_swclose h, fun va c1 ha =>
    ⟨exec_swadv_closed h ha, fun _ => exec_swadv_open h ha, fun vb c2 hb => ?_⟩⟩
  exact ⟨exec_swopen_zero h ha hb, exec_swopen_misaligned h ha hb,
    fun h0 alignedBase alignedLength => exec_swopen_outside h ha hb h0 (by omega),
    fun h0 alignedBase alignedLength below ends => exec_swopen_opens h ha hb h0 (by omega) (by omega)⟩

end Sys2Proof.Proofs
end
